-- ==== Sys2Proof/Word.lean ====
section
/-! DEFINITION. The plain words of the T840: sixteen-bit words, masks and numbers of its parts
(spec/00, "Device Quantities" and "Words and bits"). -/

namespace Sys2Proof

/-- A word is 16 bits; bit 0 is the least significant. -/
abbrev Word := BitVec 16

/-- A lane number, 0–7. A trigger line TGk has the number of the lane that emits on it. -/
abbrev LaneId := Fin 8

/-- A mask of lanes or of trigger lines: bit k names lane k, or TGk. -/
abbrev LaneMask := BitVec 8

/-- The output field OUT0–OUT31: bit k is OUTk. -/
abbrev LineField := BitVec 32

/-- The number of a digital input, IN0–IN15. -/
abbrev InputId := Fin 16

/-- The number of a Position Unit. -/
abbrev UnitId := Fin 2

/-- The number of a trip source: 0–3 are TRIP0–TRIP3 and 4 is SW (R142). -/
abbrev SourceId := Fin 5

/-- The lanes in ascending order. -/
abbrev allLanes : List LaneId := List.finRange 8

end Sys2Proof
end

