-- ==== Sys2Proof/Syntax.lean ====
section
/-! DEFINITION. The commands of the T840: one constructor of `Instr` for each row of spec/opcode_table.json.
Host commands carry the word the host writes, whole; events carry what names them. -/

namespace Sys2Proof

/-- The sense of an edge event (R119). -/
inductive Sense where
  | rising
  | falling
deriving DecidableEq, Repr

/-- The direction of a count (R125). -/
inductive Direction where
  | up
  | down
deriving DecidableEq, Repr

/-- The two channels of a quadrature pair. -/
inductive Channel where
  | a
  | b
deriving DecidableEq, Repr

/-- The registers of INPUT_SETTING_WRITE: IN_POL, or IN_FILTj with the counts of inputs 2j and 2j+1 (R116). -/
inductive InputSetting where
  | polarity
  | filter (pair : Fin 8)
deriving DecidableEq, Repr

/-- The registers of TB_DIV_PRE_WRITE (R186). -/
inductive TimebaseSetting where
  | div
  | pre
deriving DecidableEq, Repr

/-- SAFE_LO and SAFE_HI (R102). -/
inductive SafeHalf where
  | lo
  | hi
deriving DecidableEq, Repr

/-- A pin with a filter (R117): a digital input, a quadrature channel or a trip pin. -/
inductive FilteredPin where
  | input (n : InputId)
  | quadrature (unit : UnitId) (channel : Channel)
  | trip (n : Fin 4)
deriving DecidableEq, Repr

/-- The commands, in the order of the opcode table. -/
inductive Instr where
  /-- RECORD_READ (R10): the value written is the index. -/
  | recordRead (index : Word)
  /-- RECORD_WRITE (R11): the value written is the index. -/
  | recordWrite (index : Word)
  /-- LANE_START (R31, R32): a lane mask in bits 0–7. -/
  | laneStart (value : Word)
  /-- LANE_STOP (R36). -/
  | laneStop (value : Word)
  /-- LANE_HOLD (R33). -/
  | laneHold (value : Word)
  /-- LANE_RELEASE (R34). -/
  | laneRelease (value : Word)
  /-- LANE_RESET (R40). -/
  | laneReset (value : Word)
  /-- LANE_RESUME (R37, R38). -/
  | laneResume (value : Word)
  /-- LANE_STEP (R35). -/
  | laneStep (value : Word)
  /-- LANE_JUMP (R39): the offset in bits 0–8 and the lane in bits 12–14. -/
  | laneJump (value : Word)
  /-- LANE_LOAD (R41). -/
  | laneLoad (value : Word)
  /-- LANE_SWAP (R90). -/
  | laneSwap (value : Word)
  /-- LANE_CANCEL_SWAP (R91). -/
  | laneCancelSwap (value : Word)
  /-- LINE_ASSIGN (R104): the line in bits 0–4 and the lane in bits 8–10. -/
  | lineAssign (value : Word)
  /-- LINE_FREE (R105): the line in bits 0–4. -/
  | lineFree (value : Word)
  /-- POS_LOAD (R129): the unit in bit 0. -/
  | posLoad (value : Word)
  /-- POS_CLEAR (R130): bit k names unit k. -/
  | posClear (value : Word)
  /-- TRIGGER_EMIT (R135): bit n names TGn. -/
  | triggerEmit (value : Word)
  /-- TRIP_CONFIG (R143): the source in bits 0–2. -/
  | tripConfig (value : Word)
  /-- TRIP_ASSERT (R146): the value is ignored. -/
  | tripAssert (value : Word)
  /-- TRIP_CLEAR (R151): bit n names source n. -/
  | tripClear (value : Word)
  /-- JOB_COPY (R159): the value is ignored. -/
  | jobCopy (value : Word)
  /-- JOB_CHECK (R160): the value is ignored. -/
  | jobCheck (value : Word)
  /-- JOB_ABORT (R164): the value is ignored. -/
  | jobAbort (value : Word)
  /-- NOTICE_POP (R174): the value is ignored. -/
  | noticePop (value : Word)
  /-- DRIVE_EN (R103): a CONTROL write that gives DRIVE_EN this value. Log 12. -/
  | driveEn (on : Bool)
  /-- TB_RUN (R185): a CONTROL write that gives TB_RUN this value. Log 12. -/
  | tbRun (on : Bool)
  /-- NOTICE_IRQ_EN (R175): a CONTROL write that gives NOTICE_IRQ_EN this value. Log 12. -/
  | noticeIrqEn (on : Bool)
  /-- SOFT_RESET (R183): a CONTROL write with SOFT_RESET at 1; its other bits are not stored. -/
  | softReset
  /-- SAFE_LEVEL_WRITE (R102). -/
  | safeLevelWrite (half : SafeHalf) (value : Word)
  /-- INPUT_SETTING_WRITE (R118). -/
  | inputSettingWrite (setting : InputSetting) (value : Word)
  /-- POS_FILT_WRITE (R124, R128). -/
  | posFiltWrite (unit : UnitId) (value : Word)
  /-- TB_DIV_PRE_WRITE (R186). -/
  | tbDivPreWrite (setting : TimebaseSetting) (value : Word)
  /-- TB_COUNT_WRITE (R186). -/
  | tbCountWrite (value : Word)
  /-- PLAIN_REGISTER_WRITE (R178): a word address of the window and the value. -/
  | plainRegisterWrite (address : BitVec 8) (value : Word)
  /-- RESET_ASSERT (R184): RESET# goes low. -/
  | resetAssert
  /-- RESET_RELEASE (R184): RESET# returns high. -/
  | resetRelease
  /-- CLEAR_WRITE (R15): the power-on clear's access is served. -/
  | clearWrite
  /-- COPY_MOVE (R162): a COPY job's access is served. -/
  | copyMove
  /-- CHECK_READ (R163): a CHECK job's access is served. -/
  | checkRead
  /-- ENTRY_FETCH (R47): the fetch of this lane's entry is served. -/
  | entryFetch (lane : LaneId)
  /-- TICK (R185): a Timebase period ends. The lanes of `takers` take the tick within the step, in ascending
  order; the other lanes have it on its way. Log 9. -/
  | tick (takers : LaneMask)
  /-- DWELL_EXPIRY (R53): this lane takes the tick on its way to it, and its dwell expires. -/
  | dwellExpiry (lane : LaneId)
  /-- LIMIT_EXPIRY (R64): this lane takes the tick on its way to it, and its limit expires. -/
  | limitExpiry (lane : LaneId)
  /-- PULSE_END (R111): this lane takes the tick on its way to it, and its pulse ends. -/
  | pulseEnd (lane : LaneId)
  /-- INPUT_ACCEPTED_CHANGE (R117, R119): this input's filter count is reached. -/
  | inputAcceptedChange (input : InputId)
  /-- EDGE_EVENT (R122): this lane takes an edge event that was handed to it. -/
  | edgeEvent (lane : LaneId) (input : InputId) (sense : Sense)
  /-- QUADRATURE_CHANGE (R125): this channel's filter count is reached. -/
  | quadratureChange (unit : UnitId) (channel : Channel)
  /-- ARRIVAL (R126): this lane takes an arrival that was handed to it. -/
  | arrival (lane : LaneId) (unit : UnitId) (value : Word) (direction : Direction)
  /-- EMISSION (R136): this lane takes an emission that was handed to it. -/
  | emission (lane : LaneId) (line : LaneId)
  /-- TRIP_ACCEPTED_CHANGE (R144): this trip pin's filter count is reached. -/
  | tripAcceptedChange (source : Fin 4)
  /-- TRIP_FORCING (R27): this lane takes a forcing that reached it during an entry. -/
  | tripForcing (lane : LaneId) (source : SourceId)
  /-- PRESENTED_LEVEL_CHANGE (R117): the pin takes this raw level. -/
  | presentedLevelChange (pin : FilteredPin) (level : Bool)
deriving DecidableEq, Repr

end Sys2Proof
end

