-- ==== Sys2Proof/Decode.lean ====
section
/-! DEFINITION. The rows of spec/opcode_table.json give no bits, so no word spells a command: the T840 takes its
commands from registers, pins and its own units, not from an instruction stream. -/

namespace Sys2Proof

/-- The command that the table's bits spell. No row gives bits. -/
def decodeTableWord (_nbits _w : Nat) : Option Instr := none

end Sys2Proof
end

