-- ==== Sys2Proof/Config.lean ====
section
/-! DEFINITION. What the part fixes (spec/00, "Device Quantities") and the one free value of the model. -/

namespace Sys2Proof.Config

/-- The step table holds 512 records (R1). -/
def tableSize : Nat := 512

/-- A lane's repeat stack holds at most 4 frames (R76). -/
def stackDepth : Nat := 4

/-- Below this number of records held an arriving notice is appended (R170). -/
def queueRoom : Nat := 63

/-- The largest count of a LOST record (R170). -/
def lostMax : Nat := 255

/-- Counts that saturate stay at this value (R22). -/
def countMax : Nat := 65535

/-- A filter count is in units of 16 core clock periods (R117). -/
def filterUnit : Nat := 16

/-- The identification word (R181). -/
def idWord : Word := 0x0840#16

/-- FREE VALUE. Which of several events is taken next where the spec says that either order may occur
(R28, R65, R123, R136, R140), and whether an access of a table job is being served when a soft reset is taken (R166): the
n-th such choice. Nothing about it can be proved. Log 3. -/
opaque pick : Nat → Nat

end Sys2Proof.Config
end

