-- ==== Sys2Proof/Machine/State.lean ====
section
/-! DEFINITION. The state of the T840: everything the spec's blocks hold, as plain data (spec/00, "Block Overview"),
the events on their way between blocks, and the queue of commands that wait. -/

namespace Sys2Proof.Machine

/-! ## Step records (spec/01) -/

/-- A step record: ten words, word n of the layout of section 1.2 being `wn` (R1, R2). -/
structure Record where
  w0 : Word
  w1 : Word
  w2 : Word
  w3 : Word
  w4 : Word
  w5 : Word
  w6 : Word
  w7 : Word
  w8 : Word
  w9 : Word
deriving DecidableEq, Repr

/-- The zero record (R5). -/
def Record.zero : Record := ⟨0, 0, 0, 0, 0, 0, 0, 0, 0, 0⟩

/-! ## Descriptors (R18, R20) -/

inductive EndAction where
  | stop
  | wrap
deriving DecidableEq, Repr

inductive FaultPolicy where
  | safe
  | hold
deriving DecidableEq, Repr

inductive SwapBoundary where
  | nextStep
  | sequenceEnd
deriving DecidableEq, Repr

/-- What a LANE_START leads to (R18): COMMAND, a trigger line, or an edge of an input. -/
inductive StartSource where
  | command
  | trigger (line : LaneId)
  | edge (input : InputId) (sense : Sense)
deriving DecidableEq, Repr

/-- A lane descriptor: the ten fields of R18. -/
structure Descriptor where
  base : Nat
  length : Nat
  preset : Nat
  endAction : EndAction
  cycleLimit : Nat
  startSource : StartSource
  faultPolicy : FaultPolicy
  emitOnEnd : Bool
  emitOnFault : Bool
  swapBoundary : SwapBoundary
deriving DecidableEq, Repr

/-- The power-on values of R18. -/
def Descriptor.powerOn : Descriptor :=
  ⟨0, 1, 0, .stop, 0, .command, .safe, false, false, .nextStep⟩

/-- The staging descriptor as its five plain registers (R20, R179); bits without a field are stored (R178). -/
structure Staging where
  base : Word
  length : Word
  preset : Word
  cycles : Word
  mode : Word
deriving DecidableEq, Repr

/-! ## Lanes (R22) -/

inductive LaneState where
  | idle
  | armed
  | running
  | held
  | done
  | faulted
  | tripped
deriving DecidableEq, Repr

inductive FaultCause where
  | limit
  | badStep
  | stackOver
  | stackUnder
  | unbalanced
deriving DecidableEq, Repr

/-- The states a lane can have been in when it was forced to TRIPPED (R22, R27). -/
inductive PriorState where
  | armed
  | running
  | held
  | done
  | faulted
deriving DecidableEq, Repr

/-- The result codes (R180). -/
inductive Result where
  | taken
  | state
  | range
  | tripped
  | busy
  | pending
  | owned
  | active
  | empty
deriving DecidableEq, Repr

/-- The entry causes (R46). -/
inductive EntryCause where
  | start
  | advance
  | repeated
  | wrap
  | skip
  | divert
  | resume
  | release
  | swap
deriving DecidableEq, Repr

/-- A repeat frame (R77). -/
structure Frame where
  head : Nat
  passes : Nat
deriving DecidableEq, Repr

/-- A pulse in flight (R110). -/
structure Pulse where
  line : Fin 32
  ticks : Nat
deriving DecidableEq, Repr

/-- An event that another block hands to a lane (R26, R147). -/
inductive Event where
  | tick
  | edge (input : InputId) (sense : Sense)
  | arrival (unit : UnitId) (value : Word) (direction : Direction)
  | emission (line : LaneId)
  | forcing (source : SourceId)
deriving DecidableEq, Repr

/-- An entry whose fetch waits on the Table Controller (R12, R28, R46): a full entry or a re-entry, and its cause.
The offset entered is the active offset (R47). `passed` holds once an access of the table job has been served while the
fetch waited (R161). `bridged` is the line of a pulse that ended at the tick that led to the entry, which stays inverted
until the entry is complete (R108, R113; log 30). `event` is the emission or the starting edge whose taking led to the
entry, and `turn` the lane's place among the lanes that took it: their entries follow in that order (R123, R136; log 35). -/
structure Entry where
  full : Bool
  cause : EntryCause
  passed : Bool := false
  bridged : Option (Fin 32) := none
  event : Option Event := none
  turn : Nat := 0
deriving DecidableEq, Repr

/-- A lane: its descriptor in force and its runtime context (R18, R22). `copy` holds the current-step copy and, by
its presence, the entered flag (R22, R23; log 15). `stack` has the newest frame first. `entry`, `kept` and `coming`
are the entry in progress, the events that reached the lane during it, in order (R28), and the events handed to the
lane that it has not taken (R119, R126, R136). -/
structure Lane where
  descriptor : Descriptor
  state : LaneState
  active : Nat
  copy : Option Record
  pattern : LineField
  dwell : Nat
  limit : Option Nat
  latch : Bool
  edges : Nat
  cycles : Nat
  stack : List Frame
  swap : Option Descriptor
  pulse : Option Pulse
  faultCause : Option FaultCause
  prior : Option PriorState
  lastResult : Result
  entry : Option Entry
  kept : List Event
  coming : List Event
deriving DecidableEq, Repr

/-- A lane with this descriptor in force in the context of R42: IDLE at PRESET with its walk cleared. -/
def Lane.fresh (d : Descriptor) : Lane where
  descriptor := d
  state := .idle
  active := d.preset
  copy := none
  pattern := 0
  dwell := 0
  limit := none
  latch := false
  edges := 0
  cycles := 0
  stack := []
  swap := none
  pulse := none
  faultCause := none
  prior := none
  lastResult := .taken
  entry := none
  kept := []
  coming := []

/-! ## Inputs and Position Units (R116, R124) -/

/-- The Input Conditioner, and the levels of the pins it watches. IN_FILTj is word j of `filters`. -/
structure Inputs where
  pins : BitVec 16
  polarity : Word
  filters : Vector Word 8
  accepted : BitVec 16
  acceptance : Vector (Option Nat) 16
deriving DecidableEq, Repr

/-- One quadrature channel: its pin, its accepted level and its acceptance in progress (R124). -/
structure QuadChannel where
  pin : Bool
  accepted : Bool
  acceptance : Option Nat
deriving DecidableEq, Repr

/-- A Position Unit (R124). The reference state is the pair of accepted levels (R131; log 15). -/
structure PositionUnit where
  filter : Word
  a : QuadChannel
  b : QuadChannel
  counter : Word
  error : Bool
  lastDirection : Option Direction
deriving DecidableEq, Repr

/-! ## The Trip Unit (R142) -/

/-- A trip source. For SW the fields after `latch` are not used and keep their power-on values (R142). -/
structure TripSource where
  enable : Bool
  scope : LaneMask
  latch : Bool
  activeLow : Bool
  filter : BitVec 8
  pin : Bool
  active : Bool
  acceptance : Option Nat
deriving DecidableEq, Repr

/-- The setting of a latch whose TRIP notice is not yet raised (R147): the lanes that keep the forcing until their
entry is complete, and the lanes it has moved to TRIPPED. -/
structure Setting where
  source : SourceId
  left : LaneMask
  moved : LaneMask
deriving DecidableEq, Repr

/-! ## Table jobs (R157) -/

inductive JobKind where
  | clear
  | copy
  | check
deriving DecidableEq, Repr

inductive JobState where
  | idle
  | running
  | done
  | aborted
deriving DecidableEq, Repr

structure Job where
  kind : JobKind
  source : Nat
  destination : Nat
  count : Nat
  progress : Nat
  state : JobState
  crc : Word
deriving DecidableEq, Repr

/-- The power-on clear's context (R15). -/
def Job.powerOnClear : Job := ⟨.clear, 0, 0, 512, 0, .running, 0⟩

/-! ## Notices (R168, R169) -/

inductive EndOutcome where
  | wrap
  | done
deriving DecidableEq, Repr

inductive FaultAction where
  | halt
  | skip
  | divert
deriving DecidableEq, Repr

inductive SwapOccasion where
  | entry
  | endOfRange
  | stop
deriving DecidableEq, Repr

inductive HostJob where
  | copy
  | check
deriving DecidableEq, Repr

inductive JobOutcome where
  | done
  | aborted
deriving DecidableEq, Repr

/-- What a notice says: its kind, and the lane, the step offset and the detail that its kind carries (R169). -/
inductive NoticeBody where
  | step (lane : LaneId) (offset : Nat) (cause : EntryCause)
  | rangeEnd (lane : LaneId) (offset : Nat) (outcome : EndOutcome) (cycles : Nat)
  | fault (lane : LaneId) (offset : Nat) (cause : FaultCause) (action : FaultAction)
  | swap (lane : LaneId) (offset : Nat) (boundary : SwapBoundary) (occasion : SwapOccasion)
  | trip (source : SourceId) (moved : LaneMask)
  | position (unit : UnitId)
  | job (kind : HostJob) (outcome : JobOutcome) (progress : Nat)
  | lost (count : Nat)
deriving DecidableEq, Repr

/-- A notice record: what it says, and the tick counter when it was stored (R168, R171). -/
structure Notice where
  body : NoticeBody
  stamp : Word
deriving DecidableEq, Repr

/-- Who hands several notices to the Notice Queue one after another (R172). -/
inductive Sender where
  | lane (k : LaneId)
  | tripUnit
deriving DecidableEq, Repr

/-! ## The Timebase (R185) -/

/-- A period in progress: its length, as DIV and PRE stood when it began, and the core clock periods gone by. -/
structure Period where
  length : Nat
  elapsed : Nat
deriving DecidableEq, Repr

structure Timebase where
  div : Word
  pre : BitVec 2
  running : Bool
  period : Option Period
  counter : Word
deriving DecidableEq, Repr

/-! ## The whole part -/

/-- The state of the T840. -/
structure State where
  /-- The step table: (index, record) pairs, indices rising, no zero record listed (R1; log 10). -/
  table : List (Nat × Record)
  /-- BUF0–BUF9 (R9). -/
  buffer : Record
  /-- The table job context (R157). -/
  job : Job
  /-- The eight lanes (R18, R22). -/
  lanes : Vector Lane 8
  /-- The owner of each output line (R101). -/
  owners : Vector (Option LaneId) 32
  /-- The safe levels, SAFE_LO in the low half (R102). -/
  safeLevels : LineField
  /-- Drive enable (R103). -/
  driveEnable : Bool
  /-- The Input Conditioner (R116). -/
  inputs : Inputs
  /-- The Position Units (R124). -/
  units : Vector PositionUnit 2
  /-- POS_ARG (R129). -/
  posArg : Word
  /-- The trip sources (R142). -/
  trips : Vector TripSource 5
  /-- Latch settings whose notice is not yet raised, oldest first (R147, R148). -/
  settings : List Setting
  /-- TRIP_REFUSED (R151). -/
  tripRefused : BitVec 5
  /-- TRIP_ARG0 (R143). -/
  tripArg0 : Word
  /-- TRIP_ARG1 (R143). -/
  tripArg1 : Word
  /-- JOB_ARG_SRC (R158). -/
  jobArgSrc : Word
  /-- JOB_ARG_DST (R158). -/
  jobArgDst : Word
  /-- JOB_ARG_COUNT (R158). -/
  jobArgCount : Word
  /-- The notice queue, oldest first (R170). -/
  queue : List Notice
  /-- Notices raised behind another of the same act, each with its sender, that have not reached the queue, in the order in
  which they were raised (R172; log 4, log 29). -/
  late : List (Sender × NoticeBody)
  /-- NOTICE_IRQ_EN (R175). -/
  irqEnable : Bool
  /-- The Timebase (R185). -/
  timebase : Timebase
  /-- An accepted change of the core clock period in progress has been made, so that its comparison of the levels is past
  (R117, R128; log 23). -/
  compared : Bool
  /-- The pins whose polarity or filter count was written in the core clock period in progress: they are compared next in
  the period that follows (R118, R128, R143; log 23). -/
  restarted : List FilteredPin
  /-- The staging descriptor (R20). -/
  staging : Staging
  /-- CMD_RESULT (R180). -/
  cmdResult : Result
  /-- CMD_REFUSED (R29). -/
  cmdRefused : LaneMask
  /-- LANE_SEL (R45). -/
  laneSel : BitVec 3
  /-- RESET# is low (R184). -/
  resetLow : Bool
  /-- MODEL'S OWN: trigger lines on which the step in hand has emitted, oldest first, not yet handed to the lanes.
  Empty between steps. -/
  outbox : List LaneId
  /-- MODEL'S OWN: how many free choices of order have been made (log 3, log 29). -/
  picks : Nat
  /-- MODEL'S OWN: the pin moves at the front of the queue that have fallen within a host write, before their commands
  (log 37). -/
  early : List (FilteredPin × Bool)
  /-- The commands that wait, first in, first out. -/
  pending : List Instr
deriving DecidableEq, Repr

/-- The part right after the release of RESET#, with every pin low (R15, R42, R101, R103, R116, R121, R132, R142,
R154, R158, R176, R179, R185; the table's contents: log 10; the pins' levels: log 11). -/
def State.reset : State where
  table := []
  buffer := .zero
  job := .powerOnClear
  lanes := .replicate 8 (.fresh .powerOn)
  owners := .replicate 32 none
  safeLevels := 0
  driveEnable := false
  inputs := ⟨0, 0, .replicate 8 0, 0, .replicate 16 none⟩
  units := .replicate 2 ⟨0, ⟨false, false, none⟩, ⟨false, false, none⟩, 0, false, none⟩
  posArg := 0
  trips := .replicate 5 ⟨false, 0, false, false, 0, false, false, none⟩
  settings := []
  tripRefused := 0
  tripArg0 := 0
  tripArg1 := 0
  jobArgSrc := 0
  jobArgDst := 0
  jobArgCount := 0
  queue := []
  late := []
  irqEnable := false
  timebase := ⟨0, 0, false, none, 0⟩
  compared := false
  restarted := []
  staging := ⟨0, 1, 0, 0, 0⟩
  cmdResult := .taken
  cmdRefused := 0
  laneSel := 0
  resetLow := false
  outbox := []
  picks := 0
  early := []
  pending := []

/-- The reasons for which a step stops with a fault: none. No command of the T840 stops it; its faults are states of
lanes, notices and result codes (R75, R180). -/
inductive Fault
deriving DecidableEq, Repr

/-- The reasons for which a command is refused by the model. -/
inductive Refusal where
  /-- The command has no meaning in the model yet. Raised by no arm of `exec`: every row has its meaning. Safe: the
  model would stop where the part goes on. -/
  | notModelled (mnemonic : String)
deriving DecidableEq, Repr

end Sys2Proof.Machine
end

