-- ==== Sys2Proof/Machine/Operands.lean ====
section
/-! DEFINITION. The fields of the formats the host writes: step records (R2, R3, R4), the staging descriptor (R18, R21,
R179) and the values of the command registers (R29, R39, R104, R129, R143). -/

namespace Sys2Proof.Machine

/-! ## Words -/

/-- The field of a word that begins at bit `low` and is `width` bits wide, as a number. -/
def wordField (w : Word) (low width : Nat) : Nat := (w.toNat >>> low) % 2 ^ width

/-- Bit 0–7 of a value written: a lane mask, or a mask of trigger lines (R29, R135). -/
def maskOf (value : Word) : LaneMask := value.setWidth 8

/-- The number in the three bits of a value that begin at bit `low`, as a lane. -/
def laneAt (value : Word) (low : Nat) : LaneId := Fin.ofNat 8 (wordField value low 3)

/-- The line number in bits 0–4 of LINE_ASSIGN and LINE_FREE (R104, R105). -/
def lineOf (value : Word) : Fin 32 := Fin.ofNat 32 (wordField value 0 5)

/-- The unit number in bit 0 of POS_LOAD (R129). -/
def unitOf (value : Word) : UnitId := Fin.ofNat 2 (wordField value 0 1)

/-- The offset in bits 0–8 of LANE_JUMP (R39). -/
def jumpOffset (value : Word) : Nat := wordField value 0 9

/-! ## Step records -/

/-- The advance conditions (R3, R56). -/
inductive Kind where
  | time
  | input
  | edge
  | position
  | trigger
  | command
deriving DecidableEq, Repr

/-- The repeat roles (R3). -/
inductive LoopRole where
  | none
  | mark
  | tail
  | self
deriving DecidableEq, Repr

/-- The edge senses of an EDGE step (R3). -/
inductive EdgeSense where
  | rising
  | falling
  | both
deriving DecidableEq, Repr

/-- The directions of a POSITION step (R3). -/
inductive Approach where
  | up
  | down
  | either
deriving DecidableEq, Repr

/-- PATTERN: words 0 and 1, bit k for OUTk (R2). -/
def Record.pattern (r : Record) : LineField := r.w1 ++ r.w0

/-- DWELL as the commit loads it: 0 acts as 1 (R4, R49). -/
def Record.dwellTicks (r : Record) : Nat := max 1 r.w2.toNat

/-- LIMIT as the commit loads it: 0 sets none (R4, R49). -/
def Record.limitTicks (r : Record) : Option Nat := if r.w3 = 0 then Option.none else some r.w3.toNat

/-- KIND, or none for the invalid codes 6 and 7 (R3). -/
def Record.kind (r : Record) : Option Kind :=
  match wordField r.w4 0 3 with
  | 0 => some .time
  | 1 => some .input
  | 2 => some .edge
  | 3 => some .position
  | 4 => some .trigger
  | 5 => some .command
  | _ => Option.none

/-- SEL, a plain number 0–31 (R3). -/
def Record.sel (r : Record) : Nat := wordField r.w4 3 5

/-- LOOP (R3); code 2, REPEAT, is `tail`. -/
def Record.loop (r : Record) : LoopRole :=
  match wordField r.w4 8 2 with
  | 0 => .none
  | 1 => .mark
  | 2 => .tail
  | _ => .self

/-- REPORT (R2). -/
def Record.report (r : Record) : Bool := r.w4.getLsbD 10

/-- EMIT (R2). -/
def Record.emit (r : Record) : Bool := r.w4.getLsbD 11

/-- ONFAULT, or none for the invalid code 3 (R3). -/
def Record.onFault (r : Record) : Option FaultAction :=
  match wordField r.w4 12 2 with
  | 0 => some .halt
  | 1 => some .skip
  | 2 => some .divert
  | _ => Option.none

/-- PULSE (R2). -/
def Record.pulse (r : Record) : Bool := r.w4.getLsbD 14

/-- ARG_A (R2). -/
def Record.argA (r : Record) : Word := r.w5

/-- ARG_B (R2). -/
def Record.argB (r : Record) : Word := r.w6

/-- The edge sense in bits 0–1 of ARG_A, or none for the invalid code 3 (R3). -/
def Record.edgeSense (r : Record) : Option EdgeSense :=
  match wordField r.w5 0 2 with
  | 0 => some .rising
  | 1 => some .falling
  | 2 => some .both
  | _ => Option.none

/-- The direction in bits 0–1 of ARG_A, or none for the invalid code 3 (R3). -/
def Record.approach (r : Record) : Option Approach :=
  match wordField r.w5 0 2 with
  | 0 => some .up
  | 1 => some .down
  | 2 => some .either
  | _ => Option.none

/-- LOOPCOUNT (R2). -/
def Record.loopCount (r : Record) : Nat := wordField r.w7 0 8

/-- DIVERT (R2). -/
def Record.divert (r : Record) : Nat := wordField r.w8 0 9

/-- PULSE_LINE (R2). -/
def Record.pulseLine (r : Record) : Fin 32 := Fin.ofNat 32 (wordField r.w8 11 5)

/-- PULSE_WIDTH as the commit uses it: 0 acts as 1 (R4, R49). -/
def Record.pulseTicks (r : Record) : Nat := max 1 r.w9.toNat

/-- A loop head: LOOP is MARK or SELF (R47, R78). -/
def Record.isHead (r : Record) : Bool := r.loop = .mark || r.loop = .self

/-- A loop tail: LOOP is REPEAT or SELF (R67). -/
def Record.isTail (r : Record) : Bool := r.loop = .tail || r.loop = .self

/-- The KIND, SEL and ARG_A part of the check of R7. -/
def Record.conditionValid (r : Record) : Bool :=
  match r.kind with
  | Option.none => false
  | some .edge => r.sel < 16 && r.edgeSense.isSome
  | some .position => r.sel < 2 && r.approach.isSome
  | some .trigger => r.sel < 8
  | some .time | some .input | some .command => true

/-- The check of R7 against the LENGTH of the descriptor in force at the entry. -/
def Record.validFor (r : Record) (length : Nat) : Bool :=
  r.conditionValid &&
  r.onFault.isSome &&
  !(r.isHead && r.loopCount == 0) &&
  !(r.onFault == some .divert && length ≤ r.divert)

/-- RISING matches RISING, FALLING matches FALLING, BOTH matches either (R122). -/
def EdgeSense.admits : EdgeSense → Sense → Bool
  | .rising, s => s = .rising
  | .falling, s => s = .falling
  | .both, _ => true

/-- UP allows UP, DOWN allows DOWN, EITHER allows both (R126). -/
def Approach.admits : Approach → Direction → Bool
  | .up, d => d = .up
  | .down, d => d = .down
  | .either, _ => true

/-- Word n of a record, in the order of BUF0–BUF9 (R9). -/
def Record.word (r : Record) : Nat → Word
  | 0 => r.w0
  | 1 => r.w1
  | 2 => r.w2
  | 3 => r.w3
  | 4 => r.w4
  | 5 => r.w5
  | 6 => r.w6
  | 7 => r.w7
  | 8 => r.w8
  | 9 => r.w9
  | _ => 0

/-- A record with word n replaced and the other nine kept (R9). -/
def Record.setWord (r : Record) (n : Nat) (v : Word) : Record :=
  match n with
  | 0 => { r with w0 := v }
  | 1 => { r with w1 := v }
  | 2 => { r with w2 := v }
  | 3 => { r with w3 := v }
  | 4 => { r with w4 := v }
  | 5 => { r with w5 := v }
  | 6 => { r with w6 := v }
  | 7 => { r with w7 := v }
  | 8 => { r with w8 := v }
  | 9 => { r with w9 := v }
  | _ => r

/-- The ten words of a record in order (R163). -/
def Record.words (r : Record) : List Word :=
  [r.w0, r.w1, r.w2, r.w3, r.w4, r.w5, r.w6, r.w7, r.w8, r.w9]

/-! ## The staging descriptor -/

/-- START_SOURCE of STG_MODE: its kind in bits 8–9 and its number in bits 10–14, or none where R21 calls it invalid. -/
def Staging.startSource (g : Staging) : Option StartSource :=
  let n := wordField g.mode 10 5
  match wordField g.mode 8 2 with
  | 0 => some .command
  | 1 => if n < 8 then some (.trigger (Fin.ofNat 8 n)) else none
  | 2 => if n < 16 then some (.edge (Fin.ofNat 16 n) .rising) else none
  | _ => if n < 16 then some (.edge (Fin.ofNat 16 n) .falling) else none

/-- The range part of the check of R21. -/
def Staging.rangeValid (g : Staging) : Bool :=
  g.base.toNat < 512 && 0 < g.length.toNat && g.length.toNat ≤ 512 &&
  g.base.toNat + g.length.toNat ≤ 512 && g.preset.toNat < g.length.toNat

/-- The descriptor that the staging registers hold, or none when it is invalid under R21 (R20, R179). -/
def Staging.image (g : Staging) : Option Descriptor :=
  if g.rangeValid then
    g.startSource.map fun source =>
      { base := g.base.toNat
        length := g.length.toNat
        preset := g.preset.toNat
        endAction := if g.mode.getLsbD 0 then .wrap else .stop
        cycleLimit := g.cycles.toNat
        startSource := source
        faultPolicy := if g.mode.getLsbD 1 then .hold else .safe
        emitOnEnd := g.mode.getLsbD 2
        emitOnFault := g.mode.getLsbD 3
        swapBoundary := if g.mode.getLsbD 4 then .sequenceEnd else .nextStep }
  else none

/-! ## Filter settings -/

/-- The filter count of input n: bits 0–7 of IN_FILTj for an even input 2j, bits 8–15 for 2j + 1 (R116). -/
def Inputs.filterCount (i : Inputs) (n : InputId) : Nat :=
  wordField (i.filters[n.val / 2]'(by omega)) (8 * (n.val % 2)) 8

/-- The presented level of input n: the pin level, inverted when its polarity is INVERTED (R117). -/
def Inputs.presented (i : Inputs) (n : InputId) : Bool := i.pins.getLsbD n ^^ i.polarity.getLsbD n

/-- The filter count of a Position Unit: bits 0–7 of POS_FILTk (R124). -/
def PositionUnit.filterCount (u : PositionUnit) : Nat := wordField u.filter 0 8

/-- A channel of a Position Unit. -/
def PositionUnit.channel (u : PositionUnit) : Channel → QuadChannel
  | .a => u.a
  | .b => u.b

/-- The presented level of a trip source: the pin level with the polarity applied (R144). -/
def TripSource.presented (t : TripSource) : Bool := t.pin ^^ t.activeLow

/-- The prescale of a TB_PRE code (R179). -/
def prescaleOf (code : BitVec 2) : Nat :=
  match code.toNat with
  | 0 => 1
  | 1 => 16
  | 2 => 256
  | _ => 4096

/-- The length of a period that begins now: (DIV + 1) × PRE core clock periods (R185). -/
def Timebase.nextLength (t : Timebase) : Nat := (t.div.toNat + 1) * prescaleOf t.pre

end Sys2Proof.Machine
end

