-- ==== Sys2Proof/Machine/Ops.lean ====
section
/-! DEFINITION. The operations over the T840's storage that the meanings share: the step table, the lanes, the notice
queue, the trigger emissions and the result registers. -/

namespace Sys2Proof.Machine

/-! ## The step table (R1, R12; log 10) -/

/-- The record at an index; an index that is not listed reads as the zero record. -/
def Memory.read : List (Nat × Record) → Nat → Record
  | [], _ => .zero
  | (j, r) :: rest, i => if i = j then r else Memory.read rest i

/-- Puts a record at an index of a list in canonical form: a zero record is not listed. -/
def Memory.place : List (Nat × Record) → Nat → Record → List (Nat × Record)
  | [], i, r => if r = .zero then [] else [(i, r)]
  | (j, x) :: rest, i, r =>
    if i < j then if r = .zero then (j, x) :: rest else (i, r) :: (j, x) :: rest
    else if i = j then if r = .zero then rest else (i, r) :: rest
    else (j, x) :: Memory.place rest i r

/-- Replaces the record at an index whole. The table has no index above 511 (R1). -/
def Memory.write (t : List (Nat × Record)) (i : Nat) (r : Record) : List (Nat × Record) :=
  if i < Config.tableSize then Memory.place t i r else t

/-- The canonical form: indices strictly rising and within the table, no zero record listed. -/
abbrev Memory.wf (t : List (Nat × Record)) : Prop :=
  t.Pairwise (fun x y => x.1 < y.1) ∧ ∀ e ∈ t, e.1 < Config.tableSize ∧ e.2 ≠ Record.zero

/-! ## Lanes -/

/-- The lanes of a mask, in ascending order. -/
def lanesOf (mask : LaneMask) : List LaneId := allLanes.filter fun k => mask.getLsbD k

def State.lane (s : State) (k : LaneId) : Lane := s.lanes[k.val]

def State.setLane (s : State) (k : LaneId) (l : Lane) : State := { s with lanes := s.lanes.set k.val l }

/-- Changes one lane. -/
def State.onLane (s : State) (k : LaneId) (f : Lane → Lane) : State := s.setLane k (f (s.lane k))

/-- Changes every lane on its own. -/
def State.onLanes (s : State) (f : LaneId → Lane → Lane) : State :=
  { s with lanes := Vector.ofFn fun k => f k (s.lane k) }

/-- The entered flag (R22, R23; log 15). -/
def Lane.entered (l : Lane) : Bool := l.copy.isSome

/-- Sets entered to no: the copy is discarded and the step timers and condition state are cleared (R22, R23). -/
def Lane.unenter (l : Lane) : Lane :=
  { l with copy := none, dwell := 0, limit := none, latch := false, edges := 0 }

/-- Edges, arrivals and emissions, which no lane remembers that does not take them (R26, R119, R126, R133). Ticks and
forcings are the others. -/
def Event.passing : Event → Bool
  | .edge _ _ | .arrival _ _ _ | .emission _ => true
  | .tick | .forcing _ => false

/-- The edges, arrivals and emissions on their way to the lane do not reach it any more: it comes to a state in which it
takes none (R26, R133, R139; log 7). -/
def Lane.forget (l : Lane) : Lane := { l with coming := l.coming.filter fun e => !e.passing }

/-- The lane is not in the middle of an entry and no event waits from one (R28). -/
def Lane.free (l : Lane) : Bool := l.entry.isNone && l.kept.isEmpty

/-! ## Filtered pins (R117) -/

/-- The pins with a filter. -/
def filteredPins : List FilteredPin :=
  (List.finRange 16).map .input ++
  ((List.finRange 2).flatMap fun u => [.quadrature u .a, .quadrature u .b]) ++
  (List.finRange 4).map .trip

/-- The filters of these pins begin afresh: a write has changed their setting, and the comparison under it is that of the next
core clock period (R118, R128, R143; log 23). -/
def State.restart (s : State) (changed : FilteredPin → Bool) : State :=
  { s with restarted := filteredPins.filter fun pin => s.restarted.contains pin || changed pin }

/-! ## Notices (R170, R171) -/

/-- The queue after one arrival, stamped with the tick counter (R170). -/
def Queue.arrive (q : List Notice) (body : NoticeBody) (stamp : Word) : List Notice :=
  if q.length < Config.queueRoom then q ++ [⟨body, stamp⟩]
  else match q.getLast? with
    | some ⟨.lost n, st⟩ => q.dropLast ++ [⟨.lost (min Config.lostMax (n + 1)), st⟩]
    | _ => q ++ [⟨.lost 1, stamp⟩]

/-- A block hands a notice to the Notice Queue. -/
def State.raise (s : State) (body : NoticeBody) : State :=
  { s with queue := Queue.arrive s.queue body s.timebase.counter }

/-- The queue after several arrivals with one stamp. -/
def Queue.arriveAll (q : List Notice) (bodies : List NoticeBody) (stamp : Word) : List Notice :=
  bodies.foldl (fun q body => Queue.arrive q body stamp) q

/-- The notices that a sender has on their way to the queue, oldest first. -/
def State.lateOf (s : State) (x : Sender) : List NoticeBody := (s.late.filter fun n => n.1 = x).map Prod.snd

/-- The notices that a sender has on their way reach the queue. -/
def State.arriveFrom (s : State) (x : Sender) : State :=
  { s with
    queue := Queue.arriveAll s.queue (s.lateOf x) s.timebase.counter
    late := s.late.filter fun n => n.1 ≠ x }

/-- A lane or the Trip Unit hands a notice to the Notice Queue, behind those it has on their way (R172). -/
def State.raiseFrom (s : State) (x : Sender) (body : NoticeBody) : State := (s.arriveFrom x).raise body

/-- The same of several notices, in order. -/
def State.raiseAll (s : State) (x : Sender) (bodies : List NoticeBody) : State :=
  bodies.foldl (fun s body => s.raiseFrom x body) s

/-- A lane hands a notice to the Notice Queue when it is asked for. -/
def State.raiseWhen (s : State) (asked : Bool) (k : LaneId) (body : NoticeBody) : State :=
  if asked then s.raiseFrom (.lane k) body else s

/-- Replaces the notices that have been stored and those that are on their way. -/
def State.withNotices (s : State) (queue : List Notice) (late : List (Sender × NoticeBody)) : State :=
  { s with queue := queue, late := late }

/-- These notices of a sender are on their way, behind those that are so already (R172). -/
def State.send (s : State) (x : Sender) (bodies : List NoticeBody) : State :=
  s.withNotices s.queue (s.late ++ bodies.map fun body => (x, body))

/-- The first of these notices, which one act has raised, reaches the queue, and the others are on their way behind it
(R172). -/
def State.raiseApart (s : State) (x : Sender) : List NoticeBody → State
  | [] => s
  | first :: others => (s.raiseFrom x first).send x others

/-- A lane raises this notice within an entry: the STEP notice of a commit, or the FAULT notice of an entry fault (R28, R49,
R51). -/
def NoticeBody.ofEntry : NoticeBody → Bool
  | .step _ _ _ => true
  | .fault _ _ cause _ => cause = .badStep || cause = .stackOver
  | .rangeEnd _ _ _ _ | .swap _ _ _ _ | .trip _ _ | .position _ | .job _ _ _ | .lost _ => false

/-- A TRIP notice that names a lane reaches the queue behind the notices that this lane has raised within its entries (R147;
log 39): it waits while one of them is on its way. No other notice waits so. -/
def State.tripWaits (s : State) : NoticeBody → Bool
  | .trip _ moved => allLanes.any fun k => moved.getLsbD k && (s.lateOf (.lane k)).any NoticeBody.ofEntry
  | .step _ _ _ | .rangeEnd _ _ _ _ | .fault _ _ _ _ | .swap _ _ _ _ | .position _ | .job _ _ _ | .lost _ => false

/-- The Trip Unit raises these notices: the first of them reaches the queue and the others are on their way behind it (R172),
but that all are on their way where one of them, or one before them, has to wait (R147). -/
def State.raiseTripNotices (s : State) (bodies : List NoticeBody) : State :=
  if (s.lateOf .tripUnit ++ bodies).any s.tripWaits then s.send .tripUnit bodies else s.raiseApart .tripUnit bodies

/-- The oldest of the notices that a sender has on their way can reach the queue next (R147, R172). -/
def State.canArrive (s : State) : Sender → Bool
  | .lane k => !(s.lateOf (.lane k)).isEmpty
  | .tripUnit => (s.lateOf .tripUnit).head?.any fun body => !s.tripWaits body

/-- What an act makes of the state, but for the notices that it raises, and these notices. -/
def withheld (act : State → State) (s : State) : State × List NoticeBody :=
  let t := act (s.withNotices [] [])
  (t.withNotices s.queue s.late, t.queue.map Notice.body)

/-- The oldest of the notices that a sender has on their way reaches the queue. -/
def State.arriveNext (s : State) (x : Sender) : State :=
  match s.late.find? fun n => n.1 = x with
  | none => s
  | some n => ({ s with late := s.late.erase n }).raise n.2

/-! ## Emissions (R133, R134) -/

/-- Lane k emits on its own trigger line TGk. The emission is handed out when the act that makes it is complete. -/
def State.emitFrom (s : State) (k : LaneId) : State := { s with outbox := s.outbox ++ [k] }

/-- Lane k emits when it is asked to. -/
def State.emitWhen (s : State) (asked : Bool) (k : LaneId) : State := if asked then s.emitFrom k else s

/-- Replaces the list of emissions not yet handed out. -/
def State.withOutbox (s : State) (lines : List LaneId) : State := { s with outbox := lines }

/-! ## Latch settings in progress and free choices -/

/-- Replaces the list of latch settings whose notice is not yet raised (R147). -/
def State.withSettings (s : State) (settings : List Setting) : State := { s with settings := settings }

/-- Replaces the counter of free choices (log 3). -/
def State.withPicks (s : State) (n : Nat) : State := { s with picks := n }

/-- One more free choice is made (log 3). -/
def State.pickDone (s : State) : State := { s with picks := s.picks + 1 }

/-! ## Command results (R180) -/

/-- Leaves a command's outcome in CMD_RESULT. -/
def State.report (s : State) (r : Result) : State := { s with cmdResult := r }

/-- What a command answers. No command of the T840 stops it (log 6). -/
abbrev Answer := Host.Outcome State Fault Refusal

end Sys2Proof.Machine
end

