-- ==== Sys2Proof/Machine/Accesses.lean ====
section
/-! DEFINITION. The accesses of the table job: what one access does to the table and to the job, the JOB notice, and when
the access that waits may be served (R12, R15, R161 to R165). -/

namespace Sys2Proof.Machine

/-- The kind of a job the host can start; the power-on clear has none (R165). -/
def JobKind.host : JobKind → Option HostJob
  | .clear => none
  | .copy => some .copy
  | .check => some .check

/-- The JOB notice of a host's job that has ended (R165). The clear raises none (R15). -/
def raiseJob (outcome : JobOutcome) (s : State) : State :=
  match s.job.kind.host with
  | none => s
  | some kind => s.raise (.job kind outcome s.job.progress)

/-- A COPY job runs descending (R162). -/
def Job.descending (j : Job) : Bool := j.source < j.destination && j.destination < j.source + j.count

/-- The offset that the job's next move concerns (R162). -/
def Job.moveOffset (j : Job) : Nat := if j.descending then j.count - 1 - j.progress else j.progress

/-- One bit into the check register (R163). -/
def crcBit (register : Word) (bit : Bool) : Word :=
  if register.msb ^^ bit then (register <<< 1) ^^^ 0x1021#16 else register <<< 1

/-- One word into the check register, from bit 15 down to bit 0 (R163). -/
def crcWord (register w : Word) : Word := (List.finRange 16).foldl (fun c n => crcBit c (w.getLsbD (15 - n))) register

/-- One record into the check register, from word 0 to word 9 (R163). -/
def crcRecord (register : Word) (r : Record) : Word := r.words.foldl crcWord register

/-- One more record is complete; at the count the job is DONE and raises its notice (R161, R165). -/
def jobServed (s : State) : State :=
  let progress := s.job.progress + 1
  if progress = s.job.count then
    raiseJob .done { s with job := { s.job with progress := progress, state := .done } }
  else { s with job := { s.job with progress := progress } }

/-- The record at the clear's next index becomes the zero record (R15). -/
def clearRecord (s : State) : State := { s with table := Memory.write s.table s.job.progress .zero }

/-- The record of the COPY job's next move is read and written whole at its destination (R162). -/
def moveRecord (s : State) : State :=
  let m := s.job.moveOffset
  { s with table := Memory.write s.table (s.job.destination + m) (Memory.read s.table (s.job.source + m)) }

/-- The next record of the CHECK job is folded into the check register (R163). -/
def foldRecord (s : State) : State :=
  { s with job := { s.job with
    crc := crcRecord s.job.crc (Memory.read s.table (s.job.source + s.job.progress)) } }

/-- Every fetch that waits has now had an access of the job served before it (R161). -/
def State.letPass (s : State) : State :=
  s.onLanes fun _ l => { l with entry := l.entry.map fun e => { e with passed := true } }

/-- No fetch that waits has had an access of the job served before it: a waiting fetch waits for at most one (R161). -/
def State.accessFree (s : State) : Bool := allLanes.all fun k => !(s.lane k).entry.any Entry.passed

/-- A RUNNING host's job has an access waiting, and that access may be served next (R161). The power-on clear has the table
to itself: no lane fetches while it runs (R16). -/
def State.accessWaits (s : State) : Bool :=
  s.job.kind ≠ .clear && s.job.state = .running && s.job.progress < s.job.count && s.accessFree

/-- The Table Controller serves the access of the job (R12, R161). -/
def serveAccess (s : State) : State :=
  jobServed (State.letPass (
    match s.job.kind with
    | .clear => clearRecord s
    | .copy => moveRecord s
    | .check => foldRecord s))

end Sys2Proof.Machine
end

