-- ==== Sys2Proof/Machine/Flags.lean ====
section
/-! DEFINITION. The conditions the blocks judge: the advance condition of a step (R56), coverage by trip latches (R142),
the power-on clear (R16), and what an event is to a lane (R26). -/

namespace Sys2Proof.Machine

/-- Every input selected by ARG_A shows the accepted level ARG_B gives for it (R4, R58). -/
def inputMatches (accepted : BitVec 16) (r : Record) : Bool := (accepted &&& r.argA) == (r.argB &&& r.argA)

/-- The condition of a lane's step (R56). A lane without a current step has none. -/
def Lane.conditionHolds (l : Lane) (accepted : BitVec 16) : Bool :=
  match l.copy with
  | none => false
  | some r =>
    match r.kind with
    | some .time => true
    | some .input => inputMatches accepted r
    | some .edge => decide (r.argB.toNat ≤ l.edges)
    | some .position | some .trigger | some .command => l.latch
    | none => false

/-- A set trip latch covers the lane (R142). -/
def State.covered (s : State) (k : LaneId) : Bool :=
  s.trips.any fun t => t.latch && t.scope.getLsbD k

/-- The power-on clear runs: BUSY of STATUS (R15, R181). -/
def State.clearRunning (s : State) : Bool := s.job.kind = .clear && s.job.state = .running

/-- The state a lane in this state would record as its trip prior state, or none where a forcing does not change the
lane (R27). -/
def LaneState.forcible : LaneState → Option PriorState
  | .idle => none
  | .armed => some .armed
  | .running => some .running
  | .held => some .held
  | .done => some .done
  | .faulted => some .faulted
  | .tripped => none

/-- The lane takes condition events against a current step: RUNNING or HELD with entered yes (R26, R56). -/
def Lane.takesConditions (l : Lane) : Bool := (l.state = .running || l.state = .held) && l.entered

/-- The lane is RUNNING with its dwell expired, so that a condition event that makes the condition hold is a moment of
advance (R63). -/
def Lane.awaitsCondition (l : Lane) : Bool := l.state = .running && l.dwell == 0

/-- Two events of one source reach a lane in the order in which the source made them: edges of one input, arrivals of
one unit, and events that are equal. -/
def Event.sameSource : Event → Event → Bool
  | .edge n _, .edge m _ => n = m
  | .arrival u _ _, .arrival v _ _ => u = v
  | e, e' => e = e'

/-- The lane takes no edge event, arrival or emission when it is handed out: it is not in the middle of an entry, and it
is IDLE, DONE, FAULTED or TRIPPED, or HELD without a current step. Such an event is not remembered (R26, R119, R126, R133;
log 7). -/
def Lane.ignores (l : Lane) : Bool :=
  l.entry.isNone &&
  match l.state with
  | .idle | .done | .faulted | .tripped => true
  | .held => !l.entered
  | .armed | .running => false

/-! ## The order in which the lanes that took one event make their entries (R123, R136) -/

/-- The event whose taking led to the lane's entry in progress, with the number of events like it that have been handed to
the lane since: two lanes with the same answer took the same event. None for any other entry. -/
def Lane.enteredAt (l : Lane) : Option (Event × Nat) :=
  l.entry.bind fun e => e.event.map fun x => (x, (l.kept ++ l.coming).count x)

/-- The place in that order that the lane's entry has. -/
def Lane.turn (l : Lane) : Nat := (l.entry.map Entry.turn).getD 0

/-- Lane j took the event that led to lane k's entry too, and took it earlier, and its entry is in progress. -/
def State.precedes (s : State) (j k : LaneId) : Bool :=
  (s.lane j).enteredAt.isSome && (s.lane j).enteredAt == (s.lane k).enteredAt && (s.lane j).turn < (s.lane k).turn

/-- No fetch has to be served before that of lane k: the entries of the lanes that took one emission, or one edge as their
start event, follow the order in which they took it (R123, R136; log 35). -/
def State.inTurn (s : State) (k : LaneId) : Bool := allLanes.all fun j => !s.precedes j k

/-- The place behind every lane that took this event and whose entry is in progress. -/
def State.nextTurn (s : State) (x : Event × Nat) : Nat :=
  allLanes.foldl (fun n j => if (s.lane j).enteredAt = some x then max n ((s.lane j).turn + 1) else n) 0

end Sys2Proof.Machine
end

