-- ==== Sys2Proof/Machine/Entry.lean ====
section
/-! DEFINITION. Entries (spec/03 §3.1), the application of a swap (R95), entry into FAULTED (R52) and the service of an
entry's fetch, with its check, push and commit (R47, R48, R49). -/

namespace Sys2Proof.Machine

/-- The lane requests the fetch of an entry: it sets its active offset and waits (R47, R48). -/
def requestEntry (k : LaneId) (full : Bool) (offset : Nat) (cause : EntryCause) (s : State) : State :=
  s.onLane k fun l => { l with active := offset, entry := some { full, cause } }

/-- Puts a pending swap in force: steps 1 to 4 of R95, with the SWAP notice of R96. -/
def installSwap (k : LaneId) (d : Descriptor) (occasion : SwapOccasion) (s : State) : State :=
  (s.onLane k fun l => { l with descriptor := d, swap := none, stack := [], cycles := 0 }).raiseFrom (.lane k)
    (.swap k (s.lane k).active d.swapBoundary occasion)

/-- The application of a swap at an entry or at an end of range (R95). -/
def applySwap (k : LaneId) (d : Descriptor) (occasion : SwapOccasion) (s : State) : State :=
  requestEntry k true d.preset .swap (installSwap k d occasion s)

/-- An entry is due: a pending swap with boundary NEXT_STEP replaces it (R46, R93). -/
def enter (k : LaneId) (full : Bool) (offset : Nat) (cause : EntryCause) (s : State) : State :=
  match (s.lane k).swap with
  | some d =>
    match d.swapBoundary with
    | .nextStep => applySwap k d .entry s
    | .sequenceEnd => requestEntry k full offset cause s
  | none => requestEntry k full offset cause s

/-- An ARMED lane takes its start event: the full entry of its active offset with cause START, or the application of a
pending swap of either boundary (R32, R94, R123, R139). -/
def startEvent (k : LaneId) (s : State) : State :=
  match (s.lane k).swap with
  | some d => applySwap k d .entry s
  | none => requestEntry k true (s.lane k).active .start s

/-- The lane goes to FAULTED with this cause, its pulse cancelled (R52). -/
def Lane.fault (l : Lane) (cause : FaultCause) : Lane :=
  { l.forget with state := .faulted, faultCause := some cause, pulse := none }

/-- Entry into FAULTED: state and cause, pulse cancelled, FAULT notice, then the EMIT_ON_FAULT emission (R52). -/
def faultEntry (k : LaneId) (cause : FaultCause) (s : State) : State :=
  ((s.onLane k fun l => l.fault cause).raiseFrom (.lane k)
    (.fault k (s.lane k).active cause .halt)).emitWhen (s.lane k).descriptor.emitOnFault k

/-- An entry ends in BAD_STEP or STACK_OVER: entered goes to no, and the lane enters FAULTED (R8, R51). -/
def entryFault (k : LaneId) (cause : FaultCause) (s : State) : State :=
  faultEntry k cause (s.onLane k Lane.unenter)

/-- The pulse after a commit of a record, by the lane's ownership of PULSE_LINE (R110): a pulse on an owned line starts,
restarts or replaces the one held; otherwise the one held goes on. -/
def pulseAfterCommit (owners : Vector (Option LaneId) 32) (k : LaneId) (r : Record) (held : Option Pulse) :
    Option Pulse :=
  if r.pulse && owners[r.pulseLine.val] == some k then some ⟨r.pulseLine, r.pulseTicks⟩ else held

/-- The lane's context after the commit of a valid record (R49). -/
def Lane.commit (l : Lane) (r : Record) (pulse : Option Pulse) : Lane :=
  { l with
    state := .running
    copy := some r
    pattern := r.pattern
    pulse := pulse
    dwell := r.dwellTicks
    limit := r.limitTicks
    latch := r.kind == some .edge && r.argB == 0
    edges := 0 }

/-- The commit, with its STEP notice and its emission (R49, R50). The notice is stored before any lane takes the emission
(log 36). -/
def commit (k : LaneId) (cause : EntryCause) (r : Record) (s : State) : State :=
  ((s.onLane k fun l => l.commit r (pulseAfterCommit s.owners k r l.pulse)).raiseWhen r.report k
    (.step k (s.lane k).active cause)).emitWhen r.emit k

/-- Pushes a repeat frame (R78). -/
def pushFrame (k : LaneId) (frame : Frame) (s : State) : State :=
  s.onLane k fun l => { l with stack := frame :: l.stack }

/-- The record an entry fetches: the one at BASE + active offset of the descriptor in force (R6). -/
def State.fetched (s : State) (k : LaneId) : Record :=
  Memory.read s.table ((s.lane k).descriptor.base + (s.lane k).active)

/-- What the lane does with the record its entry received: check, push and commit, or an entry fault (R7, R47, R48). -/
def completeEntry (k : LaneId) (e : Entry) (r : Record) (s : State) : State :=
  if !r.validFor (s.lane k).descriptor.length then entryFault k .badStep s
  else if e.full && r.isHead then
    if Config.stackDepth ≤ (s.lane k).stack.length then entryFault k .stackOver s
    else commit k e.cause r (pushFrame k ⟨(s.lane k).active, r.loopCount⟩ s)
  else commit k e.cause r s

/-- The Table Controller serves the fetch of lane k's entry in progress, and the entry completes (R12, R47, R48). A lane
without an entry in progress has no fetch to serve. Who calls this has seen to the order of R136. -/
def serveFetch (k : LaneId) (s : State) : State :=
  match (s.lane k).entry with
  | none => s
  | some e => completeEntry k e (s.fetched k) (s.onLane k fun l => { l with entry := none })

/-- The fetch that is served first of those that lane k's fetch waits for, if there is one (R136). -/
def State.leader (s : State) (k : LaneId) : Option LaneId := allLanes.find? fun j => s.precedes j k && s.inTurn j

/-- The first of the fetches that lane k's fetch waits for is served. -/
def serveLeader (k : LaneId) (s : State) : State :=
  match s.leader k with
  | none => s
  | some j => serveFetch j s

/-- Lane k's entry in progress completes, and before it the entries that precede it, of which there are at most seven (R28,
R136). -/
def serveInTurn (k : LaneId) (s : State) : State := serveFetch k (allLanes.foldl (fun s _ => serveLeader k s) s)

end Sys2Proof.Machine
end

