-- ==== Sys2Proof/Machine/Walk.lean ====
section
/-! DEFINITION. Leaving a step (R67, R68), the fault actions (R71, R72, R73), the counting of ticks (R53, R64, R111) and
what a lane does with each event it takes (R26, R122, R126, R136, R27). Every function here is about a lane that is not in
the middle of an entry. -/

namespace Sys2Proof.Machine

/-- The lane goes to DONE (R68, R70). -/
def Lane.goToDone (l : Lane) : Lane := { l.forget with state := .done, dwell := 0, limit := none }

/-- The lane counts an end of range that ends in DONE or a wrap, raises its END notice and makes its EMIT_ON_END
emission (R68, R69). -/
def passEnd (k : LaneId) (outcome : EndOutcome) (s : State) : State :=
  let l := s.lane k
  let cycles := min Config.countMax (l.cycles + 1)
  ((s.onLane k fun l => { l with cycles := cycles }).raiseFrom (.lane k) (.rangeEnd k l.active outcome cycles)).emitWhen
    l.descriptor.emitOnEnd k

/-- This end of range ends in DONE: END_ACTION is STOP, or the raised cycle count reaches a CYCLE_LIMIT that is not 0
(R68). -/
def Lane.endsInDone (l : Lane) : Bool :=
  l.descriptor.endAction = .stop ||
  (0 < l.descriptor.cycleLimit && l.descriptor.cycleLimit ≤ min Config.countMax (l.cycles + 1))

/-- The end of range (R68, R69): a pending swap, else UNBALANCED, else the cycle count and DONE or a wrap. The END notice
and the EMIT_ON_END emission come before the wrap's entry. -/
def endOfRange (k : LaneId) (skipped : Bool) (s : State) : State :=
  let l := s.lane k
  match l.swap with
  | some d => applySwap k d .endOfRange s
  | none =>
    if !l.stack.isEmpty then faultEntry k .unbalanced s
    else if l.endsInDone then (passEnd k .done s).onLane k Lane.goToDone
    else requestEntry k true 0 (if skipped then .skip else .wrap) (passEnd k .wrap s)

/-- The lane goes on past the step: a full entry of the next offset, or the end of range (R68). -/
def goToNext (k : LaneId) (skipped : Bool) (s : State) : State :=
  let l := s.lane k
  if l.active + 1 < l.descriptor.length then enter k true (l.active + 1) (if skipped then .skip else .advance) s
  else endOfRange k skipped s

/-- The lane leaves its step by advance, or through SKIP: the repeat decision of R67, then R68. -/
def leave (k : LaneId) (skipped : Bool) (s : State) : State :=
  let l := s.lane k
  match l.copy with
  | none => s
  | some r =>
    if r.isTail then
      match l.stack with
      | [] => faultEntry k .stackUnder s
      | top :: below =>
        if 2 ≤ top.passes then
          enter k false top.head (if skipped then .skip else .repeated)
            (s.onLane k fun l => { l with stack := ⟨top.head, top.passes - 1⟩ :: below })
        else goToNext k skipped (s.onLane k fun l => { l with stack := below })
    else goToNext k skipped s

/-- The fault action of a step whose limit expired without an advance (R71, R72, R73). -/
def faultAction (k : LaneId) (s : State) : State :=
  let l := s.lane k
  match l.copy with
  | none => s
  | some r =>
    match r.onFault with
    | some .skip => leave k true (s.raiseFrom (.lane k) (.fault k l.active .limit .skip))
    | some .divert =>
      enter k true r.divert .divert
        ((s.raiseFrom (.lane k) (.fault k l.active .limit .divert)).onLane k fun l => { l with stack := [] })
    | some .halt | none => faultEntry k .limit s

/-- The lane advances when its dwell has expired and its condition holds (R63). -/
def advanceIfMet (k : LaneId) (s : State) : State :=
  let l := s.lane k
  if l.awaitsCondition && l.conditionHolds s.inputs.accepted then leave k false s else s

/-- One tick of the pulse: the tick that takes it from 1 to 0 ends it (R111). -/
def Pulse.count (p : Pulse) : Option Pulse := if p.ticks ≤ 1 then none else some { p with ticks := p.ticks - 1 }

/-- A RUNNING lane counts a tick for its dwell, its limit and its pulse: parts 1 to 3 of R53. A limit does not stay at
0. -/
def Lane.countTick (l : Lane) : Lane :=
  { l with
    dwell := l.dwell - 1
    limit := l.limit.bind fun n => if n ≤ 1 then none else some (n - 1)
    pulse := l.pulse.bind Pulse.count }

/-- The line of a pulse that ends at the next tick counted for it (R111). -/
def endingLine (p : Option Pulse) : Option (Fin 32) := p.bind fun p => if p.ticks ≤ 1 then some p.line else none

/-- The entry in progress, if there is one, keeps this line inverted until it is complete (R108, R113; log 30). -/
def Lane.bridge (line : Option (Fin 32)) (l : Lane) : Lane :=
  { l with entry := l.entry.map fun e => { e with bridged := line } }

/-- What a RUNNING lane does at a tick that it has counted, by the dwell and the limit that it held before (R64). A tick
that expires the dwell is a moment of advance, whether or not it expires the limit too; a limit that expires at any other
moment is acted on (R64, R65). -/
def judgeTick (k : LaneId) (dwell : Nat) (limit : Option Nat) (s : State) : State :=
  if dwell = 1 && (s.lane k).conditionHolds s.inputs.accepted then leave k false s
  else if limit = some 1 then faultAction k s
  else s

/-- The lane takes a tick (R53, R54, R64): a RUNNING lane counts it and judges what it has expired, and a pulse that the
tick ends goes on showing until the entry that the tick leads to (R113); a DONE lane counts it for its pulse; no other lane
counts it. -/
def takeTick (k : LaneId) (s : State) : State :=
  let l := s.lane k
  match l.state with
  | .running =>
    (judgeTick k l.dwell l.limit (s.onLane k Lane.countTick)).onLane k (Lane.bridge (endingLine l.pulse))
  | .done => s.onLane k fun l => { l with pulse := l.pulse.bind Pulse.count }
  | .idle | .armed | .held | .faulted | .tripped => s

/-- The EDGE step of the lane counts an edge of this input and sense (R59, R122). -/
def Lane.countsEdge (l : Lane) (n : InputId) (e : Sense) : Bool :=
  l.takesConditions &&
  match l.copy with
  | some r => r.kind == some .edge && r.sel == n.val && (r.edgeSense.any fun m => m.admits e)
  | none => false

/-- One counted edge: the count saturates, and reaching ARG_B sets the latch (R59). -/
def Lane.countEdge (l : Lane) : Lane :=
  let edges := min Config.countMax (l.edges + 1)
  { l with edges := edges, latch := l.latch || (l.copy.any fun r => decide (r.argB.toNat ≤ edges)) }

/-- The lane's current step is of this kind. -/
def Lane.stepKind (l : Lane) (kind : Kind) : Bool := l.copy.any fun r => r.kind == some kind

/-- The entry that lane k's taking of this event has led to, if any, follows those of the lanes that took it before
(R123, R136). -/
def followTaking (k : LaneId) (e : Event) (s : State) : State :=
  let turn := s.nextTurn (e, ((s.lane k).kept ++ (s.lane k).coming).count e)
  s.onLane k fun l => { l with entry := l.entry.map fun x => { x with event := some e, turn := turn } }

/-- The lane takes an edge event (R122, R123). -/
def takeEdge (k : LaneId) (n : InputId) (e : Sense) (s : State) : State :=
  let l := s.lane k
  if l.state = .armed then
    if l.descriptor.startSource = .edge n e then followTaking k (.edge n e) (startEvent k s) else s
  else if l.countsEdge n e then advanceIfMet k (s.onLane k Lane.countEdge)
  else if l.takesConditions && l.stepKind .input then advanceIfMet k s
  else s

/-- The POSITION step of the lane waits on this arrival (R60, R126). -/
def Lane.awaitsArrival (l : Lane) (u : UnitId) (value : Word) (d : Direction) : Bool :=
  l.takesConditions &&
  match l.copy with
  | some r =>
    r.kind == some .position && r.sel == u.val && r.argB == value && (r.approach.any fun m => m.admits d)
  | none => false

/-- Sets the condition latch. -/
def Lane.setLatch (l : Lane) : Lane := { l with latch := true }

/-- The lane takes an arrival (R60, R126). -/
def takeArrival (k : LaneId) (u : UnitId) (value : Word) (d : Direction) (s : State) : State :=
  if (s.lane k).awaitsArrival u value d then advanceIfMet k (s.onLane k Lane.setLatch) else s

/-- The TRIGGER step of lane k waits on an emission on this line, which is not its own (R61, R137, R138). -/
def Lane.awaitsEmission (l : Lane) (k line : LaneId) : Bool :=
  l.takesConditions && line ≠ k &&
  match l.copy with
  | some r => r.kind == some .trigger && r.sel == line.val
  | none => false

/-- The lane takes an emission (R136, R137, R139). -/
def takeEmission (k line : LaneId) (s : State) : State :=
  let l := s.lane k
  if l.state = .armed then
    if l.descriptor.startSource = .trigger line then followTaking k (.emission line) (startEvent k s) else s
  else if l.awaitsEmission k line then
    followTaking k (.emission line) (advanceIfMet k (s.onLane k Lane.setLatch))
  else s

/-- A lane's own part of a forcing (R27). -/
def Lane.force (l : Lane) : Lane :=
  match l.state.forcible with
  | none => l
  | some prior => { l.forget with state := .tripped, prior := some prior, pulse := none }

/-- The oldest setting of this source that still waits for lane k notes that the lane has taken its forcing, and
whether that moved the lane. -/
def noteForcing (source : SourceId) (k : LaneId) (moved : Bool) : List Setting → List Setting
  | [] => []
  | x :: rest =>
    if x.source = source && x.left.getLsbD k then
      ⟨x.source, x.left &&& ~~~(1#8 <<< k.val), if moved then x.moved ||| 1#8 <<< k.val else x.moved⟩ :: rest
    else x :: noteForcing source k moved rest

/-- The TRIP notice of a setting (R147). -/
def Setting.notice (x : Setting) : NoticeBody := .trip x.source x.moved

/-- Every covered lane has taken the forcing of the setting (R147). -/
def Setting.complete (x : Setting) : Bool := x.left == 0

/-- The Trip Unit raises the TRIP notices of the settings that every covered lane has taken, in the order in which it
took the settings; they reach the queue behind the notices of the entries of the lanes they name (R147, R148). -/
def raiseTrips (settings : List Setting) (s : State) : State :=
  (s.withSettings (settings.dropWhile Setting.complete)).raiseTripNotices
    ((settings.takeWhile Setting.complete).map Setting.notice)

/-- The lane is forced, and the setting of the latch notes it (R27). -/
def forceLane (k : LaneId) (source : SourceId) (s : State) : State :=
  (s.onLane k Lane.force).withSettings (noteForcing source k (s.lane k).state.forcible.isSome s.settings)

/-- The lane takes the forcing of a latch setting, and the notices of the settings complete now are raised (R27, R147). -/
def takeForcing (k : LaneId) (source : SourceId) (s : State) : State :=
  let t := forceLane k source s
  raiseTrips t.settings t

/-- The lane takes an event. -/
def takeEvent (k : LaneId) : Event → State → State
  | .tick, s => takeTick k s
  | .edge n e, s => takeEdge k n e s
  | .arrival u v d, s => takeArrival k u v d s
  | .emission line, s => takeEmission k line s
  | .forcing source, s => takeForcing k source s

end Sys2Proof.Machine
end

