-- ==== Sys2Proof/Machine/Settle.lean ====
section
/-! DEFINITION. How events reach the lanes: handing out, keeping during an entry (R28), taking in any order the spec
allows (R136, R140), and the completion of what is on its way or of what a host write has caused (R135, R177). -/

namespace Sys2Proof.Machine

/-- Replaces a lane's list of events on their way. -/
def Lane.withComing (l : Lane) (es : List Event) : Lane := { l with coming := es }

/-- Hands an edge event, an arrival or an emission to every lane (R119, R126, R133): it is on its way, except to a lane
that ignores it (log 7). -/
def handToAll (e : Event) (s : State) : State :=
  s.onLanes fun _ l => if l.ignores then l else l.withComing (l.coming ++ [e])

/-- Hands out these emissions, one after another. -/
def handLines (lines : List LaneId) (s : State) : State :=
  lines.foldl (fun s line => handToAll (.emission line) s) s

/-- Hands out the emissions of the act that is now complete, whose notices are stored (R50, R134; log 36). -/
def handOut (s : State) : State := handLines s.outbox (s.withOutbox [])

/-- An event reaches lane k: a lane in the middle of an entry, or with earlier events still kept, keeps it (R28); any
other lane takes it. -/
def reach (k : LaneId) (e : Event) (s : State) : State :=
  if (s.lane k).free then takeEvent k e s else s.onLane k fun l => { l with kept := l.kept ++ [e] }

/-- The event is the next of its source among those on their way to the lane. -/
def Lane.nextOfSource (l : Lane) (e : Event) : Bool := l.coming.find? (fun x => x.sameSource e) == some e

/-- The events that may reach or be taken by the lane next: the oldest kept one once the entry is complete (R28), else
any that is on its way and the next of its source. -/
def Lane.ready (l : Lane) : List Event :=
  match l.entry, l.kept with
  | none, e :: _ => [e]
  | _, _ => l.coming.filter l.nextOfSource

/-- The oldest event that the lane has kept is no longer kept. -/
def Lane.dropKept (l : Lane) : Lane := { l with kept := l.kept.tail }

/-- Lane k takes, or keeps, an event that was handed to it; an event that is not ready for the lane changes nothing
(log 6). -/
def takeNext (k : LaneId) (e : Event) (s : State) : State :=
  let l := s.lane k
  match l.entry, l.kept with
  | none, e' :: _ => if e = e' then takeEvent k e (s.onLane k Lane.dropKept) else s
  | _, _ => if l.nextOfSource e then reach k e (s.onLane k fun l => l.withComing (l.coming.erase e)) else s

/-- Lane k takes, or keeps, an event that was handed to it, and what it emits is handed out. -/
def deliver (k : LaneId) (e : Event) (s : State) : State := handOut (takeNext k e s)

/-- Lane k completes the entry it is in the middle of, and takes the events it has kept one after another, with the entries
they lead to (R28). Its emissions stay in the outbox. -/
def completeLane (k : LaneId) (s : State) : State :=
  let s := serveInTurn k s
  (s.lane k).kept.foldl (fun s e => serveInTurn k (takeEvent k e (s.onLane k Lane.dropKept))) s

/-- The lanes of the mask complete what they are in the middle of, in ascending order (R28; log 34). -/
def completeLanes (mask : LaneMask) (s : State) : State :=
  allLanes.foldl (fun s (k : LaneId) => if mask.getLsbD k then completeLane k s else s) s

/-! ## What follows from a host write, and what is on its way -/

/-- What a host write has caused and must complete (R135, R177): the lines on which it has emitted, and the lanes that are
in the middle of an entry that it has caused, or one that an emission of it waits for. -/
structure Chain where
  lines : LaneMask
  lanes : LaneMask
deriving DecidableEq, Repr

/-- The event is an emission of the chain. -/
def Chain.holds (c : Chain) : Event → Bool
  | .emission line => c.lines.getLsbD line
  | .tick | .edge _ _ | .arrival _ _ _ | .forcing _ => false

/-- The chain once lane k, by taking or keeping an event or by completing its entry, has come to the state t: the lane's
emissions are the chain's, and the chain waits for the lane as long as it is in the middle of an entry or has kept an
emission of the chain. -/
def Chain.joined (c : Chain) (k : LaneId) (t : State) : Chain :=
  { lines := c.lines ||| 1#8 <<< k.val
    lanes :=
      if (t.lane k).entry.isSome || (t.lane k).kept.any c.holds then c.lanes ||| 1#8 <<< k.val
      else c.lanes &&& ~~~(1#8 <<< k.val) }

/-- Something the lanes can do next, or the arrival of a notice at the Notice Queue. -/
inductive Work where
  | fetch (lane : LaneId)
  | deliver (lane : LaneId) (event : Event)
  | notice (sender : Sender)
deriving DecidableEq, Repr

/-- What lane k has to do: the fetch of its entry, when it is to be served now, and the events ready for it. -/
def Lane.work (l : Lane) (k : LaneId) (serve : Bool) : List Work :=
  (if serve && l.entry.isSome then [Work.fetch k] else []) ++ l.ready.map (Work.deliver k)

/-- The fetch of lane k is to be served so that the entries of these lanes are completed: it is one of theirs, or one that
they wait for (R136). -/
def State.serves (s : State) (lanes : LaneMask) (k : LaneId) : Bool :=
  s.inTurn k && (lanes.getLsbD k || allLanes.any fun j => lanes.getLsbD j && s.precedes k j)

/-- Those who can have notices on their way (R172). -/
def senders : List Sender := allLanes.map Sender.lane ++ [.tripUnit]

/-- The arrivals at the Notice Queue that can come next (R147, R172). -/
def State.arrivals (s : State) : List Work := (senders.filter s.canArrive).map Work.notice

/-- What the lanes can do next, and the notices that can arrive; the entries of `lanes` must be completed. -/
def State.work (s : State) (lanes : LaneMask) : List Work :=
  (allLanes.flatMap fun k => (s.lane k).work k (s.serves lanes k)) ++ s.arrivals

/-- Lane k takes, or keeps, a tick that was handed to it. Where that raises two notices, the first reaches the queue and the
second is on its way, so that other notices and a pop can fall between them (R172; log 4). The taking of no other event
raises two notices of the lane. -/
def takeTickApart (k : LaneId) (s : State) : State :=
  let r := withheld (takeNext k .tick) s
  r.1.raiseApart (.lane k) r.2

/-- Does one piece of work; what it emits stays in the outbox. -/
def doWork (s : State) : Work → State
  | .fetch k => serveFetch k s
  | .deliver k .tick => takeTickApart k s
  | .deliver k e => takeNext k e s
  | .notice x => s.arriveNext x

/-- The chain after one piece of work has led to the state t. -/
def Chain.after (c : Chain) (t : State) : Work → Chain
  | .fetch k => if c.lanes.getLsbD k then c.joined k t else c
  | .deliver k e => if c.lanes.getLsbD k || c.holds e then c.joined k t else c
  | .notice _ => c

/-- One of several things, by a free choice (R28, R136, R140; log 3). A single one leaves no choice. -/
def choose {α : Type} (first : α) (rest : List α) (s : State) : α × State :=
  match rest with
  | [] => (first, s)
  | _ => ((first :: rest).getD (Config.pick s.picks % (rest.length + 1)) first, s.pickDone)

/-- The chain needs this piece of a lane's work (R135, R177): an emission of the chain is taken, and a lane that the chain
waits for, or that keeps events before one of its emissions, completes its entry and takes what it has kept. Any other
event on its way may be taken within the write or after it, and so may a notice on its way arrive: those of the chain
itself are stored with the acts that raise them. -/
def Chain.needs (c : Chain) (l : Lane) (waitedFor : Bool) : Work → Bool
  | .fetch _ => true
  | .deliver _ e => c.holds e || (l.entry.isNone && !l.kept.isEmpty && (waitedFor || l.coming.any c.holds))
  | .notice _ => false

/-- The chain is not yet complete. -/
def Chain.unfinished (c : Chain) (s : State) : Bool :=
  allLanes.any fun k => ((s.lane k).work k (s.serves c.lanes k)).any (c.needs (s.lane k) (c.lanes.getLsbD k))

/-- Does what the lanes can do, in a free order: all of it, or in a host write (`host`) until its chain is complete. The
first argument bounds the number of pieces of work (R141; see `workBound`). -/
@[irreducible] def settle (host : Bool) : Nat → Chain → State → State
  | 0, _, s => s
  | n + 1, c, s =>
    if host && !c.unfinished s then s
    else
      match s.work c.lanes with
      | [] => s
      | w :: ws =>
        match choose w ws s with
        | (w, s) =>
          let t := doWork s w
          settle host n (c.after t w) (handOut t)

/-- More pieces of work than there can be (R141). With N events waiting, a lane leaves its step at most once for each
tick that waits for it and once more, and is started at most once (R55, R139); each of those entries is one fetch and
makes at most two emissions, each taken by eight lanes in at most two pieces of work. A tick leaves at most one notice on its
way, and the forcings no more than there are settings. Log 21. -/
def workBound (s : State) : Nat :=
  (25 + (allLanes.map fun k => (s.lane k).kept.length + (s.lane k).coming.length).sum) * 40 +
    s.settings.length + s.late.length

/-- The events on their way are taken, before a core clock period goes by (R26, R119, R133; log 5). A lane in the middle of
an entry keeps its own. -/
def drain (s : State) : State := settle false (workBound s) ⟨0, 0⟩ s

/-- A host access: nothing while RESET# is low (R177, R184); otherwise the write's own act. Events that are on their way may
be taken before it or after it (R28; log 5). -/
def hostAccess (act : State → State) (s : State) : State := if s.resetLow then s else act s

end Sys2Proof.Machine
end

