-- ==== Sys2Proof/Machine/Clock.lean ====
section
/-! DEFINITION. The core clock: the filters' acceptances (R117) and the Timebase's period (R185) as core clock periods go
by, and the ticks (R185, R53, R64, R111). -/

namespace Sys2Proof.Machine

/-- An acceptance after d core clock periods (R117): none while the presented level equals the accepted one; otherwise it
begins at 0 in the first period and rises by one in each further one, up to the full count. -/
def passAcceptance (d full : Nat) (differs : Bool) (progress : Option Nat) : Option Nat :=
  if !differs then none
  else
    match d, progress with
    | 0, p => p
    | d + 1, none => some (min d full)
    | d + 1, some c => some (min (c + (d + 1)) full)

/-- How many core clock periods an acceptance still lacks until its filter count is reached, or none while the
presented level equals the accepted one (R117). -/
def lackingPeriods (full : Nat) (differs : Bool) (progress : Option Nat) : Option Nat :=
  if !differs then none
  else
    match progress with
    | none => some (full + 1)
    | some c => some (full - c)

/-- The presented level of input n differs from its accepted level. -/
def Inputs.differs (i : Inputs) (n : InputId) : Bool := i.presented n != i.accepted.getLsbD n

def Inputs.fullCount (i : Inputs) (n : InputId) : Nat := i.filterCount n * Config.filterUnit

def Inputs.pass (i : Inputs) (d : Nat) : Inputs :=
  { i with acceptance := Vector.ofFn fun n => passAcceptance d (i.fullCount n) (i.differs n) i.acceptance[n.val] }

def Inputs.lacking (i : Inputs) (n : InputId) : Option Nat :=
  lackingPeriods (i.fullCount n) (i.differs n) i.acceptance[n.val]

def QuadChannel.differs (q : QuadChannel) : Bool := q.pin != q.accepted

def PositionUnit.fullCount (u : PositionUnit) : Nat := u.filterCount * Config.filterUnit

def QuadChannel.pass (q : QuadChannel) (d full : Nat) : QuadChannel :=
  { q with acceptance := passAcceptance d full q.differs q.acceptance }

def PositionUnit.pass (u : PositionUnit) (d : Nat) : PositionUnit :=
  { u with a := u.a.pass d u.fullCount, b := u.b.pass d u.fullCount }

def PositionUnit.lacking (u : PositionUnit) (c : Channel) : Option Nat :=
  lackingPeriods u.fullCount (u.channel c).differs (u.channel c).acceptance

def TripSource.differs (t : TripSource) : Bool := t.presented != t.active

def TripSource.fullCount (t : TripSource) : Nat := t.filter.toNat * Config.filterUnit

def TripSource.pass (t : TripSource) (d : Nat) : TripSource :=
  { t with acceptance := passAcceptance d t.fullCount t.differs t.acceptance }

def TripSource.lacking (t : TripSource) : Option Nat := lackingPeriods t.fullCount t.differs t.acceptance

/-- The period in progress after d core clock periods, not beyond its length. -/
def Period.pass (p : Period) (d : Nat) : Period := { p with elapsed := min (p.elapsed + d) p.length }

def Timebase.pass (t : Timebase) (d : Nat) : Timebase := { t with period := t.period.map fun p => p.pass d }

/-- How many core clock periods the period in progress still lacks, or none while TB_RUN is clear (R185). -/
def Timebase.lacking (t : Timebase) : Option Nat :=
  if t.running then t.period.map fun p => p.length - p.elapsed else none

/-- d core clock periods go by: every filter and the Timebase count them (R117, R185), and the levels are compared anew. -/
def elapse (d : Nat) (s : State) : State :=
  { s with
    inputs := s.inputs.pass d
    units := Vector.ofFn fun u => s.units[u.val].pass d
    trips := Vector.ofFn fun n => s.trips[n.val].pass d
    timebase := s.timebase.pass d
    compared := s.compared && d == 0
    restarted := if d = 0 then s.restarted else [] }

/-- What every filter and the Timebase still lack until their next event falls due (R117, R185). -/
def State.lackings (s : State) : List Nat :=
  (List.finRange 16).filterMap s.inputs.lacking ++
  ((List.finRange 2).flatMap fun u => [Channel.a, Channel.b].filterMap s.units[u.val].lacking) ++
  ((List.finRange 4).filterMap fun n => s.trips[n.val].lacking) ++
  s.timebase.lacking.toList

/-- Nothing of the core clock falls due before d more periods have gone by (R117, R185; log 2). -/
def State.nothingBefore (s : State) (d : Nat) : Bool := s.lackings.all fun x => d ≤ x

/-- The block goes on to an event that is d core clock periods away: where periods go by, the events on their way are taken
first (log 5). -/
def goOnTo (d : Nat) (s : State) : State := if d = 0 then s else elapse d (drain s)

/-- An event of the core clock that is `lacking` periods away: its act, when the block has gone on to it. Nothing when it
is not in progress, when another event of the core clock falls due before it (log 2), or while RESET# is low (R184). -/
def clockEvent (lacking : Option Nat) (act : State → State) (s : State) : State :=
  match lacking with
  | none => s
  | some d => if !s.resetLow && s.nothingBefore d then act (goOnTo d s) else s

/-- An accepted change has been made in the core clock period in progress: a level that changes from now on is compared in
the next (R117, R119, R128; log 23). -/
def State.markCompared (s : State) : State := { s with compared := true }

/-! ## The Timebase -/

/-- A fresh period at the current DIV and PRE (R185). -/
def Timebase.freshPeriod (t : Timebase) : Period := ⟨t.nextLength, 0⟩

/-- The end of a period: the tick counter is raised, and the next period begins (R185). -/
def Timebase.issue (t : Timebase) : Timebase := { t with period := some t.freshPeriod, counter := t.counter + 1 }

/-- The tick reaches a lane: at once when the lane is among the takers, else it is on its way. -/
def handTick (takers : LaneMask) (s : State) (k : LaneId) : State :=
  if takers.getLsbD k then reach k .tick s else s.onLane k fun l => l.withComing (l.coming ++ [.tick])

/-- TICK (R185): the period in progress ends, and the tick is handed to every lane. -/
def tick (takers : LaneMask) (s : State) : State :=
  clockEvent s.timebase.lacking
    (fun s => handOut (allLanes.foldl (handTick takers) { s with timebase := s.timebase.issue })) s

/-- A tick is the next event the lane may take (log 9). -/
def Lane.tickReady (l : Lane) : Bool := l.entry.isNone && l.ready.contains .tick

/-- The lane takes the tick on its way to it, when that tick is of the kind a row names. -/
def takeTickWhen (named : Lane → Bool) (k : LaneId) (s : State) : State :=
  let l := s.lane k
  if !s.resetLow && l.tickReady && named l then deliver k .tick s else s

/-- DWELL_EXPIRY (R53). -/
def dwellExpiry (k : LaneId) : State → State := takeTickWhen (fun l => l.state = .running && l.dwell == 1) k

/-- LIMIT_EXPIRY (R64). -/
def limitExpiry (k : LaneId) : State → State := takeTickWhen (fun l => l.state = .running && l.limit == some 1) k

/-- PULSE_END (R111). -/
def pulseEnd (k : LaneId) : State → State :=
  takeTickWhen (fun l => (l.state = .running || l.state = .done) && (l.pulse.any fun p => p.ticks == 1)) k

/-- TICK (R185). -/
def execTick (takers : LaneMask) (s : State) : Answer := .next (tick takers s)
/-- DWELL_EXPIRY (R53). -/
def execDwellExpiry (k : LaneId) (s : State) : Answer := .next (dwellExpiry k s)
/-- LIMIT_EXPIRY (R64). -/
def execLimitExpiry (k : LaneId) (s : State) : Answer := .next (limitExpiry k s)
/-- PULSE_END (R111). -/
def execPulseEnd (k : LaneId) (s : State) : Answer := .next (pulseEnd k s)

end Sys2Proof.Machine
end

