-- ==== Sys2Proof/Machine/Latches.lean ====
section
/-! DEFINITION. The trip latches: their setting, and the accepted change of a trip pin (spec/09 §9.2). -/

namespace Sys2Proof.Machine

/-- The source SW (R142). -/
def swSource : SourceId := 4

/-- Changes one trip source. -/
def State.onTrip (s : State) (n : SourceId) (f : TripSource → TripSource) : State :=
  { s with trips := s.trips.set n.val (f s.trips[n.val]) }

/-- The forcing of a latch setting reaches lane k: the lane takes it, or keeps it in the middle of an entry (R28, R147). -/
def reachForcing (n : SourceId) (k : LaneId) (s : State) : State :=
  if (s.lane k).free then forceLane k n s else s.onLane k fun l => { l with kept := l.kept ++ [.forcing n] }

/-- The setting of a latch (R147): the forcing reaches every lane in scope, and the TRIP notice follows when every one
has taken it. Every lane that is not in the middle of an entry takes it in this one act (R149; log 8), and a lane in the middle
of an entry keeps it (R28). -/
def setLatch (n : SourceId) (s : State) : State :=
  let scope := s.trips[n.val].scope
  let s := (s.onTrip n fun t => { t with latch := true }).withSettings (s.settings ++ [⟨n, scope, 0⟩])
  let s := allLanes.foldl (fun s (k : LaneId) => if scope.getLsbD k then reachForcing n k s else s) s
  raiseTrips s.settings s

/-- The lanes that keep the forcing of a latch setting whose notice is not yet raised. -/
def waitingLanes (settings : List Setting) : LaneMask := settings.foldl (fun mask x => mask ||| x.left) 0

/-- The accepted level of a trip pin reverses; a change to active sets the latch of an enabled source whose latch is clear
(R144, R145). -/
def acceptTrip (n : SourceId) (s : State) : State :=
  let s := s.markCompared.onTrip n fun t => { t with active := !t.active, acceptance := none }
  let t := s.trips[n.val]
  if t.active && t.enable && !t.latch then setLatch n s else s

/-- TRIP_ACCEPTED_CHANGE (R144, R145). -/
def tripAcceptedChange (n : Fin 4) (s : State) : State :=
  clockEvent s.trips[n.val].lacking (acceptTrip n.castSucc) s

end Sys2Proof.Machine
end

