-- ==== Sys2Proof/Machine/Inputs.lean ====
section
/-! DEFINITION. The Input Conditioner: INPUT_SETTING_WRITE, INPUT_ACCEPTED_CHANGE, and the lanes' taking of edge events
(spec/07 §7.1, §7.2). -/

namespace Sys2Proof.Machine

/-- The register of IN_POL or IN_FILTj holds this value (R116). -/
def Inputs.store (i : Inputs) (setting : InputSetting) (value : Word) : Inputs :=
  match setting with
  | .polarity => { i with polarity := value }
  | .filter j => { i with filters := i.filters.set j.val value }

/-- The setting of input n differs between the two: its polarity or its filter count (R118). -/
def Inputs.resets (i i' : Inputs) (n : InputId) : Bool :=
  i.polarity.getLsbD n != i'.polarity.getLsbD n || i.filterCount n != i'.filterCount n

/-- The acceptances of the inputs whose setting changes are discarded; the others are kept (R118). -/
def Inputs.discardWhere (i : Inputs) (changed : InputId → Bool) : Inputs :=
  { i with acceptance := Vector.ofFn fun n => if changed n then none else i.acceptance[n.val] }

/-- A write of IN_POL or IN_FILTj (R116, R118). -/
def Inputs.write (i : Inputs) (setting : InputSetting) (value : Word) : Inputs :=
  (i.store setting value).discardWhere (i.resets (i.store setting value))

/-- INPUT_SETTING_WRITE (R118): the inputs whose setting changes are compared under the new one in the next core clock
period. -/
def inputSettingWrite (setting : InputSetting) (value : Word) : State → State :=
  hostAccess fun s =>
    { s with inputs := s.inputs.write setting value }.restart fun
      | .input n => s.inputs.resets (s.inputs.store setting value) n
      | .quadrature _ _ | .trip _ => false

/-- The inputs whose accepted level changes in the same core clock period as that of input n (R119). -/
def Inputs.together (i : Inputs) (n : InputId) : List InputId :=
  (List.finRange 16).filter fun m => (i.lacking n).isSome && i.lacking m == i.lacking n

/-- The accepted levels of these inputs take their presented levels, and their acceptances end (R117). -/
def Inputs.accept (i : Inputs) (ns : List InputId) : Inputs :=
  { i with
    accepted := i.accepted ^^^ BitVec.ofFnLE fun n : Fin 16 => ns.contains n
    acceptance := Vector.ofFn fun n => if ns.contains n then none else i.acceptance[n.val] }

/-- The sense of the change to a level (R119). -/
def senseTo (level : Bool) : Sense := if level then .rising else .falling

/-- The accepted levels of these inputs change together, and each change is one edge event, handed to every lane (R119). -/
def acceptInputs (changed : List InputId) (s : State) : State :=
  changed.foldl (fun s m => handToAll (.edge m (senseTo (s.inputs.accepted.getLsbD m))) s)
    { s.markCompared with inputs := s.inputs.accept changed }

/-- INPUT_ACCEPTED_CHANGE (R117, R119): the accepted level of the input and those of the inputs accepted in the same period
change together. -/
def inputAcceptedChange (n : InputId) (s : State) : State :=
  clockEvent (s.inputs.lacking n) (acceptInputs (s.inputs.together n)) s

/-- EDGE_EVENT (R122, R123): the lane takes an edge event handed to it. -/
def edgeEvent (k : LaneId) (n : InputId) (e : Sense) (s : State) : State :=
  if s.resetLow then s else deliver k (.edge n e) s

/-- INPUT_SETTING_WRITE (R118). -/
def execInputSettingWrite (setting : InputSetting) (value : Word) (s : State) : Answer :=
  .next (inputSettingWrite setting value s)
/-- INPUT_ACCEPTED_CHANGE (R117, R119). -/
def execInputAcceptedChange (n : InputId) (s : State) : Answer := .next (inputAcceptedChange n s)
/-- EDGE_EVENT (R122, R123). -/
def execEdgeEvent (k : LaneId) (n : InputId) (e : Sense) (s : State) : Answer := .next (edgeEvent k n e s)

end Sys2Proof.Machine
end

