-- ==== Sys2Proof/Machine/Position.lean ====
section
/-! DEFINITION. The Position Units: POS_LOAD, POS_CLEAR, POS_FILT_WRITE, QUADRATURE_CHANGE and ARRIVAL (spec/07 §7.3,
§7.4). -/

namespace Sys2Proof.Machine

/-- Changes one Position Unit. -/
def State.onUnit (s : State) (u : UnitId) (f : PositionUnit → PositionUnit) : State :=
  { s with units := s.units.set u.val (f s.units[u.val]) }

/-- POS_LOAD (R129): the counter takes POS_ARG; the load is no arrival. -/
def posLoad (value : Word) : State → State :=
  hostAccess fun s => (s.onUnit (unitOf value) fun u => { u with counter := s.posArg }).report .taken

/-- POS_CLEAR (R130). -/
def posClear (value : Word) : State → State :=
  hostAccess fun s =>
    { s with units := Vector.ofFn fun k =>
        if value.getLsbD k then { s.units[k.val] with error := false } else s.units[k.val] }.report .taken

/-- A write of POS_FILTk: all sixteen bits are stored; a change of the count in bits 0–7 discards the acceptances in
progress of both channels (R124, R128). -/
def PositionUnit.writeFilter (u : PositionUnit) (value : Word) : PositionUnit :=
  let u' := { u with filter := value }
  if u.filterCount = u'.filterCount then u'
  else { u' with a := { u.a with acceptance := none }, b := { u.b with acceptance := none } }

/-- POS_FILT_WRITE (R124, R128): where the count changes, both channels are compared under it in the next core clock period. -/
def posFiltWrite (unit : UnitId) (value : Word) : State → State :=
  hostAccess fun s =>
    (s.onUnit unit fun u => u.writeFilter value).restart fun
      | .quadrature u _ => u = unit && s.units[unit.val].filterCount != wordField value 0 8
      | .input _ | .trip _ => false

/-- The direction of an accepted change of one channel against the reference state (A, B): the table of R125. -/
def quadratureDirection (a b : Bool) (changed : Channel) : Direction :=
  match a, b, changed with
  | false, false, .a => .up
  | false, false, .b => .down
  | true, false, .a => .down
  | true, false, .b => .up
  | true, true, .a => .up
  | true, true, .b => .down
  | false, true, .a => .down
  | false, true, .b => .up

/-- The counter after one count; it wraps (R126). -/
def countFrom (counter : Word) : Direction → Word
  | .up => counter + 1
  | .down => counter - 1

/-- A channel's accepted level takes its presented level, and its acceptance ends (R117). -/
def QuadChannel.accept (q : QuadChannel) : QuadChannel := { q with accepted := q.pin, acceptance := none }

/-- Changes one channel of a unit. -/
def PositionUnit.onChannel (u : PositionUnit) (c : Channel) (f : QuadChannel → QuadChannel) : PositionUnit :=
  match c with
  | .a => { u with a := f u.a }
  | .b => { u with b := f u.b }

/-- The unit after one count: counter, last direction and reference state (R125, R126). -/
def PositionUnit.countChange (u : PositionUnit) (c : Channel) : PositionUnit :=
  let d := quadratureDirection u.a.accepted u.b.accepted c
  { u.onChannel c QuadChannel.accept with counter := countFrom u.counter d, lastDirection := some d }

/-- The unit after an illegal transition: the new reference state and the error flag (R127). -/
def PositionUnit.illegal (u : PositionUnit) : PositionUnit :=
  { u with a := u.a.accept, b := u.b.accept, error := true }

/-- The other channel of a pair. -/
def otherChannel : Channel → Channel
  | .a => .b
  | .b => .a

/-- The accepted changes of a unit: of both channels in one period an illegal transition, of one channel one count, with
its arrival handed to every lane (R125, R126, R127). -/
def acceptQuadrature (unit : UnitId) (c : Channel) (both : Bool) (s : State) : State :=
  let u := s.units[unit.val]
  let s := s.markCompared
  if both then
    let s' := s.onUnit unit PositionUnit.illegal
    if u.error then s' else s'.raise (.position unit)
  else
    let direction := quadratureDirection u.a.accepted u.b.accepted c
    handToAll (.arrival unit (countFrom u.counter direction) direction) (s.onUnit unit fun u => u.countChange c)

/-- QUADRATURE_CHANGE (R125, R126, R127). The changes of the two channels fall in one core clock period when they lack the
same number of periods (R128). -/
def quadratureChange (unit : UnitId) (c : Channel) (s : State) : State :=
  let u := s.units[unit.val]
  clockEvent (u.lacking c) (acceptQuadrature unit c (u.lacking (otherChannel c) == u.lacking c)) s

/-- ARRIVAL (R126): the lane takes an arrival handed to it. -/
def arrival (k : LaneId) (u : UnitId) (value : Word) (d : Direction) (s : State) : State :=
  if s.resetLow then s else deliver k (.arrival u value d) s

/-- POS_LOAD (R129). -/
def execPosLoad (value : Word) (s : State) : Answer := .next (posLoad value s)
/-- POS_CLEAR (R130). -/
def execPosClear (value : Word) (s : State) : Answer := .next (posClear value s)
/-- POS_FILT_WRITE (R128). -/
def execPosFiltWrite (unit : UnitId) (value : Word) (s : State) : Answer := .next (posFiltWrite unit value s)
/-- QUADRATURE_CHANGE (R125). -/
def execQuadratureChange (unit : UnitId) (c : Channel) (s : State) : Answer := .next (quadratureChange unit c s)
/-- ARRIVAL (R126). -/
def execArrival (k : LaneId) (u : UnitId) (value : Word) (d : Direction) (s : State) : Answer :=
  .next (arrival k u value d s)

end Sys2Proof.Machine
end

