-- ==== Sys2Proof/Machine/Pins.lean ====
section
/-! DEFINITION. The filtered pins: PRESENTED_LEVEL_CHANGE (R117, R128, R144, R184). -/

namespace Sys2Proof.Machine

/-- The acceptance in progress when the presented level changes: it begins at 0 where the level comes to differ from the
accepted level, and is discarded where it returns to it (R117). Where the channel is compared next in the core clock period
that follows, the level is first seen to differ there, and the acceptance begins there (R118, R119, R128; log 23). -/
def acceptanceOnChange (differs compared : Bool) : Option Nat := if differs && !compared then some 0 else none

/-- Whether the filters work, and whether the pin's channel is compared next in the core clock period that follows: the
comparison of the period in progress is past, or the channel's setting was written in it (R118; log 23). -/
structure Filtering where
  working : Bool
  compared : Bool

/-- A pin takes a raw level. While RESET# is low the pins move and no filter works (R184; log 14). -/
def Inputs.movePin (i : Inputs) (n : InputId) (level : Bool) (f : Filtering) : Inputs :=
  if i.pins.getLsbD n = level then i
  else
    let i' := { i with pins := i.pins ^^^ 1#16 <<< n.val }
    if f.working then { i' with acceptance := i'.acceptance.set n.val (acceptanceOnChange (i'.differs n) f.compared) } else i'

def QuadChannel.movePin (q : QuadChannel) (level : Bool) (f : Filtering) : QuadChannel :=
  if q.pin = level then q
  else
    let q' := { q with pin := level }
    if f.working then { q' with acceptance := acceptanceOnChange q'.differs f.compared } else q'

def TripSource.movePin (t : TripSource) (level : Bool) (f : Filtering) : TripSource :=
  if t.pin = level then t
  else
    let t' := { t with pin := level }
    if f.working then { t' with acceptance := acceptanceOnChange t'.differs f.compared } else t'

/-- A pin takes a raw level. -/
def movePin (pin : FilteredPin) (level : Bool) (s : State) : State :=
  let f : Filtering := ⟨!s.resetLow, s.compared || s.restarted.contains pin⟩
  match pin with
  | .input n => { s with inputs := s.inputs.movePin n level f }
  | .quadrature u c =>
    { s with units := s.units.set u.val (s.units[u.val].onChannel c fun q => q.movePin level f) }
  | .trip n =>
    { s with trips := s.trips.set n.val (s.trips[n.val].movePin level f) }

/-- The level at a pin. -/
def State.pinLevel (s : State) : FilteredPin → Bool
  | .input n => s.inputs.pins.getLsbD n
  | .quadrature u c => (s.units[u.val].channel c).pin
  | .trip n => s.trips[n.val].pin

/-- What the acceptance of a pin's channel still lacks (R117). -/
def State.pinLacking (s : State) : FilteredPin → Option Nat
  | .input n => s.inputs.lacking n
  | .quadrature u c => s.units[u.val].lacking c
  | .trip n => s.trips[n.val].lacking

/-- The accepted change of a pin's channel (R117). -/
def acceptedChange : FilteredPin → State → State
  | .input n => inputAcceptedChange n
  | .quadrature u c => quadratureChange u c
  | .trip n => tripAcceptedChange n

/-- The pin takes the level (R117, R128, R144). An acceptance whose count has been reached makes its accepted change before
its pin moves on (R117; log 23). -/
def takeLevel (pin : FilteredPin) (level : Bool) (s : State) : State :=
  if s.pinLevel pin = level then s
  else movePin pin level (if s.pinLacking pin = some 0 then acceptedChange pin s else s)

/-- Replaces the list of pin moves that have fallen within a host write (log 37). -/
def State.withEarly (s : State) (moves : List (FilteredPin × Bool)) : State := { s with early := moves }

/-- PRESENTED_LEVEL_CHANGE (R117, R128, R144): the pin takes the level, unless this move has fallen within a host write that
stood before it in the queue (R177; log 37). -/
def presentedLevelChange (pin : FilteredPin) (level : Bool) (s : State) : State :=
  match s.early with
  | [] => takeLevel pin level s
  | move :: rest => if move = (pin, level) then s.withEarly rest else takeLevel pin level s

/-- PRESENTED_LEVEL_CHANGE (R117). -/
def execPresentedLevelChange (pin : FilteredPin) (level : Bool) (s : State) : Answer :=
  .next (presentedLevelChange pin level s)

end Sys2Proof.Machine
end

