-- ==== Sys2Proof/Machine/Jobs.lean ====
section
/-! DEFINITION. Table jobs: JOB_COPY, JOB_CHECK, JOB_ABORT, the rows CLEAR_WRITE, COPY_MOVE and CHECK_READ, and the job at a
soft reset (spec/10, spec/01 §1.8). -/

namespace Sys2Proof.Machine

/-- A range of records of the job arguments passes the RANGE conditions (R159, R160). -/
def rangeInTable (first count : Word) : Bool := first.toNat < 512 && first.toNat + count.toNat ≤ 512

/-- The count passes the RANGE conditions (R159, R160). -/
def countInTable (count : Word) : Bool := 0 < count.toNat && count.toNat ≤ 512

/-- A job command: refused BUSY while any job is RUNNING, then RANGE, else the job replaces the context (R159, R160). -/
def jobRequest (valid : State → Bool) (job : State → Job) : State → State :=
  hostAccess fun s =>
    if s.job.state = .running then s.report .busy
    else if !valid s then s.report .range
    else { s with job := job s }.report .taken

/-- JOB_COPY (R159). -/
def jobCopy (_value : Word) : State → State :=
  jobRequest
    (fun s => countInTable s.jobArgCount && rangeInTable s.jobArgSrc s.jobArgCount &&
      rangeInTable s.jobArgDst s.jobArgCount)
    fun s => ⟨.copy, s.jobArgSrc.toNat, s.jobArgDst.toNat, s.jobArgCount.toNat, 0, .running, 0⟩

/-- JOB_CHECK (R160). -/
def jobCheck (_value : Word) : State → State :=
  jobRequest
    (fun s => countInTable s.jobArgCount && rangeInTable s.jobArgSrc s.jobArgCount)
    fun s => ⟨.check, s.jobArgSrc.toNat, 0, s.jobArgCount.toNat, 0, .running, 0xFFFF#16⟩

/-- JOB_ABORT (R164). -/
def jobAbort (_value : Word) : State → State :=
  hostAccess fun s =>
    if s.job.state = .running then
      if s.job.kind = .clear then s.report .busy
      else raiseJob .aborted ({ s with job := { s.job with state := .aborted } }.report .taken)
    else s.report .state

/-- An access of a RUNNING job of this kind may be served (R161): RESET# is high, and no waiting fetch has waited for an
access already. -/
def State.jobRuns (s : State) (kind : JobKind) : Bool :=
  !s.resetLow && s.job.state = .running && s.job.kind = kind && s.accessFree

/-- CLEAR_WRITE (R15). -/
def clearWrite (s : State) : State := if s.jobRuns .clear then serveAccess s else s

/-- COPY_MOVE (R162). -/
def copyMove (s : State) : State := if s.jobRuns .copy then serveAccess s else s

/-- CHECK_READ (R163). -/
def checkRead (s : State) : State := if s.jobRuns .check then serveAccess s else s

/-- The access of a host's job that is being served when a soft reset is taken completes, and progress counts it (R166). -/
def completeAccess (s : State) : State :=
  let t :=
    match s.job.kind with
    | .clear => s
    | .copy => moveRecord s
    | .check => foldRecord s
  { t with job := { t.job with progress := t.job.progress + 1 } }

/-- The table job takes a soft reset: a RUNNING host job is abandoned, and the power-on clear runs on (R17, R166). Whether
an access of the job is being served at that moment is a free choice (log 3); none is while a fetch waits that has waited
for an access already (R161). -/
def abandonJob (s : State) : State :=
  if s.job.state = .running && s.job.kind ≠ .clear then
    let t := if s.accessFree && Config.pick s.picks % 2 ≠ 0 then completeAccess s else s
    { t with job := { t.job with state := .idle } }.pickDone
  else s

/-- JOB_COPY (R159). -/
def execJobCopy (value : Word) (s : State) : Answer := .next (jobCopy value s)
/-- JOB_CHECK (R160). -/
def execJobCheck (value : Word) (s : State) : Answer := .next (jobCheck value s)
/-- JOB_ABORT (R164). -/
def execJobAbort (value : Word) (s : State) : Answer := .next (jobAbort value s)
/-- CLEAR_WRITE (R15). -/
def execClearWrite (s : State) : Answer := .next (clearWrite s)
/-- COPY_MOVE (R162). -/
def execCopyMove (s : State) : Answer := .next (copyMove s)
/-- CHECK_READ (R163). -/
def execCheckRead (s : State) : Answer := .next (checkRead s)

end Sys2Proof.Machine
end

