-- ==== Sys2Proof/Machine/Chain.lean ====
section
/-! DEFINITION. What goes on beside a host write of several parts, and what follows from a write: the machine side, the
Timebase, the table job and the lanes go on during an access (R12, R28, R177), and the write completes its own chain before
the next access (R135, R141). -/

namespace Sys2Proof.Machine

/-- Something that can happen while a host write is under way. -/
inductive Happening where
  | work (w : Work)
  | access
  | acceptance (pin : FilteredPin)
  | tick
  | move (pin : FilteredPin) (level : Bool)
  | period
deriving DecidableEq, Repr

/-- The event of the core clock is the next that falls due; core clock periods go by only when no lane has an event to
take (log 5). -/
def State.comesNext (s : State) : Option Nat → Bool
  | none => false
  | some d => s.nothingBefore d && (d == 0 || (s.work 0).isEmpty)

/-- The pin moves that stand at the front of a queue of commands, with no other command before them. -/
def frontMoves : List Instr → List (FilteredPin × Bool)
  | .presentedLevelChange pin level :: rest => (pin, level) :: frontMoves rest
  | _ => []

/-- The pin moves that may fall within the write, in the sender's order: those that follow it in the queue and have not
happened (R177; log 37). -/
def State.movesAhead (s : State) : List (FilteredPin × Bool) := (frontMoves s.pending).drop s.early.length

/-- What the machine side can do next: the next pin move, and before it a core clock period in which nothing falls due (R177;
log 37). -/
def State.machineSide (s : State) : List Happening :=
  match s.movesAhead with
  | [] => []
  | (pin, level) :: _ => .move pin level :: if s.comesNext (some 1) then [.period] else []

/-- What lane k can do while a host write is under way. The fetches of the lanes in `but` are served in their place in the
write. -/
def State.lanesWork (s : State) (but : LaneMask) (k : LaneId) : List Happening :=
  ((s.lane k).work k (s.inTurn k && !but.getLsbD k)).map .work

/-- What can happen next while a host write is under way: the lanes' fetches and takings, the arrival of a notice, the access
of the table job, the next events of the core clock and the next pin move (R12, R28, R172, R177). -/
def State.happenings (s : State) (but : LaneMask) : List Happening :=
  allLanes.flatMap (s.lanesWork but) ++
  s.arrivals.map .work ++
  (if s.accessWaits then [.access] else []) ++
  (filteredPins.filter fun pin => s.comesNext (s.pinLacking pin)).map .acceptance ++
  (if s.comesNext s.timebase.lacking then [.tick] else []) ++
  s.machineSide

/-- Does something while the emissions that wait to be handed out are kept aside. -/
def aside (act : State → State) (s : State) : State := (act (s.withOutbox [])).withOutbox s.outbox

/-- One of these things happens. The emissions that wait until every lane named has judged (R30) go on waiting; those that
the thing itself leads to are handed out. -/
def happen (s : State) : Happening → State
  | .work w => aside (fun s => handOut (doWork s w)) s
  | .access => serveAccess s
  | .acceptance pin => aside (acceptedChange pin) s
  | .tick => aside (tick 0) s
  | .move pin level => aside (takeLevel pin level) (s.withEarly (s.early ++ [(pin, level)]))
  | .period => elapse 1 s

/-- The chain of the write after one of these things. -/
def Chain.afterHappening (c : Chain) (s : State) : Happening → Chain
  | .work w => c.after (doWork s w) w
  | .access | .acceptance _ | .tick | .move _ _ | .period => c

/-- This many things happen, each a free choice (log 3), beside the chain of a write and within it. -/
def goOn (but : LaneMask) : Nat → Chain → State → Chain × State
  | 0, c, s => (c, s)
  | n + 1, c, s =>
    match s.happenings but with
    | [] => (c, s)
    | h :: hs =>
      match choose h hs s with
      | (h, s) => goOn but n (c.afterHappening s h) (happen s h)

/-- Between two parts of a host write a free number of things happens (R28, R177; log 3, log 4). Where nothing is under way,
nothing does. -/
def interlude (but : LaneMask) (s : State) : State :=
  if (s.happenings but).isEmpty then s else (goOn but (Config.pick s.picks) ⟨0, 0⟩ s.pickDone).2

/-- The mask of these lines, or of these lanes. -/
def maskOfLines (lines : List LaneId) : LaneMask := lines.foldl (fun m line => m ||| 1#8 <<< line.val) 0

/-- What a host write must still do is done: the emissions in the outbox are handed out, and they and all that follows from
them are completed (R135, R177). Where other things are under way, a free number of things happens first, of the chain and
beside it (log 3, log 4). -/
def followUp (s : State) : State :=
  if s.outbox = [] then s
  else
    let c : Chain := ⟨maskOfLines s.outbox, 0⟩
    let r :=
      if (s.happenings 0).isEmpty then (c, handOut s) else goOn 0 (Config.pick s.picks) c (handOut s).pickDone
    settle true (workBound r.2) r.1 r.2

end Sys2Proof.Machine
end

