-- ==== Sys2Proof/Machine/Trips.lean ====
section
/-! DEFINITION. The Trip Unit: TRIP_CONFIG, TRIP_ASSERT, TRIP_CLEAR, TRIP_ACCEPTED_CHANGE and TRIP_FORCING (spec/09). -/

namespace Sys2Proof.Machine

/-- Every lane that keeps a forcing completes its entry, in ascending order, and the TRIP notices of the settings, complete
now, are stored (R147, R148). -/
def completeSettings (s : State) : State := (completeLanes (waitingLanes s.settings) s).arriveFrom .tripUnit

/-- The setting of a latch by a host command: the forcings of the settings that wait are taken within the write, so that the
TRIP notices are stored before the next access, in the order of the settings (R143, R146, R148). The order in which the lanes
complete their entries is free: other things, their fetches among them, may happen first, and what is left is completed in
ascending order (R12, R172; log 34). -/
def setLatchNow (n : SourceId) (s : State) : State := followUp (completeSettings (interlude 0 (setLatch n s)))

/-- The configuration of a pin source replaced (R143): a change of polarity discards the acceptance and takes the
accepted level afresh, a change of the filter count alone discards the acceptance. -/
def TripSource.configurePin (t : TripSource) (arg0 arg1 : Word) : TripSource :=
  let t' := { t with
    enable := arg0.getLsbD 0, scope := maskOf arg1, activeLow := arg0.getLsbD 1, filter := arg0.extractLsb' 8 8 }
  if t.activeLow ≠ t'.activeLow then { t' with active := t'.presented, acceptance := none }
  else if t.filter ≠ t'.filter then { t' with acceptance := none }
  else t'

/-- The configuration of SW replaced: enable and scope alone (R142, R143). -/
def TripSource.configureSw (t : TripSource) (arg0 arg1 : Word) : TripSource :=
  { t with enable := arg0.getLsbD 0, scope := maskOf arg1 }

/-- A taken TRIP_CONFIG begins the filter of a pin source afresh: its polarity or its filter count changes (R143). -/
def TripSource.refilters (t t' : TripSource) : Bool := t.activeLow != t'.activeLow || t.filter != t'.filter

/-- A taken TRIP_CONFIG of source n: its configuration, and its latch when it is then enabled and active (R143, R145). -/
def configureTrip (n : SourceId) (s : State) : State :=
  if n = swSource then s.onTrip n fun t => t.configureSw s.tripArg0 s.tripArg1
  else
    let old := s.trips[n.val]
    let s := s.onTrip n fun t => t.configurePin s.tripArg0 s.tripArg1
    let t := s.trips[n.val]
    let s := s.restart fun
      | .trip m => m.castSucc = n && old.refilters t
      | .input _ | .quadrature _ _ => false
    if t.enable && t.active then setLatchNow n s else s

/-- TRIP_CONFIG (R143). -/
def tripConfig (value : Word) : State → State :=
  hostAccess fun s =>
    let n := wordField value 0 3
    if h : n < 5 then
      if s.trips[n].latch then s.report .state else configureTrip ⟨n, h⟩ (s.report .taken)
    else s.report .range

/-- TRIP_ASSERT (R146). -/
def tripAssert (_value : Word) : State → State :=
  hostAccess fun s =>
    let t := s.trips[swSource.val]
    if !t.enable then s.report .state
    else if t.latch then s.report .taken
    else setLatchNow swSource (s.report .taken)

/-- TRIP_CLEAR is refused for this source: a pin source whose accepted level is active (R151). -/
def State.clearRefused (s : State) (n : SourceId) : Bool := n ≠ swSource && s.trips[n.val].active

/-- TRIP_CLEAR (R151): each named source is judged on its own, and TRIP_REFUSED shows the refusals. -/
def tripClear (value : Word) : State → State :=
  hostAccess fun s =>
    let refused := BitVec.ofFnLE fun n : Fin 5 => value.getLsbD n && s.clearRefused n
    { s with
      trips := Vector.ofFn fun n =>
        if value.getLsbD n && !s.clearRefused n then { s.trips[n.val] with latch := false } else s.trips[n.val]
      tripRefused := refused }.report (if refused = 0 then .taken else .active)

/-- TRIP_FORCING (R27): the lane takes a forcing that reached it during an entry now complete. -/
def tripForcing (k : LaneId) (source : SourceId) (s : State) : State :=
  if s.resetLow then s else deliver k (.forcing source) s

/-- TRIP_CONFIG (R143). -/
def execTripConfig (value : Word) (s : State) : Answer := .next (tripConfig value s)
/-- TRIP_ASSERT (R146). -/
def execTripAssert (value : Word) (s : State) : Answer := .next (tripAssert value s)
/-- TRIP_CLEAR (R151). -/
def execTripClear (value : Word) (s : State) : Answer := .next (tripClear value s)
/-- TRIP_ACCEPTED_CHANGE (R144). -/
def execTripAcceptedChange (n : Fin 4) (s : State) : Answer := .next (tripAcceptedChange n s)
/-- TRIP_FORCING (R27). -/
def execTripForcing (k : LaneId) (source : SourceId) (s : State) : Answer := .next (tripForcing k source s)

end Sys2Proof.Machine
end

