-- ==== Sys2Proof/Machine/Control.lean ====
section
/-! DEFINITION. CONTROL and the Timebase's registers: DRIVE_EN, TB_RUN, NOTICE_IRQ_EN, SOFT_RESET, TB_DIV_PRE_WRITE and
TB_COUNT_WRITE (spec/12 §12.4, §12.5). -/

namespace Sys2Proof.Machine

/-- TB_RUN takes a value: a fresh period begins where it goes from clear to set, the period in progress is discarded
where it goes from set to clear, and nothing changes otherwise (R182, R185). -/
def Timebase.setRun (t : Timebase) (on : Bool) : Timebase :=
  if t.running = on then t
  else if on then { t with running := true, period := some t.freshPeriod }
  else { t with running := false, period := none }

/-- Drive enable takes a value (R103). Where it is set again every line shows the level of that moment: a pulse that has ended,
whose line was to stay inverted until an entry is complete, does not appear (R103; log 30). -/
def State.setDrive (s : State) (on : Bool) : State :=
  if on && !s.driveEnable then { s.onLanes fun _ => Lane.bridge none with driveEnable := on }
  else { s with driveEnable := on }

/-- A write of CONTROL with SOFT_RESET at 0 replaces its three bits together (R182). -/
def controlWrite (drive run irq : Bool) (s : State) : State :=
  { s.setDrive drive with timebase := s.timebase.setRun run, irqEnable := irq }

/-- DRIVE_EN (R103): the other bits of CONTROL are written as they stand (log 12). -/
def driveEn (on : Bool) : State → State :=
  hostAccess fun s => controlWrite on s.timebase.running s.irqEnable s

/-- TB_RUN (R185): the other bits of CONTROL are written as they stand (log 12). -/
def tbRun (on : Bool) : State → State :=
  hostAccess fun s => controlWrite s.driveEnable on s.irqEnable s

/-- NOTICE_IRQ_EN (R175): the other bits of CONTROL are written as they stand (log 12). -/
def noticeIrqEn (on : Bool) : State → State :=
  hostAccess fun s => controlWrite s.driveEnable s.timebase.running on s

/-! ## Soft reset -/

/-- Acceptances discarded, and the accepted levels taken afresh from the presented levels (R121). -/
def Inputs.resample (i : Inputs) : Inputs :=
  { i with accepted := i.pins ^^^ i.polarity, acceptance := .replicate 16 none }

/-- A channel's acceptance discarded, and its accepted level taken afresh from its pin (R132). -/
def QuadChannel.resample (q : QuadChannel) : QuadChannel := { q with accepted := q.pin, acceptance := none }

/-- A Position Unit takes a soft reset (R132). -/
def PositionUnit.softReset (u : PositionUnit) : PositionUnit :=
  { u with a := u.a.resample, b := u.b.resample, error := false }

/-- A trip source takes a soft reset: steps 1 and 2 of R155. -/
def TripSource.softReset (t : TripSource) : TripSource :=
  { t with latch := false, active := t.presented, acceptance := none }

/-- The pin sources (R142). -/
def pinSources : List SourceId := [0, 1, 2, 3]

/-- The pin sources that latch again at a soft reset: enabled, with their accepted level active (R155). -/
def State.activeSources (s : State) : List SourceId :=
  pinSources.filter fun n => s.trips[n.val].enable && s.trips[n.val].active

/-- The lanes, which are all IDLE, take what is on its way to them, which changes nothing in them: a tick that falls during the
soft reset and is taken after it (R26, R183). -/
def takeIdly (s : State) : State := s.onLanes fun _ l => l.withComing []

/-- When the blocks have taken the soft reset a free number of things happens, as within any host write of several parts
(R177, R183; log 4, log 38). The ticks that fall then find every lane IDLE and are taken before the reset is complete (R183),
and the notices raised are discarded (R176). -/
def discarding (s : State) : State := (takeIdly (interlude 0 s)).withNotices s.queue s.late

/-- Sets the latches of these sources, one after another in a free order (R148; log 3). The first argument is how many
there are. -/
def setLatches : Nat → List SourceId → State → State
  | 0, _, s => s
  | _ + 1, [], s => s
  | n + 1, x :: rest, s =>
    match choose x rest s with
    | (y, s) => setLatches n ((x :: rest).erase y) (setLatch y s)

/-- Step 3 of R155: each enabled pin source that is active when the levels have been taken afresh sets its latch again at once,
with nothing in between (log 38). Latches that set together are set in either order (R148). -/
def relatch (s : State) : State := setLatches s.activeSources.length s.activeSources s

/-- Every block but the table job takes the soft reset in one act (R183; log 38), which `relatch` completes: here the Trip Unit
takes steps 1 and 2 of R155. -/
def resetBlocks (s : State) : State :=
  { s with
    lanes := Vector.ofFn fun k => .fresh (s.lane k).descriptor
    driveEnable := false
    inputs := s.inputs.resample
    units := Vector.ofFn fun u => s.units[u.val].softReset
    trips := Vector.ofFn fun n => s.trips[n.val].softReset
    settings := []
    tripRefused := 0
    queue := []
    late := []
    cmdResult := .taken
    cmdRefused := 0
    laneSel := 0
    outbox := [] }

/-- SOFT_RESET (R183): the blocks take it in one act, the settings of the latches included (R155), and before that act and
after it other things may happen (R176, R177; log 38). -/
def softReset (s : State) : State :=
  if s.resetLow then s else discarding (relatch (resetBlocks (abandonJob (interlude 0 s))))

/-! ## The Timebase's registers -/

/-- TB_DIV_PRE_WRITE (R186): stored at once; the period in progress is left as it is. -/
def tbDivPreWrite (setting : TimebaseSetting) (value : Word) : State → State :=
  hostAccess fun s =>
    match setting with
    | .div => { s with timebase := { s.timebase with div := value } }
    | .pre => { s with timebase := { s.timebase with pre := value.setWidth 2 } }

/-- TB_COUNT_WRITE (R186). -/
def tbCountWrite (value : Word) : State → State :=
  hostAccess fun s => { s with timebase := { s.timebase with counter := value } }

/-- DRIVE_EN (R103). -/
def execDriveEn (on : Bool) (s : State) : Answer := .next (driveEn on s)
/-- TB_RUN (R185). -/
def execTbRun (on : Bool) (s : State) : Answer := .next (tbRun on s)
/-- NOTICE_IRQ_EN (R175). -/
def execNoticeIrqEn (on : Bool) (s : State) : Answer := .next (noticeIrqEn on s)
/-- SOFT_RESET (R183). -/
def execSoftReset (s : State) : Answer := .next (softReset s)
/-- TB_DIV_PRE_WRITE (R186). -/
def execTbDivPreWrite (setting : TimebaseSetting) (value : Word) (s : State) : Answer :=
  .next (tbDivPreWrite setting value s)
/-- TB_COUNT_WRITE (R186). -/
def execTbCountWrite (value : Word) (s : State) : Answer := .next (tbCountWrite value s)

end Sys2Proof.Machine
end

