-- ==== Sys2Proof/Machine/LaneCommands.lean ====
section
/-! DEFINITION. The lane commands (spec/02 §2.5 to §2.7, spec/05 §5.2): how a write reports, and what each lane named does.
A lane's judgement answers the refusal code, or the state in which the lane has taken the command. -/

namespace Sys2Proof.Machine

/-- What a lane named makes of a command. -/
abbrev Judgement := Except Result State

/-- A lane named refuses a command: its last result and its bit of CMD_REFUSED (R29). -/
def refuseLane (k : LaneId) (r : Result) (s : State) : State :=
  { s.onLane k (fun l => { l with lastResult := r }) with cmdRefused := s.cmdRefused ||| 1#8 <<< k.val }

/-- A lane named takes or refuses the command (R28, R29): it completes the entry it is in the middle of, judges the command
and reports. The entry that the command causes, if any, waits for its fetch. What the lane emits stays in the outbox until
every lane named has judged (R30; log 19). -/
def judgeLane (judge : LaneId → State → Judgement) (k : LaneId) (s : State) : State :=
  let s := completeLane k s
  match judge k s with
  | .ok t => t.onLane k fun l => { l with lastResult := .taken }
  | .error r => refuseLane k r s

/-- The fetch of lane k's entry is served and the entry completes, with the notice that it raises on its way. -/
def serveFetchApart (k : LaneId) (s : State) : State :=
  let r := withheld (serveFetch k) s
  r.1.send (.lane k) r.2

/-- One part of a lane command: a lane named takes or refuses it, the fetch of the entry it causes in a lane is served, or the
notice of that entry is stored. -/
inductive Part where
  | judge (lane : LaneId)
  | fetch (lane : LaneId)
  | store (lane : LaneId)
deriving DecidableEq, Repr

/-- What a lane command still has to do: the lanes that have not judged it, those whose entry of the command waits for its
fetch, and those in which the notice of that entry is on its way. -/
structure Todo where
  left : List LaneId
  waiting : List LaneId
  held : List LaneId
deriving DecidableEq, Repr

/-- Nothing of the command is left to do. -/
def Todo.done : Todo := ⟨[], [], []⟩

/-- The notices that these lanes have on their way in s are so in t. -/
abbrev State.Keeps (lanes : List LaneId) (s t : State) : Prop := ∀ k ∈ lanes, s.lateOf (.lane k) <+: t.lateOf (.lane k)

/-- The parts that can come next in s, in any order (R12, R29, R30; log 19): the notices of the entries of the command are
stored, the fetches of these entries are served, and the lanes that are left judge the command. A judgement that would bring a
notice that the command holds back to the queue cannot come next. -/
def Todo.parts (judge : LaneId → State → Judgement) (x : Todo) (s : State) : List Part :=
  x.held.map .store ++ x.waiting.map .fetch ++ (x.left.filter fun k => State.Keeps x.held s (judgeLane judge k s)).map .judge

/-- Does one part. -/
def doPart (judge : LaneId → State → Judgement) (s : State) : Part → State
  | .judge k => judgeLane judge k s
  | .fetch k => serveFetchApart k s
  | .store k => s.arriveFrom (.lane k)

/-- What is still to do when a part has led from s to t. -/
def Todo.after (x : Todo) (s t : State) : Part → Todo
  | .judge k => { x with left := x.left.erase k, waiting := if (t.lane k).entry.isSome then x.waiting ++ [k] else x.waiting }
  | .fetch k => { x with
      waiting := x.waiting.erase k, held := if t.lateOf (.lane k) = s.lateOf (.lane k) then x.held else x.held ++ [k] }
  | .store k => { x with held := x.held.erase k }

/-- The lane whose notice, of an entry that the command causes, the part stores. -/
def Part.stores : Part → List LaneId
  | .judge _ | .fetch _ => []
  | .store k => [k]

/-- The arrival of a notice that the command holds back. -/
def Todo.holds (x : Todo) : Happening → Bool
  | .work (.notice (.lane k)) => x.held.contains k
  | .work _ | .access | .acceptance _ | .tick | .move _ _ | .period => false

/-- Between two parts a free number of other things happens (R12, R28, R177; log 4, log 31, log 32), but for the fetches that
are parts themselves and the arrival of the notices that the command holds back: where one would have arrived nothing
happens. -/
def Todo.between (x : Todo) (s : State) : State :=
  let but := maskOfLines x.waiting
  if (s.happenings but).all x.holds then s
  else
    let t := interlude but s
    if State.Keeps x.held s t then t else s

/-- The next part, by a free choice (`free`; log 3) or the first. -/
def nextPart (free : Bool) (p : Part) (ps : List Part) (s : State) : Part × State := if free then choose p ps s else (p, s)

/-- The parts of a lane command, one after another, in a free order (`free`; log 3) or in that of the list, with other things
between them. The answer names the lanes whose notices, of entries that the command causes, are stored, in the order in which
they are. The first argument bounds the number of parts. -/
def doParts (free : Bool) (judge : LaneId → State → Judgement) : Nat → Todo → State → List LaneId × State
  | 0, _, s => ([], s)
  | n + 1, x, s =>
    if x = .done then ([], s)
    else
      let u := x.between s
      match x.parts judge u with
      | [] => ([], u)
      | p :: ps =>
        let choice := nextPart free p ps u
        let t := doPart judge u choice.1
        let r := doParts free judge n (x.after u t choice.1) (t.withPicks choice.2.picks)
        (choice.1.stores ++ r.1, r.2)

/-- What a lane command has to do at first: eight lanes at most judge it, with an entry and its notice each, so that there are
no more than 24 parts. -/
def Todo.first (mask : LaneMask) : Todo := ⟨lanesOf mask, [], []⟩

/-- Every lane of the mask takes or refuses the command, and completes the entry it causes (R29, R30). The order is free, but
that the notices of these entries are stored in ascending lane order (R30, R172; log 19): an order that would break this is not
a run, and one that does not is taken in its place. -/
def commandLanes (judge : LaneId → State → Judgement) (mask : LaneMask) (s : State) : State :=
  let drawn := doParts true judge 24 (.first mask) s
  if drawn.1.Pairwise (· < ·) then drawn.2 else (doParts false judge 24 (.first mask) s).2

/-- A write of a lane command register (R29, R30): CMD_REFUSED is cleared, every lane named takes its part, and then the
emissions are handed out and all that follows is completed (R177). -/
def laneCommand (judge : LaneId → State → Judgement) (mask : LaneMask) : State → State :=
  hostAccess fun s => followUp (commandLanes judge mask { s with cmdRefused := 0 })

/-! ## Starting, holding and stopping -/

/-- A lane that is armed waits at PRESET with its walk cleared (R32). -/
def Lane.arm (l : Lane) : Lane :=
  { l.unenter with
    cycles := 0, faultCause := none, active := l.descriptor.preset, pulse := none, state := .armed }

/-- LANE_START, one lane (R31, R32). -/
def judgeStart (k : LaneId) (s : State) : Judgement :=
  let l := s.lane k
  if s.clearRunning then .error .busy
  else if l.state = .idle || l.state = .done then
    if s.covered k then .error .tripped
    else if l.descriptor.startSource = .command then
      .ok (requestEntry k true l.descriptor.preset .start
        (s.onLane k fun l => { l with cycles := 0, faultCause := none }))
    else .ok (s.onLane k Lane.arm)
  else .error .state

/-- A lane returns to IDLE at PRESET of its descriptor in force with its walk cleared; pattern, cycle count and fault
cause are kept (R36). -/
def Lane.goIdle (l : Lane) : Lane :=
  { l.unenter.forget with active := l.descriptor.preset, state := .idle, pulse := none, stack := [] }

/-- LANE_STOP, one lane (R36, R98). -/
def judgeStop (k : LaneId) (s : State) : Judgement :=
  let l := s.lane k
  if l.state = .idle || l.state = .tripped then .error .state
  else
    match l.swap with
    | some d => .ok ((installSwap k d .stop s).onLane k Lane.goIdle)
    | none => .ok (s.onLane k Lane.goIdle)

/-- LANE_HOLD, one lane (R33). -/
def judgeHold (k : LaneId) (s : State) : Judgement :=
  if (s.lane k).state = .running then .ok (s.onLane k fun l => { l with state := .held }) else .error .state

/-- LANE_RELEASE, one lane (R34, R66). -/
def judgeRelease (k : LaneId) (s : State) : Judgement :=
  let l := s.lane k
  if l.state = .held then
    if l.entered then .ok (advanceIfMet k (s.onLane k fun l => { l with state := .running }))
    else .ok (enter k true l.active .release s)
  else .error .state

/-- LANE_STEP, one lane (R35, R62). -/
def judgeStep (k : LaneId) (s : State) : Judgement :=
  let l := s.lane k
  if l.takesConditions && l.stepKind .command then .ok (advanceIfMet k (s.onLane k Lane.setLatch))
  else .error .state

/-! ## Recovery and redirection -/

/-- The RESUME entry of the active offset: a re-entry when entered is yes, a full entry when it is no (R37, R38). -/
def resumeEntry (k : LaneId) (s : State) : State :=
  enter k (!(s.lane k).entered) (s.lane k).active .resume s

/-- LANE_RESUME, one lane (R37, R38). -/
def judgeResume (k : LaneId) (s : State) : Judgement :=
  let l := s.lane k
  match l.state with
  | .faulted =>
    if s.covered k then .error .tripped
    else .ok (resumeEntry k (s.onLane k fun l => { l with faultCause := none }))
  | .tripped =>
    if s.covered k then .error .tripped
    else
      match l.prior with
      | some .armed => .ok (s.onLane k fun l => { l with state := .armed, prior := none })
      | some .done => .ok (s.onLane k fun l => { l with state := .done, prior := none })
      | some .faulted => .ok (s.onLane k fun l => { l with state := .faulted, prior := none })
      | some .running | some .held => .ok (resumeEntry k (s.onLane k fun l => { l with prior := none }))
      | none => .error .state
  | .idle | .armed | .running | .held | .done => .error .state

/-- A lane moves to another offset without entering it (R39). Without a current step it takes no condition events, and those on
their way do not reach it any more (R26; log 7). -/
def Lane.jump (l : Lane) (offset : Nat) : Lane := { l.unenter.forget with active := offset, stack := [] }

/-- LANE_JUMP, the lane named (R39). -/
def judgeJump (offset : Nat) (k : LaneId) (s : State) : Judgement :=
  let l := s.lane k
  if l.state = .held || l.state = .faulted then
    if l.descriptor.length ≤ offset then .error .range else .ok (s.onLane k fun l => l.jump offset)
  else .error .state

/-- A lane returns to IDLE with its walk cleared (R40). -/
def Lane.clear (l : Lane) : Lane := { l.goIdle with swap := none, faultCause := none, prior := none, cycles := 0 }

/-- LANE_RESET, one lane (R40). -/
def judgeReset (k : LaneId) (s : State) : Judgement := .ok (s.onLane k Lane.clear)

/-- LANE_LOAD, one lane (R41): the staging descriptor is checked once for the write (R21). -/
def judgeLoad (k : LaneId) (s : State) : Judgement :=
  if s.clearRunning then .error .busy
  else
    match s.staging.image with
    | none => .error .range
    | some d =>
      match (s.lane k).state with
      | .armed | .running | .held => .error .state
      | .idle | .done | .faulted | .tripped => .ok (s.onLane k fun l => Lane.clear { l with descriptor := d })

/-! ## Swaps -/

/-- The lane takes no swap: IDLE, DONE, or TRIPPED with trip prior state DONE (R90). -/
def Lane.refusesSwap (l : Lane) : Bool :=
  l.state = .idle || l.state = .done || (l.state = .tripped && l.prior = some .done)

/-- LANE_SWAP, one lane (R90). -/
def judgeSwap (k : LaneId) (s : State) : Judgement :=
  match s.staging.image with
  | none => .error .range
  | some d =>
    if (s.lane k).refusesSwap then .error .state
    else if (s.lane k).swap.isSome then .error .pending
    else .ok (s.onLane k fun l => { l with swap := some d })

/-- LANE_CANCEL_SWAP, one lane (R91). -/
def judgeCancelSwap (k : LaneId) (s : State) : Judgement :=
  if (s.lane k).swap.isSome then .ok (s.onLane k fun l => { l with swap := none }) else .error .state

/-! ## The commands -/

def laneStart (value : Word) : State → State := laneCommand judgeStart (maskOf value)
def laneStop (value : Word) : State → State := laneCommand judgeStop (maskOf value)
def laneHold (value : Word) : State → State := laneCommand judgeHold (maskOf value)
def laneRelease (value : Word) : State → State := laneCommand judgeRelease (maskOf value)
def laneReset (value : Word) : State → State := laneCommand judgeReset (maskOf value)
def laneResume (value : Word) : State → State := laneCommand judgeResume (maskOf value)
def laneStep (value : Word) : State → State := laneCommand judgeStep (maskOf value)
/-- LANE_JUMP names one lane, in bits 12–14, and carries an offset, in bits 0–8 (R39). -/
def laneJump (value : Word) : State → State :=
  laneCommand (judgeJump (jumpOffset value)) (1#8 <<< (laneAt value 12).val)
def laneLoad (value : Word) : State → State := laneCommand judgeLoad (maskOf value)
def laneSwap (value : Word) : State → State := laneCommand judgeSwap (maskOf value)
def laneCancelSwap (value : Word) : State → State := laneCommand judgeCancelSwap (maskOf value)

/-- LANE_START (R31, R32). -/
def execLaneStart (value : Word) (s : State) : Answer := .next (laneStart value s)
/-- LANE_STOP (R36). -/
def execLaneStop (value : Word) (s : State) : Answer := .next (laneStop value s)
/-- LANE_HOLD (R33). -/
def execLaneHold (value : Word) (s : State) : Answer := .next (laneHold value s)
/-- LANE_RELEASE (R34). -/
def execLaneRelease (value : Word) (s : State) : Answer := .next (laneRelease value s)
/-- LANE_RESET (R40). -/
def execLaneReset (value : Word) (s : State) : Answer := .next (laneReset value s)
/-- LANE_RESUME (R37, R38). -/
def execLaneResume (value : Word) (s : State) : Answer := .next (laneResume value s)
/-- LANE_STEP (R35). -/
def execLaneStep (value : Word) (s : State) : Answer := .next (laneStep value s)
/-- LANE_JUMP (R39). -/
def execLaneJump (value : Word) (s : State) : Answer := .next (laneJump value s)
/-- LANE_LOAD (R41). -/
def execLaneLoad (value : Word) (s : State) : Answer := .next (laneLoad value s)
/-- LANE_SWAP (R90). -/
def execLaneSwap (value : Word) (s : State) : Answer := .next (laneSwap value s)
/-- LANE_CANCEL_SWAP (R91). -/
def execLaneCancelSwap (value : Word) (s : State) : Answer := .next (laneCancelSwap value s)

end Sys2Proof.Machine
end

