-- ==== Sys2Proof/Machine/Lines.lean ====
section
/-! DEFINITION. The Output Line Unit: LINE_ASSIGN, LINE_FREE, the safe levels, and the level of every line (spec/06). -/

namespace Sys2Proof.Machine

/-- The line has an owner and that owner is not IDLE (R104, R105). -/
def State.ownerBusy (s : State) (n : Fin 32) : Bool :=
  s.owners[n.val].any fun k => (s.lane k).state ≠ .idle

/-- LINE_ASSIGN (R104). -/
def lineAssign (value : Word) : State → State :=
  hostAccess fun s =>
    if s.ownerBusy (lineOf value) then s.report .owned
    else if (s.lane (laneAt value 8)).state ≠ .idle then s.report .state
    else { s with owners := s.owners.set (lineOf value).val (some (laneAt value 8)) }.report .taken

/-- LINE_FREE (R105). -/
def lineFree (value : Word) : State → State :=
  hostAccess fun s =>
    if s.ownerBusy (lineOf value) then s.report .owned
    else { s with owners := s.owners.set (lineOf value).val none }.report .taken

/-- One of SAFE_LO and SAFE_HI replaced (R102). -/
def replaceSafe (half : SafeHalf) (value : Word) (levels : LineField) : LineField :=
  match half with
  | .lo => levels.extractLsb' 16 16 ++ value
  | .hi => value ++ levels.extractLsb' 0 16

/-- SAFE_LEVEL_WRITE (R102). -/
def safeLevelWrite (half : SafeHalf) (value : Word) : State → State :=
  hostAccess fun s => { s with safeLevels := replaceSafe half value s.safeLevels }

/-- The lane inverts its pattern on line n: a pulse is in flight on it, or a pulse on it ended at the tick that led to the
entry in progress (R107, R108, R113). -/
def Lane.inverts (l : Lane) (n : Fin 32) : Bool :=
  (l.pulse.any fun p => p.line = n) || (l.entry.any fun e => e.bridged = some n)

/-- What a lane shows on line n that it owns, or none where the line shows its safe level (R107). -/
def Lane.shows (l : Lane) (n : Fin 32) : Option Bool :=
  let bit := l.pattern.getLsbD n
  match l.state with
  | .idle | .armed | .tripped => none
  | .faulted => if l.descriptor.faultPolicy = .hold then some bit else none
  | .running | .held | .done => some (if l.inverts n then !bit else bit)

/-- The level of output line n (R107); 0 while RESET# is asserted (R109). -/
def State.outLevel (s : State) (n : Fin 32) : Bool :=
  if s.resetLow then false
  else
    let safe := s.safeLevels.getLsbD n
    if !s.driveEnable then safe
    else
      match s.owners[n.val] with
      | none => safe
      | some k => ((s.lane k).shows n).getD safe

/-- LINE_ASSIGN (R104). -/
def execLineAssign (value : Word) (s : State) : Answer := .next (lineAssign value s)
/-- LINE_FREE (R105). -/
def execLineFree (value : Word) (s : State) : Answer := .next (lineFree value s)
/-- SAFE_LEVEL_WRITE (R102). -/
def execSafeLevelWrite (half : SafeHalf) (value : Word) (s : State) : Answer := .next (safeLevelWrite half value s)

end Sys2Proof.Machine
end

