-- ==== Sys2Proof/Machine/Notices.lean ====
section
/-! DEFINITION. The Notice Queue: NOTICE_POP and the interrupt line (spec/11). Arrival is `Queue.arrive`. -/

namespace Sys2Proof.Machine

/-- The oldest record is removed, and nothing changes where there is none (R174). -/
def popOldest (s : State) : State :=
  match s.queue with
  | [] => s.report .empty
  | _ :: rest => { s with queue := rest }.report .taken

/-- NOTICE_POP (R174): notices that reach the queue together with the request arrive before it or after it (R172), so that a
free number of things happens first (log 4). -/
def noticePop (_value : Word) : State → State := hostAccess fun s => popOldest (interlude 0 s)

/-- The interrupt line is asserted (R175); deasserted while RESET# is asserted (R184). -/
def State.irqLine (s : State) : Bool := !s.resetLow && s.irqEnable && !s.queue.isEmpty

/-- NOTICE_POP (R174). -/
def execNoticePop (value : Word) (s : State) : Answer := .next (noticePop value s)

end Sys2Proof.Machine
end

