-- ==== Sys2Proof/Machine/Records.lean ====
section
/-! DEFINITION. The record transfers of the host: RECORD_READ and RECORD_WRITE (R10, R11). -/

namespace Sys2Proof.Machine

/-- A request for the record at an index: refused BUSY during the power-on clear, then RANGE at 512 and above, else
taken with the transfer's own effect (R10, R11). -/
def recordRequest (index : Word) (transfer : State → State) : State → State :=
  hostAccess fun s =>
    if s.clearRunning then s.report .busy
    else if Config.tableSize ≤ index.toNat then s.report .range
    else (transfer s).report .taken

/-- RECORD_READ (R10). -/
def recordRead (index : Word) : State → State :=
  recordRequest index fun s => { s with buffer := Memory.read s.table index.toNat }

/-- RECORD_WRITE (R11). -/
def recordWrite (index : Word) : State → State :=
  recordRequest index fun s => { s with table := Memory.write s.table index.toNat s.buffer }

/-- RECORD_READ (R10). -/
def execRecordRead (index : Word) (s : State) : Answer := .next (recordRead index s)

/-- RECORD_WRITE (R11). -/
def execRecordWrite (index : Word) (s : State) : Answer := .next (recordWrite index s)

end Sys2Proof.Machine
end

