-- ==== Sys2Proof/Machine/Triggers.lean ====
section
/-! DEFINITION. Trigger lines: TRIGGER_EMIT and EMISSION (spec/08), and ENTRY_FETCH (R12, R47). -/

namespace Sys2Proof.Machine

/-- TRIGGER_EMIT (R135): one emission on each named line, and the chain that follows, complete within the write. -/
def triggerEmit (value : Word) : State → State :=
  hostAccess fun s => followUp ((s.withOutbox (s.outbox ++ lanesOf (maskOf value))).report .taken)

/-- EMISSION (R136): the lane takes an emission handed to it. -/
def emission (k line : LaneId) (s : State) : State :=
  if s.resetLow then s else deliver k (.emission line) s

/-- ENTRY_FETCH (R12, R47): the fetch of the lane's entry is served, and its emission is handed out when the commit is
complete (R50). A fetch that is not in its turn is not served (R136; log 6). -/
def entryFetch (k : LaneId) (s : State) : State :=
  if s.resetLow || !s.inTurn k then s else handOut (serveFetch k s)

/-- TRIGGER_EMIT (R135). -/
def execTriggerEmit (value : Word) (s : State) : Answer := .next (triggerEmit value s)
/-- EMISSION (R136). -/
def execEmission (k line : LaneId) (s : State) : Answer := .next (emission k line s)
/-- ENTRY_FETCH (R47). -/
def execEntryFetch (k : LaneId) (s : State) : Answer := .next (entryFetch k s)

end Sys2Proof.Machine
end

