-- ==== Sys2Proof/Machine/Registers.lean ====
section
/-! DEFINITION. Writes of the register window (R177, R178, R179): the plain registers without a behaviour of their own,
and PLAIN_REGISTER_WRITE. -/

namespace Sys2Proof.Machine

/-- A staging register, STG_BASE to STG_MODE at 20h to 24h, replaced and the others kept (R20). -/
def Staging.setWord (g : Staging) (n : Nat) (v : Word) : Staging :=
  match n with
  | 0 => { g with base := v }
  | 1 => { g with length := v }
  | 2 => { g with preset := v }
  | 3 => { g with cycles := v }
  | 4 => { g with mode := v }
  | _ => g

/-- A staging register's value (R20). -/
def Staging.word (g : Staging) : Nat → Word
  | 0 => g.base
  | 1 => g.length
  | 2 => g.preset
  | 3 => g.cycles
  | 4 => g.mode
  | _ => 0

/-- The plain registers whose write does nothing but store the value: BUF0–BUF9 (R9), the staging registers (R20),
LANE_SEL (R45), POS_ARG (R129), TRIP_ARG0–1 (R143) and JOB_ARG_SRC, _DST and _COUNT (R158). A write of any other address
stores nothing here (R178). -/
def plainWrite (address : Nat) (value : Word) (s : State) : State :=
  if 0x10 ≤ address ∧ address ≤ 0x19 then { s with buffer := s.buffer.setWord (address - 0x10) value }
  else if 0x20 ≤ address ∧ address ≤ 0x24 then { s with staging := s.staging.setWord (address - 0x20) value }
  else
    match address with
    | 0x60 => { s with laneSel := value.setWidth 3 }
    | 0xA5 => { s with posArg := value }
    | 0xB0 => { s with tripArg0 := value }
    | 0xB1 => { s with tripArg1 := value }
    | 0xD0 => { s with jobArgSrc := value }
    | 0xD1 => { s with jobArgDst := value }
    | 0xD2 => { s with jobArgCount := value }
    | _ => s

/-- A write of CONTROL, whole (R182, R183): a soft reset when bit 3 is set, else its three bits together. -/
def controlRegisterWrite (value : Word) (s : State) : State :=
  if value.getLsbD 3 then softReset s
  else hostAccess (controlWrite (value.getLsbD 0) (value.getLsbD 1) (value.getLsbD 2)) s

/-- A write of the word at an address whose write has a row of its own acts as that row (R179; log 13); any other write
stores a plain register or is ignored (R178). -/
def busWrite (address : Nat) (value : Word) : State → State :=
  match address with
  | 0x01 => controlRegisterWrite value
  | 0x05 => tbDivPreWrite .div value
  | 0x06 => tbDivPreWrite .pre value
  | 0x07 => tbCountWrite value
  | 0x1A => recordRead value
  | 0x1B => recordWrite value
  | 0x28 => laneStart value
  | 0x29 => laneStop value
  | 0x2A => laneHold value
  | 0x2B => laneRelease value
  | 0x2C => laneReset value
  | 0x2D => laneResume value
  | 0x2E => laneStep value
  | 0x2F => laneJump value
  | 0x30 => laneLoad value
  | 0x31 => laneSwap value
  | 0x32 => laneCancelSwap value
  | 0x80 => safeLevelWrite .lo value
  | 0x81 => safeLevelWrite .hi value
  | 0x82 => lineAssign value
  | 0x83 => lineFree value
  | 0x90 => inputSettingWrite .polarity value
  | 0xA0 => posFiltWrite 0 value
  | 0xA1 => posFiltWrite 1 value
  | 0xA6 => posLoad value
  | 0xA7 => posClear value
  | 0xA8 => triggerEmit value
  | 0xB2 => tripConfig value
  | 0xB3 => tripAssert value
  | 0xB4 => tripClear value
  | 0xD3 => jobCopy value
  | 0xD4 => jobCheck value
  | 0xD5 => jobAbort value
  | 0xE6 => noticePop value
  | n =>
    if 0x91 ≤ n ∧ n ≤ 0x98 then inputSettingWrite (.filter (Fin.ofNat 8 (n - 0x91))) value
    else hostAccess (plainWrite n value)

/-- PLAIN_REGISTER_WRITE (R178). -/
def plainRegisterWrite (address : BitVec 8) (value : Word) : State → State := busWrite address.toNat value

/-- PLAIN_REGISTER_WRITE (R178). -/
def execPlainRegisterWrite (address : BitVec 8) (value : Word) (s : State) : Answer :=
  .next (plainRegisterWrite address value s)

end Sys2Proof.Machine
end

