-- ==== Sys2Proof/Machine/Reset.lean ====
section
/-! DEFINITION. RESET#: RESET_ASSERT and RESET_RELEASE (R17, R109, R184). -/

namespace Sys2Proof.Machine

/-- The blocks at the release of RESET#: power-on values, the filtered pins' accepted levels taken from the pins, and the
power-on clear begun. The pins are the machine's; the table holds what it held until the clear writes it (R184, R15;
log 10). -/
def powerOn (s : State) : State :=
  { State.reset with
    table := s.table
    inputs := { State.reset.inputs with pins := s.inputs.pins }.resample
    units := Vector.ofFn fun u =>
      { State.reset.units[u.val] with
        a := ⟨s.units[u.val].a.pin, s.units[u.val].a.pin, none⟩
        b := ⟨s.units[u.val].b.pin, s.units[u.val].b.pin, none⟩ }
    trips := Vector.ofFn fun n =>
      { State.reset.trips[n.val] with pin := s.trips[n.val].pin, active := s.trips[n.val].pin }
    picks := s.picks
    early := s.early
    pending := s.pending }

/-- RESET_ASSERT (R184): RESET# goes low. -/
def resetAssert (s : State) : State := { s with resetLow := true }

/-- RESET_RELEASE (R184): RESET# returns high. When it is high already nothing is released (log 6). -/
def resetRelease (s : State) : State := if s.resetLow then powerOn s else s

/-- RESET_ASSERT (R184). -/
def execResetAssert (s : State) : Answer := .next (resetAssert s)
/-- RESET_RELEASE (R184). -/
def execResetRelease (s : State) : Answer := .next (resetRelease s)

end Sys2Proof.Machine
end

