-- ==== Sys2Proof/Machine/Dispatch.lean ====
section
/-! DEFINITION. One arm per command: each calls its meaning. -/

namespace Sys2Proof.Machine

/-- What a command does to everything but the queue of commands. -/
def exec (i : Instr) (s : State) : Host.Outcome State Fault Refusal :=
  match i with
  | .recordRead index => Sys2Proof.Machine.execRecordRead index s
  | .recordWrite index => Sys2Proof.Machine.execRecordWrite index s
  | .laneStart value => Sys2Proof.Machine.execLaneStart value s
  | .laneStop value => Sys2Proof.Machine.execLaneStop value s
  | .laneHold value => Sys2Proof.Machine.execLaneHold value s
  | .laneRelease value => Sys2Proof.Machine.execLaneRelease value s
  | .laneReset value => Sys2Proof.Machine.execLaneReset value s
  | .laneResume value => Sys2Proof.Machine.execLaneResume value s
  | .laneStep value => Sys2Proof.Machine.execLaneStep value s
  | .laneJump value => Sys2Proof.Machine.execLaneJump value s
  | .laneLoad value => Sys2Proof.Machine.execLaneLoad value s
  | .laneSwap value => Sys2Proof.Machine.execLaneSwap value s
  | .laneCancelSwap value => Sys2Proof.Machine.execLaneCancelSwap value s
  | .lineAssign value => Sys2Proof.Machine.execLineAssign value s
  | .lineFree value => Sys2Proof.Machine.execLineFree value s
  | .posLoad value => Sys2Proof.Machine.execPosLoad value s
  | .posClear value => Sys2Proof.Machine.execPosClear value s
  | .triggerEmit value => Sys2Proof.Machine.execTriggerEmit value s
  | .tripConfig value => Sys2Proof.Machine.execTripConfig value s
  | .tripAssert value => Sys2Proof.Machine.execTripAssert value s
  | .tripClear value => Sys2Proof.Machine.execTripClear value s
  | .jobCopy value => Sys2Proof.Machine.execJobCopy value s
  | .jobCheck value => Sys2Proof.Machine.execJobCheck value s
  | .jobAbort value => Sys2Proof.Machine.execJobAbort value s
  | .noticePop value => Sys2Proof.Machine.execNoticePop value s
  | .driveEn on => Sys2Proof.Machine.execDriveEn on s
  | .tbRun on => Sys2Proof.Machine.execTbRun on s
  | .noticeIrqEn on => Sys2Proof.Machine.execNoticeIrqEn on s
  | .softReset => Sys2Proof.Machine.execSoftReset s
  | .safeLevelWrite half value => Sys2Proof.Machine.execSafeLevelWrite half value s
  | .inputSettingWrite setting value => Sys2Proof.Machine.execInputSettingWrite setting value s
  | .posFiltWrite unit value => Sys2Proof.Machine.execPosFiltWrite unit value s
  | .tbDivPreWrite setting value => Sys2Proof.Machine.execTbDivPreWrite setting value s
  | .tbCountWrite value => Sys2Proof.Machine.execTbCountWrite value s
  | .plainRegisterWrite address value => Sys2Proof.Machine.execPlainRegisterWrite address value s
  | .resetAssert => Sys2Proof.Machine.execResetAssert s
  | .resetRelease => Sys2Proof.Machine.execResetRelease s
  | .clearWrite => Sys2Proof.Machine.execClearWrite s
  | .copyMove => Sys2Proof.Machine.execCopyMove s
  | .checkRead => Sys2Proof.Machine.execCheckRead s
  | .entryFetch k => Sys2Proof.Machine.execEntryFetch k s
  | .tick takers => Sys2Proof.Machine.execTick takers s
  | .dwellExpiry k => Sys2Proof.Machine.execDwellExpiry k s
  | .limitExpiry k => Sys2Proof.Machine.execLimitExpiry k s
  | .pulseEnd k => Sys2Proof.Machine.execPulseEnd k s
  | .inputAcceptedChange input => Sys2Proof.Machine.execInputAcceptedChange input s
  | .edgeEvent k input sense => Sys2Proof.Machine.execEdgeEvent k input sense s
  | .quadratureChange unit channel => Sys2Proof.Machine.execQuadratureChange unit channel s
  | .arrival k unit value direction => Sys2Proof.Machine.execArrival k unit value direction s
  | .emission k line => Sys2Proof.Machine.execEmission k line s
  | .tripAcceptedChange source => Sys2Proof.Machine.execTripAcceptedChange source s
  | .tripForcing k source => Sys2Proof.Machine.execTripForcing k source s
  | .presentedLevelChange pin level => Sys2Proof.Machine.execPresentedLevelChange pin level s

end Sys2Proof.Machine
end

