-- ==== Sys2Proof/Machine/Idle.lean ====
section
/-! DEFINITION. What the block does on its own when no command waits: events on their way are taken, then one thing that is
due, or one core clock period (R12, R117, R161, R185; log 1). -/

namespace Sys2Proof.Machine

/-- Something the block does of its own accord. -/
inductive Due where
  | fetch (lane : LaneId)
  | access (kind : JobKind)
  | input (n : InputId)
  | quadrature (unit : UnitId) (channel : Channel)
  | trip (n : Fin 4)
  | tick
  | period
deriving DecidableEq, Repr

/-- The lanes whose entry waits for its fetch, with none before it (R12, R136). -/
def State.dueFetches (s : State) : List Due :=
  (allLanes.filter fun k => (s.lane k).entry.isSome && s.inTurn k).map Due.fetch

/-- The access of the table job that waits and may be served (R161). -/
def State.dueAccess (s : State) : List Due :=
  if s.job.state = .running && s.accessFree then [.access s.job.kind] else []

/-- The filters that have reached their count (R117). -/
def State.dueChanges (s : State) : List Due :=
  ((List.finRange 16).filter fun n => s.inputs.lacking n == some 0).map Due.input ++
  ((List.finRange 2).flatMap fun u =>
    ([Channel.a, Channel.b].filter fun c => s.units[u.val].lacking c == some 0).map (Due.quadrature u)) ++
  ((List.finRange 4).filter fun n => s.trips[n.val].lacking == some 0).map Due.trip

/-- The period has ended (R185). -/
def State.dueTick (s : State) : List Due := if s.timebase.lacking == some 0 then [.tick] else []

/-- A core clock period can go by: no event of the core clock is due. How many go by while a fetch or an access of the table job
waits is free (R12, R161; log 1). -/
def State.duePeriod (s : State) : List Due := if s.nothingBefore 1 then [.period] else []

/-- All that can come next. -/
def State.due (s : State) : List Due := s.dueFetches ++ s.dueAccess ++ s.dueChanges ++ s.dueTick ++ s.duePeriod

/-- Does what comes next. -/
def doDue (s : State) : Due → State
  | .fetch k => entryFetch k s
  | .access .clear => clearWrite s
  | .access .copy => copyMove s
  | .access .check => checkRead s
  | .input n => inputAcceptedChange n s
  | .quadrature u c => quadratureChange u c s
  | .trip n => tripAcceptedChange n s
  | .tick => tick 0 s
  | .period => elapse 1 s

/-- The block with no command waiting (log 1). While RESET# is low nothing moves (R184). -/
def idle (s : State) : State :=
  if s.resetLow then s
  else if s.work 0 ≠ [] then drain s
  else
    match s.due with
    | [] => s
    | d :: ds =>
      match choose d ds s with
      | (d, s) => doDue s d

end Sys2Proof.Machine
end

