-- ==== Sys2Proof/Machine/Step.lean ====
section
/-! DEFINITION. One step of the T840: the command at the front of the queue, or the block's own doing when none waits
(log 1). -/

namespace Sys2Proof.Machine

/-- Takes the command at the front of the queue and runs it on the queue's rest. On an empty queue the block does what it
does on its own (log 1). -/
def step (s : State) : Host.Outcome State Fault Refusal :=
  match s.pending with
  | [] => .next (idle s)
  | c :: rest => exec c { s with pending := rest }

/-- The state with the command that a word spells at the front of its queue. No row of the table gives bits, so the state
is unchanged (log 17). -/
def State.withFetchWord (s : State) (nbits w : Nat) : State :=
  match decodeTableWord nbits w with
  | some c => { s with pending := c :: s.pending }
  | none => s

end Sys2Proof.Machine
end

