-- ==== Sys2Proof/Machine/Window.lean ====
section
/-! DEFINITION. What the host reads: the register map and the field layouts (R178, R179), the views of each block (R44,
R45, R88, R114, R120, R131, R156, R167, R173, R181), and the bus cycles (R177). A read has no effect on the state. -/

namespace Sys2Proof.Machine

/-! ## Codes (R179, R180) -/

def LaneState.code : LaneState → Nat
  | .idle => 0
  | .armed => 1
  | .running => 2
  | .held => 3
  | .done => 4
  | .faulted => 5
  | .tripped => 6

/-- A trip prior state as a state code; 0 for none (R179). -/
def priorCode : Option PriorState → Nat
  | none => 0
  | some .armed => 1
  | some .running => 2
  | some .held => 3
  | some .done => 4
  | some .faulted => 5

def FaultCause.code : FaultCause → Nat
  | .limit => 1
  | .badStep => 2
  | .stackOver => 3
  | .stackUnder => 4
  | .unbalanced => 5

def Result.code : Result → Nat
  | .taken => 0
  | .state => 1
  | .range => 2
  | .tripped => 3
  | .busy => 4
  | .pending => 5
  | .owned => 6
  | .active => 7
  | .empty => 8

def SwapBoundary.code : SwapBoundary → Nat
  | .nextStep => 0
  | .sequenceEnd => 1

def EntryCause.code : EntryCause → Nat
  | .start => 0
  | .advance => 1
  | .repeated => 2
  | .wrap => 3
  | .skip => 4
  | .divert => 5
  | .resume => 6
  | .release => 7
  | .swap => 8

def FaultAction.code : FaultAction → Nat
  | .halt => 0
  | .skip => 1
  | .divert => 2

def JobKind.code : JobKind → Nat
  | .clear => 0
  | .copy => 1
  | .check => 2

def JobState.code : JobState → Nat
  | .idle => 0
  | .running => 1
  | .done => 2
  | .aborted => 3

def SwapOccasion.code : SwapOccasion → Nat
  | .entry => 0
  | .endOfRange => 1
  | .stop => 2

/-- A last direction: 0 NONE, 1 UP, 2 DOWN (R179). -/
def directionCode : Option Direction → Nat
  | none => 0
  | some .up => 1
  | some .down => 2

/-- The number of a flag. -/
def flag (b : Bool) : Nat := if b then 1 else 0

/-- A word with these numbers at these bit positions; the fields do not overlap. -/
def packed (fields : List (Nat × Nat)) : Word := BitVec.ofNat 16 ((fields.map fun f => f.2 <<< f.1).sum)

/-! ## Lanes (R44, R45, R88) -/

/-- LANE_STATUS word A (R44, R179). -/
def Lane.statusA (l : Lane) : Word :=
  packed
    [(0, l.state.code), (3, flag l.entered), (4, (l.swap.map fun d => d.swapBoundary.code + 1).getD 0),
     (6, flag l.pulse.isSome), (7, flag l.latch), (8, l.stack.length), (12, l.lastResult.code)]

/-- LANE_STATUS word B (R44, R179). -/
def Lane.statusB (l : Lane) : Word :=
  packed [(0, (l.faultCause.map FaultCause.code).getD 0), (4, priorCode l.prior)]

/-- START_SOURCE as INS_MODE shows it: its kind in bits 8–9 and its number in bits 10–14 (R179; log 16). -/
def StartSource.bits : StartSource → List (Nat × Nat)
  | .command => [(8, 0), (10, 0)]
  | .trigger line => [(8, 1), (10, line.val)]
  | .edge n .rising => [(8, 2), (10, n.val)]
  | .edge n .falling => [(8, 3), (10, n.val)]

/-- INS_MODE (R45, R179). -/
def Descriptor.mode (d : Descriptor) : Word :=
  packed
    ([(0, flag (d.endAction = .wrap)), (1, flag (d.faultPolicy = .hold)), (2, flag d.emitOnEnd),
      (3, flag d.emitOnFault), (4, d.swapBoundary.code)] ++ d.startSource.bits)

/-- The frame in slot n of the inspection window, the bottom frame in slot 0 (R45, R88). -/
def Lane.slot (l : Lane) (n : Nat) : Option Frame := l.stack.reverse[n]?

/-- The inspection window of a lane, word n standing at 61h + n (R45, R179). -/
def Lane.inspect (l : Lane) : Nat → Word
  | 0 => BitVec.ofNat 16 l.descriptor.base
  | 1 => BitVec.ofNat 16 l.descriptor.length
  | 2 => BitVec.ofNat 16 l.descriptor.preset
  | 3 => BitVec.ofNat 16 l.descriptor.cycleLimit
  | 4 => l.descriptor.mode
  | 5 => l.pattern.extractLsb' 0 16
  | 6 => l.pattern.extractLsb' 16 16
  | 7 => BitVec.ofNat 16 l.dwell
  | 8 => BitVec.ofNat 16 (l.limit.getD 0)
  | 9 => BitVec.ofNat 16 (flag l.limit.isNone)
  | 10 => BitVec.ofNat 16 l.edges
  | 11 => BitVec.ofNat 16 (((l.slot 0).map Frame.head).getD 0)
  | 12 => BitVec.ofNat 16 (((l.slot 1).map Frame.head).getD 0)
  | 13 => BitVec.ofNat 16 (((l.slot 2).map Frame.head).getD 0)
  | 14 => BitVec.ofNat 16 (((l.slot 3).map Frame.head).getD 0)
  | 15 => BitVec.ofNat 16 (((l.slot 0).map Frame.passes).getD 0)
  | 16 => BitVec.ofNat 16 (((l.slot 1).map Frame.passes).getD 0)
  | 17 => BitVec.ofNat 16 (((l.slot 2).map Frame.passes).getD 0)
  | 18 => BitVec.ofNat 16 (((l.slot 3).map Frame.passes).getD 0)
  | 19 => BitVec.ofNat 16 ((l.pulse.map fun p => p.line.val).getD 0)
  | 20 => BitVec.ofNat 16 ((l.pulse.map Pulse.ticks).getD 0)
  | _ => 0

/-! ## The other blocks -/

/-- CONTROL as it reads: SOFT_RESET reads 0 (R182). -/
def State.controlWord (s : State) : Word :=
  packed [(0, flag s.driveEnable), (1, flag s.timebase.running), (2, flag s.irqEnable)]

/-- STATUS (R181). -/
def State.statusWord (s : State) : Word :=
  packed [(0, flag s.clearRunning), (1, flag (s.job.state = .running)), (2, flag (!s.queue.isEmpty))]

/-- The levels of all output lines (R114). -/
def State.outField (s : State) : LineField := BitVec.ofFnLE fun n : Fin 32 => s.outLevel n

/-- The code of a line's owner: 8 for NONE (R114). -/
def ownerCode : Option LaneId → Nat
  | none => 8
  | some k => k.val

/-- LINE_OWNj: the owners of lines 4j to 4j + 3 (R114). -/
def State.ownWord (s : State) (j : Fin 8) : Word :=
  packed
    [(0, ownerCode (s.owners[4 * j.val]'(by omega))), (4, ownerCode (s.owners[4 * j.val + 1]'(by omega))),
     (8, ownerCode (s.owners[4 * j.val + 2]'(by omega))), (12, ownerCode (s.owners[4 * j.val + 3]'(by omega)))]

/-- One unit's part of POS_STATUS, its first bit at `low` (R131, R179). -/
def PositionUnit.status (u : PositionUnit) (low : Nat) : List (Nat × Nat) :=
  [(low, flag u.error), (low + 1, directionCode u.lastDirection), (low + 3, flag u.a.accepted),
   (low + 4, flag u.b.accepted)]

/-- TRIP_STATUS (R156, R179). -/
def State.tripStatus (s : State) : Word :=
  packed
    (((List.finRange 5).map fun n => (n.val, flag s.trips[n.val].latch)) ++
     ((List.finRange 5).map fun n => (n.val + 5, flag s.trips[n.val].enable)) ++
     ((List.finRange 4).map fun n => (n.val + 10, flag s.trips[n.val].active)))

/-- TRIP_MODEn, in the layout of TRIP_ARG0; the polarity and filter of SW read 0 (R156). -/
def State.tripMode (s : State) (n : SourceId) : Word :=
  let t := s.trips[n.val]
  if n = swSource then packed [(0, flag t.enable)]
  else packed [(0, flag t.enable), (1, flag t.activeLow), (8, t.filter.toNat)]

/-! ## The notice head (R173, R179) -/

def NoticeBody.kindCode : NoticeBody → Nat
  | .step _ _ _ => 1
  | .rangeEnd _ _ _ _ => 2
  | .fault _ _ _ _ => 3
  | .trip _ _ => 4
  | .swap _ _ _ _ => 5
  | .position _ => 6
  | .job _ _ _ => 7
  | .lost _ => 8

/-- The lane and the step offset of a notice, absent for TRIP, POSITION, JOB and LOST (R168, R169). -/
def NoticeBody.place : NoticeBody → Option (LaneId × Nat)
  | .step k offset _ => some (k, offset)
  | .rangeEnd k offset _ _ => some (k, offset)
  | .fault k offset _ _ => some (k, offset)
  | .swap k offset _ _ => some (k, offset)
  | .trip _ _ | .position _ | .job _ _ _ | .lost _ => none

/-- NOTICE_DETAIL by kind (R169, R179). -/
def NoticeBody.detail : NoticeBody → Word
  | .step _ _ cause => packed [(0, cause.code)]
  | .rangeEnd _ _ outcome _ => packed [(0, flag (outcome = .done))]
  | .fault _ _ cause action => packed [(0, cause.code), (4, action.code)]
  | .swap _ _ boundary occasion => packed [(0, boundary.code), (4, occasion.code)]
  | .trip source _ => packed [(0, source.val)]
  | .position unit => packed [(0, unit.val)]
  | .job kind outcome _ => packed [(0, flag (kind = .check)), (4, flag (outcome = .aborted))]
  | .lost _ => 0

/-- NOTICE_VALUE: the value part of R169. -/
def NoticeBody.value : NoticeBody → Word
  | .rangeEnd _ _ _ cycles => BitVec.ofNat 16 cycles
  | .trip _ moved => moved.setWidth 16
  | .job _ _ progress => BitVec.ofNat 16 progress
  | .lost count => BitVec.ofNat 16 count
  | .step _ _ _ | .fault _ _ _ _ | .swap _ _ _ _ | .position _ => 0

/-- The five head registers, word n standing at E0h + n; the empty queue shows kind NONE and an absent lane (R173). Bits
8–10 of NOTICE_HEAD read 0 where the lane is absent, which is the model's choice (log 33). -/
def State.headWord (s : State) (n : Nat) : Word :=
  match s.queue with
  | [] => if n = 0 then 0x8000#16 else 0
  | h :: _ =>
    match n with
    | 0 =>
      match h.body.place with
      | some (k, _) => packed [(0, h.body.kindCode), (8, k.val)]
      | none => packed [(0, h.body.kindCode), (15, 1)]
    | 1 => BitVec.ofNat 16 ((h.body.place.map Prod.snd).getD 0)
    | 2 => h.body.detail
    | 3 => h.body.value
    | 4 => h.stamp
    | _ => 0

/-! ## The window -/

/-- The lane that LANE_SEL names (R45). -/
def State.selected (s : State) : Lane := s.lane s.laneSel.toFin

/-- Words 00h to 3Fh of the window. -/
def Window.readCore (s : State) (a : Nat) : Word :=
  if 0x10 ≤ a ∧ a ≤ 0x19 then s.buffer.word (a - 0x10)
  else if 0x20 ≤ a ∧ a ≤ 0x24 then s.staging.word (a - 0x20)
  else
    match a with
    | 0x00 => Config.idWord
    | 0x01 => s.controlWord
    | 0x02 => s.statusWord
    | 0x03 => BitVec.ofNat 16 s.cmdResult.code
    | 0x04 => s.cmdRefused.setWidth 16
    | 0x05 => s.timebase.div
    | 0x06 => s.timebase.pre.setWidth 16
    | 0x07 => s.timebase.counter
    | _ => 0

/-- Words 40h to 7Fh of the window. -/
def Window.readLanes (s : State) (a : Nat) : Word :=
  if a ≤ 0x4F then
    let l := s.lane (Fin.ofNat 8 ((a - 0x40) / 2))
    if a % 2 = 0 then l.statusA else l.statusB
  else if a ≤ 0x57 then BitVec.ofNat 16 (s.lane (Fin.ofNat 8 (a - 0x50))).active
  else if a ≤ 0x5F then BitVec.ofNat 16 (s.lane (Fin.ofNat 8 (a - 0x58))).cycles
  else if a = 0x60 then s.laneSel.setWidth 16
  else s.selected.inspect (a - 0x61)

/-- Words 80h to AFh of the window. -/
def Window.readPins (s : State) (a : Nat) : Word :=
  if 0x88 ≤ a ∧ a ≤ 0x8F then s.ownWord (Fin.ofNat 8 (a - 0x88))
  else if 0x91 ≤ a ∧ a ≤ 0x98 then s.inputs.filters[(a - 0x91) % 8]'(by omega)
  else
    match a with
    | 0x80 => s.safeLevels.extractLsb' 0 16
    | 0x81 => s.safeLevels.extractLsb' 16 16
    | 0x84 => s.outField.extractLsb' 0 16
    | 0x85 => s.outField.extractLsb' 16 16
    | 0x90 => s.inputs.polarity
    | 0x99 => s.inputs.accepted
    | 0xA0 => s.units[0].filter
    | 0xA1 => s.units[1].filter
    | 0xA2 => s.units[0].counter
    | 0xA3 => s.units[1].counter
    | 0xA4 => packed (s.units[0].status 0 ++ s.units[1].status 8)
    | 0xA5 => s.posArg
    | _ => 0

/-- Words B0h to FFh of the window. -/
def Window.readUnits (s : State) (a : Nat) : Word :=
  if 0xB8 ≤ a ∧ a ≤ 0xBC then s.tripMode (Fin.ofNat 5 (a - 0xB8))
  else if 0xC0 ≤ a ∧ a ≤ 0xC4 then (s.trips[(a - 0xC0) % 5]'(by omega)).scope.setWidth 16
  else if 0xE0 ≤ a ∧ a ≤ 0xE4 then s.headWord (a - 0xE0)
  else
    match a with
    | 0xB0 => s.tripArg0
    | 0xB1 => s.tripArg1
    | 0xB5 => s.tripRefused.setWidth 16
    | 0xB6 => s.tripStatus
    | 0xD0 => s.jobArgSrc
    | 0xD1 => s.jobArgDst
    | 0xD2 => s.jobArgCount
    | 0xD8 => packed [(0, s.job.kind.code), (4, s.job.state.code)]
    | 0xD9 => BitVec.ofNat 16 s.job.source
    | 0xDA => BitVec.ofNat 16 s.job.destination
    | 0xDB => BitVec.ofNat 16 s.job.count
    | 0xDC => BitVec.ofNat 16 s.job.progress
    | 0xDD => s.job.crc
    | 0xE5 => BitVec.ofNat 16 s.queue.length
    | _ => 0

/-- What a read of the window answers: the value of the register at that address; 0 for a command register and for an
address that names no register (R178, R179). -/
def Window.read (s : State) (address : BitVec 8) : Word :=
  let a := address.toNat
  if a < 0x40 then Window.readCore s a
  else if a < 0x80 then Window.readLanes s a
  else if a < 0xB0 then Window.readPins s a
  else Window.readUnits s a

/-! ## The bus cycle (R177) -/

/-- What the strobes of a bus cycle make of it. -/
inductive BusCycle where
  | read
  | write
  | neither
deriving DecidableEq, Repr

/-- The kind of a cycle in which these signals have been low (all are active low): with CS# high, with both strobes low
together, or with neither, it is neither a read nor a write (R177). -/
def busCycle (csLow rdLow wrLow : Bool) : BusCycle :=
  match csLow, rdLow, wrLow with
  | true, true, false => .read
  | true, false, true => .write
  | _, _, _ => .neither

/-- What a bus cycle does to the state: a write is handed to the owning block, a read and a cycle that is neither have no
effect (R177, R178). -/
def busEffect (csLow rdLow wrLow : Bool) (address : BitVec 8) (data : Word) (s : State) : State :=
  match busCycle csLow rdLow wrLow with
  | .write => plainRegisterWrite address data s
  | .read | .neither => s

/-- What the part drives onto D0–D15 in a bus cycle, or none: nothing but in a read with RESET# high (R177, R184). `held` is
what it has driven since RD# fell in this cycle, none when RD# falls now: the word as it stands when RD# falls is held until
RD# or CS# returns high, whatever changes in between (R177; log 25). -/
def busData (csLow rdLow wrLow : Bool) (address : BitVec 8) (held : Option Word) (s : State) : Option Word :=
  match busCycle csLow rdLow wrLow with
  | .read => if s.resetLow then none else some (held.getD (Window.read s address))
  | .write | .neither => none

end Sys2Proof.Machine
end

