-- ==== Sys2Proof/Safety.lean ====
section
/-! DEFINITION. The terms in which the statements speak: what holds of the T840 at every moment (R19, R22, R76, R77, R89,
R112, R142, R145, R149, R157, R170, R185), the states in which nothing is under way between blocks, and what one lane's act
comes to for the lane, the notice queue and the trigger lines, case by case as the tables of spec/03 to spec/09 give it. -/

namespace Sys2Proof.Machine

/-! ## Lanes -/

/-- A descriptor in the ranges of R18: BASE + LENGTH ≤ 512 and PRESET < LENGTH (R19, R89). -/
structure Descriptor.Ok (d : Descriptor) : Prop where
  preset_lt : d.preset < d.length
  range_le : d.base + d.length ≤ 512
  cycleLimit_le : d.cycleLimit ≤ 65535

/-- A frame of a range of this length (R77). -/
structure Frame.Ok (f : Frame) (length : Nat) : Prop where
  head_lt : f.head < length
  passes_pos : 1 ≤ f.passes
  passes_le : f.passes ≤ 255

/-- The lane is not in the middle of an entry (R28). -/
abbrev Lane.settled (l : Lane) : Prop := l.entry = none

/-- What R19, R22, R23, R76, R77, R89 and R112 say of a lane's descriptor and context. -/
structure Lane.Ok (l : Lane) : Prop where
  /-- The descriptor in force is within its ranges (R19). -/
  descriptor_ok : l.descriptor.Ok
  /-- The active offset is below LENGTH (R19). -/
  active_lt : l.active < l.descriptor.length
  /-- Every frame lies in the range in force (R77). -/
  frames_ok : ∀ f ∈ l.stack, f.Ok l.descriptor.length
  /-- The stack holds at most four frames (R76). -/
  depth_le : l.stack.length ≤ 4
  /-- The stack is empty in IDLE, ARMED and DONE (R76), and in a trip from ARMED or DONE. -/
  stack_empty : l.state = .idle ∨ l.state = .armed ∨ l.state = .done ∨ l.prior = some .armed ∨ l.prior = some .done →
    l.stack = []
  /-- A pending swap is within its ranges (R89). -/
  swap_ok : ∀ d, l.swap = some d → d.Ok
  /-- No swap is pending in IDLE, in DONE (R89), or in a trip from DONE. -/
  swap_none : l.state = .idle ∨ l.state = .done ∨ l.prior = some .done → l.swap = none
  /-- The copy of a lane that is not in the middle of an entry is valid against the LENGTH in force (R7, R73). -/
  copy_valid : l.settled → ∀ r, l.copy = some r → r.validFor l.descriptor.length = true
  /-- A RUNNING or DONE lane that is not in the middle of an entry has entered its step, and keeps it in a trip
  (R23). -/
  entered : l.settled → l.state = .running ∨ l.state = .done ∨ l.prior = some .running ∨ l.prior = some .done →
    l.entered = true
  /-- Without a current-step copy the step timers and condition state are cleared (R22). -/
  cleared : l.copy = none → l.dwell = 0 ∧ l.limit = none ∧ l.latch = false ∧ l.edges = 0
  dwell_le : l.dwell ≤ 65535
  limit_range : ∀ n, l.limit = some n → 1 ≤ n ∧ n ≤ 65535
  edges_le : l.edges ≤ 65535
  cycles_le : l.cycles ≤ 65535
  /-- A pulse in flight has ticks to go (R22), in RUNNING, HELD or DONE (R112). -/
  pulse_ok : ∀ p, l.pulse = some p →
    1 ≤ p.ticks ∧ p.ticks ≤ 65535 ∧ (l.state = .running ∨ l.state = .held ∨ l.state = .done)
  /-- The trip prior state is held in TRIPPED alone (R22, R25). -/
  prior_tripped : l.prior.isSome = true → l.state = .tripped
  /-- A lane in the middle of an entry has cleared its trip prior state (R38). -/
  prior_none : l.entry.isSome = true → l.prior = none

/-- A pulse in flight is on a line that its lane owns (R112). -/
def State.PulsesOwned (s : State) : Prop :=
  ∀ (k : LaneId) (p : Pulse), (s.lane k).pulse = some p → s.owners[p.line.val] = some k

/-- Every lane is in its ranges, and its pulse is on its own line. -/
structure State.LanesOk (s : State) : Prop where
  each : ∀ k, (s.lane k).Ok
  pulses : s.PulsesOwned

/-! ## Trip latches -/

/-- A lane in the scope of a set latch keeps that latch's forcing until its entry is complete, or is not in the middle of
an entry and is IDLE or TRIPPED (R147, R149). -/
def State.TripsHold (s : State) : Prop :=
  ∀ (n : SourceId) (k : LaneId), s.trips[n.val].latch = true → s.trips[n.val].scope.getLsbD k = true →
    Event.forcing n ∈ (s.lane k).kept ∨
      ((s.lane k).settled ∧ ((s.lane k).state = .idle ∨ (s.lane k).state = .tripped))

/-- A set latch belongs to an enabled source (R142), and an enabled pin source whose accepted level is active has its
latch set (R145). -/
structure State.LatchesOk (s : State) : Prop where
  enabled : ∀ n : SourceId, s.trips[n.val].latch = true → s.trips[n.val].enable = true
  active_latched : ∀ n : SourceId, n ≠ swSource → s.trips[n.val].enable = true → s.trips[n.val].active = true →
    s.trips[n.val].latch = true

/-- A setting that waits for a lane has its forcing among the events that the lane keeps: for every source, as many of
them as settings wait (R147). -/
def State.SettingsWait (s : State) : Prop :=
  ∀ (n : SourceId) (k : LaneId),
    (s.settings.filter fun x => x.source == n && x.left.getLsbD k).length ≤ ((s.lane k).kept.filter (· == .forcing n)).length

/-! ## The notice queue -/

/-- A LOST record counts 1 to 255 notices (R169, R170). -/
def NoticeBody.countOk : NoticeBody → Prop
  | .lost n => 1 ≤ n ∧ n ≤ 255
  | _ => True

/-- The newest record is a LOST record. -/
def newestLost (q : List Notice) : Prop := ∃ n st, q.getLast? = some ⟨.lost n, st⟩

/-- R170: at most 64 records, and at 64 the newest is LOST. -/
structure Queue.Ok (q : List Notice) : Prop where
  length_le : q.length ≤ 64
  full_lost : q.length = 64 → newestLost q
  counts : ∀ x ∈ q, x.body.countOk

/-- The notices on their way are of kinds that a lane or the Trip Unit raises: none is a LOST record (R169, R170). -/
def State.LateOk (s : State) : Prop := ∀ n ∈ s.late, ∀ count, n.2 ≠ .lost count

/-! ## The table job and the Timebase -/

/-- R157: the fields of the job context are in range, and a job that still runs or was ended early has not reached its
count. -/
structure Job.Ok (j : Job) : Prop where
  count_pos : 1 ≤ j.count
  source_le : j.source + j.count ≤ 512
  destination_le : j.destination + j.count ≤ 512
  progress_le : j.progress ≤ j.count
  unfinished : j.state = .running ∨ j.state = .aborted → j.progress < j.count
  finished : j.state = .done → j.progress = j.count
  result_zero : j.kind ≠ .check → j.crc = 0

/-- R185: a period is in progress exactly while TB_RUN is set, of a length from 1 to 65536 × 4096. -/
structure Timebase.Ok (t : Timebase) : Prop where
  running_iff : t.running = t.period.isSome
  period_ok : ∀ p, t.period = some p → 1 ≤ p.length ∧ p.length ≤ 65536 * 4096 ∧ p.elapsed ≤ p.length

/-! ## Filters -/

/-- R117: an acceptance is in progress only while the presented level differs, and its count is not above the full one. -/
def acceptanceOk (full : Nat) (differs : Bool) (progress : Option Nat) : Prop :=
  ∀ c, progress = some c → differs = true ∧ c ≤ full

/-- R117 for every filtered channel, while RESET# is high. -/
structure State.FiltersOk (s : State) : Prop where
  inputs : s.resetLow = false → ∀ n : InputId,
    acceptanceOk (s.inputs.fullCount n) (s.inputs.differs n) s.inputs.acceptance[n.val]
  units : s.resetLow = false → ∀ (u : UnitId) (c : Channel),
    acceptanceOk s.units[u.val].fullCount (s.units[u.val].channel c).differs (s.units[u.val].channel c).acceptance
  trips : s.resetLow = false → ∀ n : SourceId,
    acceptanceOk s.trips[n.val].fullCount s.trips[n.val].differs s.trips[n.val].acceptance

/-! ## States in which nothing is under way -/

/-- No entry, no kept event and no event on its way in this lane. -/
abbrev Lane.quiet (l : Lane) : Prop := l.entry = none ∧ l.kept = [] ∧ l.coming = []

/-- RESET# is high, and nothing is under way between blocks: no emission, no notice, no entry, no event. -/
structure State.Quiet (s : State) : Prop where
  resetHigh : s.resetLow = false
  outbox_nil : s.outbox = []
  late_nil : s.late = []
  lanes : ∀ k, (s.lane k).quiet

/-- Nothing that the lanes can take is left, and no notice is on its way: no event is on its way, and every event kept waits for
an entry (R28). -/
structure State.AllTaken (s : State) : Prop where
  late_nil : s.late = []
  coming_nil : ∀ k, (s.lane k).coming = []
  kept_nil : ∀ k, (s.lane k).entry = none → (s.lane k).kept = []

/-- Nothing that a host write has caused is left: no emission waits to be handed out or is on its way, and no lane is in the
middle of an entry or has kept an event from one (R135, R177). -/
structure State.Completed (s : State) : Prop where
  outbox_nil : s.outbox = []
  emissions_taken : ∀ (k : LaneId) (line : LaneId), Event.emission line ∉ (s.lane k).coming
  settled : ∀ k, (s.lane k).entry = none
  kept_nil : ∀ k, (s.lane k).kept = []

/-- The lane without an event that it takes next: the oldest it kept once its entry is complete (R28), else one that is on
its way and the next of its source. None where the lane does not take that event next. -/
def Lane.taking (l : Lane) (e : Event) : Option Lane :=
  match l.entry, l.kept with
  | none, x :: rest => if x = e then some { l with kept := rest } else none
  | none, [] => if l.nextOfSource e then some { l with coming := l.coming.erase e } else none
  | some _, _ => none

/-! ## What one lane's act comes to -/

/-- The lane after an act, the notices the act raises, in order, and whether the lane emits on its own trigger line. -/
structure Act where
  lane : Lane
  notices : List NoticeBody
  emits : Bool

/-- An act that raises nothing. -/
def Act.silent (l : Lane) : Act := ⟨l, [], false⟩

/-- The state in which lane k's act has been made, its notices stored (`State.raiseAll`), and its emission, if any, has not been
handed out. -/
def State.withAct (s : State) (k : LaneId) (a : Act) : State :=
  ((s.raiseAll (.lane k) a.notices).setLane k a.lane).withOutbox (if a.emits then s.outbox ++ [k] else s.outbox)

/-- The state after lane k's act, its notices stored and its emission handed to every lane. -/
def State.afterAct (s : State) (k : LaneId) (a : Act) : State :=
  let t := (s.raiseAll (.lane k) a.notices).setLane k a.lane
  if a.emits then handToAll (.emission k) t else t

/-- Entry into FAULTED (R52). -/
def Lane.faults (l : Lane) (k : LaneId) (cause : FaultCause) : Act where
  lane := { l with
    state := .faulted, faultCause := some cause, pulse := none, coming := l.coming.filter fun e => !e.passing }
  notices := [.fault k l.active cause .halt]
  emits := l.descriptor.emitOnFault

/-- An entry that ends in an entry fault (R51). -/
def Lane.failsEntry (l : Lane) (k : LaneId) (cause : FaultCause) : Act :=
  { l with copy := none, dwell := 0, limit := none, latch := false, edges := 0 }.faults k cause

/-- The request of an entry (R47). -/
def Lane.requests (l : Lane) (full : Bool) (offset : Nat) (cause : EntryCause) : Act :=
  .silent { l with active := offset, entry := some { full, cause } }

/-- The application of a swap at an entry or an end of range (R95, R96). -/
def Lane.applies (l : Lane) (k : LaneId) (d : Descriptor) (occasion : SwapOccasion) : Act where
  lane := { l with
    descriptor := d, swap := none, stack := [], cycles := 0, active := d.preset
    entry := some { full := true, cause := .swap } }
  notices := [.swap k l.active d.swapBoundary occasion]
  emits := false

/-- An entry that is due: a pending NEXT_STEP swap replaces it, a pending SEQUENCE_END swap does not (R46, R93, R94). -/
def Lane.enters (l : Lane) (k : LaneId) (full : Bool) (offset : Nat) (cause : EntryCause) : Act :=
  match l.swap with
  | none => l.requests full offset cause
  | some d => if d.swapBoundary = .nextStep then l.applies k d .entry else l.requests full offset cause

/-- The start event of an ARMED lane: a pending swap of either boundary replaces the entry (R32, R94). -/
def Lane.starts (l : Lane) (k : LaneId) : Act :=
  match l.swap with
  | none => l.requests true l.active .start
  | some d => l.applies k d .entry

/-- The end of range: the last four rows of the table of section 3.8 (R68, R69). -/
def Lane.ends (l : Lane) (k : LaneId) (skipped : Bool) : Act :=
  match l.swap with
  | some d => l.applies k d .endOfRange
  | none =>
    let cycles := min 65535 (l.cycles + 1)
    if l.stack ≠ [] then l.faults k .unbalanced
    else if l.descriptor.endAction = .stop ∨ l.descriptor.cycleLimit ≠ 0 ∧ l.descriptor.cycleLimit ≤ cycles then
      { lane := { l with
          cycles := cycles, state := .done, dwell := 0, limit := none, coming := l.coming.filter fun e => !e.passing }
        notices := [.rangeEnd k l.active .done cycles]
        emits := l.descriptor.emitOnEnd }
    else
      { lane := { l with
          cycles := cycles, active := 0
          entry := some { full := true, cause := if skipped then .skip else .wrap } }
        notices := [.rangeEnd k l.active .wrap cycles]
        emits := l.descriptor.emitOnEnd }

/-- The lane goes past the step it leaves (R68). -/
def Lane.goesOn (l : Lane) (k : LaneId) (skipped : Bool) : Act :=
  if l.active + 1 < l.descriptor.length then
    l.enters k true (l.active + 1) (if skipped then .skip else .advance)
  else l.ends k skipped

/-- The leaving of a step, by advance or through SKIP: the table of section 3.8 (R67, R68, R80). -/
def Lane.leaves (l : Lane) (k : LaneId) (skipped : Bool) : Act :=
  match l.copy with
  | none => .silent l
  | some r =>
    match r.loop, l.stack with
    | .none, _ => l.goesOn k skipped
    | .mark, _ => l.goesOn k skipped
    | _, [] => l.faults k .stackUnder
    | _, top :: below =>
      if top.passes ≤ 1 then { l with stack := below }.goesOn k skipped
      else
        { l with stack := ⟨top.head, top.passes - 1⟩ :: below }.enters k false top.head
          (if skipped then .skip else .repeated)

/-- A notice raised before an act's own. -/
def Act.after (a : Act) (body : NoticeBody) : Act := { a with notices := body :: a.notices }

/-- The fault action of a step whose limit has expired (R71, R72, R73). -/
def Lane.actsOnFault (l : Lane) (k : LaneId) : Act :=
  match l.copy with
  | none => .silent l
  | some r =>
    match r.onFault with
    | some .skip => (l.leaves k true).after (.fault k l.active .limit .skip)
    | some .divert => ({ l with stack := [] }.enters k true r.divert .divert).after (.fault k l.active .limit .divert)
    | _ => l.faults k .limit

/-- The lane's condition by KIND against these accepted levels (R56). -/
def Lane.meets (l : Lane) (accepted : BitVec 16) : Bool :=
  match l.copy with
  | none => false
  | some r =>
    match r.kind with
    | some .time => true
    | some .input => (List.finRange 16).all fun n => !r.w5.getLsbD n || accepted.getLsbD n == r.w6.getLsbD n
    | some .edge => decide (r.w6.toNat ≤ l.edges)
    | some _ => l.latch
    | none => false

/-- A RUNNING lane after a tick for its dwell, its limit and its pulse (R53, R111). -/
def Lane.counted (l : Lane) : Lane :=
  { l with
    dwell := l.dwell - 1
    limit := match l.limit with | some (n + 2) => some (n + 1) | _ => none
    pulse := match l.pulse with | some ⟨line, n + 2⟩ => some ⟨line, n + 1⟩ | _ => none }

/-- A pulse that the act's tick ends stays shown until the entry the act requests is complete (R108, R113). -/
def Act.bridge (a : Act) (line : Option (Fin 32)) : Act := { a with lane := a.lane.bridge line }

/-- The taking of a tick, by state, with the six rows of R64 (R53, R54, R64). -/
def Lane.ticks (l : Lane) (k : LaneId) (accepted : BitVec 16) : Act :=
  match l.state with
  | .running =>
    Act.bridge
      (if l.dwell = 1 ∧ l.meets accepted = true then l.counted.leaves k false
      else if l.limit = some 1 then l.counted.actsOnFault k
      else .silent l.counted)
      (endingLine l.pulse)
  | .done => .silent { l with pulse := l.counted.pulse }
  | _ => .silent l

/-- A condition event has been taken: a RUNNING lane whose dwell has expired and whose condition holds leaves its step
(R63). -/
def Lane.judges (l : Lane) (k : LaneId) (accepted : BitVec 16) : Act :=
  if l.state = .running ∧ l.dwell = 0 ∧ l.meets accepted = true then l.leaves k false else .silent l

/-- The lane is RUNNING or HELD in an entered step of this kind (R26). -/
def Lane.waitsIn (l : Lane) (kind : Kind) : Bool :=
  (l.state = .running || l.state = .held) && l.copy.any fun r => r.kind == some kind

/-- The entry that an act requests has this place among those that the taking of one event leads to (R123, R136). -/
def Act.following (a : Act) (e : Event) (turn : Nat) : Act :=
  { a with lane := { a.lane with entry := a.lane.entry.map fun x => { x with event := some e, turn := turn } } }

/-- The taking of an edge event: the table of R122, with R123. -/
def Lane.takesEdge (l : Lane) (k : LaneId) (n : InputId) (e : Sense) (accepted : BitVec 16) (turn : Nat) : Act :=
  if l.state = .armed then
    if l.descriptor.startSource = .edge n e then (l.starts k).following (.edge n e) turn else .silent l
  else if l.waitsIn .input then l.judges k accepted
  else if l.waitsIn .edge && l.copy.any fun r => r.sel == n.val && r.edgeSense.any fun m => m.admits e then
    let edges := min 65535 (l.edges + 1)
    { l with edges := edges, latch := l.latch || l.copy.any fun (r : Record) => decide (r.w6.toNat ≤ edges) }.judges k accepted
  else .silent l

/-- The taking of an arrival (R126). -/
def Lane.takesArrival (l : Lane) (k : LaneId) (u : UnitId) (value : Word) (d : Direction) (accepted : BitVec 16) : Act :=
  if l.waitsIn .position &&
      l.copy.any fun r => r.sel == u.val && r.w6 == value && r.approach.any fun m => m.admits d then
    { l with latch := true }.judges k accepted
  else .silent l

/-- The taking of an emission: the table of R136, with R138 and R139. -/
def Lane.takesEmission (l : Lane) (k line : LaneId) (accepted : BitVec 16) (turn : Nat) : Act :=
  if l.state = .armed then
    if l.descriptor.startSource = .trigger line then (l.starts k).following (.emission line) turn else .silent l
  else if l.waitsIn .trigger && line != k && l.copy.any fun r => r.sel == line.val then
    ({ l with latch := true }.judges k accepted).following (.emission line) turn
  else .silent l

/-- The completion of an entry with the record its fetch received: check, push and commit, or an entry fault (R47, R48,
R49, R51). -/
def Lane.completes (l : Lane) (k : LaneId) (e : Entry) (r : Record) (owners : Vector (Option LaneId) 32) : Act :=
  if r.validFor l.descriptor.length = false then { l with entry := none }.failsEntry k .badStep
  else if e.full && r.isHead && decide (4 ≤ l.stack.length) then { l with entry := none }.failsEntry k .stackOver
  else
    { lane := { l with
        entry := none
        state := .running
        copy := some r
        pattern := r.w1 ++ r.w0
        stack := if e.full && r.isHead then ⟨l.active, r.loopCount⟩ :: l.stack else l.stack
        dwell := max 1 r.w2.toNat
        limit := if r.w3 = 0 then none else some r.w3.toNat
        latch := r.kind == some .edge && r.w6 == 0
        edges := 0
        pulse :=
          if r.pulse && owners[r.pulseLine.val] == some k then some ⟨r.pulseLine, max 1 r.w9.toNat⟩ else l.pulse }
      notices := if r.report then [.step k l.active e.cause] else []
      emits := r.emit }

/-! ## What a lane command comes to -/

/-- One thing that can happen beside a host write, or a free choice made on the way to it (R12, R28, R177; log 3). The fetches
of the lanes in `but` are not among them. -/
def State.Stirs (but : LaneMask) (s t : State) : Prop :=
  (∃ p, t = { s with picks := p }) ∨ ∃ h ∈ s.happenings but, t = happen s h

/-- What can have become of the state when any number of things has happened beside a host write. -/
def State.GoesOn (but : LaneMask) (s t : State) : Prop := Relation.ReflTransGen (State.Stirs but) s t

/-- t is what s comes to when lane k, named by a lane command, takes or refuses it (R28, R29): the lane completes the entry it is
in the middle of, and then refuses with the code given, or takes the command with the act given. The entry that the act
requests waits for its fetch, and what the lane emits waits in the outbox. -/
def State.Judged (judged : State → LaneId → Except Result Act) (k : LaneId) (s t : State) : Prop :=
  let v := completeLane k s
  match judged v k with
  | .error r => t = { v.setLane k { v.lane k with lastResult := r } with cmdRefused := v.cmdRefused ||| 1#8 <<< k.val }
  | .ok a => t = v.withAct k { a with lane := { a.lane with lastResult := .taken } }

/-- t is s after lane k has completed its entry in progress, if there is one, with the notice that the entry raises on its way
(R12, R47, R48). -/
def State.Fetched (k : LaneId) (s t : State) : Prop :=
  match (s.lane k).entry with
  | none => t = s
  | some e =>
    let a := (s.lane k).completes k e (Memory.read s.table ((s.lane k).descriptor.base + (s.lane k).active)) s.owners
    t = (s.withAct k { a with notices := [] }).send (.lane k) a.notices

/-- t is what the parts of a lane command make of s, when the lanes of `left` have not judged it, the entries that it has caused
in the lanes `waiting` wait for their fetches, and the notices of these entries are on their way from the lanes `held`. The
lanes judge, the fetches are served and the notices are stored in any order, and other things happen between these parts (R12,
R28, R29, R177; log 4). `stored` are the lanes whose entries raise a notice, in the order in which it is stored (R30; log
19). -/
inductive State.Parts (judged : State → LaneId → Except Result Act) :
    (left waiting held stored : List LaneId) → State → State → Prop
  | done (s : State) : Parts judged [] [] [] [] s s
  | goOn {left waiting held stored s u t} : s.GoesOn (maskOfLines waiting) u → State.Keeps held s u →
      Parts judged left waiting held stored u t → Parts judged left waiting held stored s t
  | judge {left waiting held stored k s u t} : k ∈ left → State.Judged judged k s u → State.Keeps held s u →
      Parts judged (left.erase k) (if (u.lane k).entry.isSome then waiting ++ [k] else waiting) held stored u t →
      Parts judged left waiting held stored s t
  | fetch {left waiting held stored k s u t} : k ∈ waiting → State.Fetched k s u →
      Parts judged left (waiting.erase k) (if u.lateOf (.lane k) = s.lateOf (.lane k) then held else held ++ [k]) stored u t →
      Parts judged left waiting held stored s t
  | store {left waiting held stored k s t} : k ∈ held →
      Parts judged left waiting (held.erase k) stored (s.arriveFrom (.lane k)) t →
      Parts judged left waiting held (k :: stored) s t

/-- The command answers a next state, and what it comes to is what the parts of the named lanes make of s, with CMD_REFUSED
cleared before (R29), and what follows from them (R177). The notices of the entries that it causes are stored in ascending lane
order (R30). -/
def State.Commands (s : State) (c : Instr) (mask : LaneMask) (judged : State → LaneId → Except Result Act) : Prop :=
  ∃ t stored, State.Parts judged (lanesOf mask) [] [] stored { s with cmdRefused := 0 } t ∧ stored.Pairwise (· < ·) ∧
    exec c s = .next (followUp t)

/-! ## What the setting of a latch comes to -/

/-- The state after the setting of source n's latch: every lane in its scope that is not in the middle of an entry takes
the forcing and the others keep it, and the TRIP notices of the settings now complete are raised in the order of the
settings, the first of them stored and the others on their way, or all of them on their way where a notice of an entry is
still on its way from a lane that one of them names (`State.raiseTripNotices`; R27, R28, R147, R148, R172). -/
def State.latched (s : State) (n : SourceId) : State :=
  let scope := s.trips[n.val].scope
  let forced (k : LaneId) : Bool := scope.getLsbD k && (s.lane k).free
  let setting : Setting :=
    { source := n
      left := BitVec.ofFnLE fun k : LaneId => scope.getLsbD k && !(s.lane k).free
      moved := BitVec.ofFnLE fun k : LaneId =>
        forced k && decide ((s.lane k).state ≠ .idle) && decide ((s.lane k).state ≠ .tripped) }
  let settings := s.settings ++ [setting]
  let t : State :=
    { s with
      trips := s.trips.set n.val { s.trips[n.val] with latch := true }
      lanes := Vector.ofFn fun k : LaneId =>
        if forced k then (s.lane k).force
        else if scope.getLsbD k then { s.lane k with kept := (s.lane k).kept ++ [.forcing n] }
        else s.lane k
      settings := settings.dropWhile fun x => x.left == 0 }
  t.raiseTripNotices ((settings.takeWhile fun x => x.left == 0).map fun x => .trip x.source x.moved)

/-! ## What a soft reset comes to -/

/-- Things have happened within a soft reset that the blocks have taken: no event is on its way to a lane any more, since the
lanes are IDLE and took what fell in that span (R183), and the notices raised are discarded (R176, R177). -/
def State.Discards (s t : State) : Prop :=
  ∃ u, s.GoesOn 0 u ∧ t = { u with
    lanes := Vector.ofFn fun k => { u.lane k with coming := [] }, queue := s.queue, late := s.late }

/-! ## What the window shows -/

/-- The number of a flag. -/
def bitOf (b : Bool) : Nat := if b then 1 else 0

/-- LANE_STATUS words A and B of a lane (R44, R179). -/
def Lane.statusWords (l : Lane) : List Nat :=
  [[LaneState.idle, .armed, .running, .held, .done, .faulted, .tripped].idxOf l.state + 8 * bitOf l.copy.isSome +
      16 * [none, some SwapBoundary.nextStep, some .sequenceEnd].idxOf (l.swap.map Descriptor.swapBoundary) +
      64 * bitOf l.pulse.isSome + 128 * bitOf l.latch + 256 * l.stack.length +
      4096 * [Result.taken, .state, .range, .tripped, .busy, .pending, .owned, .active, .empty].idxOf l.lastResult,
    [none, some FaultCause.limit, some .badStep, some .stackOver, some .stackUnder, some .unbalanced].idxOf l.faultCause +
      16 * [none, some PriorState.armed, some .running, some .held, some .done, some .faulted].idxOf l.prior]

/-- The inspection window of a lane (R45, R88, R179). -/
def Lane.inspection (l : Lane) : List Nat :=
  let d := l.descriptor
  let source : Nat × Nat :=
    match d.startSource with
    | .command => (0, 0)
    | .trigger line => (1, line.val)
    | .edge n .rising => (2, n.val)
    | .edge n .falling => (3, n.val)
  let frames := l.stack.reverse
  [d.base, d.length, d.preset, d.cycleLimit,
    bitOf (d.endAction == .wrap) + 2 * bitOf (d.faultPolicy == .hold) + 4 * bitOf d.emitOnEnd + 8 * bitOf d.emitOnFault +
      16 * bitOf (d.swapBoundary == .sequenceEnd) + 256 * source.1 + 1024 * source.2,
    (l.pattern.extractLsb' 0 16).toNat, (l.pattern.extractLsb' 16 16).toNat, l.dwell, l.limit.getD 0,
    bitOf (l.limit == none), l.edges] ++
  ((List.range 4).map fun n => (frames[n]?.map Frame.head).getD 0) ++
  ((List.range 4).map fun n => (frames[n]?.map Frame.passes).getD 0) ++
  match l.pulse with
  | none => [0, 0]
  | some p => [p.line.val, p.ticks]

/-- The five head registers of the notice queue (R173, R169, R179). -/
def Queue.headWords (q : List Notice) : List Nat :=
  let cause (c : EntryCause) : Nat :=
    [EntryCause.start, .advance, .repeated, .wrap, .skip, .divert, .resume, .release, .swap].idxOf c
  let fault (c : FaultCause) : Nat := [FaultCause.limit, .badStep, .stackOver, .stackUnder, .unbalanced].idxOf c + 1
  match q with
  | [] => [0x8000, 0, 0, 0, 0]
  | x :: _ =>
    (match x.body with
    | .step k o c => [1 + 256 * k.val, o, cause c, 0]
    | .rangeEnd k o e n => [2 + 256 * k.val, o, bitOf (e == .done), n]
    | .fault k o c a => [3 + 256 * k.val, o, fault c + 16 * [FaultAction.halt, .skip, .divert].idxOf a, 0]
    | .trip n m => [4 + 0x8000, 0, n.val, m.toNat]
    | .swap k o b w =>
      [5 + 256 * k.val, o, bitOf (b == .sequenceEnd) + 16 * [SwapOccasion.entry, .endOfRange, .stop].idxOf w, 0]
    | .position u => [6 + 0x8000, 0, u.val, 0]
    | .job k e n => [7 + 0x8000, 0, bitOf (k == .check) + 16 * bitOf (e == .aborted), n]
    | .lost n => [8 + 0x8000, 0, 0, n]) ++ [x.stamp.toNat]

/-- The registers that read as more than a command register does, by address: each group with the address of its first word
and its words, as the register map and the field layouts of section 12.2 give them (R44, R45, R88, R114, R120, R131, R156,
R167, R173, R178 to R182). -/
def State.registerMap (s : State) : List (Nat × List Nat) :=
  let owner (n : Fin 32) : Nat := match s.owners[n.val] with | none => 8 | some k => k.val
  let levels (first : Nat) : Nat := ((List.range 16).map fun i => 2 ^ i * bitOf (s.outLevel (Fin.ofNat 32 (first + i)))).sum
  let unit (u : PositionUnit) : Nat :=
    bitOf u.error + 2 * [none, some Direction.up, some .down].idxOf u.lastDirection + 8 * bitOf u.a.accepted +
      16 * bitOf u.b.accepted
  let source (f : TripSource → Bool) (n : SourceId) : Nat := bitOf (f s.trips[n.val])
  [(0x00, [0x0840,
      bitOf s.driveEnable + 2 * bitOf s.timebase.running + 4 * bitOf s.irqEnable,
      bitOf (s.job.kind == .clear && s.job.state == .running) + 2 * bitOf (s.job.state == .running) +
        4 * bitOf (s.queue != []),
      [Result.taken, .state, .range, .tripped, .busy, .pending, .owned, .active, .empty].idxOf s.cmdResult,
      s.cmdRefused.toNat, s.timebase.div.toNat, s.timebase.pre.toNat, s.timebase.counter.toNat]),
    (0x10, s.buffer.words.map BitVec.toNat),
    (0x20, [s.staging.base, s.staging.length, s.staging.preset, s.staging.cycles, s.staging.mode].map BitVec.toNat),
    (0x40, allLanes.flatMap fun k => (s.lane k).statusWords),
    (0x50, allLanes.map fun k => (s.lane k).active),
    (0x58, allLanes.map fun k => (s.lane k).cycles),
    (0x60, s.laneSel.toNat :: (s.lane s.laneSel.toFin).inspection),
    (0x80, [(s.safeLevels.extractLsb' 0 16).toNat, (s.safeLevels.extractLsb' 16 16).toNat]),
    (0x84, [levels 0, levels 16]),
    (0x88, (List.finRange 8).map fun j =>
      ((List.finRange 4).map fun m => 16 ^ m.val * owner (Fin.ofNat 32 (4 * j.val + m.val))).sum),
    (0x90, (s.inputs.polarity :: s.inputs.filters.toList ++ [s.inputs.accepted]).map BitVec.toNat),
    (0xA0, [s.units[0].filter.toNat, s.units[1].filter.toNat, s.units[0].counter.toNat, s.units[1].counter.toNat,
      unit s.units[0] + 256 * unit s.units[1], s.posArg.toNat]),
    (0xB0, [s.tripArg0.toNat, s.tripArg1.toNat]),
    (0xB5, [s.tripRefused.toNat,
      ((List.finRange 5).map fun n => 2 ^ n.val * source TripSource.latch n).sum +
        ((List.finRange 5).map fun n => 2 ^ (5 + n.val) * source TripSource.enable n).sum +
        ((List.finRange 4).map fun n => 2 ^ (10 + n.val) * source TripSource.active n.castSucc).sum]),
    (0xB8, (List.finRange 5).map fun n =>
      if n.val = 4 then source TripSource.enable n
      else source TripSource.enable n + 2 * source TripSource.activeLow n + 256 * s.trips[n.val].filter.toNat),
    (0xC0, (List.finRange 5).map fun n => s.trips[n.val].scope.toNat),
    (0xD0, [s.jobArgSrc.toNat, s.jobArgDst.toNat, s.jobArgCount.toNat]),
    (0xD8, [[JobKind.clear, .copy, .check].idxOf s.job.kind +
        16 * [JobState.idle, .running, .done, .aborted].idxOf s.job.state,
      s.job.source, s.job.destination, s.job.count, s.job.progress, s.job.crc.toNat]),
    (0xE0, Queue.headWords s.queue ++ [s.queue.length])]

/-- The word at an address of the register map: 0 for a command register and for an address without a register (R178). -/
def State.registerAt (s : State) (a : Nat) : Word :=
  match s.registerMap.find? fun g => g.1 ≤ a && a < g.1 + g.2.length with
  | some g => BitVec.ofNat 16 (g.2.getD (a - g.1) 0)
  | none => 0

/-- The commands that the writes of this word through the window make, by address, where the write of a register has a row
of its own (R178, R179; log 13). A write of CONTROL can change several bits at once. -/
def rowsOfWrites (v : Word) : List (BitVec 8 × Instr) :=
  [(0x05, .tbDivPreWrite .div v), (0x06, .tbDivPreWrite .pre v), (0x07, .tbCountWrite v), (0x1A, .recordRead v),
    (0x1B, .recordWrite v), (0x28, .laneStart v), (0x29, .laneStop v), (0x2A, .laneHold v), (0x2B, .laneRelease v),
    (0x2C, .laneReset v), (0x2D, .laneResume v), (0x2E, .laneStep v), (0x2F, .laneJump v), (0x30, .laneLoad v),
    (0x31, .laneSwap v), (0x32, .laneCancelSwap v), (0x80, .safeLevelWrite .lo v), (0x81, .safeLevelWrite .hi v),
    (0x82, .lineAssign v), (0x83, .lineFree v), (0x90, .inputSettingWrite .polarity v), (0xA0, .posFiltWrite 0 v),
    (0xA1, .posFiltWrite 1 v), (0xA6, .posLoad v), (0xA7, .posClear v), (0xA8, .triggerEmit v), (0xB2, .tripConfig v),
    (0xB3, .tripAssert v), (0xB4, .tripClear v), (0xD3, .jobCopy v), (0xD4, .jobCheck v), (0xD5, .jobAbort v),
    (0xE6, .noticePop v)] ++
  (List.finRange 8).map fun j => (BitVec.ofNat 8 (0x91 + j.val), .inputSettingWrite (.filter j) v)

end Sys2Proof.Machine
end

