-- ==== Sys2Proof/WellFormed.lean ====
section
/-! DEFINITION. Which commands are rows as the table means them. The types of the operands admit only parts the
T840 has (lanes 0–7, inputs 0–15 and so on); what is left to check is that PLAIN_REGISTER_WRITE names an address
whose write has no row of its own (opcode_table.json; R178, R179). -/

namespace Sys2Proof

/-- The addresses of the register map whose write has a row of its own: CONTROL, the Timebase registers, every
command register, the safe levels, and the input and position filter settings (R179). -/
def rowAddresses : List Nat :=
  [0x01, 0x05, 0x06, 0x07, 0x1A, 0x1B] ++
  [0x28, 0x29, 0x2A, 0x2B, 0x2C, 0x2D, 0x2E, 0x2F, 0x30, 0x31, 0x32] ++
  [0x80, 0x81, 0x82, 0x83] ++
  [0x90, 0x91, 0x92, 0x93, 0x94, 0x95, 0x96, 0x97, 0x98] ++
  [0xA0, 0xA1, 0xA6, 0xA7, 0xA8] ++
  [0xB2, 0xB3, 0xB4, 0xD3, 0xD4, 0xD5, 0xE6]

/-- A well-formed command. Every operand is within its range by its type; a PLAIN_REGISTER_WRITE names an address
that is a plain register without a behaviour of its own, a read-only register, or no register. -/
def Instr.wellFormed : Instr → Bool
  | .plainRegisterWrite address _ => !rowAddresses.contains address.toNat
  | .recordRead _ | .recordWrite _ => true
  | .laneStart _ | .laneStop _ | .laneHold _ | .laneRelease _ | .laneReset _ | .laneResume _ => true
  | .laneStep _ | .laneJump _ | .laneLoad _ | .laneSwap _ | .laneCancelSwap _ => true
  | .lineAssign _ | .lineFree _ | .posLoad _ | .posClear _ | .triggerEmit _ => true
  | .tripConfig _ | .tripAssert _ | .tripClear _ | .jobCopy _ | .jobCheck _ | .jobAbort _ | .noticePop _ => true
  | .driveEn _ | .tbRun _ | .noticeIrqEn _ | .softReset => true
  | .safeLevelWrite _ _ | .inputSettingWrite _ _ | .posFiltWrite _ _ | .tbDivPreWrite _ _ | .tbCountWrite _ => true
  | .resetAssert | .resetRelease | .clearWrite | .copyMove | .checkRead | .entryFetch _ => true
  | .tick _ | .dwellExpiry _ | .limitExpiry _ | .pulseEnd _ => true
  | .inputAcceptedChange _ | .edgeEvent _ _ _ | .quadratureChange _ _ | .arrival _ _ _ _ => true
  | .emission _ _ | .tripAcceptedChange _ | .tripForcing _ _ | .presentedLevelChange _ _ => true

end Sys2Proof
end

