-- ==== Sys2Proof/Certificates/Slice0/Obligations.lean ====
section
/-! DEFINITION. The statements about the T840 for the provers, chapter by chapter of the spec. -/

section
open Sys2Proof Sys2Proof.Machine

/-! ## Steps and the queue of commands -/

/-- A step takes the command at the front of the queue and runs it on the queue's rest (R177: one access after
another). -/
def Obligations.StepRunsTheFrontCommand : Prop :=
  ∀ (c : Instr) (rest : List Instr) (s : State),
    step { s with pending := c :: rest } = exec c { s with pending := rest }

/-- Every command, in every state, answers a next state: a row whose event cannot happen changes nothing, and no command
stops the part (the model's choice, log 6). It leaves the queue of waiting commands alone (the model's own, log 17). -/
def Obligations.EveryCommandCompletes : Prop :=
  ∀ (c : Instr) (s : State), ∃ t, exec c s = .next t ∧ t.pending = s.pending

/-- With no command waiting the block goes on by itself (the model's choice, log 1): while RESET# is low nothing moves;
where events that a lane can take are on their way or kept, or notices are on their way, all of them are taken or
stored, in a free order (log 3); else one of the things that can come next does, by a free choice (log 3), and a core
clock period going by is one of them exactly where no event of the core clock is due, whatever waits for the Table
Controller (log 1). No emission waits to be handed out, as between any two steps (log 29). -/
def Obligations.IdleBlockGoesOnByItself : Prop :=
  ∀ s : State, s.pending = [] → s.outbox = [] →
    (∃ t, step s = .next t ∧ t.pending = []) ∧
    (s.resetLow = true → step s = .next s) ∧
    (s.resetLow = false → ¬ s.AllTaken → step s = .next (drain s) ∧ (drain s).AllTaken) ∧
    (s.due ≠ [] ∧ (Due.period ∈ s.due ↔ s.nothingBefore 1 = true) ∧ doDue s .period = elapse 1 s) ∧
    (s.resetLow = false → s.AllTaken → s.due = [.period] → step s = .next (elapse 1 s)) ∧
    (s.resetLow = false → s.AllTaken → ∀ d, s.due = [d] → step s = .next (doDue s d)) ∧
    (s.resetLow = false → s.AllTaken → 2 ≤ s.due.length → ∃ d ∈ s.due, step s = .next (doDue s.pickDone d))

/-! ## Step records and the table (spec/01) -/

/-- Each field of a record stands at the word and bits of the layout table and is decoded by the code table (R2, R3,
R4): the KIND, LOOP, ONFAULT and ARG_A codes, and the numbers. -/
def Obligations.RecordFieldsStandInTheirBits : Prop :=
  ∀ r : Record,
    r.pattern = r.w1 ++ r.w0 ∧
    r.dwellTicks = (if r.w2 = 0 then 1 else r.w2.toNat) ∧
    r.limitTicks = (if r.w3 = 0 then none else some r.w3.toNat) ∧
    r.kind = ([some .time, some .input, some .edge, some .position, some .trigger, some .command] : List _).getD
      (r.w4.extractLsb' 0 3).toNat none ∧
    r.sel = (r.w4.extractLsb' 3 5).toNat ∧
    r.loop = ([.none, .mark, .tail, .self] : List _).getD (r.w4.extractLsb' 8 2).toNat .none ∧
    r.report = r.w4[10] ∧ r.emit = r.w4[11] ∧
    r.onFault = ([some .halt, some .skip, some .divert] : List _).getD (r.w4.extractLsb' 12 2).toNat none ∧
    r.pulse = r.w4[14] ∧
    r.edgeSense = ([some .rising, some .falling, some .both] : List _).getD (r.w5.extractLsb' 0 2).toNat none ∧
    r.approach = ([some .up, some .down, some .either] : List _).getD (r.w5.extractLsb' 0 2).toNat none ∧
    r.argA = r.w5 ∧ r.argB = r.w6 ∧
    r.loopCount = (r.w7.extractLsb' 0 8).toNat ∧
    r.divert = (r.w8.extractLsb' 0 9).toNat ∧
    r.pulseLine.val = (r.w8.extractLsb' 11 5).toNat ∧
    r.pulseTicks = (if r.w9 = 0 then 1 else r.w9.toNat)

/-- The check of a record at entry (R7), with every field read from its bits; an entry, a full entry or a re-entry,
ends in BAD_STEP exactly when the record it fetched is invalid; and a zero record passes the check in every range (R5).
-/
def Obligations.RecordCheckRefusesExactlyTheInvalid : Prop :=
  (∀ (r : Record) (length : Nat),
    let kind := (r.w4.extractLsb' 0 3).toNat
    let sel := (r.w4.extractLsb' 3 5).toNat
    let loop := (r.w4.extractLsb' 8 2).toNat
    let onFault := (r.w4.extractLsb' 12 2).toNat
    r.validFor length = false ↔
      (kind = 6 ∨ kind = 7) ∨
      (kind = 2 ∧ 16 ≤ sel ∨ kind = 3 ∧ 2 ≤ sel ∨ kind = 4 ∧ 8 ≤ sel) ∨
      ((kind = 2 ∨ kind = 3) ∧ (r.w5.extractLsb' 0 2).toNat = 3) ∨
      onFault = 3 ∨
      ((loop = 1 ∨ loop = 3) ∧ (r.w7.extractLsb' 0 8).toNat = 0) ∨
      (onFault = 2 ∧ length ≤ (r.w8.extractLsb' 0 9).toNat)) ∧
  (∀ (k : LaneId) (s : State) (e : Entry), s.resetLow = false → s.inTurn k = true → (s.lane k).entry = some e →
    let l := s.lane k
    ∃ t, exec (.entryFetch k) s = .next t ∧
      ((Memory.read s.table (l.descriptor.base + l.active)).validFor l.descriptor.length = false ↔
        (t.lane k).state = .faulted ∧ (t.lane k).faultCause = some .badStep ∧ (t.lane k).copy = none)) ∧
  ∀ length, Record.zero.validFor length = true

/-- RECORD_READ and RECORD_WRITE (R10, R11): BUSY during the power-on clear, then RANGE at 512 and above. A read taken
brings the whole record into BUF0–BUF9; a write taken replaces the record at the index by the buffer, and every other
record stands. Nothing else changes, the lanes' copies included. -/
def Obligations.RecordTransfersMoveOneRecord : Prop :=
  ∀ (index : Word) (s : State), s.resetLow = false → Memory.wf s.table →
    exec (.recordRead index) s = .next (
      if s.job.kind = .clear ∧ s.job.state = .running then { s with cmdResult := .busy }
      else if 512 ≤ index.toNat then { s with cmdResult := .range }
      else { s with buffer := Memory.read s.table index.toNat, cmdResult := .taken }) ∧
    ∃ t, exec (.recordWrite index) s = .next t ∧
      { t with table := s.table, cmdResult := s.cmdResult } = s ∧
      if s.job.kind = .clear ∧ s.job.state = .running then t.cmdResult = .busy ∧ t.table = s.table
      else if 512 ≤ index.toNat then t.cmdResult = .range ∧ t.table = s.table
      else t.cmdResult = .taken ∧
        ∀ j, Memory.read t.table j = if j = index.toNat then s.buffer else Memory.read s.table j

/-- CLEAR_WRITE (R15, R161): a zero record at the next index and progress raised by one; at 512 the clear is DONE,
without a notice. Every other record stands, and nothing else changes, but that a waiting fetch has now waited for an
access. While a fetch waits that has done so already, the access is not served (R161): the row changes nothing (log 6,
log 32). -/
def Obligations.ClearWriteZeroesTheNextRecord : Prop :=
  ∀ s : State, s.resetLow = false → s.job.kind = .clear → s.job.state = .running → s.job.Ok → Memory.wf s.table →
    (s.accessFree = false → exec .clearWrite s = .next s) ∧
    (s.accessFree = true → ∃ t, exec .clearWrite s = .next t ∧
      { t with table := s.table, job := s.job, lanes := s.lanes } = s ∧
      (∀ k, t.lane k = { s.lane k with entry := (s.lane k).entry.map fun e => { e with passed := true } }) ∧
      t.job = { s.job with
        progress := s.job.progress + 1
        state := if s.job.progress + 1 = s.job.count then .done else .running } ∧
      ∀ j, Memory.read t.table j = if j = s.job.progress then .zero else Memory.read s.table j)

/-- The whole power-on clear (R15): RESET_RELEASE begins it at index 0 with BUSY in STATUS; 512 clear writes later every
record is zero, the job is DONE at progress 512, BUSY is 0 and no notice has been raised. -/
def Obligations.PowerOnClearFillsTheTable : Prop :=
  ∀ s : State, s.resetLow = true → Memory.wf s.table →
    ∃ u, exec .resetRelease s = .next u ∧
      u.job = ⟨.clear, 0, 0, 512, 0, .running, 0⟩ ∧ u.statusWord = 0x0003#16 ∧
      ∃ t, core.run 512 { u with pending := List.replicate 512 .clearWrite } = .next t ∧
        (∀ j, j < 512 → Memory.read t.table j = .zero) ∧
        t.job = ⟨.clear, 0, 0, 512, 512, .done, 0⟩ ∧ t.statusWord = 0 ∧ t.queue = []

/-! ## Lanes and their commands (spec/02, spec/05) -/

/-- The check of the staging descriptor (R21), with the layout of STG_MODE: the image is invalid exactly in the listed
cases, and a valid image holds what the registers hold. -/
def Obligations.StagingCheckRefusesExactlyTheInvalid : Prop :=
  ∀ g : Staging,
    let kind := (g.mode.extractLsb' 8 2).toNat
    let number := (g.mode.extractLsb' 10 5).toNat
    (g.image = none ↔
      512 ≤ g.base.toNat ∨ g.length.toNat = 0 ∨ 512 < g.length.toNat ∨ 512 < g.base.toNat + g.length.toNat ∨
      g.length.toNat ≤ g.preset.toNat ∨ (kind = 1 ∧ 8 ≤ number) ∨ (2 ≤ kind ∧ 16 ≤ number)) ∧
    ∀ d, g.image = some d →
      d.base = g.base.toNat ∧ d.length = g.length.toNat ∧ d.preset = g.preset.toNat ∧ d.cycleLimit = g.cycles.toNat ∧
      (d.endAction = .wrap ↔ g.mode[0] = true) ∧ (d.faultPolicy = .hold ↔ g.mode[1] = true) ∧
      d.emitOnEnd = g.mode[2] ∧ d.emitOnFault = g.mode[3] ∧ (d.swapBoundary = .sequenceEnd ↔ g.mode[4] = true) ∧
      (d.startSource = .command ↔ kind = 0) ∧
      (∀ line : LaneId, d.startSource = .trigger line ↔ kind = 1 ∧ number = line.val) ∧
      (∀ n : InputId, d.startSource = .edge n .rising ↔ kind = 2 ∧ number = n.val) ∧
      (∀ n : InputId, d.startSource = .edge n .falling ↔ kind = 3 ∧ number = n.val)

/-- LANE_HOLD, LANE_RESET and LANE_CANCEL_SWAP (R33, R40, R91, R29). Hold: a named RUNNING lane goes to HELD with all
else kept, and any other named lane refuses with STATE. Reset: every named lane takes it, in every state, and is IDLE
at PRESET of its descriptor with its walk cleared and its pattern kept; edges, arrivals and emissions on their way do
not reach it any more (log 7). Cancel: a pending swap is removed without being applied, and a lane without one refuses
with STATE. No notice and no emission of the command's own. The named lanes take their parts one after another in any
order (log 19), each against the state it is then in and completing an entry in progress first; what other blocks do
meanwhile is free (`State.Commands`; log 3, log 4, log 31). -/
def Obligations.LaneHoldResetAndCancelSwap : Prop :=
  ∀ (v : Word) (s : State), s.resetLow = false →
    (s.Commands (.laneHold v) (maskOf v) fun u k =>
      if (u.lane k).state = .running then .ok (.silent { u.lane k with state := .held }) else .error .state) ∧
    (s.Commands (.laneReset v) (maskOf v) fun u k =>
      let l := u.lane k
      .ok (.silent { Lane.fresh l.descriptor with
        pattern := l.pattern, coming := l.coming.filter fun e => !e.passing })) ∧
    (s.Commands (.laneCancelSwap v) (maskOf v) fun u k =>
      if (u.lane k).swap.isSome then .ok (.silent { u.lane k with swap := none }) else .error .state)

/-- LANE_LOAD and LANE_SWAP (R41, R90, R99). Load: BUSY during the clear, then RANGE for an invalid staging descriptor,
then STATE in ARMED, RUNNING and HELD; else the lane holds the image, IDLE at its PRESET, walk cleared, pattern kept,
and edges, arrivals and emissions on their way do not reach it any more (log 7). Swap: RANGE for an invalid staging
descriptor, then STATE in IDLE, in DONE and in a trip from DONE, then PENDING over a swap already held; else only the
pending swap changes. The named lanes take their parts one after another in any order (log 19), each against the state
it is then in (`State.Commands`; log 3, log 4). -/
def Obligations.LaneLoadAndSwapTakeTheStagingImage : Prop :=
  ∀ (v : Word) (s : State), s.resetLow = false →
    (s.Commands (.laneLoad v) (maskOf v) fun u k =>
      let l := u.lane k
      if u.clearRunning then .error .busy
      else
        match s.staging.image with
        | none => .error .range
        | some d =>
          if l.state = .armed ∨ l.state = .running ∨ l.state = .held then .error .state
          else .ok (.silent { Lane.fresh d with
            pattern := l.pattern, coming := l.coming.filter fun e => !e.passing })) ∧
    (s.Commands (.laneSwap v) (maskOf v) fun u k =>
      let l := u.lane k
      match s.staging.image with
      | none => .error .range
      | some d =>
        if l.state = .idle ∨ l.state = .done ∨ l.state = .tripped ∧ l.prior = some .done then .error .state
        else if l.swap.isSome then .error .pending
        else .ok (.silent { l with swap := some d }))

/-- LANE_JUMP (R39): the lane in bits 12–14, in HELD or FAULTED and with the offset in bits 0–8 below its LENGTH,
stands at that offset with its stack and its step cleared, and without a current step edges, arrivals and emissions on
their way do not reach it any more (R26; log 7); STATE, then RANGE, otherwise. The lane completes an entry in progress
first; what other blocks do meanwhile is free (`State.Commands`; log 3, log 4). -/
def Obligations.LaneJumpMovesAHeldOrFaultedLane : Prop :=
  ∀ (v : Word) (k : LaneId) (s : State), k.val = (v.extractLsb' 12 3).toNat → s.resetLow = false →
    let offset := (v.extractLsb' 0 9).toNat
    s.Commands (.laneJump v) (1#8 <<< k.val) fun u j =>
      let l := u.lane j
      if l.state ≠ .held ∧ l.state ≠ .faulted then .error .state
      else if l.descriptor.length ≤ offset then .error .range
      else .ok (.silent { l with
        active := offset, stack := [], copy := none, dwell := 0, limit := none, latch := false, edges := 0
        coming := l.coming.filter fun e => !e.passing })

/-- LANE_STOP (R36, R98): STATE in IDLE and TRIPPED; else IDLE at PRESET of the descriptor in force, a pending swap of
either boundary first applied with its SWAP notice of occasion STOP. Pattern and fault cause are kept, and the cycle
count too unless a swap was applied; edges, arrivals and emissions on their way do not reach the lane any more (log 7).
The named lanes take their parts one after another in any order, so that the SWAP notices of one write stand in any
order (log 19), each against the state it is then in (`State.Commands`; log 3, log 4, log 31). -/
def Obligations.LaneStopReturnsToIdle : Prop :=
  ∀ (v : Word) (s : State), s.resetLow = false →
    s.Commands (.laneStop v) (maskOf v) fun u k =>
      let l := u.lane k
      if l.state = .idle ∨ l.state = .tripped then .error .state
      else
        .ok {
          lane := { Lane.fresh (l.swap.getD l.descriptor) with
            pattern := l.pattern
            faultCause := l.faultCause
            prior := l.prior
            cycles := if l.swap.isSome then 0 else l.cycles
            coming := l.coming.filter fun e => !e.passing }
          notices :=
            match l.swap with
            | some d => [.swap k l.active d.swapBoundary .stop]
            | none => []
          emits := false }

/-- LANE_START (R31, R32, R29, R30): BUSY during the clear; in IDLE and DONE, TRIPPED under a covering latch, else the
full entry of PRESET with cause START, or ARMED at PRESET; STATE in any other state. The named lanes judge in any
order, the fetches of the entries that the command causes are served in any order, and the notices of these entries are
stored in ascending lane order; then the emissions, those of an end of range or of an exit fault among them, are handed
out and what follows is completed (log 19). Meanwhile an access of a table job, other lanes' events and events of the
machine side and the Timebase may happen (`State.Commands`; log 3, log 4, log 32). -/
def Obligations.LaneStartEntersOrArms : Prop :=
  ∀ (v : Word) (s : State), s.resetLow = false →
    s.Commands (.laneStart v) (maskOf v) fun u k =>
      let l := { u.lane k with cycles := 0, faultCause := none }
      if u.clearRunning then .error .busy
      else if l.state ≠ .idle ∧ l.state ≠ .done then .error .state
      else if u.covered k then .error .tripped
      else if l.descriptor.startSource = .command then .ok (l.requests true l.descriptor.preset .start)
      else .ok (.silent { l with
        active := l.descriptor.preset, copy := none, dwell := 0, limit := none, latch := false, edges := 0
        pulse := none, state := .armed })

/-- LANE_RELEASE and LANE_STEP (R34, R35, R62, R66; section 2.5: R29, R30). Release: a named HELD lane returns to
RUNNING; with entered yes the step goes on, and the lane advances at once when its dwell has expired and its condition
holds; with entered no it makes the full entry of its active offset with cause RELEASE, which a NEXT_STEP swap
replaces. Step: a named lane, RUNNING or HELD in an entered COMMAND step, sets its latch, and advances when it is
RUNNING with its dwell expired. Any other lane refuses with STATE. The lanes judge and the fetches of the entries caused
are served in any order; the notices of these entries are stored in ascending lane order, while the END and FAULT
notices of what the lanes judged stand anywhere; the emissions wait until every named lane has judged (log 19); what
other blocks do meanwhile is free (`State.Commands`; log 3, log 4, log 32). -/
def Obligations.LaneReleaseAndStepLetTheLaneGoOn : Prop :=
  ∀ (v : Word) (s : State), s.resetLow = false →
    (s.Commands (.laneRelease v) (maskOf v) fun u k =>
      let l := u.lane k
      if l.state ≠ .held then .error .state
      else if l.copy.isSome then .ok ({ l with state := .running }.judges k u.inputs.accepted)
      else .ok (l.enters k true l.active .release)) ∧
    (s.Commands (.laneStep v) (maskOf v) fun u k =>
      let l := u.lane k
      if l.waitsIn .command then .ok ({ l with latch := true }.judges k u.inputs.accepted) else .error .state)

/-- LANE_RESUME (R37, R38, R153): TRIPPED under a covering latch in FAULTED and TRIPPED, STATE in any other state. A
FAULTED lane clears its cause and enters its active offset with cause RESUME, by a re-entry when entered is yes and a
full entry when it is no; a TRIPPED lane returns to a prior ARMED, DONE or FAULTED without an entry, and from a prior
RUNNING or HELD by such an entry; one without a prior state, which no run reaches, refuses with STATE (the model's
choice, log 21). The named lanes judge in any order, each against the state it is then in, the fetches are served in any
order, and the notices of the entries are stored in ascending lane order (`State.Commands`; log 3, log 4, log 19, log
32). -/
def Obligations.LaneResumeContinuesTheWalk : Prop :=
  ∀ (v : Word) (s : State), s.resetLow = false →
    s.Commands (.laneResume v) (maskOf v) fun u k =>
      let l := u.lane k
      if l.state ≠ .faulted ∧ l.state ≠ .tripped then .error .state
      else if u.covered k then .error .tripped
      else if l.state = .faulted then .ok ({ l with faultCause := none }.enters k (!l.copy.isSome) l.active .resume)
      else
        match l.prior with
        | some .armed => .ok (.silent { l with state := .armed, prior := none })
        | some .done => .ok (.silent { l with state := .done, prior := none })
        | some .faulted => .ok (.silent { l with state := .faulted, prior := none })
        | some .running | some .held => .ok ({ l with prior := none }.enters k (!l.copy.isSome) l.active .resume)
        | none => .error .state

/-- SOFT_RESET (R183, R43, R121, R132, R155, R166, R17, R176): every lane fresh under its descriptor; drive enable
clear; accepted levels taken afresh; error flags clear; the queue emptied, then one TRIP notice with an empty mask for
each enabled pin source that is active when the levels are taken afresh, whose latch sets again at once, in a free order
(R148; log 3). A running COPY or CHECK is abandoned, and an access of it that is being served completes and is counted
as any other (whether one is, is free: log 3). All else is kept. The blocks take all this in one act, and other things
may happen before it and after it, within the reset; the notices of these are discarded, and what reaches a lane after it
finds the lane IDLE and changes nothing in it, so that no event is on its way to a lane when the reset is complete (R176,
R177, R183; the model's reading, log 38). -/
def Obligations.SoftResetClearsTheWalks : Prop :=
  ∀ s : State, s.resetLow = false →
    let abandoned (r : State) : Prop := r.job.state = .running ∧ r.job.kind ≠ .clear
    let relatched (r : State) (n : SourceId) : Bool := n ≠ 4 && r.trips[n.val].enable && r.trips[n.val].presented
    (∀ t, (s.job.kind = .copy ∧ exec .copyMove s = .next t ∨ s.job.kind = .check ∧ exec .checkRead s = .next t) →
      abandoned s → s.accessFree = true →
      completeAccess s = { s with table := t.table, job := { t.job with state := .running } }) ∧
    ∃ (r u t : State) (p : Nat) (order : List SourceId),
      s.GoesOn 0 r ∧ (u = r ∨ abandoned r ∧ r.accessFree = true ∧ u = completeAccess r) ∧
      order.Perm ((List.finRange 5).filter (relatched r)) ∧
      (∀ k, t.lane k = .fresh (r.lane k).descriptor) ∧
      State.Discards { r with
        table := u.table
        job := if r.job.state = .running ∧ r.job.kind ≠ .clear then { u.job with state := .idle } else r.job
        picks := p
        lanes := Vector.ofFn fun k => .fresh (r.lane k).descriptor
        driveEnable := false
        inputs := { r.inputs with accepted := r.inputs.pins ^^^ r.inputs.polarity, acceptance := .replicate 16 none }
        units := Vector.ofFn fun u : UnitId => { r.units[u.val] with
          a := ⟨r.units[u.val].a.pin, r.units[u.val].a.pin, none⟩
          b := ⟨r.units[u.val].b.pin, r.units[u.val].b.pin, none⟩
          error := false }
        trips := Vector.ofFn fun n : SourceId => { r.trips[n.val] with
          latch := relatched r n, active := r.trips[n.val].presented, acceptance := none }
        settings := []
        tripRefused := 0
        queue := Queue.arriveAll [] (order.map fun n => .trip n 0) r.timebase.counter
        late := []
        cmdResult := .taken
        cmdRefused := 0
        laneSel := 0
        outbox := [] } t ∧
      exec .softReset s = .next t

/-! ## Entries (spec/03 §3.1, spec/04) -/

/-- ENTRY_FETCH (R12, R47, R48, R49, R51, R52, R78, R79, R110): the lane receives the record at BASE + active offset of
its descriptor in force and completes its entry: BAD_STEP, STACK_OVER, or the push and the commit, with the notice and
the emission of each. A lane without an entry in progress, or whose entry follows that of a lane that took the same
emission or starting edge before it (R123, R136), is left as it is (the model's choice, log 6). -/
def Obligations.EntryFetchCompletesTheEntry : Prop :=
  ∀ (k : LaneId) (s : State), s.resetLow = false → s.outbox = [] →
    let l := s.lane k
    (l.entry = none ∨ s.inTurn k = false → exec (.entryFetch k) s = .next s) ∧
    ∀ e, l.entry = some e → s.inTurn k = true →
      exec (.entryFetch k) s = .next (s.afterAct k
        (l.completes k e (Memory.read s.table (l.descriptor.base + l.active)) s.owners))

/-! ## Ticks and the leaving of a step (spec/03 §3.2 to §3.6, spec/12 §12.5) -/

/-- TICK (R185, R53, R54): while TB_RUN is clear there is none. Else the block goes on to the end of the period in
progress, over the core clock periods that it still lacks (log 2), the events on their way being taken first where
there are any (log 5); the counter is raised by one, wrapping, a period of the present DIV and PRE begins, and the tick
is handed to every lane: a lane of `takers` takes it, or keeps it during an entry, and to any other lane it is on its
way (log 9). Where a filter is due before, the tick is not the next event and the row changes nothing (log 2, log 6).
-/
def Obligations.TickReachesEveryLane : Prop :=
  ∀ (takers : LaneMask) (s : State), s.resetLow = false → s.outbox = [] →
    (s.timebase.running = false → exec (.tick takers) s = .next s) ∧
    ∀ p, s.timebase.running = true → s.timebase.period = some p →
      let lacks := p.length - p.elapsed
      let d := goOnTo lacks s
      let act (k : LaneId) : Act :=
        let l := d.lane k
        if takers.getLsbD k = false then .silent { l with coming := l.coming ++ [.tick] }
        else if l.free then l.ticks k s.inputs.accepted
        else .silent { l with kept := l.kept ++ [.tick] }
      exec (.tick takers) s = .next (
        if s.nothingBefore lacks = false then s
        else (allLanes.filter fun k => (act k).emits).foldl (fun t k => handToAll (.emission k) t)
          (allLanes.foldl (fun t k => t.raiseAll (.lane k) (act k).notices)
            { d with
              timebase := { s.timebase with
                counter := s.timebase.counter + 1
                period := some ⟨(s.timebase.div.toNat + 1) * [1, 16, 256, 4096].getD s.timebase.pre.toNat 1, 0⟩ }
              lanes := Vector.ofFn fun k => (act k).lane }))

/-- DWELL_EXPIRY, LIMIT_EXPIRY and PULSE_END (R53, R64, R67 to R73, R111, R113): each makes the lane take the whole
tick on its way to it, dwell, limit and pulse together (the model's choice, log 9). A RUNNING lane that takes it with
dwell remaining 1 advances when its condition holds, by the table of section 3.8; else it takes its fault action when
the limit expires at the same tick; else it waits. One with limit remaining 1 takes the fault action of ONFAULT, HALT,
SKIP or DIVERT, unless that tick is its advance. A RUNNING or DONE lane with one tick of its pulse remaining has no
pulse after it; an entry that the tick leads to goes on showing it until it is complete (log 30); a DONE lane changes
in nothing else. -/
def Obligations.ExpiringTicksAreTaken : Prop :=
  ∀ (k : LaneId) (s : State) (l : Lane), s.resetLow = false → s.outbox = [] → (s.lane k).taking .tick = some l →
    let accepted := s.inputs.accepted
    (l.state = .running → l.dwell = 1 →
      exec (.dwellExpiry k) s = .next (s.afterAct k (Act.bridge (
        if l.meets accepted = true then l.counted.leaves k false
        else if l.limit = some 1 then l.counted.actsOnFault k
        else .silent l.counted) (endingLine l.pulse)))) ∧
    (l.state = .running → l.limit = some 1 →
      exec (.limitExpiry k) s = .next (s.afterAct k (Act.bridge (
        if l.dwell = 1 ∧ l.meets accepted = true then l.counted.leaves k false else l.counted.actsOnFault k)
        (endingLine l.pulse)))) ∧
    ∀ line, l.pulse = some ⟨line, 1⟩ →
      (l.state = .running → ∃ t, exec (.pulseEnd k) s = .next t ∧ t = s.afterAct k (l.ticks k accepted) ∧
        (t.lane k).pulse = none ∧ ∀ e, (t.lane k).entry = some e → e.bridged = some line) ∧
      (l.state = .done → exec (.pulseEnd k) s = .next (s.setLane k { l with pulse := none }))

/-- A TIME step lasts exactly its dwell (R57): a lane that stands in a TIME step without a limit, as its commit leaves
it, and takes one tick after another, and nothing else, stands in the step for all but the last of its DWELL ticks and
leaves it at that one, the entry that the leaving asks for going on with a pulse that ends at that tick (the model's
own field, log 30). No notice, no emission and nothing of any other lane or block comes of the ticks before. -/
def Obligations.TimeStepLastsItsDwell : Prop :=
  ∀ (k : LaneId) (s : State) (r : Record) (n : Nat),
    let l := s.lane k
    l.entry = none → l.state = .running → l.copy = some r → r.kind = some .time → l.limit = none → l.dwell = n + 1 →
    let t := (takeEvent k .tick)^[n] s
    t = s.setLane k { l with dwell := 1, pulse := (t.lane k).pulse } ∧
      takeEvent k .tick t =
        t.withAct k (((t.lane k).counted.leaves k false).bridge (endingLine (t.lane k).pulse))

/-- Nothing makes a lane leave its step before it has counted a tick in it (R55): a RUNNING lane whose dwell remains
takes any edge, arrival or emission without leaving its step. -/
def Obligations.NoLeavingWhileTheDwellRemains : Prop :=
  ∀ (k : LaneId) (s : State) (e : Event), s.resetLow = false → s.outbox = [] → (s.lane k).state = .running →
    (s.lane k).entry = none → 1 ≤ (s.lane k).dwell → (∀ n, e ≠ .forcing n) → e ≠ .tick →
    let t := takeEvent k e s
    t.queue = s.queue ∧ t.late = s.late ∧ t.outbox = [] ∧
      { t.lane k with latch := (s.lane k).latch, edges := (s.lane k).edges } = s.lane k

/-! ## Events taken by one lane (spec/07 §7.2, spec/08 §8.2, spec/09 §9.2) -/

/-- EDGE_EVENT, ARRIVAL and EMISSION (R122, R123, R126, R136 to R139, R58 to R61): the lane that takes an edge event or
an emission does by the table of R122 or R136; a lane RUNNING or HELD in an entered POSITION step on the arrival's unit
and value, its direction allowed, sets its latch and judges its step. An entry that an emission or a starting edge
leads to follows the entries in progress of the lanes that took that event before (R123, R136). Nothing else changes
but what the lane's act raises. -/
def Obligations.EventsAreTakenByState : Prop :=
  ∀ (k : LaneId) (s : State) (l : Lane), s.resetLow = false → s.outbox = [] →
    let accepted := s.inputs.accepted
    let turn (e : Event) := (s.setLane k l).nextTurn (e, (l.kept ++ l.coming).count e)
    (∀ n e, (s.lane k).taking (.edge n e) = some l →
      exec (.edgeEvent k n e) s = .next (s.afterAct k (l.takesEdge k n e accepted (turn (.edge n e))))) ∧
    (∀ u value d, (s.lane k).taking (.arrival u value d) = some l →
      exec (.arrival k u value d) s = .next (s.afterAct k (l.takesArrival k u value d accepted))) ∧
    ∀ line, (s.lane k).taking (.emission line) = some l →
      exec (.emission k line) s = .next (s.afterAct k (l.takesEmission k line accepted (turn (.emission line))))

/-- TRIP_FORCING (R27, R147): the lane that takes a forcing goes to TRIPPED from any state but IDLE and TRIPPED,
records that state and loses its pulse, with the rest of its context kept; edges, arrivals and emissions on their way
do not reach it any more (log 7); the setting no longer waits for it, and the TRIP notices of the settings now complete
are raised in order, the first of them stored and the others on their way, or all of them on their way behind a notice
of an entry that a lane they name has raised (`State.raiseTripNotices`; R147, R172; log 4, log 39). -/
def Obligations.TripForcingMovesTheLane : Prop :=
  ∀ (k : LaneId) (n : SourceId) (s : State) (l : Lane), s.resetLow = false → s.outbox = [] →
    (s.lane k).taking (.forcing n) = some l →
    let moved := (s.lane k).state ≠ .idle ∧ (s.lane k).state ≠ .tripped
    let settings := noteForcing n k moved s.settings
    ∃ t, exec (.tripForcing k n) s = .next t ∧
      t = ((s.setLane k (t.lane k)).withSettings (settings.dropWhile fun x => x.left == 0)).raiseTripNotices
        ((settings.takeWhile fun x => x.left == 0).map fun x => .trip x.source x.moved) ∧
      (¬ moved → t.lane k = l) ∧
      (moved → (t.lane k).state = .tripped ∧
        (t.lane k).prior = [none, some .armed, some .running, some .held, some .done, some .faulted].getD l.state.code none ∧
        { t.lane k with state := l.state, prior := l.prior, pulse := l.pulse, coming := l.coming } = l ∧
        (t.lane k).coming = (l.coming.filter fun e => !e.passing) ∧ (t.lane k).pulse = none)

/-- R28: an edge, an arrival or an emission that reaches a lane in the middle of an entry is kept behind what the lane
has kept before, and nothing else changes; and an event that is not the next for the lane changes nothing (log 6). -/
def Obligations.EventsWaitDuringAnEntry : Prop :=
  ∀ (k : LaneId) (e : Event) (c : Instr) (s : State), s.resetLow = false → s.outbox = [] →
    ((∃ n d, e = .edge n d ∧ c = .edgeEvent k n d) ∨ (∃ u v d, e = .arrival u v d ∧ c = .arrival k u v d) ∨
      ∃ line, e = .emission line ∧ c = .emission k line) →
    let l := s.lane k
    (l.entry.isSome = true → l.nextOfSource e = true →
      exec c s = .next (s.setLane k { l with coming := l.coming.erase e, kept := l.kept ++ [e] })) ∧
    (l.taking e = none → (l.entry = none ∨ l.nextOfSource e = false) → exec c s = .next s)

/-! ## Output lines (spec/06) -/

/-- LINE_ASSIGN and LINE_FREE (R104, R105): OWNED while the owner of the line in bits 0–4 is not IDLE. Then an assign
is refused with STATE while the lane in bits 8–10 is not IDLE, and else gives it the line; a free leaves the line
without an owner. Nothing else changes, and no pin moves. -/
def Obligations.LineCommandsNeedIdleOwners : Prop :=
  ∀ (v : Word) (n : Fin 32) (k : LaneId) (s : State), s.resetLow = false →
    n.val = (v.extractLsb' 0 5).toNat → k.val = (v.extractLsb' 8 3).toNat →
    let busy := s.owners[n.val].any fun j => (s.lane j).state ≠ .idle
    let assigned :=
      if busy then { s with cmdResult := .owned }
      else if (s.lane k).state ≠ .idle then { s with cmdResult := .state }
      else { s with owners := s.owners.set n.val (some k), cmdResult := .taken }
    let freed :=
      if busy then { s with cmdResult := .owned }
      else { s with owners := s.owners.set n.val none, cmdResult := .taken }
    exec (.lineAssign v) s = .next assigned ∧ exec (.lineFree v) s = .next freed ∧
      ∀ m, assigned.outLevel m = s.outLevel m ∧ freed.outLevel m = s.outLevel m

/-- R107, with R109: the level of every line in every state. A pulse of the owner on the line inverts the pattern bit,
and so does one that ended at the tick that led to the entry in progress, until that entry is complete (R108, R113; log
30). -/
def Obligations.LineLevelFollowsItsOwner : Prop :=
  ∀ (s : State) (n : Fin 32),
    let safe := s.safeLevels.getLsbD n
    (s.resetLow = true → s.outLevel n = false) ∧
    (s.resetLow = false →
      (s.driveEnable = false → s.outLevel n = safe) ∧
      (s.driveEnable = true → s.owners[n.val] = none → s.outLevel n = safe) ∧
      ∀ k, s.driveEnable = true → s.owners[n.val] = some k →
        let l := s.lane k
        (l.state = .idle ∨ l.state = .armed ∨ l.state = .tripped → s.outLevel n = safe) ∧
        (l.state = .faulted → l.descriptor.faultPolicy = .safe → s.outLevel n = safe) ∧
        (l.state = .faulted → l.descriptor.faultPolicy = .hold → s.outLevel n = l.pattern.getLsbD n) ∧
        (l.state = .running ∨ l.state = .held ∨ l.state = .done →
          (∀ p, l.pulse = some p → p.line = n → s.outLevel n = !l.pattern.getLsbD n) ∧
          (∀ e, l.entry = some e → e.bridged = some n → s.outLevel n = !l.pattern.getLsbD n) ∧
          ((∀ p, l.pulse = some p → p.line ≠ n) → (∀ e, l.entry = some e → e.bridged ≠ some n) →
            s.outLevel n = l.pattern.getLsbD n)))

/-- SAFE_LEVEL_WRITE (R102): the sixteen safe levels of the register named take the value, the other sixteen stand, and
nothing else changes. -/
def Obligations.SafeLevelWriteReplacesSixteenLevels : Prop :=
  ∀ (half : SafeHalf) (v : Word) (s : State), s.resetLow = false →
    ∃ t, exec (.safeLevelWrite half v) s = .next t ∧
      { t with safeLevels := s.safeLevels } = s ∧
      ∀ n : Fin 32, t.safeLevels.getLsbD n =
        if (half = .lo ∧ n.val < 16) ∨ (half = .hi ∧ 16 ≤ n.val) then v.getLsbD (n.val % 16)
        else s.safeLevels.getLsbD n

/-- The owner of a line changes only while the old owner and the new owner, where there are any, are both IDLE (R101),
whatever the step does, as long as RESET# is high. -/
def Obligations.OwnersChangeOnlyWhileIdle : Prop :=
  ∀ (s t : State) (n : Fin 32), step s = .next t → s.resetLow = false → t.owners[n.val] ≠ s.owners[n.val] →
    (∀ k, s.owners[n.val] = some k → (t.lane k).state = .idle) ∧
    (∀ k, t.owners[n.val] = some k → (t.lane k).state = .idle)

/-- A lane's descriptor in force changes only by the swap it holds or by the staging image of a load (R19), whatever the
step does, as long as RESET# is high. -/
def Obligations.DescriptorChangesOnlyWhole : Prop :=
  ∀ (s t : State) (k : LaneId), step s = .next t → s.resetLow = false →
    (t.lane k).descriptor ≠ (s.lane k).descriptor →
    (s.lane k).swap = some (t.lane k).descriptor ∨ s.staging.image = some (t.lane k).descriptor

/-! ## Filters, inputs and position (spec/07) -/

/-- PRESENTED_LEVEL_CHANGE (R117, R118, R128, R143, R144, R184): the pin takes the level. Where that changes it while
RESET# is high, an acceptance begins at 0 if the presented level now differs from the accepted one and is discarded if
it equals it; once an accepted change of the core clock period has been made, or the pin's setting has been written in
it, it begins in the next period instead (log 23). An acceptance that has reached its count first makes its accepted
change (log 23). While RESET# is low no filter works (log 14). No accepted level changes otherwise, and nothing else
does. A move that has fallen within a host write before it is done, and only ceases to be remembered (the model's
choice, log 37). -/
def Obligations.PresentedLevelStartsAnAcceptance : Prop :=
  ∀ (level : Bool) (s : State),
    let fallen (pin : FilteredPin) : Prop := s.early.head? = some (pin, level)
    (∀ pin rest, s.early = (pin, level) :: rest →
      exec (.presentedLevelChange pin level) s = .next { s with early := rest }) ∧
    (∀ pin t, ¬ fallen pin → s.resetLow = false → s.pinLevel pin ≠ level → s.pinLacking pin = some 0 →
      exec (match pin with
        | .input n => .inputAcceptedChange n
        | .quadrature u c => .quadratureChange u c
        | .trip n => .tripAcceptedChange n) s = .next t →
      exec (.presentedLevelChange pin level) s = exec (.presentedLevelChange pin level) t ∧
        t.pinLacking pin = none ∧ t.pinLevel pin = s.pinLevel pin) ∧
    (∀ n : InputId, ¬ fallen (.input n) →
        s.resetLow = true ∨ s.inputs.pins.getLsbD n = level ∨ s.inputs.lacking n ≠ some 0 →
      ∃ t, exec (.presentedLevelChange (.input n) level) s = .next t ∧
      { t with inputs := { t.inputs with pins := s.inputs.pins, acceptance := s.inputs.acceptance } } = s ∧
      (∀ m : InputId, t.inputs.pins.getLsbD m = if m = n then level else s.inputs.pins.getLsbD m) ∧
      ∀ m : InputId, t.inputs.acceptance[m.val] =
        if m = n ∧ s.inputs.pins.getLsbD n ≠ level ∧ s.resetLow = false then
          if (level ^^ s.inputs.polarity.getLsbD n) ≠ s.inputs.accepted.getLsbD n ∧ s.compared = false ∧
              .input n ∉ s.restarted then some 0
          else none
        else s.inputs.acceptance[m.val]) ∧
    (∀ (u : UnitId) (c : Channel), ¬ fallen (.quadrature u c) →
        s.resetLow = true ∨ (s.units[u.val].channel c).pin = level ∨ s.units[u.val].lacking c ≠ some 0 →
      exec (.presentedLevelChange (.quadrature u c) level) s = .next { s with
        units := s.units.set u.val (s.units[u.val].onChannel c fun q => { q with
          pin := level
          acceptance :=
            if q.pin ≠ level ∧ s.resetLow = false then
              if level ≠ q.accepted ∧ s.compared = false ∧ .quadrature u c ∉ s.restarted then some 0 else none
            else q.acceptance }) }) ∧
    (∀ n : Fin 4, ¬ fallen (.trip n) →
        s.resetLow = true ∨ s.trips[n.val].pin = level ∨ s.trips[n.val].lacking ≠ some 0 →
      exec (.presentedLevelChange (.trip n) level) s = .next { s with
        trips := s.trips.set n.val { s.trips[n.val] with
          pin := level
          acceptance :=
            if s.trips[n.val].pin ≠ level ∧ s.resetLow = false then
              if (level ^^ s.trips[n.val].activeLow) ≠ s.trips[n.val].active ∧ s.compared = false ∧
                  .trip n ∉ s.restarted then some 0
              else none
            else s.trips[n.val].acceptance } })

/-- R117: with a level that differs from the accepted one held from the start of an acceptance, a channel with filter
count F becomes due F × 16 core clock periods later and not before; F = 0 at once. For the digital inputs, with their
counts of IN_FILTj (R116), for both channels of each Position Unit, with the count in bits 0–7 of POS_FILTk (R124), and
for the trip pins, with the counts of their sources (R144). -/
def Obligations.AcceptanceTakesTheFilterCount : Prop :=
  ∀ (s : State) (d : Nat),
    (∀ n : InputId, s.inputs.differs n = true → s.inputs.acceptance[n.val] = some 0 →
      let count := ((if n.val % 2 = 0 then s.inputs.filters[n.val / 2]'(by omega) else
        (s.inputs.filters[n.val / 2]'(by omega)) >>> 8).setWidth 8).toNat
      ((elapse d s).inputs.lacking n = some 0 ↔ count * 16 ≤ d)) ∧
    (∀ (u : UnitId) (c : Channel), (s.units[u.val].channel c).pin ≠ (s.units[u.val].channel c).accepted →
      (s.units[u.val].channel c).acceptance = some 0 →
      ((elapse d s).units[u.val].lacking c = some 0 ↔ (s.units[u.val].filter.extractLsb' 0 8).toNat * 16 ≤ d)) ∧
    ∀ n : Fin 4, (s.trips[n.val].pin ^^ s.trips[n.val].activeLow) ≠ s.trips[n.val].active →
      s.trips[n.val].acceptance = some 0 →
      ((elapse d s).trips[n.val].lacking = some 0 ↔ s.trips[n.val].filter.toNat * 16 ≤ d)

/-- INPUT_ACCEPTED_CHANGE (R117, R119): the block goes on over the core clock periods that the input still lacks (log
2), the events on their way being taken first where there are any (log 5); its accepted level and those of the inputs
accepted in the same period (log 22) reverse together, their acceptances end, and one edge event for each, in ascending
order, is handed to every lane that does not ignore it (log 7). Without a differing level, or where another event of
the core clock falls due before, nothing happens (log 2, log 6). -/
def Obligations.InputAcceptedChangeHandsOutEdges : Prop :=
  ∀ (n : InputId) (s : State), s.resetLow = false →
    (s.inputs.lacking n = none → exec (.inputAcceptedChange n) s = .next s) ∧
    ∀ lacks, s.inputs.lacking n = some lacks →
      (s.nothingBefore lacks = false → exec (.inputAcceptedChange n) s = .next s) ∧
      (s.nothingBefore lacks = true →
        let changed := (List.finRange 16).filter fun m : InputId => s.inputs.lacking m == some lacks
        let d := goOnTo lacks s
        let edges := changed.map fun m : InputId =>
          Event.edge m (if s.inputs.accepted.getLsbD m then .falling else .rising)
        ∃ t, exec (.inputAcceptedChange n) s = .next t ∧
          t = { d with inputs := t.inputs, lanes := t.lanes, compared := true } ∧
          { t.inputs with accepted := d.inputs.accepted, acceptance := d.inputs.acceptance } = d.inputs ∧
          (∀ m : InputId,
            t.inputs.accepted.getLsbD m = (s.inputs.accepted.getLsbD m ^^ changed.contains m) ∧
            t.inputs.acceptance[m.val] = if changed.contains m then none else d.inputs.acceptance[m.val]) ∧
          ∀ k, t.lane k =
            if (d.lane k).ignores then d.lane k else { d.lane k with coming := (d.lane k).coming ++ edges })

/-- INPUT_SETTING_WRITE and POS_FILT_WRITE (R116, R118, R124, R128): the register takes the value whole. The
acceptances of exactly the inputs whose polarity or filter count changes are discarded, and those of both channels of a
unit whose count in bits 0–7 changes; the model marks these channels as compared next in the core clock period that
follows (log 23). No accepted level changes, and nothing else does. -/
def Obligations.FilterSettingWritesRestartWhatChanges : Prop :=
  ∀ (v : Word) (s : State), s.resetLow = false →
    (∀ setting : InputSetting, ∃ t, exec (.inputSettingWrite setting v) s = .next t ∧
      t = { s with inputs := t.inputs }.restart (fun
        | .input m => !decide (t.inputs.polarity.getLsbD m = s.inputs.polarity.getLsbD m ∧
            t.inputs.filterCount m = s.inputs.filterCount m)
        | .quadrature _ _ | .trip _ => false) ∧
      t.inputs.pins = s.inputs.pins ∧ t.inputs.accepted = s.inputs.accepted ∧
      t.inputs.polarity = (if setting = .polarity then v else s.inputs.polarity) ∧
      (∀ j : Fin 8, t.inputs.filters[j.val] = if setting = .filter j then v else s.inputs.filters[j.val]) ∧
      ∀ m : InputId, t.inputs.acceptance[m.val] =
        if t.inputs.polarity.getLsbD m = s.inputs.polarity.getLsbD m ∧ t.inputs.filterCount m = s.inputs.filterCount m
        then s.inputs.acceptance[m.val] else none) ∧
    ∀ u : UnitId,
      let old := s.units[u.val]
      let same := v.setWidth 8 = old.filter.setWidth 8
      exec (.posFiltWrite u v) s = .next ({ s with
        units := s.units.set u.val { old with
          filter := v
          a := { old.a with acceptance := if same then old.a.acceptance else none }
          b := { old.b with acceptance := if same then old.b.acceptance else none } } }.restart fun
        | .quadrature w _ => decide (w = u ∧ ¬ same)
        | .input _ | .trip _ => false)

/-- QUADRATURE_CHANGE (R125, R126, R127, R128): the block goes on over the core clock periods that the channel still
lacks (log 2), the events on their way being taken first where there are any (log 5). A single accepted change moves
the pair (A, B) to its neighbour and counts one up or down, wrapping, by the table of R125, and the arrival at the new
value is handed to every lane that does not ignore it (log 7). Accepted changes of both channels in one period (log 22)
are an illegal transition: no count, no arrival, the error flag set, and a POSITION notice when it was clear. Without a
differing level, or where another event of the core clock falls due before, nothing happens (log 2, log 6). -/
def Obligations.QuadratureChangeCountsOrFlags : Prop :=
  ∀ (u : UnitId) (c : Channel) (s : State), s.resetLow = false →
    let old := s.units[u.val]
    (old.lacking c = none → exec (.quadratureChange u c) s = .next s) ∧
    ∀ lacks, old.lacking c = some lacks →
      let d := { goOnTo lacks s with compared := true }
      let a' := if c = .a then !old.a.accepted else old.a.accepted
      let b' := if c = .b then !old.b.accepted else old.b.accepted
      let place (a b : Bool) : Nat := if a then (if b then 2 else 1) else (if b then 3 else 0)
      let up := place a' b' = (place old.a.accepted old.b.accepted + 1) % 4
      let value := if up then old.counter + 1 else old.counter - 1
      let direction := if up then Direction.up else Direction.down
      let new := d.units[u.val]
      exec (.quadratureChange u c) s = .next (
        if s.nothingBefore lacks = false then s
        else if old.lacking .a = old.lacking .b then
          let t := { d with units := d.units.set u.val { new with
            a := { new.a with accepted := new.a.pin, acceptance := none }
            b := { new.b with accepted := new.b.pin, acceptance := none }
            error := true } }
          if old.error then t else t.raise (.position u)
        else
          handToAll (.arrival u value direction) { d with units := d.units.set u.val { new with
            a := if c = .a then { new.a with accepted := new.a.pin, acceptance := none } else new.a
            b := if c = .b then { new.b with accepted := new.b.pin, acceptance := none } else new.b
            counter := value
            lastDirection := some direction } })

/-- POS_LOAD and POS_CLEAR (R129, R130): always taken; the counter of the unit in bit 0 takes POS_ARG; the error flags
of the units in bits 0 and 1 are cleared. Nothing else changes: no arrival, no notice. -/
def Obligations.PosLoadAndPosClear : Prop :=
  ∀ (v : Word) (s : State), s.resetLow = false →
    (∀ u : UnitId, u.val = (v.extractLsb' 0 1).toNat →
      exec (.posLoad v) s = .next { s with
        units := s.units.set u.val { s.units[u.val] with counter := s.posArg }, cmdResult := .taken }) ∧
    exec (.posClear v) s = .next { s with
      units := Vector.ofFn fun u : UnitId => { s.units[u.val] with error := s.units[u.val].error && !v.getLsbD u }
      cmdResult := .taken }

/-! ## Trigger lines (spec/08) -/

/-- TRIGGER_EMIT (R133, R135): always taken. One emission on each line named in bits 0–7, in ascending order, is handed
to every lane that does not ignore it (log 7), and all that follows is completed within the write. A mask of 0 changes
CMD_RESULT alone. -/
def Obligations.TriggerEmitReachesEveryLane : Prop :=
  ∀ (v : Word) (s : State), s.resetLow = false → s.outbox = [] →
    let lines := allLanes.filter fun n : LaneId => v.getLsbD n
    let u := { s with cmdResult := .taken, outbox := lines }
    exec (.triggerEmit v) s = .next (followUp u) ∧
    handOut u = { s with
      cmdResult := .taken
      lanes := Vector.ofFn fun k =>
        if (s.lane k).ignores then s.lane k
        else { s.lane k with coming := (s.lane k).coming ++ lines.map Event.emission } } ∧
    (v.extractLsb' 0 8 = 0 → exec (.triggerEmit v) s = .next { s with cmdResult := .taken })

/-- Every chain ends (R141), and a host command completes all that follows from it (R135, R177). Where nothing else is
under way, a write at any address leaves no emission on its way and no lane in the middle of an entry or with an event
kept from one; a write at the address of a command is that command (log 13). Whatever is under way, what follows from
the emissions that wait (`followUp`) hands them out, lets things happen in a free order (log 3, log 4), and leaves none
of these emissions on its way to a lane or kept by one in the middle of an entry; without an emission nothing follows.
Where nothing is under way nothing happens beside the write. -/
def Obligations.HostCommandCompletesWhatFollows : Prop :=
  (∀ (a : BitVec 8) (v : Word) (s : State), s.resetLow = false → s.outbox = [] → s.happenings 0 = [] →
    ∃ t, exec (.plainRegisterWrite a v) s = .next t ∧ t.Completed) ∧
  (∀ s : State, (followUp s).outbox = [] ∧
    (s.outbox = [] → followUp s = s) ∧
    (s.outbox ≠ [] → (handOut s).GoesOn 0 (followUp s)) ∧
    ∀ n ∈ s.outbox, ∀ k, Event.emission n ∉ ((followUp s).lane k).coming ∧
      (((followUp s).lane k).entry.isSome = true → Event.emission n ∉ ((followUp s).lane k).kept)) ∧
  ∀ (but : LaneMask) (s t : State), s.happenings but = [] → s.GoesOn but t → t = { s with picks := t.picks }

/-! ## Trip protection (spec/09) -/

/-- TRIP_CONFIG (R143, R145): RANGE for sources 5–7, STATE while the latch is set; else the configuration is replaced
from TRIP_ARG0 and TRIP_ARG1, the accepted level and the acceptance follow the change of polarity or filter count (a
channel whose setting changes is compared next in the core clock period that follows, log 23), and an enabled source
whose level is then active sets its latch within the command, its forcing taken in one act by every lane that is not in
the middle of an entry (the model's choice, log 8); before the end of the command every lane that keeps a forcing
completes its entry, in a free order, whatever other blocks do meanwhile, and the TRIP notices are stored (log 3, log 4,
log 34). -/
def Obligations.TripConfigReplacesTheConfiguration : Prop :=
  ∀ (v : Word) (s : State), s.resetLow = false → s.SettingsWait →
    let n := (v.extractLsb' 0 3).toNat
    (5 ≤ n → exec (.tripConfig v) s = .next { s with cmdResult := .range }) ∧
    ∀ h : n < 5,
      let old := s.trips[n]
      let enable := s.tripArg0[0]
      let activeLow := s.tripArg0[1]
      let filter := s.tripArg0.extractLsb' 8 8
      let new : TripSource :=
        if n = 4 then { old with enable := enable, scope := s.tripArg1.setWidth 8 }
        else { old with
          enable := enable
          scope := s.tripArg1.setWidth 8
          activeLow := activeLow
          filter := filter
          active := if activeLow = old.activeLow then old.active else old.pin ^^ activeLow
          acceptance := if activeLow = old.activeLow ∧ filter = old.filter then old.acceptance else none }
      let stored := { s with trips := s.trips.set n new, cmdResult := .taken }
      let u := if n = 4 then stored else stored.restart fun
        | .trip m => decide (m.val = n ∧ (activeLow ≠ old.activeLow ∨ filter ≠ old.filter))
        | .input _ | .quadrature _ _ => false
      (old.latch = true → exec (.tripConfig v) s = .next { s with cmdResult := .state }) ∧
      (old.latch = false → n ≠ 4 ∧ new.enable = true ∧ new.active = true →
        ∃ t, (u.latched ⟨n, h⟩).GoesOn 0 t ∧
          exec (.tripConfig v) s = .next (followUp ((completeLanes (waitingLanes t.settings) t).arriveFrom .tripUnit))) ∧
      (old.latch = false → ¬ (n ≠ 4 ∧ new.enable = true ∧ new.active = true) → exec (.tripConfig v) s = .next u)

/-- TRIP_ASSERT (R146, R147, R28): STATE while SW is disabled; taken without effect while its latch is set; else the SW
latch sets; every lane in its scope that is not in the middle of an entry is forced in that one act (the model's
choice, log 8), any other completes its entry within the write and is forced then, in a free order, whatever other
blocks do meanwhile (log 3, log 4, log 34), and one TRIP notice names the lanes moved. -/
def Obligations.TripAssertSetsTheSoftwareLatch : Prop :=
  ∀ (v : Word) (s : State), s.resetLow = false → s.SettingsWait →
    let t := { s with cmdResult := .taken }.latched 4
    (s.trips[4].enable = false → exec (.tripAssert v) s = .next { s with cmdResult := .state }) ∧
    (s.trips[4].enable = true → s.trips[4].latch = true → exec (.tripAssert v) s = .next { s with cmdResult := .taken }) ∧
    (s.trips[4].enable = true → s.trips[4].latch = false →
      (∃ u, t.GoesOn 0 u ∧
        exec (.tripAssert v) s = .next (followUp ((completeLanes (waitingLanes u.settings) u).arriveFrom .tripUnit))) ∧
      (t.happenings 0 = [] → s.outbox = [] → exec (.tripAssert v) s = .next t))

/-- TRIP_CLEAR (R151): each named source is judged on its own. A pin source whose accepted level is active refuses,
keeps its latch and shows in TRIP_REFUSED; every other named latch clears. CMD_RESULT is ACTIVE when any refused. No
lane changes. -/
def Obligations.TripClearRefusesActiveSources : Prop :=
  ∀ (v : Word) (s : State), s.resetLow = false →
    let refused (n : SourceId) : Bool := v.getLsbD n && n.val < 4 && s.trips[n.val].active
    exec (.tripClear v) s = .next { s with
      trips := Vector.ofFn fun n : SourceId => { s.trips[n.val] with
        latch := s.trips[n.val].latch && (!v.getLsbD n || refused n) }
      tripRefused := BitVec.ofFnLE refused
      cmdResult := if ∃ n, refused n = true then .active else .taken }

/-- TRIP_ACCEPTED_CHANGE (R144, R145, R147): the block goes on over the core clock periods that the pin still lacks
(log 2), the events on their way being taken first where there are any (log 5), and the accepted level reverses. A
change to active of an enabled source whose latch is clear sets the latch, with its forcing, taken in one act by every
lane that is not in the middle of an entry (log 8), and its TRIP notice; any other change does nothing more, and
reaches no lane as an edge. Without a differing level, or where another event of the core clock falls due before,
nothing happens (log 2, log 6). -/
def Obligations.TripAcceptedChangeSetsTheLatch : Prop :=
  ∀ (n : Fin 4) (s : State), s.resetLow = false → s.SettingsWait →
    let old := s.trips[n.val]
    (old.lacking = none → exec (.tripAcceptedChange n) s = .next s) ∧
    ∀ lacks, old.lacking = some lacks →
      let d := { goOnTo lacks s with compared := true }
      let u := { d with trips := d.trips.set n.val { old with active := !old.active, acceptance := none } }
      exec (.tripAcceptedChange n) s = .next (
        if s.nothingBefore lacks = false then s
        else if old.active = false ∧ old.enable = true ∧ old.latch = false then u.latched n.castSucc else u)

/-! ## Table jobs (spec/10) -/

/-- JOB_COPY, JOB_CHECK and JOB_ABORT (R159, R160, R164). A start: BUSY while any job is RUNNING, then RANGE, else a
fresh context at progress 0; for a CHECK the destination is not read and the check result begins at FFFFh. An abort:
BUSY during the power-on clear, STATE when no job is RUNNING, else the job is ABORTED at the progress reached, with its
JOB notice. A refusal leaves the context as it was. -/
def Obligations.JobCommandsStartAndAbort : Prop :=
  ∀ (v : Word) (s : State), s.resetLow = false →
    let src := s.jobArgSrc.toNat
    let dst := s.jobArgDst.toNat
    let count := s.jobArgCount.toNat
    let bad := count = 0 ∨ 512 < count ∨ 512 ≤ src ∨ 512 < src + count
    exec (.jobCopy v) s = .next (
      if s.job.state = .running then { s with cmdResult := .busy }
      else if bad ∨ 512 ≤ dst ∨ 512 < dst + count then { s with cmdResult := .range }
      else { s with job := ⟨.copy, src, dst, count, 0, .running, 0⟩, cmdResult := .taken }) ∧
    exec (.jobCheck v) s = .next (
      if s.job.state = .running then { s with cmdResult := .busy }
      else if bad then { s with cmdResult := .range }
      else { s with job := ⟨.check, src, 0, count, 0, .running, 0xFFFF#16⟩, cmdResult := .taken }) ∧
    exec (.jobAbort v) s = .next (
      if s.job.state ≠ .running then { s with cmdResult := .state }
      else
        match s.job.kind with
        | .clear => { s with cmdResult := .busy }
        | .copy => { s with job := { s.job with state := .aborted }, cmdResult := .taken }.raise
            (.job .copy .aborted s.job.progress)
        | .check => { s with job := { s.job with state := .aborted }, cmdResult := .taken }.raise
            (.job .check .aborted s.job.progress))

/-- COPY_MOVE (R162, R161, R165): move m copies one record whole, from the low end, or from the high end when the
destination is above the source and the ranges overlap; progress rises by one, and the last move ends the job DONE with
its notice. Every other record stands, and a waiting fetch has now waited for an access. While a fetch waits that has
done so already, the access is not served (R161): the row changes nothing (log 6, log 32). -/
def Obligations.CopyMoveMovesOneRecord : Prop :=
  ∀ s : State, s.resetLow = false → s.job.kind = .copy → s.job.state = .running → s.job.Ok → Memory.wf s.table →
    let j := s.job
    let offset := if j.source < j.destination ∧ j.destination < j.source + j.count
      then j.count - 1 - j.progress else j.progress
    (s.accessFree = false → exec .copyMove s = .next s) ∧
    (s.accessFree = true → ∃ t, exec .copyMove s = .next t ∧
      t = { s with table := t.table, job := t.job, queue := t.queue, lanes := t.lanes } ∧
      (∀ k, t.lane k = { s.lane k with entry := (s.lane k).entry.map fun e => { e with passed := true } }) ∧
      (∀ i, Memory.read t.table i =
        if i = j.destination + offset then Memory.read s.table (j.source + offset) else Memory.read s.table i) ∧
      if j.progress + 1 = j.count then
        t.job = { j with progress := j.count, state := .done } ∧
        t.queue = Queue.arrive s.queue (.job .copy .done j.count) s.timebase.counter
      else t.job = { j with progress := j.progress + 1 } ∧ t.queue = s.queue)

/-- A whole COPY (R162): run with no other client, whatever the overlap, it leaves the destination range an exact copy
of the source range as it stood, every record outside the destination range as it was, and the job DONE at its count.
-/
def Obligations.WholeCopyIsExact : Prop :=
  ∀ s : State, s.resetLow = false → s.job.kind = .copy → s.job.state = .running → s.job.progress = 0 → s.job.Ok →
    Memory.wf s.table → (∀ k, (s.lane k).entry = none) →
    let j := s.job
    ∃ t, core.run j.count { s with pending := List.replicate j.count .copyMove } = .next t ∧
      t.job = { j with progress := j.count, state := .done } ∧
      (∀ i, i < j.count → Memory.read t.table (j.destination + i) = Memory.read s.table (j.source + i)) ∧
      ∀ i, i < j.destination ∨ j.destination + j.count ≤ i → Memory.read t.table i = Memory.read s.table i

/-- CHECK_READ (R163, R161, R165): the record at source + progress enters the check register, word 0 to word 9, each
from bit 15 down to bit 0: the register is shifted one place up, and combined with 1021h when its top bit and the data
bit differed. No record is written; the last read ends the job DONE with its notice; and a waiting fetch has now waited
for an access. While a fetch waits that has done so already, the access is not served (R161): the row changes nothing
(log 6, log 32). -/
def Obligations.CheckReadFoldsOneRecord : Prop :=
  ∀ s : State, s.resetLow = false → s.job.kind = .check → s.job.state = .running → s.job.Ok →
    let j := s.job
    let r := Memory.read s.table (j.source + j.progress)
    let bits : List Bool := [r.w0, r.w1, r.w2, r.w3, r.w4, r.w5, r.w6, r.w7, r.w8, r.w9].flatMap fun w =>
      (List.range 16).map fun i => w.getLsbD (15 - i)
    let crc := bits.foldl
      (fun (c : Word) bit => if c.getLsbD 15 != bit then (c <<< 1) ^^^ 0x1021#16 else c <<< 1) j.crc
    let u := s.onLanes fun _ l => { l with entry := l.entry.map fun e => { e with passed := true } }
    exec .checkRead s = .next (
      if s.accessFree = false then s
      else if j.progress + 1 = j.count then
        { u with job := { j with progress := j.count, state := .done, crc := crc } }.raise (.job .check .done j.count)
      else { u with job := { j with progress := j.progress + 1, crc := crc } })

/-! ## Notices and the interrupt line (spec/11) -/

/-- R170, with the stamp of R171: an arrival is appended below 63 records; at 63 and above it is discarded, and counted
in a LOST record at the newest end, which is appended with count 1 or raised up to 255 with its stamp kept. The queue
never holds more than 64 records, and when it holds 64 the newest is a LOST record. -/
def Obligations.ArrivalsAreStoredOrCountedAsLost : Prop :=
  (∀ (s : State) (body : NoticeBody), s.raise body = { s with queue := Queue.arrive s.queue body s.timebase.counter }) ∧
  ∀ (q : List Notice) (body : NoticeBody) (stamp : Word),
    (q.length < 63 → Queue.arrive q body stamp = q ++ [⟨body, stamp⟩]) ∧
    (∀ older n st, 63 ≤ q.length → q = older ++ [⟨.lost n, st⟩] →
      Queue.arrive q body stamp = older ++ [⟨.lost (if 255 ≤ n then 255 else n + 1), st⟩]) ∧
    (63 ≤ q.length → (∀ older n st, q ≠ older ++ [⟨.lost n, st⟩]) →
      Queue.arrive q body stamp = q ++ [⟨.lost 1, stamp⟩]) ∧
    (q.length ≤ 64 → (q.length = 64 → newestLost q) →
      (Queue.arrive q body stamp).length ≤ 64 ∧
      ((Queue.arrive q body stamp).length = 64 → newestLost (Queue.arrive q body stamp)))

/-- NOTICE_POP and the notices on their way (R174, R172, R147). The pop: EMPTY on an empty queue, which changes nothing else;
otherwise the oldest record is removed and the next oldest is the head. What is under way beside it, arrivals among it,
happens before the pop or after it, as a free choice says (log 3, log 4). When a lane takes a tick in a free order, its
notices reach the queue apart: the first is stored, behind what the lane has on its way, and the second is on its way,
with all else as in the taking that stores both (log 4). A notice on its way is stored as it arrives, and the notices of
one sender arrive in their order. A TRIP notice waits while a lane that it names has a notice of an entry on its way, a
STEP or the FAULT of an entry: where one of those that the Trip Unit raises, or has on their way, waits so, all that it
raises are on their way, else they reach the queue apart as a lane's do; and a notice that waits is none of those that can
arrive next, while every other that is the oldest of its sender is (R147; log 39). -/
def Obligations.NoticePopRemovesTheOldest : Prop :=
  (∀ (v : Word) (s : State), s.resetLow = false →
    (∃ u, s.GoesOn 0 u ∧
      (u.queue = [] → exec (.noticePop v) s = .next { u with cmdResult := .empty }) ∧
      ∀ oldest rest, u.queue = oldest :: rest →
        exec (.noticePop v) s = .next { u with queue := rest, cmdResult := .taken }) ∧
    (s.happenings 0 = [] → s.queue = [] → exec (.noticePop v) s = .next { s with cmdResult := .empty }) ∧
    (s.happenings 0 = [] → ∀ oldest rest, s.queue = oldest :: rest →
      exec (.noticePop v) s = .next { s with queue := rest, cmdResult := .taken })) ∧
  (∀ (k : LaneId) (s : State), ∃ (u : State) (bodies : List NoticeBody), takeNext k .tick s = u.raiseAll (.lane k) bodies ∧
    doWork s (.deliver k .tick) = u.raiseApart (.lane k) bodies ∧ u.queue = s.queue ∧ u.late = s.late ∧
    bodies.length ≤ 2) ∧
  (∀ s : State,
    let ofEntry (body : NoticeBody) : Prop :=
      (∃ k index cause, body = .step k index cause) ∨
      ∃ k index cause action, body = .fault k index cause action ∧ (cause = .badStep ∨ cause = .stackOver)
    let waits (body : NoticeBody) : Prop := ∃ (n : SourceId) (moved : LaneMask) (k : LaneId),
      body = .trip n moved ∧ moved.getLsbD k = true ∧ ∃ earlier ∈ s.lateOf (.lane k), ofEntry earlier
    (∀ bodies, (∃ body ∈ s.lateOf .tripUnit ++ bodies, waits body) →
      s.raiseTripNotices bodies = { s with late := s.late ++ bodies.map fun body => (.tripUnit, body) }) ∧
    (∀ bodies, (¬ ∃ body ∈ s.lateOf .tripUnit ++ bodies, waits body) →
      s.raiseTripNotices bodies = s.raiseApart .tripUnit bodies) ∧
    (.notice .tripUnit ∈ s.arrivals ↔ ∃ oldest rest, s.lateOf .tripUnit = oldest :: rest ∧ ¬ waits oldest) ∧
    ∀ k, .notice (.lane k) ∈ s.arrivals ↔ s.lateOf (.lane k) ≠ []) ∧
  ∀ (x : Sender) (s : State),
    (∀ bodies, bodies ≠ [] → s.raiseAll x bodies = { s with
      queue := Queue.arriveAll s.queue (s.lateOf x ++ bodies) s.timebase.counter
      late := s.late.filter fun n => n.1 ≠ x }) ∧
    (∀ first others, s.raiseApart x (first :: others) = { s with
      queue := Queue.arriveAll s.queue (s.lateOf x ++ [first]) s.timebase.counter
      late := (s.late.filter fun n => n.1 ≠ x) ++ others.map fun body => (x, body) }) ∧
    ∀ oldest rest, s.lateOf x = oldest :: rest →
      let t := doWork s (.notice x)
      t = { s with queue := Queue.arrive s.queue oldest s.timebase.counter, late := t.late } ∧
        t.lateOf x = rest ∧ ∀ y, y ≠ x → t.lateOf y = s.lateOf y

/-- R175: the interrupt line is asserted exactly while a record waits and NOTICE_IRQ_EN is set, and RESET# is high. A
write of the bit moves it at once, whatever the queue holds; a soft reset keeps the bit and RESET_RELEASE clears it. -/
def Obligations.InterruptLineFollowsQueueAndEnable : Prop :=
  (∀ s : State, s.irqLine = true ↔ s.resetLow = false ∧ s.queue ≠ [] ∧ s.irqEnable = true) ∧
  (∀ (on : Bool) (s : State), s.resetLow = false → ∃ t, exec (.noticeIrqEn on) s = .next t ∧
    t.irqEnable = on ∧ (t.irqLine = true ↔ t.queue ≠ [] ∧ on = true)) ∧
  (∀ s : State, s.resetLow = false → ∃ t, exec .softReset s = .next t ∧ t.irqEnable = s.irqEnable) ∧
  (∀ s : State, s.resetLow = true → ∃ t, exec .resetRelease s = .next t ∧ t.irqEnable = false)

/-! ## Window, control and Timebase (spec/12) -/

/-- PLAIN_REGISTER_WRITE (R178, R9, R20, R45): a plain register without a behaviour of its own takes the value, and
reads it back, LANE_SEL its low three bits; every other register of the window reads as before, the inspection window
after a write of LANE_SEL apart; and a write of a read-only or unnamed address changes nothing. -/
def Obligations.PlainRegistersReadBackWhatIsWritten : Prop :=
  ∀ (a : BitVec 8) (v : Word) (s : State), s.resetLow = false → Instr.wellFormed (.plainRegisterWrite a v) = true →
    let plain := 0x10 ≤ a.toNat ∧ a.toNat ≤ 0x19 ∨ 0x20 ≤ a.toNat ∧ a.toNat ≤ 0x24 ∨
      a.toNat ∈ [0x60, 0xA5, 0xB0, 0xB1, 0xD0, 0xD1, 0xD2]
    ∃ t, exec (.plainRegisterWrite a v) s = .next t ∧
      (plain → Window.read t a = if a = 0x60#8 then v &&& 7 else v) ∧
      (plain → ∀ b, b ≠ a → ¬ (a = 0x60#8 ∧ 0x61 ≤ b.toNat ∧ b.toNat ≤ 0x75) → Window.read t b = Window.read s b) ∧
      (¬ plain → t = s) ∧
      t = { s with
        buffer := t.buffer, staging := t.staging, laneSel := t.laneSel, posArg := t.posArg, tripArg0 := t.tripArg0
        tripArg1 := t.tripArg1, jobArgSrc := t.jobArgSrc, jobArgDst := t.jobArgDst, jobArgCount := t.jobArgCount }

/-- The bus cycles and what a read shows (R177, R178, R179). A cycle with CS# high, with both strobes low or with
neither does nothing and drives nothing; a write acts as PLAIN_REGISTER_WRITE; a read changes nothing and drives the
addressed word as it stands when RD# falls, held until the cycle ends; while RESET# is low nothing is driven (a bus
cycle is a function of the state: the model's choice, log 25). The word at every address is that of the register map:
the lanes' status words, offsets and cycle counts, the inspection window, the line levels and owners, and the views of
the inputs, the Position Units, the Trip Unit, the job, the notice queue, CONTROL and STATUS; it is 0 for every command
register and every address that names no register. START_SOURCE COMMAND shows number 0 (log 16), and an absent lane
shows 0 in NOTICE_HEAD (log 33). -/
def Obligations.BusCyclesReadOrWriteOneWord : Prop :=
  ∀ (a : BitVec 8) (v : Word) (held : Option Word) (s : State),
    (∀ rd wr, busEffect false rd wr a v s = s ∧ busData false rd wr a held s = none) ∧
    (∀ b, busEffect true b b a v s = s ∧ busData true b b a held s = none) ∧
    busEffect true true false a v s = s ∧
    (s.resetLow = true → busData true true false a held s = none) ∧
    (s.resetLow = false → busData true true false a none s = some (Window.read s a)) ∧
    (s.resetLow = false → ∀ w, busData true true false a (some w) s = some w) ∧
    exec (.plainRegisterWrite a v) s = .next (busEffect true false true a v s) ∧
    busData true false true a held s = none ∧
    Window.read s a = s.registerAt a.toNat

/-- CMD_RESULT (R180) is changed only by the commands that report through it, by a soft reset and by RESET_RELEASE,
which leave it at TAKEN; a PLAIN_REGISTER_WRITE changes it only at an address whose write has a row of its own, where
it acts as that row and is not well-formed (the model's choice, log 13). -/
def Obligations.CmdResultKeepsTheLastOutcome : Prop :=
  ∀ (c : Instr) (s t : State), exec c s = .next t → t.cmdResult ≠ s.cmdResult →
    (∃ v, c = .recordRead v ∨ c = .recordWrite v ∨ c = .lineAssign v ∨ c = .lineFree v ∨ c = .posLoad v ∨
      c = .posClear v ∨ c = .triggerEmit v ∨ c = .tripConfig v ∨ c = .tripAssert v ∨ c = .tripClear v ∨
      c = .jobCopy v ∨ c = .jobCheck v ∨ c = .jobAbort v ∨ c = .noticePop v) ∨
    ((c = .softReset ∨ c = .resetRelease) ∧ t.cmdResult = .taken) ∨
    ∃ a v, c = .plainRegisterWrite a v ∧ Instr.wellFormed c = false

/-- DRIVE_EN, TB_RUN, NOTICE_IRQ_EN, TB_DIV_PRE_WRITE and TB_COUNT_WRITE (R182, R103, R185, R175, R186). A CONTROL
write with one bit changed (log 12) changes that bit's block and nothing else: DRIVE_EN going from clear to set ends
what the model keeps of pulses that have ended (R103; log 30), TB_RUN going from clear to set begins a fresh period of
the present DIV and PRE, and from set to clear discards the period in progress; a bit rewritten as it stands changes
nothing. DIV, PRE by bits 0–1, or the tick counter takes the value written, and the period in progress stands. A whole
write of CONTROL does so with its three bits together, or is a soft reset and stores nothing where SOFT_RESET is 1
(R182, R183); and a write at the address of any other register whose write has a row of its own acts as that row (log
13). -/
def Obligations.ControlAndTimebaseWrites : Prop :=
  ∀ (on : Bool) (v : Word) (s : State), s.resetLow = false →
    let run (on : Bool) : Timebase := { s.timebase with
      running := on
      period :=
        if s.timebase.running = on then s.timebase.period
        else if on then
          some ⟨(s.timebase.div.toNat + 1) * [1, 16, 256, 4096].getD s.timebase.pre.toNat 1, 0⟩
        else none }
    let drive (on : Bool) : State := { s with
      driveEnable := on
      lanes :=
        if on = true ∧ s.driveEnable = false then
          Vector.ofFn fun k => { s.lane k with entry := (s.lane k).entry.map fun e => { e with bridged := none } }
        else s.lanes }
    exec (.driveEn on) s = .next (drive on) ∧
    exec (.noticeIrqEn on) s = .next { s with irqEnable := on } ∧
    exec (.tbRun on) s = .next { s with timebase := run on } ∧
    exec (.tbDivPreWrite .div v) s = .next { s with timebase := { s.timebase with div := v } } ∧
    exec (.tbDivPreWrite .pre v) s = .next { s with timebase := { s.timebase with pre := v.extractLsb' 0 2 } } ∧
    exec (.tbCountWrite v) s = .next { s with timebase := { s.timebase with counter := v } } ∧
    exec (.plainRegisterWrite 0x01#8 v) s = (
      if v[3] then exec .softReset s
      else .next { drive v[0] with timebase := run v[1], irqEnable := v[2] }) ∧
    ∀ x ∈ rowsOfWrites v, exec (.plainRegisterWrite x.1 v) s = exec x.2 s

/-- RESET_ASSERT (R184, R109, R175): RESET# low. Every output line is at 0, the interrupt line is deasserted and the
bus is not driven; the state is held (log 14), and no command but RESET_RELEASE and PRESENTED_LEVEL_CHANGE changes it.
-/
def Obligations.ResetAssertHoldsThePart : Prop :=
  (∀ s : State, exec .resetAssert s = .next { s with resetLow := true }) ∧
  ∀ s : State, s.resetLow = true →
    (∀ n, s.outLevel n = false) ∧ s.irqLine = false ∧ (∀ cs rd wr a held, busData cs rd wr a held s = none) ∧
    ∀ c : Instr, c ≠ .resetRelease → (∀ pin level, c ≠ .presentedLevelChange pin level) → exec c s = .next s

/-- RESET_RELEASE (R184, R15, R42, R101, R121, R132, R142, R154, R158, R176, R179, R185): every block at its power-on
values, the accepted levels taken from the pins, the power-on clear begun, and every word of the window but the three
that show accepted levels reading its value of the register map; the table's contents are as they stood, where the spec
gives them none before the clear (the model's choice, log 10), and so are the pins (log 11). A release of a RESET# that
is high changes nothing (log 6). -/
def Obligations.ResetReleaseTakesPowerOnValues : Prop :=
  ∀ s : State,
    (s.resetLow = false → exec .resetRelease s = .next s) ∧
    (s.resetLow = true → ∃ t, exec .resetRelease s = .next t ∧
      t = { State.reset with
        table := s.table
        inputs := { State.reset.inputs with pins := s.inputs.pins, accepted := s.inputs.pins }
        units := t.units
        trips := t.trips
        picks := s.picks
        early := s.early
        pending := s.pending } ∧
      (∀ u : UnitId, t.units[u.val] = { State.reset.units[u.val] with
        a := ⟨s.units[u.val].a.pin, s.units[u.val].a.pin, none⟩
        b := ⟨s.units[u.val].b.pin, s.units[u.val].b.pin, none⟩ }) ∧
      (∀ n : SourceId, t.trips[n.val] =
        { State.reset.trips[n.val] with pin := s.trips[n.val].pin, active := s.trips[n.val].pin }) ∧
      ∀ a : BitVec 8, a ≠ 0x99#8 → a ≠ 0xA4#8 → a ≠ 0xB6#8 → Window.read t a =
        ([(0x00#8, 0x0840#16), (0x02#8, 0x0003#16), (0x21#8, 0x0001#16), (0x62#8, 0x0001#16),
          (0x6A#8, 0x0001#16), (0x88#8, 0x8888#16), (0x89#8, 0x8888#16), (0x8A#8, 0x8888#16), (0x8B#8, 0x8888#16),
          (0x8C#8, 0x8888#16), (0x8D#8, 0x8888#16), (0x8E#8, 0x8888#16), (0x8F#8, 0x8888#16), (0xD8#8, 0x0010#16),
          (0xDB#8, 0x0200#16), (0xE0#8, 0x8000#16)].lookup a).getD 0)

/-! ## What holds at every moment -/

/-- The state after reset meets every invariant stated below, and nothing is under way in it. -/
def Obligations.ResetMeetsTheInvariants : Prop :=
  let s := State.reset
  s.LanesOk ∧ s.TripsHold ∧ s.SettingsWait ∧ s.LatchesOk ∧ Queue.Ok s.queue ∧ s.LateOk ∧ s.job.Ok ∧ Memory.wf s.table ∧
    s.timebase.Ok ∧ s.FiltersOk ∧ s.early <+: frontMoves s.pending ∧ s.Quiet

/-- Every step keeps every lane in its ranges (R19, R22, R23, R76, R77, R89, R112): BASE + LENGTH ≤ 512, the active
offset below LENGTH, at most four frames, each in the range, an empty stack and no swap where the spec says so, a valid
copy, and a pulse only in RUNNING, HELD or DONE, on an owned line. -/
def Obligations.StepKeepsLanesInRange : Prop :=
  ∀ s t : State, s.LanesOk → step s = .next t → t.LanesOk

/-- Every step keeps R149, R142, R145 and R147: a lane covered by a set latch is IDLE or TRIPPED, or in the middle of
an entry with the forcing kept for when it is complete (R28); settings wait only for forcings that are kept; a set
latch belongs to an enabled source, and an enabled pin source whose accepted level is active has its latch set. -/
def Obligations.StepKeepsTripProtection : Prop :=
  ∀ s t : State, s.TripsHold → s.SettingsWait → s.LatchesOk → step s = .next t →
    t.TripsHold ∧ t.SettingsWait ∧ t.LatchesOk

/-- Every step keeps R170, R1 and R157: at most 64 notices, at 64 the newest a LOST record, and every LOST count from 1
to 255; no LOST record among the notices on their way (the model's own, log 29); the table in its one form with indices
below 512; and the job context in its ranges. -/
def Obligations.StepKeepsQueueTableAndJobInRange : Prop :=
  ∀ s t : State, Queue.Ok s.queue → s.LateOk → Memory.wf s.table → s.job.Ok → step s = .next t →
    Queue.Ok t.queue ∧ t.LateOk ∧ Memory.wf t.table ∧ t.job.Ok

/-- Every step keeps the clocked units consistent: a period is in progress exactly while TB_RUN is set, not beyond its
length (R185); an acceptance is in progress only while the presented level differs from the accepted one, not beyond
the filter count (R117); no emission is left over when a step ends (R133); and the pin moves that have fallen within a
host write are those next in the queue, in its order (the model's own, log 37). -/
def Obligations.StepKeepsClocksAndFiltersConsistent : Prop :=
  ∀ s t : State, s.timebase.Ok → s.FiltersOk → s.outbox = [] → s.early <+: frontMoves s.pending → step s = .next t →
    t.timebase.Ok ∧ t.FiltersOk ∧ t.outbox = [] ∧ t.early <+: frontMoves t.pending

end
end

