-- ==== Sys2Proof/Laws/State.lean ====
section
/-! SUPPORT. What each update of the state leaves as it was, one lemma per field and update, and what it changes. -/

namespace Sys2Proof.Machine

variable (s : State)

/-! ### setLane -/

section
variable (k : LaneId) (l : Lane)

@[simp] theorem State.setLane_table : (s.setLane k l).table = s.table := rfl
@[simp] theorem State.setLane_buffer : (s.setLane k l).buffer = s.buffer := rfl
@[simp] theorem State.setLane_job : (s.setLane k l).job = s.job := rfl
@[simp] theorem State.setLane_owners : (s.setLane k l).owners = s.owners := rfl
@[simp] theorem State.setLane_safeLevels : (s.setLane k l).safeLevels = s.safeLevels := rfl
@[simp] theorem State.setLane_driveEnable : (s.setLane k l).driveEnable = s.driveEnable := rfl
@[simp] theorem State.setLane_inputs : (s.setLane k l).inputs = s.inputs := rfl
@[simp] theorem State.setLane_units : (s.setLane k l).units = s.units := rfl
@[simp] theorem State.setLane_posArg : (s.setLane k l).posArg = s.posArg := rfl
@[simp] theorem State.setLane_trips : (s.setLane k l).trips = s.trips := rfl
@[simp] theorem State.setLane_settings : (s.setLane k l).settings = s.settings := rfl
@[simp] theorem State.setLane_tripRefused : (s.setLane k l).tripRefused = s.tripRefused := rfl
@[simp] theorem State.setLane_tripArg0 : (s.setLane k l).tripArg0 = s.tripArg0 := rfl
@[simp] theorem State.setLane_tripArg1 : (s.setLane k l).tripArg1 = s.tripArg1 := rfl
@[simp] theorem State.setLane_jobArgSrc : (s.setLane k l).jobArgSrc = s.jobArgSrc := rfl
@[simp] theorem State.setLane_jobArgDst : (s.setLane k l).jobArgDst = s.jobArgDst := rfl
@[simp] theorem State.setLane_jobArgCount : (s.setLane k l).jobArgCount = s.jobArgCount := rfl
@[simp] theorem State.setLane_queue : (s.setLane k l).queue = s.queue := rfl
@[simp] theorem State.setLane_late : (s.setLane k l).late = s.late := rfl
@[simp] theorem State.setLane_irqEnable : (s.setLane k l).irqEnable = s.irqEnable := rfl
@[simp] theorem State.setLane_timebase : (s.setLane k l).timebase = s.timebase := rfl
@[simp] theorem State.setLane_compared : (s.setLane k l).compared = s.compared := rfl
@[simp] theorem State.setLane_restarted : (s.setLane k l).restarted = s.restarted := rfl
@[simp] theorem State.setLane_early : (s.setLane k l).early = s.early := rfl
@[simp] theorem State.setLane_staging : (s.setLane k l).staging = s.staging := rfl
@[simp] theorem State.setLane_cmdResult : (s.setLane k l).cmdResult = s.cmdResult := rfl
@[simp] theorem State.setLane_cmdRefused : (s.setLane k l).cmdRefused = s.cmdRefused := rfl
@[simp] theorem State.setLane_laneSel : (s.setLane k l).laneSel = s.laneSel := rfl
@[simp] theorem State.setLane_resetLow : (s.setLane k l).resetLow = s.resetLow := rfl
@[simp] theorem State.setLane_outbox : (s.setLane k l).outbox = s.outbox := rfl
@[simp] theorem State.setLane_picks : (s.setLane k l).picks = s.picks := rfl
@[simp] theorem State.setLane_pending : (s.setLane k l).pending = s.pending := rfl

end

/-! ### onLane -/

section
variable (k : LaneId) (f : Lane → Lane)

@[simp] theorem State.onLane_table : (s.onLane k f).table = s.table := rfl
@[simp] theorem State.onLane_buffer : (s.onLane k f).buffer = s.buffer := rfl
@[simp] theorem State.onLane_job : (s.onLane k f).job = s.job := rfl
@[simp] theorem State.onLane_owners : (s.onLane k f).owners = s.owners := rfl
@[simp] theorem State.onLane_safeLevels : (s.onLane k f).safeLevels = s.safeLevels := rfl
@[simp] theorem State.onLane_driveEnable : (s.onLane k f).driveEnable = s.driveEnable := rfl
@[simp] theorem State.onLane_inputs : (s.onLane k f).inputs = s.inputs := rfl
@[simp] theorem State.onLane_units : (s.onLane k f).units = s.units := rfl
@[simp] theorem State.onLane_posArg : (s.onLane k f).posArg = s.posArg := rfl
@[simp] theorem State.onLane_trips : (s.onLane k f).trips = s.trips := rfl
@[simp] theorem State.onLane_settings : (s.onLane k f).settings = s.settings := rfl
@[simp] theorem State.onLane_tripRefused : (s.onLane k f).tripRefused = s.tripRefused := rfl
@[simp] theorem State.onLane_tripArg0 : (s.onLane k f).tripArg0 = s.tripArg0 := rfl
@[simp] theorem State.onLane_tripArg1 : (s.onLane k f).tripArg1 = s.tripArg1 := rfl
@[simp] theorem State.onLane_jobArgSrc : (s.onLane k f).jobArgSrc = s.jobArgSrc := rfl
@[simp] theorem State.onLane_jobArgDst : (s.onLane k f).jobArgDst = s.jobArgDst := rfl
@[simp] theorem State.onLane_jobArgCount : (s.onLane k f).jobArgCount = s.jobArgCount := rfl
@[simp] theorem State.onLane_queue : (s.onLane k f).queue = s.queue := rfl
@[simp] theorem State.onLane_late : (s.onLane k f).late = s.late := rfl
@[simp] theorem State.onLane_irqEnable : (s.onLane k f).irqEnable = s.irqEnable := rfl
@[simp] theorem State.onLane_timebase : (s.onLane k f).timebase = s.timebase := rfl
@[simp] theorem State.onLane_compared : (s.onLane k f).compared = s.compared := rfl
@[simp] theorem State.onLane_restarted : (s.onLane k f).restarted = s.restarted := rfl
@[simp] theorem State.onLane_early : (s.onLane k f).early = s.early := rfl
@[simp] theorem State.onLane_staging : (s.onLane k f).staging = s.staging := rfl
@[simp] theorem State.onLane_cmdResult : (s.onLane k f).cmdResult = s.cmdResult := rfl
@[simp] theorem State.onLane_cmdRefused : (s.onLane k f).cmdRefused = s.cmdRefused := rfl
@[simp] theorem State.onLane_laneSel : (s.onLane k f).laneSel = s.laneSel := rfl
@[simp] theorem State.onLane_resetLow : (s.onLane k f).resetLow = s.resetLow := rfl
@[simp] theorem State.onLane_outbox : (s.onLane k f).outbox = s.outbox := rfl
@[simp] theorem State.onLane_picks : (s.onLane k f).picks = s.picks := rfl
@[simp] theorem State.onLane_pending : (s.onLane k f).pending = s.pending := rfl

end

/-! ### onLanes -/

section
variable (f : LaneId → Lane → Lane)

@[simp] theorem State.onLanes_table : (s.onLanes f).table = s.table := rfl
@[simp] theorem State.onLanes_buffer : (s.onLanes f).buffer = s.buffer := rfl
@[simp] theorem State.onLanes_job : (s.onLanes f).job = s.job := rfl
@[simp] theorem State.onLanes_owners : (s.onLanes f).owners = s.owners := rfl
@[simp] theorem State.onLanes_safeLevels : (s.onLanes f).safeLevels = s.safeLevels := rfl
@[simp] theorem State.onLanes_driveEnable : (s.onLanes f).driveEnable = s.driveEnable := rfl
@[simp] theorem State.onLanes_inputs : (s.onLanes f).inputs = s.inputs := rfl
@[simp] theorem State.onLanes_units : (s.onLanes f).units = s.units := rfl
@[simp] theorem State.onLanes_posArg : (s.onLanes f).posArg = s.posArg := rfl
@[simp] theorem State.onLanes_trips : (s.onLanes f).trips = s.trips := rfl
@[simp] theorem State.onLanes_settings : (s.onLanes f).settings = s.settings := rfl
@[simp] theorem State.onLanes_tripRefused : (s.onLanes f).tripRefused = s.tripRefused := rfl
@[simp] theorem State.onLanes_tripArg0 : (s.onLanes f).tripArg0 = s.tripArg0 := rfl
@[simp] theorem State.onLanes_tripArg1 : (s.onLanes f).tripArg1 = s.tripArg1 := rfl
@[simp] theorem State.onLanes_jobArgSrc : (s.onLanes f).jobArgSrc = s.jobArgSrc := rfl
@[simp] theorem State.onLanes_jobArgDst : (s.onLanes f).jobArgDst = s.jobArgDst := rfl
@[simp] theorem State.onLanes_jobArgCount : (s.onLanes f).jobArgCount = s.jobArgCount := rfl
@[simp] theorem State.onLanes_queue : (s.onLanes f).queue = s.queue := rfl
@[simp] theorem State.onLanes_late : (s.onLanes f).late = s.late := rfl
@[simp] theorem State.onLanes_irqEnable : (s.onLanes f).irqEnable = s.irqEnable := rfl
@[simp] theorem State.onLanes_timebase : (s.onLanes f).timebase = s.timebase := rfl
@[simp] theorem State.onLanes_compared : (s.onLanes f).compared = s.compared := rfl
@[simp] theorem State.onLanes_restarted : (s.onLanes f).restarted = s.restarted := rfl
@[simp] theorem State.onLanes_early : (s.onLanes f).early = s.early := rfl
@[simp] theorem State.onLanes_staging : (s.onLanes f).staging = s.staging := rfl
@[simp] theorem State.onLanes_cmdResult : (s.onLanes f).cmdResult = s.cmdResult := rfl
@[simp] theorem State.onLanes_cmdRefused : (s.onLanes f).cmdRefused = s.cmdRefused := rfl
@[simp] theorem State.onLanes_laneSel : (s.onLanes f).laneSel = s.laneSel := rfl
@[simp] theorem State.onLanes_resetLow : (s.onLanes f).resetLow = s.resetLow := rfl
@[simp] theorem State.onLanes_outbox : (s.onLanes f).outbox = s.outbox := rfl
@[simp] theorem State.onLanes_picks : (s.onLanes f).picks = s.picks := rfl
@[simp] theorem State.onLanes_pending : (s.onLanes f).pending = s.pending := rfl

end

/-! ### raise -/

section
variable (b : NoticeBody)

@[simp] theorem State.raise_table : (s.raise b).table = s.table := rfl
@[simp] theorem State.raise_buffer : (s.raise b).buffer = s.buffer := rfl
@[simp] theorem State.raise_job : (s.raise b).job = s.job := rfl
@[simp] theorem State.raise_lanes : (s.raise b).lanes = s.lanes := rfl
@[simp] theorem State.raise_owners : (s.raise b).owners = s.owners := rfl
@[simp] theorem State.raise_safeLevels : (s.raise b).safeLevels = s.safeLevels := rfl
@[simp] theorem State.raise_driveEnable : (s.raise b).driveEnable = s.driveEnable := rfl
@[simp] theorem State.raise_inputs : (s.raise b).inputs = s.inputs := rfl
@[simp] theorem State.raise_units : (s.raise b).units = s.units := rfl
@[simp] theorem State.raise_posArg : (s.raise b).posArg = s.posArg := rfl
@[simp] theorem State.raise_trips : (s.raise b).trips = s.trips := rfl
@[simp] theorem State.raise_settings : (s.raise b).settings = s.settings := rfl
@[simp] theorem State.raise_tripRefused : (s.raise b).tripRefused = s.tripRefused := rfl
@[simp] theorem State.raise_tripArg0 : (s.raise b).tripArg0 = s.tripArg0 := rfl
@[simp] theorem State.raise_tripArg1 : (s.raise b).tripArg1 = s.tripArg1 := rfl
@[simp] theorem State.raise_jobArgSrc : (s.raise b).jobArgSrc = s.jobArgSrc := rfl
@[simp] theorem State.raise_jobArgDst : (s.raise b).jobArgDst = s.jobArgDst := rfl
@[simp] theorem State.raise_jobArgCount : (s.raise b).jobArgCount = s.jobArgCount := rfl
@[simp] theorem State.raise_late : (s.raise b).late = s.late := rfl
@[simp] theorem State.raise_irqEnable : (s.raise b).irqEnable = s.irqEnable := rfl
@[simp] theorem State.raise_timebase : (s.raise b).timebase = s.timebase := rfl
@[simp] theorem State.raise_compared : (s.raise b).compared = s.compared := rfl
@[simp] theorem State.raise_restarted : (s.raise b).restarted = s.restarted := rfl
@[simp] theorem State.raise_early : (s.raise b).early = s.early := rfl
@[simp] theorem State.raise_staging : (s.raise b).staging = s.staging := rfl
@[simp] theorem State.raise_cmdResult : (s.raise b).cmdResult = s.cmdResult := rfl
@[simp] theorem State.raise_cmdRefused : (s.raise b).cmdRefused = s.cmdRefused := rfl
@[simp] theorem State.raise_laneSel : (s.raise b).laneSel = s.laneSel := rfl
@[simp] theorem State.raise_resetLow : (s.raise b).resetLow = s.resetLow := rfl
@[simp] theorem State.raise_outbox : (s.raise b).outbox = s.outbox := rfl
@[simp] theorem State.raise_picks : (s.raise b).picks = s.picks := rfl
@[simp] theorem State.raise_pending : (s.raise b).pending = s.pending := rfl
@[simp] theorem State.raise_lane (j : LaneId) : (s.raise b).lane j = s.lane j := rfl

end

/-! ### raiseFrom -/

section
variable (x : Sender) (b : NoticeBody)

@[simp] theorem State.raiseFrom_table : (s.raiseFrom x b).table = s.table := rfl
@[simp] theorem State.raiseFrom_buffer : (s.raiseFrom x b).buffer = s.buffer := rfl
@[simp] theorem State.raiseFrom_job : (s.raiseFrom x b).job = s.job := rfl
@[simp] theorem State.raiseFrom_lanes : (s.raiseFrom x b).lanes = s.lanes := rfl
@[simp] theorem State.raiseFrom_owners : (s.raiseFrom x b).owners = s.owners := rfl
@[simp] theorem State.raiseFrom_safeLevels : (s.raiseFrom x b).safeLevels = s.safeLevels := rfl
@[simp] theorem State.raiseFrom_driveEnable : (s.raiseFrom x b).driveEnable = s.driveEnable := rfl
@[simp] theorem State.raiseFrom_inputs : (s.raiseFrom x b).inputs = s.inputs := rfl
@[simp] theorem State.raiseFrom_units : (s.raiseFrom x b).units = s.units := rfl
@[simp] theorem State.raiseFrom_posArg : (s.raiseFrom x b).posArg = s.posArg := rfl
@[simp] theorem State.raiseFrom_trips : (s.raiseFrom x b).trips = s.trips := rfl
@[simp] theorem State.raiseFrom_settings : (s.raiseFrom x b).settings = s.settings := rfl
@[simp] theorem State.raiseFrom_tripRefused : (s.raiseFrom x b).tripRefused = s.tripRefused := rfl
@[simp] theorem State.raiseFrom_tripArg0 : (s.raiseFrom x b).tripArg0 = s.tripArg0 := rfl
@[simp] theorem State.raiseFrom_tripArg1 : (s.raiseFrom x b).tripArg1 = s.tripArg1 := rfl
@[simp] theorem State.raiseFrom_jobArgSrc : (s.raiseFrom x b).jobArgSrc = s.jobArgSrc := rfl
@[simp] theorem State.raiseFrom_jobArgDst : (s.raiseFrom x b).jobArgDst = s.jobArgDst := rfl
@[simp] theorem State.raiseFrom_jobArgCount : (s.raiseFrom x b).jobArgCount = s.jobArgCount := rfl
@[simp] theorem State.raiseFrom_irqEnable : (s.raiseFrom x b).irqEnable = s.irqEnable := rfl
@[simp] theorem State.raiseFrom_timebase : (s.raiseFrom x b).timebase = s.timebase := rfl
@[simp] theorem State.raiseFrom_compared : (s.raiseFrom x b).compared = s.compared := rfl
@[simp] theorem State.raiseFrom_restarted : (s.raiseFrom x b).restarted = s.restarted := rfl
@[simp] theorem State.raiseFrom_early : (s.raiseFrom x b).early = s.early := rfl
@[simp] theorem State.raiseFrom_staging : (s.raiseFrom x b).staging = s.staging := rfl
@[simp] theorem State.raiseFrom_cmdResult : (s.raiseFrom x b).cmdResult = s.cmdResult := rfl
@[simp] theorem State.raiseFrom_cmdRefused : (s.raiseFrom x b).cmdRefused = s.cmdRefused := rfl
@[simp] theorem State.raiseFrom_laneSel : (s.raiseFrom x b).laneSel = s.laneSel := rfl
@[simp] theorem State.raiseFrom_resetLow : (s.raiseFrom x b).resetLow = s.resetLow := rfl
@[simp] theorem State.raiseFrom_outbox : (s.raiseFrom x b).outbox = s.outbox := rfl
@[simp] theorem State.raiseFrom_picks : (s.raiseFrom x b).picks = s.picks := rfl
@[simp] theorem State.raiseFrom_pending : (s.raiseFrom x b).pending = s.pending := rfl
@[simp] theorem State.raiseFrom_lane (j : LaneId) : (s.raiseFrom x b).lane j = s.lane j := rfl

end

/-! ### arriveFrom -/

section
variable (x : Sender)

@[simp] theorem State.arriveFrom_table : (s.arriveFrom x).table = s.table := rfl
@[simp] theorem State.arriveFrom_buffer : (s.arriveFrom x).buffer = s.buffer := rfl
@[simp] theorem State.arriveFrom_job : (s.arriveFrom x).job = s.job := rfl
@[simp] theorem State.arriveFrom_lanes : (s.arriveFrom x).lanes = s.lanes := rfl
@[simp] theorem State.arriveFrom_owners : (s.arriveFrom x).owners = s.owners := rfl
@[simp] theorem State.arriveFrom_safeLevels : (s.arriveFrom x).safeLevels = s.safeLevels := rfl
@[simp] theorem State.arriveFrom_driveEnable : (s.arriveFrom x).driveEnable = s.driveEnable := rfl
@[simp] theorem State.arriveFrom_inputs : (s.arriveFrom x).inputs = s.inputs := rfl
@[simp] theorem State.arriveFrom_units : (s.arriveFrom x).units = s.units := rfl
@[simp] theorem State.arriveFrom_posArg : (s.arriveFrom x).posArg = s.posArg := rfl
@[simp] theorem State.arriveFrom_trips : (s.arriveFrom x).trips = s.trips := rfl
@[simp] theorem State.arriveFrom_settings : (s.arriveFrom x).settings = s.settings := rfl
@[simp] theorem State.arriveFrom_tripRefused : (s.arriveFrom x).tripRefused = s.tripRefused := rfl
@[simp] theorem State.arriveFrom_tripArg0 : (s.arriveFrom x).tripArg0 = s.tripArg0 := rfl
@[simp] theorem State.arriveFrom_tripArg1 : (s.arriveFrom x).tripArg1 = s.tripArg1 := rfl
@[simp] theorem State.arriveFrom_jobArgSrc : (s.arriveFrom x).jobArgSrc = s.jobArgSrc := rfl
@[simp] theorem State.arriveFrom_jobArgDst : (s.arriveFrom x).jobArgDst = s.jobArgDst := rfl
@[simp] theorem State.arriveFrom_jobArgCount : (s.arriveFrom x).jobArgCount = s.jobArgCount := rfl
@[simp] theorem State.arriveFrom_irqEnable : (s.arriveFrom x).irqEnable = s.irqEnable := rfl
@[simp] theorem State.arriveFrom_timebase : (s.arriveFrom x).timebase = s.timebase := rfl
@[simp] theorem State.arriveFrom_compared : (s.arriveFrom x).compared = s.compared := rfl
@[simp] theorem State.arriveFrom_restarted : (s.arriveFrom x).restarted = s.restarted := rfl
@[simp] theorem State.arriveFrom_early : (s.arriveFrom x).early = s.early := rfl
@[simp] theorem State.arriveFrom_staging : (s.arriveFrom x).staging = s.staging := rfl
@[simp] theorem State.arriveFrom_cmdResult : (s.arriveFrom x).cmdResult = s.cmdResult := rfl
@[simp] theorem State.arriveFrom_cmdRefused : (s.arriveFrom x).cmdRefused = s.cmdRefused := rfl
@[simp] theorem State.arriveFrom_laneSel : (s.arriveFrom x).laneSel = s.laneSel := rfl
@[simp] theorem State.arriveFrom_resetLow : (s.arriveFrom x).resetLow = s.resetLow := rfl
@[simp] theorem State.arriveFrom_outbox : (s.arriveFrom x).outbox = s.outbox := rfl
@[simp] theorem State.arriveFrom_picks : (s.arriveFrom x).picks = s.picks := rfl
@[simp] theorem State.arriveFrom_pending : (s.arriveFrom x).pending = s.pending := rfl
@[simp] theorem State.arriveFrom_lane (j : LaneId) : (s.arriveFrom x).lane j = s.lane j := rfl

end

/-! ### withNotices -/

section
variable (q : List Notice) (l : List (Sender × NoticeBody))

@[simp] theorem State.withNotices_table : (s.withNotices q l).table = s.table := rfl
@[simp] theorem State.withNotices_buffer : (s.withNotices q l).buffer = s.buffer := rfl
@[simp] theorem State.withNotices_job : (s.withNotices q l).job = s.job := rfl
@[simp] theorem State.withNotices_lanes : (s.withNotices q l).lanes = s.lanes := rfl
@[simp] theorem State.withNotices_owners : (s.withNotices q l).owners = s.owners := rfl
@[simp] theorem State.withNotices_safeLevels : (s.withNotices q l).safeLevels = s.safeLevels := rfl
@[simp] theorem State.withNotices_driveEnable : (s.withNotices q l).driveEnable = s.driveEnable := rfl
@[simp] theorem State.withNotices_inputs : (s.withNotices q l).inputs = s.inputs := rfl
@[simp] theorem State.withNotices_units : (s.withNotices q l).units = s.units := rfl
@[simp] theorem State.withNotices_posArg : (s.withNotices q l).posArg = s.posArg := rfl
@[simp] theorem State.withNotices_trips : (s.withNotices q l).trips = s.trips := rfl
@[simp] theorem State.withNotices_settings : (s.withNotices q l).settings = s.settings := rfl
@[simp] theorem State.withNotices_tripRefused : (s.withNotices q l).tripRefused = s.tripRefused := rfl
@[simp] theorem State.withNotices_tripArg0 : (s.withNotices q l).tripArg0 = s.tripArg0 := rfl
@[simp] theorem State.withNotices_tripArg1 : (s.withNotices q l).tripArg1 = s.tripArg1 := rfl
@[simp] theorem State.withNotices_jobArgSrc : (s.withNotices q l).jobArgSrc = s.jobArgSrc := rfl
@[simp] theorem State.withNotices_jobArgDst : (s.withNotices q l).jobArgDst = s.jobArgDst := rfl
@[simp] theorem State.withNotices_jobArgCount : (s.withNotices q l).jobArgCount = s.jobArgCount := rfl
@[simp] theorem State.withNotices_irqEnable : (s.withNotices q l).irqEnable = s.irqEnable := rfl
@[simp] theorem State.withNotices_timebase : (s.withNotices q l).timebase = s.timebase := rfl
@[simp] theorem State.withNotices_compared : (s.withNotices q l).compared = s.compared := rfl
@[simp] theorem State.withNotices_restarted : (s.withNotices q l).restarted = s.restarted := rfl
@[simp] theorem State.withNotices_early : (s.withNotices q l).early = s.early := rfl
@[simp] theorem State.withNotices_staging : (s.withNotices q l).staging = s.staging := rfl
@[simp] theorem State.withNotices_cmdResult : (s.withNotices q l).cmdResult = s.cmdResult := rfl
@[simp] theorem State.withNotices_cmdRefused : (s.withNotices q l).cmdRefused = s.cmdRefused := rfl
@[simp] theorem State.withNotices_laneSel : (s.withNotices q l).laneSel = s.laneSel := rfl
@[simp] theorem State.withNotices_resetLow : (s.withNotices q l).resetLow = s.resetLow := rfl
@[simp] theorem State.withNotices_outbox : (s.withNotices q l).outbox = s.outbox := rfl
@[simp] theorem State.withNotices_picks : (s.withNotices q l).picks = s.picks := rfl
@[simp] theorem State.withNotices_pending : (s.withNotices q l).pending = s.pending := rfl
@[simp] theorem State.withNotices_lane (j : LaneId) : (s.withNotices q l).lane j = s.lane j := rfl
@[simp] theorem State.withNotices_queue : (s.withNotices q l).queue = q := rfl
@[simp] theorem State.withNotices_late : (s.withNotices q l).late = l := rfl

end

/-! ### emitFrom -/

section
variable (k : LaneId)

@[simp] theorem State.emitFrom_table : (s.emitFrom k).table = s.table := rfl
@[simp] theorem State.emitFrom_buffer : (s.emitFrom k).buffer = s.buffer := rfl
@[simp] theorem State.emitFrom_job : (s.emitFrom k).job = s.job := rfl
@[simp] theorem State.emitFrom_lanes : (s.emitFrom k).lanes = s.lanes := rfl
@[simp] theorem State.emitFrom_owners : (s.emitFrom k).owners = s.owners := rfl
@[simp] theorem State.emitFrom_safeLevels : (s.emitFrom k).safeLevels = s.safeLevels := rfl
@[simp] theorem State.emitFrom_driveEnable : (s.emitFrom k).driveEnable = s.driveEnable := rfl
@[simp] theorem State.emitFrom_inputs : (s.emitFrom k).inputs = s.inputs := rfl
@[simp] theorem State.emitFrom_units : (s.emitFrom k).units = s.units := rfl
@[simp] theorem State.emitFrom_posArg : (s.emitFrom k).posArg = s.posArg := rfl
@[simp] theorem State.emitFrom_trips : (s.emitFrom k).trips = s.trips := rfl
@[simp] theorem State.emitFrom_settings : (s.emitFrom k).settings = s.settings := rfl
@[simp] theorem State.emitFrom_tripRefused : (s.emitFrom k).tripRefused = s.tripRefused := rfl
@[simp] theorem State.emitFrom_tripArg0 : (s.emitFrom k).tripArg0 = s.tripArg0 := rfl
@[simp] theorem State.emitFrom_tripArg1 : (s.emitFrom k).tripArg1 = s.tripArg1 := rfl
@[simp] theorem State.emitFrom_jobArgSrc : (s.emitFrom k).jobArgSrc = s.jobArgSrc := rfl
@[simp] theorem State.emitFrom_jobArgDst : (s.emitFrom k).jobArgDst = s.jobArgDst := rfl
@[simp] theorem State.emitFrom_jobArgCount : (s.emitFrom k).jobArgCount = s.jobArgCount := rfl
@[simp] theorem State.emitFrom_queue : (s.emitFrom k).queue = s.queue := rfl
@[simp] theorem State.emitFrom_late : (s.emitFrom k).late = s.late := rfl
@[simp] theorem State.emitFrom_irqEnable : (s.emitFrom k).irqEnable = s.irqEnable := rfl
@[simp] theorem State.emitFrom_timebase : (s.emitFrom k).timebase = s.timebase := rfl
@[simp] theorem State.emitFrom_compared : (s.emitFrom k).compared = s.compared := rfl
@[simp] theorem State.emitFrom_restarted : (s.emitFrom k).restarted = s.restarted := rfl
@[simp] theorem State.emitFrom_early : (s.emitFrom k).early = s.early := rfl
@[simp] theorem State.emitFrom_staging : (s.emitFrom k).staging = s.staging := rfl
@[simp] theorem State.emitFrom_cmdResult : (s.emitFrom k).cmdResult = s.cmdResult := rfl
@[simp] theorem State.emitFrom_cmdRefused : (s.emitFrom k).cmdRefused = s.cmdRefused := rfl
@[simp] theorem State.emitFrom_laneSel : (s.emitFrom k).laneSel = s.laneSel := rfl
@[simp] theorem State.emitFrom_resetLow : (s.emitFrom k).resetLow = s.resetLow := rfl
@[simp] theorem State.emitFrom_picks : (s.emitFrom k).picks = s.picks := rfl
@[simp] theorem State.emitFrom_pending : (s.emitFrom k).pending = s.pending := rfl
@[simp] theorem State.emitFrom_lane (j : LaneId) : (s.emitFrom k).lane j = s.lane j := rfl

end

/-! ### report -/

section
variable (r : Result)

@[simp] theorem State.report_table : (s.report r).table = s.table := rfl
@[simp] theorem State.report_buffer : (s.report r).buffer = s.buffer := rfl
@[simp] theorem State.report_job : (s.report r).job = s.job := rfl
@[simp] theorem State.report_lanes : (s.report r).lanes = s.lanes := rfl
@[simp] theorem State.report_owners : (s.report r).owners = s.owners := rfl
@[simp] theorem State.report_safeLevels : (s.report r).safeLevels = s.safeLevels := rfl
@[simp] theorem State.report_driveEnable : (s.report r).driveEnable = s.driveEnable := rfl
@[simp] theorem State.report_inputs : (s.report r).inputs = s.inputs := rfl
@[simp] theorem State.report_units : (s.report r).units = s.units := rfl
@[simp] theorem State.report_posArg : (s.report r).posArg = s.posArg := rfl
@[simp] theorem State.report_trips : (s.report r).trips = s.trips := rfl
@[simp] theorem State.report_settings : (s.report r).settings = s.settings := rfl
@[simp] theorem State.report_tripRefused : (s.report r).tripRefused = s.tripRefused := rfl
@[simp] theorem State.report_tripArg0 : (s.report r).tripArg0 = s.tripArg0 := rfl
@[simp] theorem State.report_tripArg1 : (s.report r).tripArg1 = s.tripArg1 := rfl
@[simp] theorem State.report_jobArgSrc : (s.report r).jobArgSrc = s.jobArgSrc := rfl
@[simp] theorem State.report_jobArgDst : (s.report r).jobArgDst = s.jobArgDst := rfl
@[simp] theorem State.report_jobArgCount : (s.report r).jobArgCount = s.jobArgCount := rfl
@[simp] theorem State.report_queue : (s.report r).queue = s.queue := rfl
@[simp] theorem State.report_late : (s.report r).late = s.late := rfl
@[simp] theorem State.report_irqEnable : (s.report r).irqEnable = s.irqEnable := rfl
@[simp] theorem State.report_timebase : (s.report r).timebase = s.timebase := rfl
@[simp] theorem State.report_compared : (s.report r).compared = s.compared := rfl
@[simp] theorem State.report_restarted : (s.report r).restarted = s.restarted := rfl
@[simp] theorem State.report_early : (s.report r).early = s.early := rfl
@[simp] theorem State.report_staging : (s.report r).staging = s.staging := rfl
@[simp] theorem State.report_cmdRefused : (s.report r).cmdRefused = s.cmdRefused := rfl
@[simp] theorem State.report_laneSel : (s.report r).laneSel = s.laneSel := rfl
@[simp] theorem State.report_resetLow : (s.report r).resetLow = s.resetLow := rfl
@[simp] theorem State.report_outbox : (s.report r).outbox = s.outbox := rfl
@[simp] theorem State.report_picks : (s.report r).picks = s.picks := rfl
@[simp] theorem State.report_pending : (s.report r).pending = s.pending := rfl
@[simp] theorem State.report_lane (j : LaneId) : (s.report r).lane j = s.lane j := rfl

end

/-! ### onUnit -/

section
variable (u : UnitId) (f : PositionUnit → PositionUnit)

@[simp] theorem State.onUnit_table : (s.onUnit u f).table = s.table := rfl
@[simp] theorem State.onUnit_buffer : (s.onUnit u f).buffer = s.buffer := rfl
@[simp] theorem State.onUnit_job : (s.onUnit u f).job = s.job := rfl
@[simp] theorem State.onUnit_lanes : (s.onUnit u f).lanes = s.lanes := rfl
@[simp] theorem State.onUnit_owners : (s.onUnit u f).owners = s.owners := rfl
@[simp] theorem State.onUnit_safeLevels : (s.onUnit u f).safeLevels = s.safeLevels := rfl
@[simp] theorem State.onUnit_driveEnable : (s.onUnit u f).driveEnable = s.driveEnable := rfl
@[simp] theorem State.onUnit_inputs : (s.onUnit u f).inputs = s.inputs := rfl
@[simp] theorem State.onUnit_posArg : (s.onUnit u f).posArg = s.posArg := rfl
@[simp] theorem State.onUnit_trips : (s.onUnit u f).trips = s.trips := rfl
@[simp] theorem State.onUnit_settings : (s.onUnit u f).settings = s.settings := rfl
@[simp] theorem State.onUnit_tripRefused : (s.onUnit u f).tripRefused = s.tripRefused := rfl
@[simp] theorem State.onUnit_tripArg0 : (s.onUnit u f).tripArg0 = s.tripArg0 := rfl
@[simp] theorem State.onUnit_tripArg1 : (s.onUnit u f).tripArg1 = s.tripArg1 := rfl
@[simp] theorem State.onUnit_jobArgSrc : (s.onUnit u f).jobArgSrc = s.jobArgSrc := rfl
@[simp] theorem State.onUnit_jobArgDst : (s.onUnit u f).jobArgDst = s.jobArgDst := rfl
@[simp] theorem State.onUnit_jobArgCount : (s.onUnit u f).jobArgCount = s.jobArgCount := rfl
@[simp] theorem State.onUnit_queue : (s.onUnit u f).queue = s.queue := rfl
@[simp] theorem State.onUnit_late : (s.onUnit u f).late = s.late := rfl
@[simp] theorem State.onUnit_irqEnable : (s.onUnit u f).irqEnable = s.irqEnable := rfl
@[simp] theorem State.onUnit_timebase : (s.onUnit u f).timebase = s.timebase := rfl
@[simp] theorem State.onUnit_compared : (s.onUnit u f).compared = s.compared := rfl
@[simp] theorem State.onUnit_restarted : (s.onUnit u f).restarted = s.restarted := rfl
@[simp] theorem State.onUnit_early : (s.onUnit u f).early = s.early := rfl
@[simp] theorem State.onUnit_staging : (s.onUnit u f).staging = s.staging := rfl
@[simp] theorem State.onUnit_cmdResult : (s.onUnit u f).cmdResult = s.cmdResult := rfl
@[simp] theorem State.onUnit_cmdRefused : (s.onUnit u f).cmdRefused = s.cmdRefused := rfl
@[simp] theorem State.onUnit_laneSel : (s.onUnit u f).laneSel = s.laneSel := rfl
@[simp] theorem State.onUnit_resetLow : (s.onUnit u f).resetLow = s.resetLow := rfl
@[simp] theorem State.onUnit_outbox : (s.onUnit u f).outbox = s.outbox := rfl
@[simp] theorem State.onUnit_picks : (s.onUnit u f).picks = s.picks := rfl
@[simp] theorem State.onUnit_pending : (s.onUnit u f).pending = s.pending := rfl
@[simp] theorem State.onUnit_lane (j : LaneId) : (s.onUnit u f).lane j = s.lane j := rfl

end

/-! ### onTrip -/

section
variable (n : SourceId) (f : TripSource → TripSource)

@[simp] theorem State.onTrip_table : (s.onTrip n f).table = s.table := rfl
@[simp] theorem State.onTrip_buffer : (s.onTrip n f).buffer = s.buffer := rfl
@[simp] theorem State.onTrip_job : (s.onTrip n f).job = s.job := rfl
@[simp] theorem State.onTrip_lanes : (s.onTrip n f).lanes = s.lanes := rfl
@[simp] theorem State.onTrip_owners : (s.onTrip n f).owners = s.owners := rfl
@[simp] theorem State.onTrip_safeLevels : (s.onTrip n f).safeLevels = s.safeLevels := rfl
@[simp] theorem State.onTrip_driveEnable : (s.onTrip n f).driveEnable = s.driveEnable := rfl
@[simp] theorem State.onTrip_inputs : (s.onTrip n f).inputs = s.inputs := rfl
@[simp] theorem State.onTrip_units : (s.onTrip n f).units = s.units := rfl
@[simp] theorem State.onTrip_posArg : (s.onTrip n f).posArg = s.posArg := rfl
@[simp] theorem State.onTrip_settings : (s.onTrip n f).settings = s.settings := rfl
@[simp] theorem State.onTrip_tripRefused : (s.onTrip n f).tripRefused = s.tripRefused := rfl
@[simp] theorem State.onTrip_tripArg0 : (s.onTrip n f).tripArg0 = s.tripArg0 := rfl
@[simp] theorem State.onTrip_tripArg1 : (s.onTrip n f).tripArg1 = s.tripArg1 := rfl
@[simp] theorem State.onTrip_jobArgSrc : (s.onTrip n f).jobArgSrc = s.jobArgSrc := rfl
@[simp] theorem State.onTrip_jobArgDst : (s.onTrip n f).jobArgDst = s.jobArgDst := rfl
@[simp] theorem State.onTrip_jobArgCount : (s.onTrip n f).jobArgCount = s.jobArgCount := rfl
@[simp] theorem State.onTrip_queue : (s.onTrip n f).queue = s.queue := rfl
@[simp] theorem State.onTrip_late : (s.onTrip n f).late = s.late := rfl
@[simp] theorem State.onTrip_irqEnable : (s.onTrip n f).irqEnable = s.irqEnable := rfl
@[simp] theorem State.onTrip_timebase : (s.onTrip n f).timebase = s.timebase := rfl
@[simp] theorem State.onTrip_compared : (s.onTrip n f).compared = s.compared := rfl
@[simp] theorem State.onTrip_restarted : (s.onTrip n f).restarted = s.restarted := rfl
@[simp] theorem State.onTrip_early : (s.onTrip n f).early = s.early := rfl
@[simp] theorem State.onTrip_staging : (s.onTrip n f).staging = s.staging := rfl
@[simp] theorem State.onTrip_cmdResult : (s.onTrip n f).cmdResult = s.cmdResult := rfl
@[simp] theorem State.onTrip_cmdRefused : (s.onTrip n f).cmdRefused = s.cmdRefused := rfl
@[simp] theorem State.onTrip_laneSel : (s.onTrip n f).laneSel = s.laneSel := rfl
@[simp] theorem State.onTrip_resetLow : (s.onTrip n f).resetLow = s.resetLow := rfl
@[simp] theorem State.onTrip_outbox : (s.onTrip n f).outbox = s.outbox := rfl
@[simp] theorem State.onTrip_picks : (s.onTrip n f).picks = s.picks := rfl
@[simp] theorem State.onTrip_pending : (s.onTrip n f).pending = s.pending := rfl
@[simp] theorem State.onTrip_lane (j : LaneId) : (s.onTrip n f).lane j = s.lane j := rfl

end

/-! ### raiseWhen -/

section
variable (c : Bool) (k : LaneId) (b : NoticeBody)

@[simp] theorem State.raiseWhen_table : (s.raiseWhen c k b).table = s.table := by
  cases c <;> rfl
@[simp] theorem State.raiseWhen_buffer : (s.raiseWhen c k b).buffer = s.buffer := by
  cases c <;> rfl
@[simp] theorem State.raiseWhen_job : (s.raiseWhen c k b).job = s.job := by
  cases c <;> rfl
@[simp] theorem State.raiseWhen_lanes : (s.raiseWhen c k b).lanes = s.lanes := by
  cases c <;> rfl
@[simp] theorem State.raiseWhen_owners : (s.raiseWhen c k b).owners = s.owners := by
  cases c <;> rfl
@[simp] theorem State.raiseWhen_safeLevels : (s.raiseWhen c k b).safeLevels = s.safeLevels := by
  cases c <;> rfl
@[simp] theorem State.raiseWhen_driveEnable : (s.raiseWhen c k b).driveEnable = s.driveEnable := by
  cases c <;> rfl
@[simp] theorem State.raiseWhen_inputs : (s.raiseWhen c k b).inputs = s.inputs := by
  cases c <;> rfl
@[simp] theorem State.raiseWhen_units : (s.raiseWhen c k b).units = s.units := by
  cases c <;> rfl
@[simp] theorem State.raiseWhen_posArg : (s.raiseWhen c k b).posArg = s.posArg := by
  cases c <;> rfl
@[simp] theorem State.raiseWhen_trips : (s.raiseWhen c k b).trips = s.trips := by
  cases c <;> rfl
@[simp] theorem State.raiseWhen_settings : (s.raiseWhen c k b).settings = s.settings := by
  cases c <;> rfl
@[simp] theorem State.raiseWhen_tripRefused : (s.raiseWhen c k b).tripRefused = s.tripRefused := by
  cases c <;> rfl
@[simp] theorem State.raiseWhen_tripArg0 : (s.raiseWhen c k b).tripArg0 = s.tripArg0 := by
  cases c <;> rfl
@[simp] theorem State.raiseWhen_tripArg1 : (s.raiseWhen c k b).tripArg1 = s.tripArg1 := by
  cases c <;> rfl
@[simp] theorem State.raiseWhen_jobArgSrc : (s.raiseWhen c k b).jobArgSrc = s.jobArgSrc := by
  cases c <;> rfl
@[simp] theorem State.raiseWhen_jobArgDst : (s.raiseWhen c k b).jobArgDst = s.jobArgDst := by
  cases c <;> rfl
@[simp] theorem State.raiseWhen_jobArgCount : (s.raiseWhen c k b).jobArgCount = s.jobArgCount := by
  cases c <;> rfl
@[simp] theorem State.raiseWhen_irqEnable : (s.raiseWhen c k b).irqEnable = s.irqEnable := by
  cases c <;> rfl
@[simp] theorem State.raiseWhen_timebase : (s.raiseWhen c k b).timebase = s.timebase := by
  cases c <;> rfl
@[simp] theorem State.raiseWhen_compared : (s.raiseWhen c k b).compared = s.compared := by
  cases c <;> rfl
@[simp] theorem State.raiseWhen_restarted : (s.raiseWhen c k b).restarted = s.restarted := by
  cases c <;> rfl
@[simp] theorem State.raiseWhen_early : (s.raiseWhen c k b).early = s.early := by
  cases c <;> rfl
@[simp] theorem State.raiseWhen_staging : (s.raiseWhen c k b).staging = s.staging := by
  cases c <;> rfl
@[simp] theorem State.raiseWhen_cmdResult : (s.raiseWhen c k b).cmdResult = s.cmdResult := by
  cases c <;> rfl
@[simp] theorem State.raiseWhen_cmdRefused : (s.raiseWhen c k b).cmdRefused = s.cmdRefused := by
  cases c <;> rfl
@[simp] theorem State.raiseWhen_laneSel : (s.raiseWhen c k b).laneSel = s.laneSel := by
  cases c <;> rfl
@[simp] theorem State.raiseWhen_resetLow : (s.raiseWhen c k b).resetLow = s.resetLow := by
  cases c <;> rfl
@[simp] theorem State.raiseWhen_outbox : (s.raiseWhen c k b).outbox = s.outbox := by
  cases c <;> rfl
@[simp] theorem State.raiseWhen_picks : (s.raiseWhen c k b).picks = s.picks := by
  cases c <;> rfl
@[simp] theorem State.raiseWhen_pending : (s.raiseWhen c k b).pending = s.pending := by
  cases c <;> rfl
@[simp] theorem State.raiseWhen_lane (j : LaneId) : (s.raiseWhen c k b).lane j = s.lane j := by
  cases c <;> rfl

end

/-! ### emitWhen -/

section
variable (c : Bool) (k : LaneId)

@[simp] theorem State.emitWhen_table : (s.emitWhen c k).table = s.table := by
  cases c <;> rfl
@[simp] theorem State.emitWhen_buffer : (s.emitWhen c k).buffer = s.buffer := by
  cases c <;> rfl
@[simp] theorem State.emitWhen_job : (s.emitWhen c k).job = s.job := by
  cases c <;> rfl
@[simp] theorem State.emitWhen_lanes : (s.emitWhen c k).lanes = s.lanes := by
  cases c <;> rfl
@[simp] theorem State.emitWhen_owners : (s.emitWhen c k).owners = s.owners := by
  cases c <;> rfl
@[simp] theorem State.emitWhen_safeLevels : (s.emitWhen c k).safeLevels = s.safeLevels := by
  cases c <;> rfl
@[simp] theorem State.emitWhen_driveEnable : (s.emitWhen c k).driveEnable = s.driveEnable := by
  cases c <;> rfl
@[simp] theorem State.emitWhen_inputs : (s.emitWhen c k).inputs = s.inputs := by
  cases c <;> rfl
@[simp] theorem State.emitWhen_units : (s.emitWhen c k).units = s.units := by
  cases c <;> rfl
@[simp] theorem State.emitWhen_posArg : (s.emitWhen c k).posArg = s.posArg := by
  cases c <;> rfl
@[simp] theorem State.emitWhen_trips : (s.emitWhen c k).trips = s.trips := by
  cases c <;> rfl
@[simp] theorem State.emitWhen_settings : (s.emitWhen c k).settings = s.settings := by
  cases c <;> rfl
@[simp] theorem State.emitWhen_tripRefused : (s.emitWhen c k).tripRefused = s.tripRefused := by
  cases c <;> rfl
@[simp] theorem State.emitWhen_tripArg0 : (s.emitWhen c k).tripArg0 = s.tripArg0 := by
  cases c <;> rfl
@[simp] theorem State.emitWhen_tripArg1 : (s.emitWhen c k).tripArg1 = s.tripArg1 := by
  cases c <;> rfl
@[simp] theorem State.emitWhen_jobArgSrc : (s.emitWhen c k).jobArgSrc = s.jobArgSrc := by
  cases c <;> rfl
@[simp] theorem State.emitWhen_jobArgDst : (s.emitWhen c k).jobArgDst = s.jobArgDst := by
  cases c <;> rfl
@[simp] theorem State.emitWhen_jobArgCount : (s.emitWhen c k).jobArgCount = s.jobArgCount := by
  cases c <;> rfl
@[simp] theorem State.emitWhen_queue : (s.emitWhen c k).queue = s.queue := by
  cases c <;> rfl
@[simp] theorem State.emitWhen_late : (s.emitWhen c k).late = s.late := by
  cases c <;> rfl
@[simp] theorem State.emitWhen_irqEnable : (s.emitWhen c k).irqEnable = s.irqEnable := by
  cases c <;> rfl
@[simp] theorem State.emitWhen_timebase : (s.emitWhen c k).timebase = s.timebase := by
  cases c <;> rfl
@[simp] theorem State.emitWhen_compared : (s.emitWhen c k).compared = s.compared := by
  cases c <;> rfl
@[simp] theorem State.emitWhen_restarted : (s.emitWhen c k).restarted = s.restarted := by
  cases c <;> rfl
@[simp] theorem State.emitWhen_early : (s.emitWhen c k).early = s.early := by
  cases c <;> rfl
@[simp] theorem State.emitWhen_staging : (s.emitWhen c k).staging = s.staging := by
  cases c <;> rfl
@[simp] theorem State.emitWhen_cmdResult : (s.emitWhen c k).cmdResult = s.cmdResult := by
  cases c <;> rfl
@[simp] theorem State.emitWhen_cmdRefused : (s.emitWhen c k).cmdRefused = s.cmdRefused := by
  cases c <;> rfl
@[simp] theorem State.emitWhen_laneSel : (s.emitWhen c k).laneSel = s.laneSel := by
  cases c <;> rfl
@[simp] theorem State.emitWhen_resetLow : (s.emitWhen c k).resetLow = s.resetLow := by
  cases c <;> rfl
@[simp] theorem State.emitWhen_picks : (s.emitWhen c k).picks = s.picks := by
  cases c <;> rfl
@[simp] theorem State.emitWhen_pending : (s.emitWhen c k).pending = s.pending := by
  cases c <;> rfl
@[simp] theorem State.emitWhen_lane (j : LaneId) : (s.emitWhen c k).lane j = s.lane j := by
  cases c <;> rfl

end

/-! ### withOutbox -/

section
variable (l : List LaneId)

@[simp] theorem State.withOutbox_table : (s.withOutbox l).table = s.table := rfl
@[simp] theorem State.withOutbox_buffer : (s.withOutbox l).buffer = s.buffer := rfl
@[simp] theorem State.withOutbox_job : (s.withOutbox l).job = s.job := rfl
@[simp] theorem State.withOutbox_lanes : (s.withOutbox l).lanes = s.lanes := rfl
@[simp] theorem State.withOutbox_owners : (s.withOutbox l).owners = s.owners := rfl
@[simp] theorem State.withOutbox_safeLevels : (s.withOutbox l).safeLevels = s.safeLevels := rfl
@[simp] theorem State.withOutbox_driveEnable : (s.withOutbox l).driveEnable = s.driveEnable := rfl
@[simp] theorem State.withOutbox_inputs : (s.withOutbox l).inputs = s.inputs := rfl
@[simp] theorem State.withOutbox_units : (s.withOutbox l).units = s.units := rfl
@[simp] theorem State.withOutbox_posArg : (s.withOutbox l).posArg = s.posArg := rfl
@[simp] theorem State.withOutbox_trips : (s.withOutbox l).trips = s.trips := rfl
@[simp] theorem State.withOutbox_settings : (s.withOutbox l).settings = s.settings := rfl
@[simp] theorem State.withOutbox_tripRefused : (s.withOutbox l).tripRefused = s.tripRefused := rfl
@[simp] theorem State.withOutbox_tripArg0 : (s.withOutbox l).tripArg0 = s.tripArg0 := rfl
@[simp] theorem State.withOutbox_tripArg1 : (s.withOutbox l).tripArg1 = s.tripArg1 := rfl
@[simp] theorem State.withOutbox_jobArgSrc : (s.withOutbox l).jobArgSrc = s.jobArgSrc := rfl
@[simp] theorem State.withOutbox_jobArgDst : (s.withOutbox l).jobArgDst = s.jobArgDst := rfl
@[simp] theorem State.withOutbox_jobArgCount : (s.withOutbox l).jobArgCount = s.jobArgCount := rfl
@[simp] theorem State.withOutbox_queue : (s.withOutbox l).queue = s.queue := rfl
@[simp] theorem State.withOutbox_late : (s.withOutbox l).late = s.late := rfl
@[simp] theorem State.withOutbox_irqEnable : (s.withOutbox l).irqEnable = s.irqEnable := rfl
@[simp] theorem State.withOutbox_timebase : (s.withOutbox l).timebase = s.timebase := rfl
@[simp] theorem State.withOutbox_compared : (s.withOutbox l).compared = s.compared := rfl
@[simp] theorem State.withOutbox_restarted : (s.withOutbox l).restarted = s.restarted := rfl
@[simp] theorem State.withOutbox_early : (s.withOutbox l).early = s.early := rfl
@[simp] theorem State.withOutbox_staging : (s.withOutbox l).staging = s.staging := rfl
@[simp] theorem State.withOutbox_cmdResult : (s.withOutbox l).cmdResult = s.cmdResult := rfl
@[simp] theorem State.withOutbox_cmdRefused : (s.withOutbox l).cmdRefused = s.cmdRefused := rfl
@[simp] theorem State.withOutbox_laneSel : (s.withOutbox l).laneSel = s.laneSel := rfl
@[simp] theorem State.withOutbox_resetLow : (s.withOutbox l).resetLow = s.resetLow := rfl
@[simp] theorem State.withOutbox_picks : (s.withOutbox l).picks = s.picks := rfl
@[simp] theorem State.withOutbox_pending : (s.withOutbox l).pending = s.pending := rfl
@[simp] theorem State.withOutbox_lane (j : LaneId) : (s.withOutbox l).lane j = s.lane j := rfl

end

/-! ### withSettings -/

section
variable (l : List Setting)

@[simp] theorem State.withSettings_table : (s.withSettings l).table = s.table := rfl
@[simp] theorem State.withSettings_buffer : (s.withSettings l).buffer = s.buffer := rfl
@[simp] theorem State.withSettings_job : (s.withSettings l).job = s.job := rfl
@[simp] theorem State.withSettings_lanes : (s.withSettings l).lanes = s.lanes := rfl
@[simp] theorem State.withSettings_owners : (s.withSettings l).owners = s.owners := rfl
@[simp] theorem State.withSettings_safeLevels : (s.withSettings l).safeLevels = s.safeLevels := rfl
@[simp] theorem State.withSettings_driveEnable : (s.withSettings l).driveEnable = s.driveEnable := rfl
@[simp] theorem State.withSettings_inputs : (s.withSettings l).inputs = s.inputs := rfl
@[simp] theorem State.withSettings_units : (s.withSettings l).units = s.units := rfl
@[simp] theorem State.withSettings_posArg : (s.withSettings l).posArg = s.posArg := rfl
@[simp] theorem State.withSettings_trips : (s.withSettings l).trips = s.trips := rfl
@[simp] theorem State.withSettings_tripRefused : (s.withSettings l).tripRefused = s.tripRefused := rfl
@[simp] theorem State.withSettings_tripArg0 : (s.withSettings l).tripArg0 = s.tripArg0 := rfl
@[simp] theorem State.withSettings_tripArg1 : (s.withSettings l).tripArg1 = s.tripArg1 := rfl
@[simp] theorem State.withSettings_jobArgSrc : (s.withSettings l).jobArgSrc = s.jobArgSrc := rfl
@[simp] theorem State.withSettings_jobArgDst : (s.withSettings l).jobArgDst = s.jobArgDst := rfl
@[simp] theorem State.withSettings_jobArgCount : (s.withSettings l).jobArgCount = s.jobArgCount := rfl
@[simp] theorem State.withSettings_queue : (s.withSettings l).queue = s.queue := rfl
@[simp] theorem State.withSettings_late : (s.withSettings l).late = s.late := rfl
@[simp] theorem State.withSettings_irqEnable : (s.withSettings l).irqEnable = s.irqEnable := rfl
@[simp] theorem State.withSettings_timebase : (s.withSettings l).timebase = s.timebase := rfl
@[simp] theorem State.withSettings_compared : (s.withSettings l).compared = s.compared := rfl
@[simp] theorem State.withSettings_restarted : (s.withSettings l).restarted = s.restarted := rfl
@[simp] theorem State.withSettings_early : (s.withSettings l).early = s.early := rfl
@[simp] theorem State.withSettings_staging : (s.withSettings l).staging = s.staging := rfl
@[simp] theorem State.withSettings_cmdResult : (s.withSettings l).cmdResult = s.cmdResult := rfl
@[simp] theorem State.withSettings_cmdRefused : (s.withSettings l).cmdRefused = s.cmdRefused := rfl
@[simp] theorem State.withSettings_laneSel : (s.withSettings l).laneSel = s.laneSel := rfl
@[simp] theorem State.withSettings_resetLow : (s.withSettings l).resetLow = s.resetLow := rfl
@[simp] theorem State.withSettings_outbox : (s.withSettings l).outbox = s.outbox := rfl
@[simp] theorem State.withSettings_picks : (s.withSettings l).picks = s.picks := rfl
@[simp] theorem State.withSettings_pending : (s.withSettings l).pending = s.pending := rfl
@[simp] theorem State.withSettings_lane (j : LaneId) : (s.withSettings l).lane j = s.lane j := rfl

end

/-! ### pickDone -/

section

@[simp] theorem State.pickDone_table : (s.pickDone).table = s.table := rfl
@[simp] theorem State.pickDone_buffer : (s.pickDone).buffer = s.buffer := rfl
@[simp] theorem State.pickDone_job : (s.pickDone).job = s.job := rfl
@[simp] theorem State.pickDone_lanes : (s.pickDone).lanes = s.lanes := rfl
@[simp] theorem State.pickDone_owners : (s.pickDone).owners = s.owners := rfl
@[simp] theorem State.pickDone_safeLevels : (s.pickDone).safeLevels = s.safeLevels := rfl
@[simp] theorem State.pickDone_driveEnable : (s.pickDone).driveEnable = s.driveEnable := rfl
@[simp] theorem State.pickDone_inputs : (s.pickDone).inputs = s.inputs := rfl
@[simp] theorem State.pickDone_units : (s.pickDone).units = s.units := rfl
@[simp] theorem State.pickDone_posArg : (s.pickDone).posArg = s.posArg := rfl
@[simp] theorem State.pickDone_trips : (s.pickDone).trips = s.trips := rfl
@[simp] theorem State.pickDone_settings : (s.pickDone).settings = s.settings := rfl
@[simp] theorem State.pickDone_tripRefused : (s.pickDone).tripRefused = s.tripRefused := rfl
@[simp] theorem State.pickDone_tripArg0 : (s.pickDone).tripArg0 = s.tripArg0 := rfl
@[simp] theorem State.pickDone_tripArg1 : (s.pickDone).tripArg1 = s.tripArg1 := rfl
@[simp] theorem State.pickDone_jobArgSrc : (s.pickDone).jobArgSrc = s.jobArgSrc := rfl
@[simp] theorem State.pickDone_jobArgDst : (s.pickDone).jobArgDst = s.jobArgDst := rfl
@[simp] theorem State.pickDone_jobArgCount : (s.pickDone).jobArgCount = s.jobArgCount := rfl
@[simp] theorem State.pickDone_queue : (s.pickDone).queue = s.queue := rfl
@[simp] theorem State.pickDone_late : (s.pickDone).late = s.late := rfl
@[simp] theorem State.pickDone_irqEnable : (s.pickDone).irqEnable = s.irqEnable := rfl
@[simp] theorem State.pickDone_timebase : (s.pickDone).timebase = s.timebase := rfl
@[simp] theorem State.pickDone_compared : (s.pickDone).compared = s.compared := rfl
@[simp] theorem State.pickDone_restarted : (s.pickDone).restarted = s.restarted := rfl
@[simp] theorem State.pickDone_early : (s.pickDone).early = s.early := rfl
@[simp] theorem State.pickDone_staging : (s.pickDone).staging = s.staging := rfl
@[simp] theorem State.pickDone_cmdResult : (s.pickDone).cmdResult = s.cmdResult := rfl
@[simp] theorem State.pickDone_cmdRefused : (s.pickDone).cmdRefused = s.cmdRefused := rfl
@[simp] theorem State.pickDone_laneSel : (s.pickDone).laneSel = s.laneSel := rfl
@[simp] theorem State.pickDone_resetLow : (s.pickDone).resetLow = s.resetLow := rfl
@[simp] theorem State.pickDone_outbox : (s.pickDone).outbox = s.outbox := rfl
@[simp] theorem State.pickDone_pending : (s.pickDone).pending = s.pending := rfl
@[simp] theorem State.pickDone_lane (j : LaneId) : (s.pickDone).lane j = s.lane j := rfl

end

/-! ### markCompared -/

section

@[simp] theorem State.markCompared_picks : (s.markCompared).picks = s.picks := rfl
@[simp] theorem State.markCompared_table : (s.markCompared).table = s.table := rfl
@[simp] theorem State.markCompared_buffer : (s.markCompared).buffer = s.buffer := rfl
@[simp] theorem State.markCompared_job : (s.markCompared).job = s.job := rfl
@[simp] theorem State.markCompared_lanes : (s.markCompared).lanes = s.lanes := rfl
@[simp] theorem State.markCompared_owners : (s.markCompared).owners = s.owners := rfl
@[simp] theorem State.markCompared_safeLevels : (s.markCompared).safeLevels = s.safeLevels := rfl
@[simp] theorem State.markCompared_driveEnable : (s.markCompared).driveEnable = s.driveEnable := rfl
@[simp] theorem State.markCompared_inputs : (s.markCompared).inputs = s.inputs := rfl
@[simp] theorem State.markCompared_units : (s.markCompared).units = s.units := rfl
@[simp] theorem State.markCompared_posArg : (s.markCompared).posArg = s.posArg := rfl
@[simp] theorem State.markCompared_trips : (s.markCompared).trips = s.trips := rfl
@[simp] theorem State.markCompared_settings : (s.markCompared).settings = s.settings := rfl
@[simp] theorem State.markCompared_tripRefused : (s.markCompared).tripRefused = s.tripRefused := rfl
@[simp] theorem State.markCompared_tripArg0 : (s.markCompared).tripArg0 = s.tripArg0 := rfl
@[simp] theorem State.markCompared_tripArg1 : (s.markCompared).tripArg1 = s.tripArg1 := rfl
@[simp] theorem State.markCompared_jobArgSrc : (s.markCompared).jobArgSrc = s.jobArgSrc := rfl
@[simp] theorem State.markCompared_jobArgDst : (s.markCompared).jobArgDst = s.jobArgDst := rfl
@[simp] theorem State.markCompared_jobArgCount : (s.markCompared).jobArgCount = s.jobArgCount := rfl
@[simp] theorem State.markCompared_queue : (s.markCompared).queue = s.queue := rfl
@[simp] theorem State.markCompared_late : (s.markCompared).late = s.late := rfl
@[simp] theorem State.markCompared_irqEnable : (s.markCompared).irqEnable = s.irqEnable := rfl
@[simp] theorem State.markCompared_timebase : (s.markCompared).timebase = s.timebase := rfl
@[simp] theorem State.markCompared_restarted : (s.markCompared).restarted = s.restarted := rfl
@[simp] theorem State.markCompared_early : (s.markCompared).early = s.early := rfl
@[simp] theorem State.markCompared_staging : (s.markCompared).staging = s.staging := rfl
@[simp] theorem State.markCompared_cmdResult : (s.markCompared).cmdResult = s.cmdResult := rfl
@[simp] theorem State.markCompared_cmdRefused : (s.markCompared).cmdRefused = s.cmdRefused := rfl
@[simp] theorem State.markCompared_laneSel : (s.markCompared).laneSel = s.laneSel := rfl
@[simp] theorem State.markCompared_resetLow : (s.markCompared).resetLow = s.resetLow := rfl
@[simp] theorem State.markCompared_outbox : (s.markCompared).outbox = s.outbox := rfl
@[simp] theorem State.markCompared_pending : (s.markCompared).pending = s.pending := rfl
@[simp] theorem State.markCompared_lane (j : LaneId) : (s.markCompared).lane j = s.lane j := rfl

end

/-! ### restart -/

section
variable (changed : FilteredPin → Bool)

@[simp] theorem State.restart_table : (s.restart changed).table = s.table := rfl
@[simp] theorem State.restart_buffer : (s.restart changed).buffer = s.buffer := rfl
@[simp] theorem State.restart_job : (s.restart changed).job = s.job := rfl
@[simp] theorem State.restart_lanes : (s.restart changed).lanes = s.lanes := rfl
@[simp] theorem State.restart_owners : (s.restart changed).owners = s.owners := rfl
@[simp] theorem State.restart_safeLevels : (s.restart changed).safeLevels = s.safeLevels := rfl
@[simp] theorem State.restart_driveEnable : (s.restart changed).driveEnable = s.driveEnable := rfl
@[simp] theorem State.restart_inputs : (s.restart changed).inputs = s.inputs := rfl
@[simp] theorem State.restart_units : (s.restart changed).units = s.units := rfl
@[simp] theorem State.restart_posArg : (s.restart changed).posArg = s.posArg := rfl
@[simp] theorem State.restart_trips : (s.restart changed).trips = s.trips := rfl
@[simp] theorem State.restart_settings : (s.restart changed).settings = s.settings := rfl
@[simp] theorem State.restart_tripRefused : (s.restart changed).tripRefused = s.tripRefused := rfl
@[simp] theorem State.restart_tripArg0 : (s.restart changed).tripArg0 = s.tripArg0 := rfl
@[simp] theorem State.restart_tripArg1 : (s.restart changed).tripArg1 = s.tripArg1 := rfl
@[simp] theorem State.restart_jobArgSrc : (s.restart changed).jobArgSrc = s.jobArgSrc := rfl
@[simp] theorem State.restart_jobArgDst : (s.restart changed).jobArgDst = s.jobArgDst := rfl
@[simp] theorem State.restart_jobArgCount : (s.restart changed).jobArgCount = s.jobArgCount := rfl
@[simp] theorem State.restart_queue : (s.restart changed).queue = s.queue := rfl
@[simp] theorem State.restart_late : (s.restart changed).late = s.late := rfl
@[simp] theorem State.restart_irqEnable : (s.restart changed).irqEnable = s.irqEnable := rfl
@[simp] theorem State.restart_timebase : (s.restart changed).timebase = s.timebase := rfl
@[simp] theorem State.restart_compared : (s.restart changed).compared = s.compared := rfl
@[simp] theorem State.restart_staging : (s.restart changed).staging = s.staging := rfl
@[simp] theorem State.restart_cmdResult : (s.restart changed).cmdResult = s.cmdResult := rfl
@[simp] theorem State.restart_cmdRefused : (s.restart changed).cmdRefused = s.cmdRefused := rfl
@[simp] theorem State.restart_laneSel : (s.restart changed).laneSel = s.laneSel := rfl
@[simp] theorem State.restart_resetLow : (s.restart changed).resetLow = s.resetLow := rfl
@[simp] theorem State.restart_outbox : (s.restart changed).outbox = s.outbox := rfl
@[simp] theorem State.restart_picks : (s.restart changed).picks = s.picks := rfl
@[simp] theorem State.restart_early : (s.restart changed).early = s.early := rfl
@[simp] theorem State.restart_pending : (s.restart changed).pending = s.pending := rfl
@[simp] theorem State.restart_lane (j : LaneId) : (s.restart changed).lane j = s.lane j := rfl

end

/-! ### withEarly -/

section
variable (moves : List (FilteredPin × Bool))

@[simp] theorem State.withEarly_table : (s.withEarly moves).table = s.table := rfl
@[simp] theorem State.withEarly_buffer : (s.withEarly moves).buffer = s.buffer := rfl
@[simp] theorem State.withEarly_job : (s.withEarly moves).job = s.job := rfl
@[simp] theorem State.withEarly_lanes : (s.withEarly moves).lanes = s.lanes := rfl
@[simp] theorem State.withEarly_owners : (s.withEarly moves).owners = s.owners := rfl
@[simp] theorem State.withEarly_safeLevels : (s.withEarly moves).safeLevels = s.safeLevels := rfl
@[simp] theorem State.withEarly_driveEnable : (s.withEarly moves).driveEnable = s.driveEnable := rfl
@[simp] theorem State.withEarly_inputs : (s.withEarly moves).inputs = s.inputs := rfl
@[simp] theorem State.withEarly_units : (s.withEarly moves).units = s.units := rfl
@[simp] theorem State.withEarly_posArg : (s.withEarly moves).posArg = s.posArg := rfl
@[simp] theorem State.withEarly_trips : (s.withEarly moves).trips = s.trips := rfl
@[simp] theorem State.withEarly_settings : (s.withEarly moves).settings = s.settings := rfl
@[simp] theorem State.withEarly_tripRefused : (s.withEarly moves).tripRefused = s.tripRefused := rfl
@[simp] theorem State.withEarly_tripArg0 : (s.withEarly moves).tripArg0 = s.tripArg0 := rfl
@[simp] theorem State.withEarly_tripArg1 : (s.withEarly moves).tripArg1 = s.tripArg1 := rfl
@[simp] theorem State.withEarly_jobArgSrc : (s.withEarly moves).jobArgSrc = s.jobArgSrc := rfl
@[simp] theorem State.withEarly_jobArgDst : (s.withEarly moves).jobArgDst = s.jobArgDst := rfl
@[simp] theorem State.withEarly_jobArgCount : (s.withEarly moves).jobArgCount = s.jobArgCount := rfl
@[simp] theorem State.withEarly_queue : (s.withEarly moves).queue = s.queue := rfl
@[simp] theorem State.withEarly_late : (s.withEarly moves).late = s.late := rfl
@[simp] theorem State.withEarly_irqEnable : (s.withEarly moves).irqEnable = s.irqEnable := rfl
@[simp] theorem State.withEarly_timebase : (s.withEarly moves).timebase = s.timebase := rfl
@[simp] theorem State.withEarly_compared : (s.withEarly moves).compared = s.compared := rfl
@[simp] theorem State.withEarly_restarted : (s.withEarly moves).restarted = s.restarted := rfl
@[simp] theorem State.withEarly_staging : (s.withEarly moves).staging = s.staging := rfl
@[simp] theorem State.withEarly_cmdResult : (s.withEarly moves).cmdResult = s.cmdResult := rfl
@[simp] theorem State.withEarly_cmdRefused : (s.withEarly moves).cmdRefused = s.cmdRefused := rfl
@[simp] theorem State.withEarly_laneSel : (s.withEarly moves).laneSel = s.laneSel := rfl
@[simp] theorem State.withEarly_resetLow : (s.withEarly moves).resetLow = s.resetLow := rfl
@[simp] theorem State.withEarly_outbox : (s.withEarly moves).outbox = s.outbox := rfl
@[simp] theorem State.withEarly_picks : (s.withEarly moves).picks = s.picks := rfl
@[simp] theorem State.withEarly_pending : (s.withEarly moves).pending = s.pending := rfl
@[simp] theorem State.withEarly_lane (j : LaneId) : (s.withEarly moves).lane j = s.lane j := rfl

end

/-! ### What they change -/

@[simp] theorem State.markCompared_compared : s.markCompared.compared = true := rfl

@[simp] theorem State.restart_restarted (changed : FilteredPin → Bool) :
    (s.restart changed).restarted = filteredPins.filter fun pin => s.restarted.contains pin || changed pin := rfl

@[simp] theorem State.withEarly_early (moves : List (FilteredPin × Bool)) : (s.withEarly moves).early = moves := rfl

@[simp] theorem State.lane_setLane_self (k : LaneId) (l : Lane) : (s.setLane k l).lane k = l := by
  simp [State.lane, State.setLane]

theorem State.lane_setLane_ne {j k : LaneId} (h : j ≠ k) (l : Lane) : (s.setLane k l).lane j = s.lane j := by
  have : k.val ≠ j.val := fun e => h (Fin.ext e.symm)
  simp [State.lane, State.setLane, this]

@[simp] theorem State.lane_onLane_self (k : LaneId) (f : Lane → Lane) : (s.onLane k f).lane k = f (s.lane k) :=
  s.lane_setLane_self k _

theorem State.lane_onLane_ne {j k : LaneId} (h : j ≠ k) (f : Lane → Lane) : (s.onLane k f).lane j = s.lane j :=
  s.lane_setLane_ne h _

/-- A lane after one lane was changed. -/
theorem State.lane_onLane (j k : LaneId) (f : Lane → Lane) :
    (s.onLane k f).lane j = if j = k then f (s.lane k) else s.lane j := by
  by_cases h : j = k
  · subst h; simp
  · simp [h, s.lane_onLane_ne h f]

@[simp] theorem State.lane_onLanes (f : LaneId → Lane → Lane) (k : LaneId) :
    (s.onLanes f).lane k = f k (s.lane k) := by
  simp [State.lane, State.onLanes]

@[simp] theorem State.raise_queue (b : NoticeBody) :
    (s.raise b).queue = Queue.arrive s.queue b s.timebase.counter := rfl

@[simp] theorem State.emitFrom_outbox (k : LaneId) : (s.emitFrom k).outbox = s.outbox ++ [k] := rfl

@[simp] theorem State.withOutbox_outbox (l : List LaneId) : (s.withOutbox l).outbox = l := rfl

@[simp] theorem State.withOutbox_withOutbox (l m : List LaneId) : (s.withOutbox l).withOutbox m = s.withOutbox m := rfl

@[simp] theorem State.withSettings_settings (l : List Setting) : (s.withSettings l).settings = l := rfl

@[simp] theorem State.report_cmdResult (r : Result) : (s.report r).cmdResult = r := rfl

@[simp] theorem State.onTrip_self (n : SourceId) (f : TripSource → TripSource) :
    (s.onTrip n f).trips[n.val] = f s.trips[n.val] := by simp [State.onTrip]

@[simp] theorem State.onUnit_self (u : UnitId) (f : PositionUnit → PositionUnit) :
    (s.onUnit u f).units[u.val] = f s.units[u.val] := by simp [State.onUnit]

/-- Two states with the same lanes and the same other fields are equal lane by lane. -/
theorem State.lanes_ext {t : State} (h : ∀ k, t.lane k = s.lane k) : t.lanes = s.lanes := by
  apply Vector.ext
  intro i hi
  exact h ⟨i, hi⟩

/-! ### Lane.withComing, Lane.forget, Lane.bridge -/

section
variable (l : Lane) (es : List Event) (line : Option (Fin 32))

@[simp] theorem Lane.withComing_descriptor : (l.withComing es).descriptor = l.descriptor := rfl
@[simp] theorem Lane.forget_descriptor : (l.forget).descriptor = l.descriptor := rfl
@[simp] theorem Lane.bridge_descriptor : (l.bridge line).descriptor = l.descriptor := rfl
@[simp] theorem Lane.withComing_state : (l.withComing es).state = l.state := rfl
@[simp] theorem Lane.forget_state : (l.forget).state = l.state := rfl
@[simp] theorem Lane.bridge_state : (l.bridge line).state = l.state := rfl
@[simp] theorem Lane.withComing_active : (l.withComing es).active = l.active := rfl
@[simp] theorem Lane.forget_active : (l.forget).active = l.active := rfl
@[simp] theorem Lane.bridge_active : (l.bridge line).active = l.active := rfl
@[simp] theorem Lane.withComing_copy : (l.withComing es).copy = l.copy := rfl
@[simp] theorem Lane.forget_copy : (l.forget).copy = l.copy := rfl
@[simp] theorem Lane.bridge_copy : (l.bridge line).copy = l.copy := rfl
@[simp] theorem Lane.withComing_pattern : (l.withComing es).pattern = l.pattern := rfl
@[simp] theorem Lane.forget_pattern : (l.forget).pattern = l.pattern := rfl
@[simp] theorem Lane.bridge_pattern : (l.bridge line).pattern = l.pattern := rfl
@[simp] theorem Lane.withComing_dwell : (l.withComing es).dwell = l.dwell := rfl
@[simp] theorem Lane.forget_dwell : (l.forget).dwell = l.dwell := rfl
@[simp] theorem Lane.bridge_dwell : (l.bridge line).dwell = l.dwell := rfl
@[simp] theorem Lane.withComing_limit : (l.withComing es).limit = l.limit := rfl
@[simp] theorem Lane.forget_limit : (l.forget).limit = l.limit := rfl
@[simp] theorem Lane.bridge_limit : (l.bridge line).limit = l.limit := rfl
@[simp] theorem Lane.withComing_latch : (l.withComing es).latch = l.latch := rfl
@[simp] theorem Lane.forget_latch : (l.forget).latch = l.latch := rfl
@[simp] theorem Lane.bridge_latch : (l.bridge line).latch = l.latch := rfl
@[simp] theorem Lane.withComing_edges : (l.withComing es).edges = l.edges := rfl
@[simp] theorem Lane.forget_edges : (l.forget).edges = l.edges := rfl
@[simp] theorem Lane.bridge_edges : (l.bridge line).edges = l.edges := rfl
@[simp] theorem Lane.withComing_cycles : (l.withComing es).cycles = l.cycles := rfl
@[simp] theorem Lane.forget_cycles : (l.forget).cycles = l.cycles := rfl
@[simp] theorem Lane.bridge_cycles : (l.bridge line).cycles = l.cycles := rfl
@[simp] theorem Lane.withComing_stack : (l.withComing es).stack = l.stack := rfl
@[simp] theorem Lane.forget_stack : (l.forget).stack = l.stack := rfl
@[simp] theorem Lane.bridge_stack : (l.bridge line).stack = l.stack := rfl
@[simp] theorem Lane.withComing_swap : (l.withComing es).swap = l.swap := rfl
@[simp] theorem Lane.forget_swap : (l.forget).swap = l.swap := rfl
@[simp] theorem Lane.bridge_swap : (l.bridge line).swap = l.swap := rfl
@[simp] theorem Lane.withComing_pulse : (l.withComing es).pulse = l.pulse := rfl
@[simp] theorem Lane.forget_pulse : (l.forget).pulse = l.pulse := rfl
@[simp] theorem Lane.bridge_pulse : (l.bridge line).pulse = l.pulse := rfl
@[simp] theorem Lane.withComing_faultCause : (l.withComing es).faultCause = l.faultCause := rfl
@[simp] theorem Lane.forget_faultCause : (l.forget).faultCause = l.faultCause := rfl
@[simp] theorem Lane.bridge_faultCause : (l.bridge line).faultCause = l.faultCause := rfl
@[simp] theorem Lane.withComing_prior : (l.withComing es).prior = l.prior := rfl
@[simp] theorem Lane.forget_prior : (l.forget).prior = l.prior := rfl
@[simp] theorem Lane.bridge_prior : (l.bridge line).prior = l.prior := rfl
@[simp] theorem Lane.withComing_lastResult : (l.withComing es).lastResult = l.lastResult := rfl
@[simp] theorem Lane.forget_lastResult : (l.forget).lastResult = l.lastResult := rfl
@[simp] theorem Lane.bridge_lastResult : (l.bridge line).lastResult = l.lastResult := rfl
@[simp] theorem Lane.withComing_entry : (l.withComing es).entry = l.entry := rfl
@[simp] theorem Lane.forget_entry : (l.forget).entry = l.entry := rfl
@[simp] theorem Lane.withComing_kept : (l.withComing es).kept = l.kept := rfl
@[simp] theorem Lane.forget_kept : (l.forget).kept = l.kept := rfl
@[simp] theorem Lane.bridge_kept : (l.bridge line).kept = l.kept := rfl
@[simp] theorem Lane.bridge_coming : (l.bridge line).coming = l.coming := rfl
@[simp] theorem Lane.withComing_coming : (l.withComing es).coming = es := rfl
@[simp] theorem Lane.forget_coming : (l.forget).coming = l.coming.filter fun e => !e.passing := rfl

end

end Sys2Proof.Machine
end

