-- ==== Sys2Proof/Laws/Notices.lean ====
section
/-! SUPPORT. What the operations by which notices reach the queue do: arrivals one after another, the notices that a sender has
on their way, and that nothing else of the state changes (R170, R172). -/

namespace Sys2Proof.Machine

/-! ## Several arrivals -/

theorem Queue.arriveAll_cons (q : List Notice) (b : NoticeBody) (bs : List NoticeBody) (stamp : Word) :
    Queue.arriveAll q (b :: bs) stamp = Queue.arriveAll (Queue.arrive q b stamp) bs stamp := rfl

@[simp] theorem Queue.arriveAll_nil (q : List Notice) (stamp : Word) : Queue.arriveAll q [] stamp = q := rfl

theorem Queue.arriveAll_append (q : List Notice) (bs cs : List NoticeBody) (stamp : Word) :
    Queue.arriveAll q (bs ++ cs) stamp = Queue.arriveAll (Queue.arriveAll q bs stamp) cs stamp := List.foldl_append

section
variable {s : State} {x y : Sender}

/-! ## The notices on their way -/

theorem State.lateOf_arriveFrom : (s.arriveFrom x).lateOf x = [] := by
  simp [State.lateOf, State.arriveFrom, List.filter_filter]

theorem State.late_of_lateOf_nil (h : s.lateOf x = []) : (s.late.filter fun n => n.1 ≠ x) = s.late := by
  simp only [State.lateOf, List.map_eq_nil_iff, List.filter_eq_nil_iff, decide_eq_true_eq] at h
  exact List.filter_eq_self.2 fun n hn => by simpa using h n hn

/-- A sender with nothing on its way changes nothing when it arrives. -/
theorem State.arriveFrom_of_nil (h : s.lateOf x = []) : s.arriveFrom x = s := by
  simp only [State.arriveFrom, h, Queue.arriveAll_nil, State.late_of_lateOf_nil h]

theorem State.lateOf_eq_nil_of_late_nil (h : s.late = []) : s.lateOf x = [] := by simp [State.lateOf, h]

/-- Nothing is on its way where no sender has anything on its way. -/
theorem State.late_nil_of_lateOf (h : ∀ x, s.lateOf x = []) : s.late = [] := by
  rw [List.eq_nil_iff_forall_not_mem]
  intro n hn
  have := h n.1
  simp only [State.lateOf, List.map_eq_nil_iff, List.filter_eq_nil_iff, decide_eq_true_eq] at this
  exact this n hn rfl

/-! ## Raising -/

theorem State.raiseAll_cons (b : NoticeBody) (bs : List NoticeBody) :
    s.raiseAll x (b :: bs) = (s.raiseFrom x b).raiseAll x bs := rfl

@[simp] theorem State.raiseAll_nil : s.raiseAll x [] = s := rfl

@[simp] theorem State.raiseApart_nil : s.raiseApart x [] = s := rfl

theorem State.raiseAll_single (b : NoticeBody) : s.raiseAll x [b] = s.raiseFrom x b := rfl

@[simp] theorem State.send_nil : s.send x [] = s := by simp [State.send, State.withNotices]

theorem State.lateOf_send (bs : List NoticeBody) : (s.send x bs).lateOf x = s.lateOf x ++ bs := by
  have h : ∀ l : List NoticeBody, ((l.map fun b => (x, b)).filter fun n => n.1 = x).map Prod.snd = l := by
    intro l
    rw [List.filter_eq_self.2 (by simp)]
    simp
  simp only [State.lateOf, State.send, State.withNotices, List.filter_append, List.map_append, h]

/-- A single notice leaves none on its way. -/
theorem State.raiseApart_single (b : NoticeBody) : s.raiseApart x [b] = s.raiseFrom x b := State.send_nil

theorem State.lateOf_raiseFrom (b : NoticeBody) : (s.raiseFrom x b).lateOf x = [] := State.lateOf_arriveFrom

/-- Notices raised together are stored in order, behind those that their sender has on their way. -/
theorem State.raiseAll_eq {bs : List NoticeBody} (h : bs ≠ []) :
    s.raiseAll x bs = { s with
      queue := Queue.arriveAll s.queue (s.lateOf x ++ bs) s.timebase.counter
      late := s.late.filter fun n => n.1 ≠ x } := by
  induction bs generalizing s with
  | nil => exact absurd rfl h
  | cons b bs ih =>
    rw [State.raiseAll_cons]
    cases bs with
    | nil =>
      rw [Queue.arriveAll_append]
      rfl
    | cons c cs =>
      rw [ih (List.cons_ne_nil c cs), State.lateOf_raiseFrom, List.nil_append, Queue.arriveAll_append]
      simp only [State.raiseFrom, State.raise, State.arriveFrom, List.filter_filter, Bool.and_self]
      rfl

/-- Of notices raised apart the first is stored, behind those that their sender has on their way, and the others are on their
way behind it. -/
theorem State.raiseApart_eq (b : NoticeBody) (bs : List NoticeBody) :
    s.raiseApart x (b :: bs) = { s with
      queue := Queue.arriveAll s.queue (s.lateOf x ++ [b]) s.timebase.counter
      late := (s.late.filter fun n => n.1 ≠ x) ++ bs.map fun body => (x, body) } := by
  rw [Queue.arriveAll_append]
  rfl

/-- No TRIP notice waits where no lane has a notice on its way. -/
theorem State.tripWaits_of_lanes (h : ∀ k, s.lateOf (.lane k) = []) (b : NoticeBody) : s.tripWaits b = false := by
  cases b <;> simp [State.tripWaits, h]

/-- A TRIP notice waits exactly while a notice that a lane it names raised within an entry is on its way (R147). -/
theorem State.tripWaits_trip (n : SourceId) (moved : LaneMask) :
    s.tripWaits (.trip n moved) = true ↔
      ∃ k, moved.getLsbD k.val = true ∧ ∃ b ∈ s.lateOf (.lane k), b.ofEntry = true := by
  simp [State.tripWaits]

/-- Where nothing is on its way, TRIP notices are raised as the notices of any sender. -/
theorem State.raiseTripNotices_of_late_nil (h : s.late = []) (bs : List NoticeBody) :
    s.raiseTripNotices bs = s.raiseApart .tripUnit bs := by
  have := State.tripWaits_of_lanes fun k => State.lateOf_eq_nil_of_late_nil (x := .lane k) h
  simp [State.raiseTripNotices, this]

/-- The arrival of a sender's oldest notice: it is stored, the sender's others are on their way as before, and so are those of
every other sender. -/
theorem State.arriveNext_of_cons {b : NoticeBody} {bs : List NoticeBody} (h : s.lateOf x = b :: bs) :
    ∃ late, s.arriveNext x = ({ s with late := late } : State).raise b ∧
      ({ s with late := late } : State).lateOf x = bs ∧ ∀ y, y ≠ x → ({ s with late := late } : State).lateOf y = s.lateOf y := by
  have key : ∀ l : List (Sender × NoticeBody), (l.filter fun n => n.1 = x).map Prod.snd = b :: bs →
      l.find? (fun n => n.1 = x) = some (x, b) ∧
      ((l.erase (x, b)).filter fun n => n.1 = x).map Prod.snd = bs ∧
      ∀ y, y ≠ x → ((l.erase (x, b)).filter fun n => n.1 = y) = l.filter fun n => n.1 = y := by
    intro l
    induction l with
    | nil => intro h; cases h
    | cons n l ih =>
      intro h
      by_cases hn : n.1 = x
      · simp only [List.filter_cons, hn, decide_true, if_true, List.map_cons, List.cons.injEq] at h
        have hb : n = (x, b) := Prod.ext hn h.1
        subst hb
        refine ⟨by simp, by simpa using h.2, fun y hy => ?_⟩
        simp [Ne.symm hy]
      · simp only [List.filter_cons, hn, decide_false, Bool.false_eq_true, if_false] at h
        obtain ⟨h1, h2, h3⟩ := ih h
        have hne : (n == (x, b)) = false := by
          rw [beq_eq_false_iff_ne]
          rintro rfl
          exact hn rfl
        refine ⟨by simp [hn, h1], ?_, fun y hy => ?_⟩
        · rw [List.erase_cons, hne]
          simpa [hn] using h2
        · rw [List.erase_cons, hne]
          simp only [Bool.false_eq_true, if_false, List.filter_cons, h3 y hy]
  obtain ⟨h1, h2, h3⟩ := key s.late h
  exact ⟨s.late.erase (x, b), by simp [State.arriveNext, h1], h2, fun y hy => by simp only [State.lateOf, h3 y hy]⟩

/-- A sender with nothing on its way has no notice that arrives. -/
theorem State.arriveNext_of_nil (h : s.lateOf x = []) : s.arriveNext x = s := by
  have : s.late.find? (fun n => n.1 = x) = none := by
    simpa [State.lateOf, List.filter_eq_nil_iff] using h
  simp [State.arriveNext, this]

end

/-! ## What these operations leave as it was -/

section
variable (s : State) (x : Sender)

theorem State.raiseAll_frame (bs : List NoticeBody) :
    s.raiseAll x bs = { s with queue := (s.raiseAll x bs).queue, late := (s.raiseAll x bs).late } := by
  cases bs with
  | nil => rfl
  | cons b bs => rw [State.raiseAll_eq (List.cons_ne_nil b bs)]

theorem State.raiseApart_frame (bs : List NoticeBody) :
    s.raiseApart x bs = { s with queue := (s.raiseApart x bs).queue, late := (s.raiseApart x bs).late } := by
  cases bs <;> rfl

theorem State.raiseTripNotices_frame (bs : List NoticeBody) :
    s.raiseTripNotices bs = { s with queue := (s.raiseTripNotices bs).queue, late := (s.raiseTripNotices bs).late } := by
  unfold State.raiseTripNotices
  split
  · rfl
  · exact s.raiseApart_frame .tripUnit bs

theorem State.arriveNext_frame :
    s.arriveNext x = { s with queue := (s.arriveNext x).queue, late := (s.arriveNext x).late } := by
  unfold State.arriveNext
  split <;> rfl

@[simp] theorem State.raiseAll_lane (bs : List NoticeBody) (k : LaneId) : (s.raiseAll x bs).lane k = s.lane k := by
  rw [State.raiseAll_frame]; rfl

@[simp] theorem State.raiseAll_outbox (bs : List NoticeBody) : (s.raiseAll x bs).outbox = s.outbox := by
  rw [State.raiseAll_frame]

@[simp] theorem State.raiseAll_inputs (bs : List NoticeBody) : (s.raiseAll x bs).inputs = s.inputs := by
  rw [State.raiseAll_frame]

@[simp] theorem State.raiseApart_lane (bs : List NoticeBody) (k : LaneId) : (s.raiseApart x bs).lane k = s.lane k := by
  rw [State.raiseApart_frame]; rfl

@[simp] theorem State.raiseApart_outbox (bs : List NoticeBody) : (s.raiseApart x bs).outbox = s.outbox := by
  rw [State.raiseApart_frame]

@[simp] theorem State.raiseTripNotices_lane (bs : List NoticeBody) (k : LaneId) :
    (s.raiseTripNotices bs).lane k = s.lane k := by
  rw [State.raiseTripNotices_frame]; rfl

@[simp] theorem State.raiseTripNotices_outbox (bs : List NoticeBody) : (s.raiseTripNotices bs).outbox = s.outbox := by
  rw [State.raiseTripNotices_frame]

@[simp] theorem State.arriveNext_lane (k : LaneId) : (s.arriveNext x).lane k = s.lane k := by
  rw [State.arriveNext_frame]; rfl

@[simp] theorem State.arriveNext_outbox : (s.arriveNext x).outbox = s.outbox := by
  rw [State.arriveNext_frame]

end
end Sys2Proof.Machine
end

