-- ==== Sys2Proof/Laws/Frame.lean ====
section
/-! SUPPORT. What the lanes' walk never touches: every function by which events reach lanes and lanes walk changes only
lanes, the notice queue and the notices on their way, the latch settings in progress, the outbox and the counter of free choices. -/

namespace Sys2Proof.Machine

/-- The state without what the lanes' walk can change. -/
def State.sansWalk (s : State) : State :=
  { s with lanes := State.reset.lanes, queue := [], late := [], settings := [], outbox := [], picks := 0 }

/-- The two states agree in all that the lanes' walk cannot change. -/
abbrev SameBlocks (t s : State) : Prop := t.sansWalk = s.sansWalk

section
variable {s t : State}

theorem SameBlocks.table (h : SameBlocks t s) : t.table = s.table :=
  show t.sansWalk.table = s.sansWalk.table by rw [h]
theorem SameBlocks.buffer (h : SameBlocks t s) : t.buffer = s.buffer :=
  show t.sansWalk.buffer = s.sansWalk.buffer by rw [h]
theorem SameBlocks.job (h : SameBlocks t s) : t.job = s.job :=
  show t.sansWalk.job = s.sansWalk.job by rw [h]
theorem SameBlocks.owners (h : SameBlocks t s) : t.owners = s.owners :=
  show t.sansWalk.owners = s.sansWalk.owners by rw [h]
theorem SameBlocks.safeLevels (h : SameBlocks t s) : t.safeLevels = s.safeLevels :=
  show t.sansWalk.safeLevels = s.sansWalk.safeLevels by rw [h]
theorem SameBlocks.driveEnable (h : SameBlocks t s) : t.driveEnable = s.driveEnable :=
  show t.sansWalk.driveEnable = s.sansWalk.driveEnable by rw [h]
theorem SameBlocks.inputs (h : SameBlocks t s) : t.inputs = s.inputs :=
  show t.sansWalk.inputs = s.sansWalk.inputs by rw [h]
theorem SameBlocks.units (h : SameBlocks t s) : t.units = s.units :=
  show t.sansWalk.units = s.sansWalk.units by rw [h]
theorem SameBlocks.posArg (h : SameBlocks t s) : t.posArg = s.posArg :=
  show t.sansWalk.posArg = s.sansWalk.posArg by rw [h]
theorem SameBlocks.trips (h : SameBlocks t s) : t.trips = s.trips :=
  show t.sansWalk.trips = s.sansWalk.trips by rw [h]
theorem SameBlocks.tripRefused (h : SameBlocks t s) : t.tripRefused = s.tripRefused :=
  show t.sansWalk.tripRefused = s.sansWalk.tripRefused by rw [h]
theorem SameBlocks.tripArg0 (h : SameBlocks t s) : t.tripArg0 = s.tripArg0 :=
  show t.sansWalk.tripArg0 = s.sansWalk.tripArg0 by rw [h]
theorem SameBlocks.tripArg1 (h : SameBlocks t s) : t.tripArg1 = s.tripArg1 :=
  show t.sansWalk.tripArg1 = s.sansWalk.tripArg1 by rw [h]
theorem SameBlocks.jobArgSrc (h : SameBlocks t s) : t.jobArgSrc = s.jobArgSrc :=
  show t.sansWalk.jobArgSrc = s.sansWalk.jobArgSrc by rw [h]
theorem SameBlocks.jobArgDst (h : SameBlocks t s) : t.jobArgDst = s.jobArgDst :=
  show t.sansWalk.jobArgDst = s.sansWalk.jobArgDst by rw [h]
theorem SameBlocks.jobArgCount (h : SameBlocks t s) : t.jobArgCount = s.jobArgCount :=
  show t.sansWalk.jobArgCount = s.sansWalk.jobArgCount by rw [h]
theorem SameBlocks.irqEnable (h : SameBlocks t s) : t.irqEnable = s.irqEnable :=
  show t.sansWalk.irqEnable = s.sansWalk.irqEnable by rw [h]
theorem SameBlocks.timebase (h : SameBlocks t s) : t.timebase = s.timebase :=
  show t.sansWalk.timebase = s.sansWalk.timebase by rw [h]
theorem SameBlocks.staging (h : SameBlocks t s) : t.staging = s.staging :=
  show t.sansWalk.staging = s.sansWalk.staging by rw [h]
theorem SameBlocks.cmdResult (h : SameBlocks t s) : t.cmdResult = s.cmdResult :=
  show t.sansWalk.cmdResult = s.sansWalk.cmdResult by rw [h]
theorem SameBlocks.cmdRefused (h : SameBlocks t s) : t.cmdRefused = s.cmdRefused :=
  show t.sansWalk.cmdRefused = s.sansWalk.cmdRefused by rw [h]
theorem SameBlocks.laneSel (h : SameBlocks t s) : t.laneSel = s.laneSel :=
  show t.sansWalk.laneSel = s.sansWalk.laneSel by rw [h]
theorem SameBlocks.resetLow (h : SameBlocks t s) : t.resetLow = s.resetLow :=
  show t.sansWalk.resetLow = s.sansWalk.resetLow by rw [h]
theorem SameBlocks.pending (h : SameBlocks t s) : t.pending = s.pending :=
  show t.sansWalk.pending = s.sansWalk.pending by rw [h]

end

section
variable (s : State)

@[simp] theorem sansWalk_onLane (k : LaneId) (f : Lane → Lane) : (s.onLane k f).sansWalk = s.sansWalk := rfl
@[simp] theorem sansWalk_onLanes (f : LaneId → Lane → Lane) : (s.onLanes f).sansWalk = s.sansWalk := rfl
@[simp] theorem sansWalk_raise (b : NoticeBody) : (s.raise b).sansWalk = s.sansWalk := rfl
@[simp] theorem sansWalk_emitFrom (k : LaneId) : (s.emitFrom k).sansWalk = s.sansWalk := rfl
@[simp] theorem sansWalk_raiseFrom (x : Sender) (b : NoticeBody) : (s.raiseFrom x b).sansWalk = s.sansWalk := rfl
@[simp] theorem sansWalk_arriveFrom (x : Sender) : (s.arriveFrom x).sansWalk = s.sansWalk := rfl
@[simp] theorem sansWalk_withNotices (q : List Notice) (l : List (Sender × NoticeBody)) :
    (s.withNotices q l).sansWalk = s.sansWalk := rfl
@[simp] theorem sansWalk_send (x : Sender) (bs : List NoticeBody) : (s.send x bs).sansWalk = s.sansWalk := rfl
theorem sansWalk_withheld {act : State → State} (h : ∀ t, (act t).sansWalk = t.sansWalk) :
    (withheld act s).1.sansWalk = s.sansWalk := h (s.withNotices [] [])
@[simp] theorem sansWalk_raiseAll (x : Sender) (bs : List NoticeBody) : (s.raiseAll x bs).sansWalk = s.sansWalk := by
  rw [State.raiseAll_frame]; rfl
@[simp] theorem sansWalk_raiseApart (x : Sender) (bs : List NoticeBody) : (s.raiseApart x bs).sansWalk = s.sansWalk := by
  rw [State.raiseApart_frame]; rfl
@[simp] theorem sansWalk_raiseTripNotices (bs : List NoticeBody) : (s.raiseTripNotices bs).sansWalk = s.sansWalk := by
  rw [State.raiseTripNotices_frame]; rfl
@[simp] theorem sansWalk_arriveNext (x : Sender) : (s.arriveNext x).sansWalk = s.sansWalk := by
  rw [State.arriveNext_frame]; rfl
@[simp] theorem sansWalk_raiseWhen (c : Bool) (k : LaneId) (b : NoticeBody) :
    (s.raiseWhen c k b).sansWalk = s.sansWalk := by
  unfold State.raiseWhen; split <;> simp
@[simp] theorem sansWalk_emitWhen (c : Bool) (k : LaneId) : (s.emitWhen c k).sansWalk = s.sansWalk := by
  unfold State.emitWhen; split <;> simp
@[simp] theorem sansWalk_withSettings (l : List Setting) : (s.withSettings l).sansWalk = s.sansWalk := rfl
@[simp] theorem sansWalk_withOutbox (l : List LaneId) : (s.withOutbox l).sansWalk = s.sansWalk := rfl
@[simp] theorem sansWalk_pickDone : s.pickDone.sansWalk = s.sansWalk := rfl

/-! ## One lane's acts -/

@[simp] theorem sansWalk_requestEntry (k : LaneId) (full : Bool) (o : Nat) (c : EntryCause) :
    (requestEntry k full o c s).sansWalk = s.sansWalk := rfl

@[simp] theorem sansWalk_installSwap (k : LaneId) (d : Descriptor) (o : SwapOccasion) :
    (installSwap k d o s).sansWalk = s.sansWalk := rfl

@[simp] theorem sansWalk_applySwap (k : LaneId) (d : Descriptor) (o : SwapOccasion) :
    (applySwap k d o s).sansWalk = s.sansWalk := rfl

@[simp] theorem sansWalk_enter (k : LaneId) (full : Bool) (o : Nat) (c : EntryCause) :
    (enter k full o c s).sansWalk = s.sansWalk := by
  unfold enter; split
  · split <;> simp
  · simp

@[simp] theorem sansWalk_startEvent (k : LaneId) : (startEvent k s).sansWalk = s.sansWalk := by
  unfold startEvent; split <;> simp

@[simp] theorem sansWalk_faultEntry (k : LaneId) (c : FaultCause) : (faultEntry k c s).sansWalk = s.sansWalk := by
  simp [faultEntry]

@[simp] theorem sansWalk_entryFault (k : LaneId) (c : FaultCause) : (entryFault k c s).sansWalk = s.sansWalk := by
  simp [entryFault]

@[simp] theorem sansWalk_commit (k : LaneId) (c : EntryCause) (r : Record) :
    (commit k c r s).sansWalk = s.sansWalk := by
  simp [commit]

@[simp] theorem sansWalk_completeEntry (k : LaneId) (e : Entry) (r : Record) :
    (completeEntry k e r s).sansWalk = s.sansWalk := by
  simp only [completeEntry, pushFrame]; split
  · simp
  · split
    · split <;> simp
    · simp

@[simp] theorem sansWalk_serveFetch (k : LaneId) : (serveFetch k s).sansWalk = s.sansWalk := by
  unfold serveFetch; split <;> simp

@[simp] theorem sansWalk_passEnd (k : LaneId) (o : EndOutcome) : (passEnd k o s).sansWalk = s.sansWalk := by
  simp [passEnd]

@[simp] theorem sansWalk_endOfRange (k : LaneId) (b : Bool) : (endOfRange k b s).sansWalk = s.sansWalk := by
  simp only [endOfRange]
  split
  · simp
  · split
    · simp
    · split <;> simp

@[simp] theorem sansWalk_goToNext (k : LaneId) (b : Bool) : (goToNext k b s).sansWalk = s.sansWalk := by
  simp only [goToNext]; split <;> simp

@[simp] theorem sansWalk_leave (k : LaneId) (b : Bool) : (leave k b s).sansWalk = s.sansWalk := by
  simp only [leave]
  split
  · rfl
  · split
    · split
      · simp
      · split <;> simp
    · simp

@[simp] theorem sansWalk_faultAction (k : LaneId) : (faultAction k s).sansWalk = s.sansWalk := by
  simp only [faultAction]
  split
  · rfl
  · split <;> simp

@[simp] theorem sansWalk_advanceIfMet (k : LaneId) : (advanceIfMet k s).sansWalk = s.sansWalk := by
  simp only [advanceIfMet]; split <;> simp

@[simp] theorem sansWalk_judgeTick (k : LaneId) (n : Nat) (m : Option Nat) :
    (judgeTick k n m s).sansWalk = s.sansWalk := by
  unfold judgeTick
  split
  · simp
  · split <;> simp

@[simp] theorem sansWalk_takeTick (k : LaneId) : (takeTick k s).sansWalk = s.sansWalk := by
  simp only [takeTick]
  split
  · simp
  · simp
  all_goals rfl

@[simp] theorem sansWalk_followTaking (k : LaneId) (e : Event) : (followTaking k e s).sansWalk = s.sansWalk := rfl

@[simp] theorem sansWalk_takeEdge (k : LaneId) (n : InputId) (e : Sense) : (takeEdge k n e s).sansWalk = s.sansWalk := by
  simp only [takeEdge]
  split
  · split <;> simp
  · split
    · simp
    · split <;> simp

@[simp] theorem sansWalk_takeArrival (k : LaneId) (u : UnitId) (v : Word) (d : Direction) :
    (takeArrival k u v d s).sansWalk = s.sansWalk := by
  simp only [takeArrival]; split <;> simp

@[simp] theorem sansWalk_takeEmission (k line : LaneId) : (takeEmission k line s).sansWalk = s.sansWalk := by
  simp only [takeEmission]
  split
  · split <;> simp
  · split <;> simp

@[simp] theorem sansWalk_raiseTrips (l : List Setting) : (raiseTrips l s).sansWalk = s.sansWalk := by
  simp [raiseTrips]

@[simp] theorem sansWalk_takeForcing (k : LaneId) (n : SourceId) : (takeForcing k n s).sansWalk = s.sansWalk := by
  simp [takeForcing, forceLane]

@[simp] theorem sansWalk_reachForcing (n : SourceId) (k : LaneId) : (reachForcing n k s).sansWalk = s.sansWalk := by
  unfold reachForcing
  split <;> simp [forceLane]

@[simp] theorem sansWalk_takeEvent (k : LaneId) (e : Event) : (takeEvent k e s).sansWalk = s.sansWalk := by
  cases e <;> simp [takeEvent]

/-! ## Handing out and settling -/

@[simp] theorem sansWalk_handToAll (e : Event) : (handToAll e s).sansWalk = s.sansWalk := rfl

theorem sansWalk_foldl {α : Type} (f : State → α → State) (hf : ∀ s a, (f s a).sansWalk = s.sansWalk) (l : List α) :
    (l.foldl f s).sansWalk = s.sansWalk := by
  induction l generalizing s with
  | nil => rfl
  | cons a rest ih => simp [ih, hf]

@[simp] theorem sansWalk_handLines (lines : List LaneId) : (handLines lines s).sansWalk = s.sansWalk :=
  sansWalk_foldl _ _ (fun _ _ => sansWalk_handToAll _ _) _

@[simp] theorem sansWalk_handOut : (handOut s).sansWalk = s.sansWalk := by simp [handOut]

@[simp] theorem sansWalk_reach (k : LaneId) (e : Event) : (reach k e s).sansWalk = s.sansWalk := by
  unfold reach; split <;> simp

@[simp] theorem sansWalk_takeNext (k : LaneId) (e : Event) : (takeNext k e s).sansWalk = s.sansWalk := by
  simp only [takeNext]; split <;> split <;> simp

@[simp] theorem sansWalk_deliver (k : LaneId) (e : Event) : (deliver k e s).sansWalk = s.sansWalk := by
  simp [deliver]

@[simp] theorem sansWalk_takeTickApart (k : LaneId) : (takeTickApart k s).sansWalk = s.sansWalk :=
  (sansWalk_raiseApart _ _ _).trans (sansWalk_withheld s fun t => sansWalk_takeNext t k .tick)

@[simp] theorem sansWalk_doWork (w : Work) : (doWork s w).sansWalk = s.sansWalk := by
  unfold doWork
  split <;> simp

@[simp] theorem sansWalk_serveLeader (k : LaneId) : (serveLeader k s).sansWalk = s.sansWalk := by
  unfold serveLeader; split <;> simp

@[simp] theorem sansWalk_serveInTurn (k : LaneId) : (serveInTurn k s).sansWalk = s.sansWalk := by
  rw [serveInTurn, sansWalk_serveFetch, sansWalk_foldl _ _ (by simp)]

@[simp] theorem sansWalk_completeLane (k : LaneId) : (completeLane k s).sansWalk = s.sansWalk := by
  unfold completeLane
  rw [sansWalk_foldl _ _ (by simp)]
  simp

@[simp] theorem sansWalk_completeLanes (mask : LaneMask) : (completeLanes mask s).sansWalk = s.sansWalk := by
  unfold completeLanes
  refine sansWalk_foldl _ _ (fun s k => ?_) _
  split <;> simp

@[simp] theorem sansWalk_choose {α : Type} (a : α) (l : List α) : (choose a l s).2.sansWalk = s.sansWalk := by
  unfold choose; split <;> simp

end

/-! ## What goes on beside a host write -/

/-- The state without what can change beside a host write: the lanes' walk, the table job, the filtered pins and what counts
core clock periods, and the trip latches. -/
def State.sansChain (s : State) : State :=
  { s.sansWalk with
    table := []
    job := .powerOnClear
    inputs := State.reset.inputs
    units := State.reset.units
    trips := State.reset.trips
    timebase := State.reset.timebase
    compared := false
    restarted := []
    early := [] }

/-- The two states agree in all that cannot change beside a host write. -/
abbrev SameOutside (t s : State) : Prop := t.sansChain = s.sansChain

theorem SameBlocks.outside {s t : State} (h : SameBlocks t s) : SameOutside t s := by
  simp only [SameOutside, State.sansChain, show t.sansWalk = s.sansWalk from h]

section
variable {s t : State}

theorem SameOutside.buffer (h : SameOutside t s) : t.buffer = s.buffer :=
  show t.sansChain.buffer = s.sansChain.buffer by rw [h]
theorem SameOutside.owners (h : SameOutside t s) : t.owners = s.owners :=
  show t.sansChain.owners = s.sansChain.owners by rw [h]
theorem SameOutside.safeLevels (h : SameOutside t s) : t.safeLevels = s.safeLevels :=
  show t.sansChain.safeLevels = s.sansChain.safeLevels by rw [h]
theorem SameOutside.driveEnable (h : SameOutside t s) : t.driveEnable = s.driveEnable :=
  show t.sansChain.driveEnable = s.sansChain.driveEnable by rw [h]
theorem SameOutside.posArg (h : SameOutside t s) : t.posArg = s.posArg :=
  show t.sansChain.posArg = s.sansChain.posArg by rw [h]
theorem SameOutside.tripRefused (h : SameOutside t s) : t.tripRefused = s.tripRefused :=
  show t.sansChain.tripRefused = s.sansChain.tripRefused by rw [h]
theorem SameOutside.tripArg0 (h : SameOutside t s) : t.tripArg0 = s.tripArg0 :=
  show t.sansChain.tripArg0 = s.sansChain.tripArg0 by rw [h]
theorem SameOutside.tripArg1 (h : SameOutside t s) : t.tripArg1 = s.tripArg1 :=
  show t.sansChain.tripArg1 = s.sansChain.tripArg1 by rw [h]
theorem SameOutside.jobArgSrc (h : SameOutside t s) : t.jobArgSrc = s.jobArgSrc :=
  show t.sansChain.jobArgSrc = s.sansChain.jobArgSrc by rw [h]
theorem SameOutside.jobArgDst (h : SameOutside t s) : t.jobArgDst = s.jobArgDst :=
  show t.sansChain.jobArgDst = s.sansChain.jobArgDst by rw [h]
theorem SameOutside.jobArgCount (h : SameOutside t s) : t.jobArgCount = s.jobArgCount :=
  show t.sansChain.jobArgCount = s.sansChain.jobArgCount by rw [h]
theorem SameOutside.irqEnable (h : SameOutside t s) : t.irqEnable = s.irqEnable :=
  show t.sansChain.irqEnable = s.sansChain.irqEnable by rw [h]
theorem SameOutside.staging (h : SameOutside t s) : t.staging = s.staging :=
  show t.sansChain.staging = s.sansChain.staging by rw [h]
theorem SameOutside.cmdResult (h : SameOutside t s) : t.cmdResult = s.cmdResult :=
  show t.sansChain.cmdResult = s.sansChain.cmdResult by rw [h]
theorem SameOutside.cmdRefused (h : SameOutside t s) : t.cmdRefused = s.cmdRefused :=
  show t.sansChain.cmdRefused = s.sansChain.cmdRefused by rw [h]
theorem SameOutside.laneSel (h : SameOutside t s) : t.laneSel = s.laneSel :=
  show t.sansChain.laneSel = s.sansChain.laneSel by rw [h]
theorem SameOutside.resetLow (h : SameOutside t s) : t.resetLow = s.resetLow :=
  show t.sansChain.resetLow = s.sansChain.resetLow by rw [h]
theorem SameOutside.pending (h : SameOutside t s) : t.pending = s.pending :=
  show t.sansChain.pending = s.sansChain.pending by rw [h]

end

section
variable (s : State)

@[simp] theorem sansChain_letPass : s.letPass.sansChain = s.sansChain := rfl

@[simp] theorem sansChain_withOutbox (l : List LaneId) : (s.withOutbox l).sansChain = s.sansChain := rfl

@[simp] theorem sansChain_pickDone : s.pickDone.sansChain = s.sansChain := rfl

@[simp] theorem sansChain_elapse (d : Nat) : (elapse d s).sansChain = s.sansChain := rfl

@[simp] theorem sansChain_raiseJob (o : JobOutcome) : (raiseJob o s).sansChain = s.sansChain := by
  unfold raiseJob; split <;> rfl

@[simp] theorem sansChain_jobServed : (jobServed s).sansChain = s.sansChain := by
  simp only [jobServed]
  split
  · rw [sansChain_raiseJob]; rfl
  · rfl

@[simp] theorem sansChain_serveAccess : (serveAccess s).sansChain = s.sansChain := by
  unfold serveAccess
  rw [sansChain_jobServed, sansChain_letPass]
  split <;> rfl

theorem sansChain_foldl {α : Type} (f : State → α → State) (hf : ∀ s a, (f s a).sansChain = s.sansChain) (l : List α) :
    (l.foldl f s).sansChain = s.sansChain := by
  induction l generalizing s with
  | nil => rfl
  | cons a rest ih => simp [ih, hf]

end
end Sys2Proof.Machine
end

