-- ==== Sys2Proof/Laws/Accesses.lean ====
section
/-! SUPPORT. What the service of an access of the table job leaves as it was in the lanes and in the job. -/

namespace Sys2Proof.Machine

section
variable (s : State)

@[simp] theorem raiseJob_lane (o : JobOutcome) (k : LaneId) : (raiseJob o s).lane k = s.lane k := by
  unfold raiseJob; split <;> rfl

@[simp] theorem raiseJob_job (o : JobOutcome) : (raiseJob o s).job = s.job := by
  unfold raiseJob; split <;> rfl

@[simp] theorem jobServed_lane (k : LaneId) : (jobServed s).lane k = s.lane k := by
  simp only [jobServed]
  split
  · rw [raiseJob_lane]; rfl
  · rfl

@[simp] theorem jobServed_kind : (jobServed s).job.kind = s.job.kind := by
  simp only [jobServed]
  split
  · rw [raiseJob_job]
  · rfl

@[simp] theorem letPass_lane (k : LaneId) :
    s.letPass.lane k = { s.lane k with entry := (s.lane k).entry.map fun e => { e with passed := true } } := by
  rw [State.letPass, State.lane_onLanes]

@[simp] theorem letPass_job : s.letPass.job = s.job := rfl
@[simp] theorem letPass_table : s.letPass.table = s.table := rfl
@[simp] theorem letPass_buffer : s.letPass.buffer = s.buffer := rfl
@[simp] theorem letPass_owners : s.letPass.owners = s.owners := rfl
@[simp] theorem letPass_safeLevels : s.letPass.safeLevels = s.safeLevels := rfl
@[simp] theorem letPass_driveEnable : s.letPass.driveEnable = s.driveEnable := rfl
@[simp] theorem letPass_inputs : s.letPass.inputs = s.inputs := rfl
@[simp] theorem letPass_units : s.letPass.units = s.units := rfl
@[simp] theorem letPass_posArg : s.letPass.posArg = s.posArg := rfl
@[simp] theorem letPass_trips : s.letPass.trips = s.trips := rfl
@[simp] theorem letPass_settings : s.letPass.settings = s.settings := rfl
@[simp] theorem letPass_tripRefused : s.letPass.tripRefused = s.tripRefused := rfl
@[simp] theorem letPass_tripArg0 : s.letPass.tripArg0 = s.tripArg0 := rfl
@[simp] theorem letPass_tripArg1 : s.letPass.tripArg1 = s.tripArg1 := rfl
@[simp] theorem letPass_jobArgSrc : s.letPass.jobArgSrc = s.jobArgSrc := rfl
@[simp] theorem letPass_jobArgDst : s.letPass.jobArgDst = s.jobArgDst := rfl
@[simp] theorem letPass_jobArgCount : s.letPass.jobArgCount = s.jobArgCount := rfl
@[simp] theorem letPass_queue : s.letPass.queue = s.queue := rfl
@[simp] theorem letPass_late : s.letPass.late = s.late := rfl
@[simp] theorem letPass_irqEnable : s.letPass.irqEnable = s.irqEnable := rfl
@[simp] theorem letPass_timebase : s.letPass.timebase = s.timebase := rfl
@[simp] theorem letPass_staging : s.letPass.staging = s.staging := rfl
@[simp] theorem letPass_cmdResult : s.letPass.cmdResult = s.cmdResult := rfl
@[simp] theorem letPass_cmdRefused : s.letPass.cmdRefused = s.cmdRefused := rfl
@[simp] theorem letPass_laneSel : s.letPass.laneSel = s.laneSel := rfl
@[simp] theorem letPass_resetLow : s.letPass.resetLow = s.resetLow := rfl
@[simp] theorem letPass_outbox : s.letPass.outbox = s.outbox := rfl
@[simp] theorem letPass_picks : s.letPass.picks = s.picks := rfl
@[simp] theorem letPass_pending : s.letPass.pending = s.pending := rfl

@[simp] theorem clearRecord_lane (k : LaneId) : (clearRecord s).lane k = s.lane k := rfl
@[simp] theorem moveRecord_lane (k : LaneId) : (moveRecord s).lane k = s.lane k := rfl
@[simp] theorem foldRecord_lane (k : LaneId) : (foldRecord s).lane k = s.lane k := rfl
@[simp] theorem clearRecord_job : (clearRecord s).job = s.job := rfl
@[simp] theorem moveRecord_job : (moveRecord s).job = s.job := rfl
@[simp] theorem foldRecord_kind : (foldRecord s).job.kind = s.job.kind := rfl

/-- The service of an access leaves every lane as it was, but that the fetches which wait have had an access before
them. -/
theorem serveAccess_lane (k : LaneId) :
    (serveAccess s).lane k =
      { s.lane k with entry := (s.lane k).entry.map fun e => { e with passed := true } } := by
  unfold serveAccess
  rw [jobServed_lane, letPass_lane]
  split <;> rfl

/-- The service of an access touches the table, the job, the notice queue and the waiting fetches, and nothing else. -/
theorem serveAccess_frame :
    serveAccess s = { s with
      table := (serveAccess s).table
      job := (serveAccess s).job
      queue := (serveAccess s).queue
      lanes := s.letPass.lanes } := by
  simp only [serveAccess, jobServed, raiseJob]
  (repeat' split) <;> rfl

@[simp] theorem serveAccess_kind : (serveAccess s).job.kind = s.job.kind := by
  unfold serveAccess
  rw [jobServed_kind, letPass_job]
  split <;> rfl

end

/-- An access of a host's job leaves the power-on clear at rest. -/
theorem serveAccess_clearRunning {s : State} (h : s.job.kind ≠ .clear) :
    (serveAccess s).clearRunning = s.clearRunning := by
  simp [State.clearRunning, h]

end Sys2Proof.Machine
end

