-- ==== Sys2Proof/Laws/Settle.lean ====
section
/-! SUPPORT. Induction over `settle` and over what goes on beside a host write, what these leave as it was, and that nothing
is settled in a quiet state. -/

namespace Sys2Proof.Machine

/-- A free choice is among what it chooses from, and makes at most one free choice more. -/
theorem choose_spec {α : Type} (first : α) (rest : List α) (s : State) :
    (choose first rest s).1 ∈ first :: rest ∧ ((choose first rest s).2 = s ∨ (choose first rest s).2 = s.pickDone) := by
  unfold choose
  split
  · exact ⟨by simp, .inl rfl⟩
  · refine ⟨?_, .inr rfl⟩
    rw [List.getD_eq_getElem?_getD]
    cases h : (first :: rest)[Config.pick s.picks % (rest.length + 1)]? with
    | none => simp
    | some x => simpa using List.mem_of_getElem? h

/-- A property that every free choice, and every piece of work with its handing out, keep is kept by settling. -/
theorem settle_induct {P : State → Prop} (host : Bool) (hpick : ∀ s, P s → P s.pickDone)
    (hwork : ∀ s lanes w, w ∈ s.work lanes → P s → P (handOut (doWork s w))) (n : Nat) :
    ∀ (c : Chain) (s : State), P s → P (settle host n c s) := by
  induction n with
  | zero => intro _ s hs; rw [settle]; exact hs
  | succ n ih =>
    intro c s hs
    rw [settle]
    split
    · exact hs
    · split
      · exact hs
      · rename_i w ws hw
        have hc := choose_spec w ws s
        rw [← hw] at hc
        generalize choose w ws s = x at hc
        obtain ⟨hmem, h | h⟩ := hc
        · exact ih _ _ (h ▸ hwork s _ x.1 hmem hs)
        · exact ih _ _ (h ▸ hwork s.pickDone _ x.1 hmem (hpick s hs))

@[simp] theorem sansWalk_settle (s : State) (host : Bool) (n : Nat) (c : Chain) :
    (settle host n c s).sansWalk = s.sansWalk :=
  settle_induct (P := fun t => t.sansWalk = s.sansWalk) host (fun _ h => h)
    (fun _ _ _ _ h => by simpa using h) n c s rfl

@[simp] theorem sansWalk_drain (s : State) : (drain s).sansWalk = s.sansWalk := sansWalk_settle s _ _ _

/-! ## What goes on beside a host write -/

/-- A property that everything that can happen, and every free choice, keep is kept while things go on. -/
theorem State.GoesOn.induct {P : State → Prop} {but : LaneMask} {s t : State} (h : s.GoesOn but t)
    (hpick : ∀ s p, P s → P { s with picks := p })
    (hhappen : ∀ s, ∀ x ∈ s.happenings but, P s → P (happen s x)) (hs : P s) : P t := by
  induction h with
  | refl => exact hs
  | tail _ hst ih =>
    obtain ⟨p, rfl⟩ | ⟨x, hx, rfl⟩ := hst
    · exact hpick _ p ih
    · exact hhappen _ x hx ih

theorem State.GoesOn.refl {but : LaneMask} (s : State) : s.GoesOn but s := Relation.ReflTransGen.refl

theorem State.GoesOn.pickDone {but : LaneMask} {s t : State} (h : s.pickDone.GoesOn but t) : s.GoesOn but t :=
  Relation.ReflTransGen.head (.inl ⟨_, rfl⟩) h

/-- What happens while things go on is what the block allows. -/
theorem goOn_goesOn (but : LaneMask) (n : Nat) :
    ∀ (c : Chain) (s : State), s.GoesOn but (goOn but n c s).2 := by
  induction n with
  | zero => intro c s; exact .refl s
  | succ n ih =>
    intro c s
    rw [goOn]
    split
    · exact .refl s
    · rename_i x xs hx
      have hc := choose_spec x xs s
      rw [← hx] at hc
      generalize choose x xs s = y at hc
      obtain ⟨hmem, h | h⟩ := hc
      · exact Relation.ReflTransGen.head (.inr ⟨y.1, hmem, by rw [h]⟩) (ih _ _)
      · refine State.GoesOn.pickDone (Relation.ReflTransGen.head (.inr ⟨y.1, hmem, by rw [h]⟩) (ih _ _))

/-- What happens in an interlude is what the block allows. -/
theorem interlude_goesOn (but : LaneMask) (s : State) : s.GoesOn but (interlude but s) := by
  unfold interlude
  split
  · exact .refl s
  · exact (goOn_goesOn _ _ _ _).pickDone

/-- Where nothing is under way nothing happens. -/
theorem interlude_of_calm {but : LaneMask} {s : State} (h : s.happenings but = []) : interlude but s = s := by
  simp [interlude, h]

/-- A property that everything that can happen, every free choice and every handing out keep is kept by what follows from a
host write. -/
theorem followUp_induct {P : State → Prop} {s : State} (hpick : ∀ s p, P s → P { s with picks := p })
    (hout : ∀ s, P s → P (handOut s)) (hhappen : ∀ s, ∀ x ∈ s.happenings 0, P s → P (happen s x))
    (hwork : ∀ s w, P s → P (doWork s w)) (hs : P s) : P (followUp s) := by
  unfold followUp
  split
  · exact hs
  · refine settle_induct true (fun _ h => hpick _ _ h) (fun _ _ _ _ h => hout _ (hwork _ _ h)) _ _ _ ?_
    split
    · exact hout _ hs
    · exact (goOn_goesOn 0 _ _ _).induct hpick hhappen (hpick _ _ (hout _ hs))

section
variable (s : State)

@[simp] theorem sansChain_goOnTo (d : Nat) : (goOnTo d s).sansChain = s.sansChain := by
  unfold goOnTo
  split
  · rfl
  · rw [sansChain_elapse]; simp [State.sansChain]

theorem sansChain_clockEvent (lacking : Option Nat) (act : State → State)
    (ha : ∀ t, (act t).sansChain = t.sansChain) : (clockEvent lacking act s).sansChain = s.sansChain := by
  unfold clockEvent
  split
  · rfl
  · split
    · rw [ha, sansChain_goOnTo]
    · rfl

@[simp] theorem sansChain_setLatch (n : SourceId) : (setLatch n s).sansChain = s.sansChain := by
  simp only [setLatch, State.sansChain, sansWalk_raiseTrips]
  rw [sansWalk_foldl]
  · rfl
  · intro t k
    split <;> simp

@[simp] theorem sansChain_acceptTrip (n : SourceId) : (acceptTrip n s).sansChain = s.sansChain := by
  simp only [acceptTrip]
  split
  · rw [sansChain_setLatch]; rfl
  · rfl

@[simp] theorem sansChain_acceptInputs (changed : List InputId) : (acceptInputs changed s).sansChain = s.sansChain := by
  unfold acceptInputs
  refine (sansChain_foldl _ _ (fun t m => ?_) _).trans rfl
  simp only [State.sansChain, sansWalk_handToAll]

@[simp] theorem sansChain_acceptQuadrature (u : UnitId) (c : Channel) (both : Bool) :
    (acceptQuadrature u c both s).sansChain = s.sansChain := by
  simp only [acceptQuadrature]
  (repeat' split) <;> rfl

@[simp] theorem sansChain_acceptedChange (pin : FilteredPin) : (acceptedChange pin s).sansChain = s.sansChain := by
  cases pin
  · exact sansChain_clockEvent s _ _ fun t => sansChain_acceptInputs t _
  · exact sansChain_clockEvent s _ _ fun t => sansChain_acceptQuadrature t _ _ _
  · exact sansChain_clockEvent s _ _ fun t => sansChain_acceptTrip t _

@[simp] theorem sansChain_tick (takers : LaneMask) : (tick takers s).sansChain = s.sansChain := by
  refine sansChain_clockEvent s _ _ fun t => ?_
  simp only [State.sansChain, sansWalk_handOut]
  rw [sansWalk_foldl]
  · rfl
  · intro t k
    unfold handTick
    split <;> simp

@[simp] theorem sansChain_movePin (pin : FilteredPin) (level : Bool) : (movePin pin level s).sansChain = s.sansChain := by
  cases pin <;> rfl

@[simp] theorem sansChain_takeLevel (pin : FilteredPin) (level : Bool) :
    (takeLevel pin level s).sansChain = s.sansChain := by
  unfold takeLevel
  split
  · rfl
  · rw [sansChain_movePin]
    split
    · exact sansChain_acceptedChange s pin
    · rfl

@[simp] theorem sansChain_withEarly (moves : List (FilteredPin × Bool)) : (s.withEarly moves).sansChain = s.sansChain := rfl

/-- What happens beside a host write is in the lanes' walk, the table job, the filtered pins, the core clock or the trip
latches. -/
@[simp] theorem sansChain_happen (h : Happening) : (happen s h).sansChain = s.sansChain := by
  cases h with
  | work w => simp [happen, aside, State.sansChain]
  | access => exact sansChain_serveAccess s
  | acceptance pin => simp [happen, aside]
  | tick => simp [happen, aside]
  | move pin level => simp [happen, aside]
  | period => exact sansChain_elapse s 1

@[simp] theorem sansChain_interlude (but : LaneMask) : (interlude but s).sansChain = s.sansChain :=
  (interlude_goesOn but s).induct (P := fun t => t.sansChain = s.sansChain) (fun _ _ h => h)
    (fun t x _ h => by simpa using h) rfl

@[simp] theorem sansChain_followUp : (followUp s).sansChain = s.sansChain :=
  followUp_induct (P := fun t => t.sansChain = s.sansChain) (fun _ _ h => h)
    (fun t h => by simpa [State.sansChain] using h) (fun t x _ h => by simpa using h)
    (fun t w h => by simpa [State.sansChain] using h) rfl

end

/-! ## Quiet states -/

variable {s : State}

theorem handOut_of_outbox_nil (h : s.outbox = []) : handOut s = s := by
  unfold handOut
  rw [h]
  cases s
  simp only at h
  subst h
  rfl

@[simp] theorem handLines_outbox (lines : List LaneId) (s : State) : (handLines lines s).outbox = s.outbox := by
  unfold handLines
  induction lines generalizing s with
  | nil => rfl
  | cons _ _ ih => rw [List.foldl_cons, ih]; rfl

/-- Handing out leaves nothing waiting. -/
@[simp] theorem handOut_outbox (s : State) : (handOut s).outbox = [] := by simp [handOut]

theorem Lane.work_of_quiet {l : Lane} (h : l.quiet) (k : LaneId) (serve : Bool) : l.work k serve = [] := by
  obtain ⟨h1, h2, h3⟩ := h
  simp [Lane.work, Lane.ready, h1, h2, h3]

/-- No notice can arrive exactly where none is on its way. -/
theorem State.arrivals_eq_nil : s.arrivals = [] ↔ s.late = [] := by
  constructor
  · intro h
    have hnone : ∀ x, s.canArrive x = false := by
      intro x
      have hx : x ∈ senders := by cases x <;> simp [senders, allLanes]
      simp only [State.arrivals, List.map_eq_nil_iff, List.filter_eq_nil_iff] at h
      simpa using h x hx
    have hlanes : ∀ k, s.lateOf (.lane k) = [] := fun k => by simpa [State.canArrive] using hnone (.lane k)
    refine State.late_nil_of_lateOf fun x => ?_
    cases x with
    | lane k => exact hlanes k
    | tripUnit =>
      have := hnone .tripUnit
      simp only [State.canArrive, State.tripWaits_of_lanes hlanes] at this
      cases hl : s.lateOf .tripUnit with
      | nil => rfl
      | cons => simp [hl] at this
  · intro h
    have : ∀ x, s.canArrive x = false := by
      intro x
      cases x <;> simp [State.canArrive, State.lateOf_eq_nil_of_late_nil h]
    simp [State.arrivals, this]

theorem State.work_of_quiet (h : ∀ k, (s.lane k).quiet) (hl : s.late = []) (serve : LaneMask) : s.work serve = [] := by
  simp only [State.work, List.append_eq_nil_iff, List.flatMap_eq_nil_iff, State.arrivals_eq_nil]
  exact ⟨fun k _ => Lane.work_of_quiet (h k) k _, hl⟩

/-- Nothing is settled where no lane has anything to do. -/
theorem drain_of_work_nil (h : s.work 0 = []) : drain s = s := by
  unfold drain
  cases workBound s with
  | zero => rw [settle]
  | succ n => rw [settle, h]; rfl

theorem drain_of_quiet (h : s.Quiet) : drain s = s := drain_of_work_nil (State.work_of_quiet h.lanes h.late_nil 0)

/-- Where nothing is emitted nothing more follows. -/
theorem followUp_of_outbox_nil (h : s.outbox = []) : followUp s = s := by simp [followUp, h]

/-- Settling leaves no emission waiting to be handed out. -/
theorem settle_outbox (host : Bool) (n : Nat) (c : Chain) (h : s.outbox = []) : (settle host n c s).outbox = [] :=
  settle_induct (P := fun t => t.outbox = []) host (fun _ h => h) (fun _ _ _ _ _ => handOut_outbox _) n c s h

/-! ## Host accesses -/

/-- A host access with RESET# low does nothing (R184). -/
theorem hostAccess_of_resetLow (h : s.resetLow = true) (act : State → State) : hostAccess act s = s := by
  simp [hostAccess, h]

/-- A host access with RESET# high is its act. -/
theorem hostAccess_of_resetHigh (h : s.resetLow = false) (act : State → State) : hostAccess act s = act s := by
  simp [hostAccess, h]

end Sys2Proof.Machine
end

