-- ==== Sys2Proof/Laws/LaneActs.lean ====
section
/-! SUPPORT. Each function by which a lane acts is the act that the tables of the spec give (Safety): the lane, the notices
and the emission, and nothing else of the state. -/

namespace Sys2Proof.Machine

variable {k : LaneId} {s : State}

/-! ## Acts on a state that the lane has already changed -/

@[simp] theorem State.setLane_setLane (l l' : Lane) : (s.setLane k l).setLane k l' = s.setLane k l' := by
  simp [State.setLane]

/-- An act changes its lane, the notices and the outbox, and nothing else. -/
theorem State.withAct_frame (a : Act) :
    s.withAct k a = { s.setLane k a.lane with
      queue := (s.raiseAll (.lane k) a.notices).queue
      late := (s.raiseAll (.lane k) a.notices).late
      outbox := if a.emits then s.outbox ++ [k] else s.outbox } := by
  unfold State.withAct
  rw [State.raiseAll_frame]
  rfl

/-- The notices that are raised do not depend on the lanes. -/
theorem State.raiseAll_setLane (x : Sender) (bs : List NoticeBody) (l : Lane) :
    (s.setLane k l).raiseAll x bs = (s.raiseAll x bs).setLane k l := by
  cases bs with
  | nil => rfl
  | cons b bs =>
    rw [State.raiseAll_eq (List.cons_ne_nil b bs), State.raiseAll_eq (List.cons_ne_nil b bs)]
    rfl

@[simp] theorem State.withAct_onLane (f : Lane → Lane) (a : Act) : (s.onLane k f).withAct k a = s.withAct k a := by
  simp only [State.withAct, State.onLane, State.raiseAll_setLane, State.setLane_setLane, State.setLane_outbox]

theorem State.withAct_raise (b : NoticeBody) (a : Act) :
    (s.raiseFrom (.lane k) b).withAct k a = s.withAct k (a.after b) := rfl

theorem State.onLane_eq_withAct (f : Lane → Lane) : s.onLane k f = s.withAct k (.silent (f (s.lane k))) := rfl

theorem State.onLane_withAct (a : Act) (f : Lane → Lane) :
    (s.withAct k a).onLane k f = s.withAct k { a with lane := f a.lane } := by
  have h : (s.withAct k a).lane k = a.lane := by simp [State.withAct]
  rw [State.onLane, h]
  unfold State.withAct
  rw [← State.setLane_setLane (s := s.raiseAll (.lane k) a.notices) a.lane (f a.lane)]
  rfl

@[simp] theorem State.setLane_lane_self : s.setLane k (s.lane k) = s := by
  cases s
  simp [State.setLane, State.lane]

@[simp] theorem State.withAct_silent_self : s.withAct k (.silent (s.lane k)) = s := by
  simp only [State.withAct, Act.silent, State.raiseAll_nil, State.setLane_lane_self, Bool.false_eq_true, if_false]
  rfl

theorem State.emitWhen_eq (c : Bool) : s.emitWhen c k = { s with outbox := if c then s.outbox ++ [k] else s.outbox } := by
  unfold State.emitWhen State.emitFrom
  split <;> rfl

/-! ## Entries and faults -/

theorem requestEntry_eq (full : Bool) (o : Nat) (c : EntryCause) :
    requestEntry k full o c s = s.withAct k ((s.lane k).requests full o c) := rfl

theorem applySwap_eq (d : Descriptor) (o : SwapOccasion) :
    applySwap k d o s = s.withAct k ((s.lane k).applies k d o) := by
  simp only [applySwap, installSwap, requestEntry_eq, State.withAct_raise, State.withAct_onLane]
  simp [Lane.requests, Act.after, Act.silent, Lane.applies]

theorem enter_eq (full : Bool) (o : Nat) (c : EntryCause) :
    enter k full o c s = s.withAct k ((s.lane k).enters k full o c) := by
  unfold enter Lane.enters
  cases (s.lane k).swap with
  | none => rfl
  | some d =>
    simp only
    split <;> rename_i h <;> simp [h, applySwap_eq, requestEntry_eq]

theorem startEvent_eq : startEvent k s = s.withAct k ((s.lane k).starts k) := by
  unfold startEvent Lane.starts
  cases (s.lane k).swap <;> simp [applySwap_eq, requestEntry_eq]

theorem faultEntry_eq (c : FaultCause) : faultEntry k c s = s.withAct k ((s.lane k).faults k c) := by
  unfold faultEntry
  rw [State.emitWhen_eq]
  rfl

theorem entryFault_eq (c : FaultCause) : entryFault k c s = s.withAct k ((s.lane k).failsEntry k c) := by
  rw [entryFault, faultEntry_eq]
  simp only [State.withAct_onLane, State.lane_onLane_self]
  rfl

/-! ## Leaving a step -/

theorem passEnd_eq (o : EndOutcome) :
    passEnd k o s = s.withAct k
      { lane := { s.lane k with cycles := min 65535 ((s.lane k).cycles + 1) }
        notices := [.rangeEnd k (s.lane k).active o (min 65535 ((s.lane k).cycles + 1))]
        emits := (s.lane k).descriptor.emitOnEnd } := by
  unfold passEnd
  rw [State.emitWhen_eq]
  rfl

theorem endOfRange_eq (b : Bool) : endOfRange k b s = s.withAct k ((s.lane k).ends k b) := by
  simp only [endOfRange, Lane.ends]
  cases hs : (s.lane k).swap with
  | some d => exact applySwap_eq d _
  | none =>
    by_cases h : (s.lane k).stack = []
    · have hstop : (s.lane k).endsInDone = true ↔
          ((s.lane k).descriptor.endAction = .stop ∨ (s.lane k).descriptor.cycleLimit ≠ 0 ∧
            (s.lane k).descriptor.cycleLimit ≤ min 65535 ((s.lane k).cycles + 1)) := by
        simp [Lane.endsInDone, Config.countMax, Nat.pos_iff_ne_zero]
      simp only [h, List.isEmpty_nil, Bool.not_true, Bool.false_eq_true, ↓reduceIte, ne_eq, not_true_eq_false, hstop]
      split
      · rw [passEnd_eq, State.onLane_withAct]
        simp only [Lane.goToDone, Lane.forget, h, hs]
      · rw [passEnd_eq, requestEntry, State.onLane_withAct]
        simp only [h, hs]
    · simp [h, faultEntry_eq]

theorem goToNext_eq (b : Bool) : goToNext k b s = s.withAct k ((s.lane k).goesOn k b) := by
  simp only [goToNext, Lane.goesOn]
  split
  · exact enter_eq _ _ _
  · exact endOfRange_eq b

theorem leave_eq (b : Bool) : leave k b s = s.withAct k ((s.lane k).leaves k b) := by
  simp only [leave, Lane.leaves]
  cases hc : (s.lane k).copy with
  | none => simp
  | some r =>
    cases hl : r.loop
    case none => simp [Record.isTail, hl, goToNext_eq]
    case mark => simp [Record.isTail, hl, goToNext_eq]
    all_goals
      simp only [Record.isTail, hl, decide_true, Bool.or_true, Bool.true_or, if_true]
      split
      · rename_i hs; simp only [hs, faultEntry_eq]
      · rename_i top below hs
        simp only [hs, enter_eq, goToNext_eq, State.withAct_onLane, State.lane_onLane_self]
        by_cases hp : 2 ≤ top.passes
        · rw [if_pos hp, if_neg (show ¬ top.passes ≤ 1 by omega), hc]
        · rw [if_neg hp, if_pos (show top.passes ≤ 1 by omega), hc]

theorem faultAction_eq : faultAction k s = s.withAct k ((s.lane k).actsOnFault k) := by
  simp only [faultAction, Lane.actsOnFault]
  cases hc : (s.lane k).copy with
  | none => simp
  | some r =>
    simp only
    split
    · rename_i hf
      rw [leave_eq, hf, ← hc]
      exact State.withAct_raise _ _
    · rename_i hf
      simp only [enter_eq, State.withAct_onLane, State.lane_onLane_self]
      rw [hf, ← hc]
      exact State.withAct_raise _ _
    · rename_i hf
      rw [faultEntry_eq, hf]
    · rename_i hf
      rw [faultEntry_eq, hf]

/-! ## Conditions and ticks -/

theorem inputMatches_iff (accepted : BitVec 16) (r : Record) :
    inputMatches accepted r =
      (List.finRange 16).all fun n => !r.w5.getLsbD n || accepted.getLsbD n == r.w6.getLsbD n := by
  rw [Bool.eq_iff_iff]
  simp only [inputMatches, Record.argA, Record.argB, beq_iff_eq, List.all_eq_true, List.mem_finRange, forall_const,
    Bool.or_eq_true, Bool.not_eq_true']
  constructor
  · intro h n
    have := congrArg (fun x => x.getLsbD n) h
    simp only [BitVec.getLsbD_and] at this
    cases hb : r.w5.getLsbD n <;> simp_all
  · intro h
    apply BitVec.eq_of_getLsbD_eq
    intro i hi
    simp only [BitVec.getLsbD_and]
    rcases h ⟨i, hi⟩ with h | h <;> simp only at h <;> simp [h]

theorem Lane.conditionHolds_eq (l : Lane) (accepted : BitVec 16) : l.conditionHolds accepted = l.meets accepted := by
  unfold Lane.conditionHolds Lane.meets
  cases l.copy with
  | none => rfl
  | some r =>
    cases h : r.kind with
    | none => simp [h]
    | some kind =>
      cases kind
      case edge => simp only [h]; rfl
      all_goals simp [h, inputMatches_iff]

theorem advanceIfMet_eq : advanceIfMet k s = s.withAct k ((s.lane k).judges k s.inputs.accepted) := by
  simp only [advanceIfMet, Lane.judges, Lane.awaitsCondition, Lane.conditionHolds_eq]
  by_cases h : (s.lane k).state = .running ∧ (s.lane k).dwell = 0 ∧ (s.lane k).meets s.inputs.accepted = true
  · simp [h, leave_eq]
  · rw [if_neg h, if_neg (by simpa [and_assoc] using h)]
    simp

theorem Lane.countTick_eq (l : Lane) : l.countTick = l.counted := by
  unfold Lane.countTick Lane.counted
  congr 1
  · rcases l.limit with _ | _ | _ | n <;> simp
  · rcases l.pulse with _ | ⟨line, _ | _ | n⟩ <;> simp [Pulse.count]

@[simp] theorem Lane.counted_meets (l : Lane) (accepted : BitVec 16) :
    l.counted.meets accepted = l.meets accepted := rfl

theorem judgeTick_eq (n : Nat) (m : Option Nat) :
    judgeTick k n m s = s.withAct k (
      if n = 1 ∧ (s.lane k).meets s.inputs.accepted = true then (s.lane k).leaves k false
      else if m = some 1 then (s.lane k).actsOnFault k
      else .silent (s.lane k)) := by
  unfold judgeTick
  rw [Lane.conditionHolds_eq]
  by_cases hd : n = 1 ∧ (s.lane k).meets s.inputs.accepted = true
  · simp [hd, leave_eq]
  · rw [if_neg (by simpa using hd), if_neg hd]
    split
    · exact faultAction_eq
    · exact State.withAct_silent_self.symm

theorem takeTick_eq : takeTick k s = s.withAct k ((s.lane k).ticks k s.inputs.accepted) := by
  simp only [takeTick, Lane.ticks]
  cases h : (s.lane k).state
  case running =>
    simp only [judgeTick_eq, State.withAct_onLane, State.onLane_withAct, State.lane_onLane_self, Lane.countTick_eq,
      Lane.counted_meets]
    rfl
  case done =>
    simp [← Lane.countTick_eq, Lane.countTick, State.onLane_eq_withAct, h]
  all_goals simp

/-! ## The place of an entry among those that the taking of one event leads to -/

/-- An entry that the act requests is not yet in the order of any event's takers, and the events that wait for the lane are
those of l. -/
def Act.Unplaced (a : Act) (l : Lane) : Prop :=
  ∀ x, a.lane.entry = some x → x.event = none ∧ a.lane.kept = l.kept ∧ a.lane.coming = l.coming

section
variable {l : Lane}

theorem Lane.requests_unplaced (full : Bool) (o : Nat) (c : EntryCause) : (l.requests full o c).Unplaced l := by
  rintro x ⟨⟩; exact ⟨rfl, rfl, rfl⟩

theorem Lane.applies_unplaced (d : Descriptor) (o : SwapOccasion) : (l.applies k d o).Unplaced l := by
  rintro x ⟨⟩; exact ⟨rfl, rfl, rfl⟩

theorem Lane.silent_unplaced (h : l.entry = none) : (Act.silent l).Unplaced l :=
  fun _ hx => absurd (h.symm.trans hx) nofun

theorem Lane.faults_unplaced (h : l.entry = none) (c : FaultCause) : (l.faults k c).Unplaced l :=
  fun _ hx => absurd (h.symm.trans hx) nofun

theorem Lane.enters_unplaced (full : Bool) (o : Nat) (c : EntryCause) : (l.enters k full o c).Unplaced l := by
  unfold Lane.enters
  split
  · exact Lane.requests_unplaced _ _ _
  · split
    · exact Lane.applies_unplaced _ _
    · exact Lane.requests_unplaced _ _ _

theorem Lane.starts_unplaced : (l.starts k).Unplaced l := by
  unfold Lane.starts
  split
  · exact Lane.requests_unplaced _ _ _
  · exact Lane.applies_unplaced _ _

theorem Lane.ends_unplaced (h : l.entry = none) (b : Bool) : (l.ends k b).Unplaced l := by
  simp only [Lane.ends]
  split
  · exact Lane.applies_unplaced _ _
  · split
    · exact Lane.faults_unplaced h _
    · split
      · exact fun x hx => absurd (h.symm.trans hx) nofun
      · rintro x ⟨⟩; exact ⟨rfl, rfl, rfl⟩

theorem Lane.goesOn_unplaced (h : l.entry = none) (b : Bool) : (l.goesOn k b).Unplaced l := by
  unfold Lane.goesOn
  split
  · exact Lane.enters_unplaced _ _ _
  · exact Lane.ends_unplaced h b

theorem Lane.leaves_unplaced (h : l.entry = none) (b : Bool) : (l.leaves k b).Unplaced l := by
  simp only [Lane.leaves]
  split
  · exact Lane.silent_unplaced h
  · split
    · exact Lane.goesOn_unplaced h b
    · exact Lane.goesOn_unplaced h b
    · exact Lane.faults_unplaced h _
    · rename_i top below _ _ _
      split
      · exact Lane.goesOn_unplaced (l := { l with stack := below }) h b
      · exact Lane.enters_unplaced (l := { l with stack := ⟨top.head, top.passes - 1⟩ :: below }) _ _ _

theorem Lane.judges_unplaced (h : l.entry = none) (accepted : BitVec 16) : (l.judges k accepted).Unplaced l := by
  unfold Lane.judges
  split
  · exact Lane.leaves_unplaced h _
  · exact Lane.silent_unplaced h

end

@[simp] theorem State.lane_withAct_self (a : Act) : (s.withAct k a).lane k = a.lane := by
  simp [State.withAct, State.lane, State.setLane]

theorem State.lane_withAct_ne {j : LaneId} (h : j ≠ k) (a : Act) : (s.withAct k a).lane j = s.lane j := by
  rw [State.withAct, State.withOutbox_lane, State.lane_setLane_ne _ h, State.raiseAll_lane]

/-- The places are counted over the lanes whose entries are in progress, so the act of a lane that is not yet in the order
leaves them as they are. -/
theorem State.nextTurn_withAct {a : Act} (hs : (s.lane k).enteredAt = none) (ha : a.lane.enteredAt = none)
    (x : Event × Nat) : (s.withAct k a).nextTurn x = s.nextTurn x := by
  unfold State.nextTurn
  congr 1
  funext n j
  by_cases h : j = k
  · subst h; simp [hs, ha]
  · rw [State.lane_withAct_ne h]

/-- The place of the entry that an act requests. -/
theorem followTaking_withAct {a : Act} {e : Event} (hs : (s.lane k).entry = none) (ha : a.Unplaced (s.lane k)) :
    followTaking k e (s.withAct k a) =
      s.withAct k (a.following e (s.nextTurn (e, ((s.lane k).kept ++ (s.lane k).coming).count e))) := by
  simp only [followTaking, State.onLane_withAct, State.lane_withAct_self, Act.following]
  cases he : a.lane.entry with
  | none => rfl
  | some x =>
    obtain ⟨h1, h2, h3⟩ := ha x he
    rw [State.nextTurn_withAct (by simp [Lane.enteredAt, hs]) (by simp [Lane.enteredAt, he, h1]), h2, h3]

/-! ## Events -/

theorem Lane.takesConditions_stepKind (l : Lane) (kind : Kind) :
    (l.takesConditions && l.stepKind kind) = l.waitsIn kind := by
  unfold Lane.takesConditions Lane.waitsIn Lane.entered Lane.stepKind
  cases l.copy <;> simp

theorem takeEdge_eq (hs : (s.lane k).entry = none) (n : InputId) (e : Sense) :
    takeEdge k n e s = s.withAct k ((s.lane k).takesEdge k n e s.inputs.accepted
      (s.nextTurn (.edge n e, ((s.lane k).kept ++ (s.lane k).coming).count (.edge n e)))) := by
  simp only [takeEdge, Lane.takesEdge]
  by_cases ha : (s.lane k).state = .armed
  · simp only [ha, if_true]
    split
    · rw [startEvent_eq, followTaking_withAct hs Lane.starts_unplaced]
    · simp
  · simp only [ha, if_false, Lane.takesConditions_stepKind]
    have hc : (s.lane k).countsEdge n e = ((s.lane k).waitsIn .edge &&
        (s.lane k).copy.any fun r => r.sel == n.val && r.edgeSense.any fun m => m.admits e) := by
      unfold Lane.countsEdge Lane.waitsIn Lane.takesConditions Lane.entered
      cases (s.lane k).copy with
      | none => simp
      | some r => simp [Bool.and_assoc]
    have hx : (s.lane k).waitsIn .input = true → (s.lane k).waitsIn .edge = false := by
      unfold Lane.waitsIn
      cases (s.lane k).copy with
      | none => simp
      | some r => cases r.kind <;> simp +contextual
    rw [hc]
    cases hi : (s.lane k).waitsIn .input
    · simp only [Bool.false_eq_true, if_false]
      split
      · simp only [advanceIfMet_eq, State.withAct_onLane, State.lane_onLane_self]
        rfl
      · simp
    · simp [hx hi, advanceIfMet_eq]

theorem takeArrival_eq (u : UnitId) (value : Word) (d : Direction) :
    takeArrival k u value d s = s.withAct k ((s.lane k).takesArrival k u value d s.inputs.accepted) := by
  have hc : (s.lane k).awaitsArrival u value d = ((s.lane k).waitsIn .position &&
      (s.lane k).copy.any fun r => r.sel == u.val && r.w6 == value && r.approach.any fun m => m.admits d) := by
    unfold Lane.awaitsArrival Lane.waitsIn Lane.takesConditions Lane.entered
    cases (s.lane k).copy with
    | none => simp
    | some r => simp [Bool.and_assoc, Record.argB]
  simp only [takeArrival, Lane.takesArrival, hc]
  split
  · simp only [advanceIfMet_eq, State.withAct_onLane, State.lane_onLane_self]
    rfl
  · simp

theorem takeEmission_eq (hs : (s.lane k).entry = none) (line : LaneId) :
    takeEmission k line s = s.withAct k ((s.lane k).takesEmission k line s.inputs.accepted
      (s.nextTurn (.emission line, ((s.lane k).kept ++ (s.lane k).coming).count (.emission line)))) := by
  have hc : (s.lane k).awaitsEmission k line = ((s.lane k).waitsIn .trigger && line != k &&
      (s.lane k).copy.any fun r => r.sel == line.val) := by
    unfold Lane.awaitsEmission Lane.waitsIn Lane.takesConditions Lane.entered
    cases (s.lane k).copy with
    | none => simp
    | some r =>
      rw [Bool.eq_iff_iff]
      simp
      tauto
  simp only [takeEmission, Lane.takesEmission, hc]
  by_cases ha : (s.lane k).state = .armed
  · simp only [ha, if_true]
    split
    · rw [startEvent_eq, followTaking_withAct hs Lane.starts_unplaced]
    · simp
  · simp only [ha, if_false]
    split
    · simp only [advanceIfMet_eq, State.withAct_onLane, State.lane_onLane_self]
      exact followTaking_withAct hs (Lane.judges_unplaced (l := { s.lane k with latch := true }) hs _)
    · simp

/-! ## The completion of an entry -/

theorem commit_eq (c : EntryCause) (r : Record) :
    commit k c r s = s.withAct k
      { lane := (s.lane k).commit r (pulseAfterCommit s.owners k r (s.lane k).pulse)
        notices := if r.report then [.step k (s.lane k).active c] else []
        emits := r.emit } := by
  simp only [commit, State.emitWhen_eq, State.raiseWhen]
  cases r.report <;> rfl

theorem serveFetch_eq {e : Entry} (h : (s.lane k).entry = some e) :
    serveFetch k s = s.withAct k ((s.lane k).completes k e (s.fetched k) s.owners) := by
  simp only [serveFetch, h, completeEntry, Lane.completes, State.lane_onLane_self]
  cases hv : (s.fetched k).validFor (s.lane k).descriptor.length
  · simp [entryFault_eq]
  · simp only [Bool.not_true, Bool.false_eq_true, if_false, Bool.true_eq_false]
    cases hf : (e.full && (s.fetched k).isHead)
    · simp only [Bool.false_eq_true, if_false, Bool.false_and, commit_eq, State.withAct_onLane, State.lane_onLane_self]
      rfl
    · by_cases hd : 4 ≤ (s.lane k).stack.length
      · simp [Config.stackDepth, hd, entryFault_eq]
      · simp only [Config.stackDepth, hd, if_true, if_false, decide_false, Bool.and_false, Bool.false_eq_true, commit_eq,
          pushFrame, State.withAct_onLane, State.lane_onLane_self]
        rfl

theorem serveFetch_of_settled (h : (s.lane k).entry = none) : serveFetch k s = s := by simp [serveFetch, h]

theorem Lane.completes_settles (l : Lane) (k : LaneId) (e : Entry) (r : Record) (owners : Vector (Option LaneId) 32) :
    (l.completes k e r owners).lane.entry = none ∧ (l.completes k e r owners).lane.kept = l.kept := by
  unfold Lane.completes
  split
  · exact ⟨rfl, rfl⟩
  · split <;> exact ⟨rfl, rfl⟩

/-- The service of a fetch completes the entry. -/
theorem serveFetch_settled (k : LaneId) (s : State) : ((serveFetch k s).lane k).settled := by
  cases h : (s.lane k).entry with
  | none => rw [serveFetch_of_settled h]; exact h
  | some e =>
    rw [serveFetch_eq h]
    simp [State.withAct, State.lane, State.setLane, Lane.settled, Lane.completes_settles]

/-! ## Handing out the act's emission -/

/-- With nothing to hand out before, an act and its handing out are the state after the act. -/
theorem handOut_withAct (h : s.outbox = []) (a : Act) : handOut (s.withAct k a) = s.afterAct k a := by
  have hq : ((s.raiseAll (.lane k) a.notices).setLane k a.lane).withOutbox [] =
      (s.raiseAll (.lane k) a.notices).setLane k a.lane := by
    rw [show [] = ((s.raiseAll (.lane k) a.notices).setLane k a.lane).outbox by simp [h]]
    rfl
  unfold State.withAct State.afterAct handOut handLines
  rw [h, State.withOutbox_outbox, State.withOutbox_withOutbox, hq]
  cases a.emits <;> rfl

/-! ## Acts whose notices are withheld -/

/-- A few notices that reach an empty queue are all stored, in order. -/
theorem Queue.arriveAll_few (bs : List NoticeBody) (stamp : Word) (h : bs.length ≤ 2) :
    (Queue.arriveAll [] bs stamp).map Notice.body = bs := by
  match bs, h with
  | [], _ | [_], _ | [_, _], _ => rfl

/-- Notices raised over an empty queue, nothing being on its way. -/
theorem State.raiseAll_withNotices_nil (x : Sender) (bs : List NoticeBody) :
    (s.withNotices [] []).raiseAll x bs = s.withNotices (Queue.arriveAll [] bs s.timebase.counter) [] := by
  cases bs with
  | nil => rfl
  | cons b bs => rw [State.raiseAll_eq (List.cons_ne_nil b bs)]; rfl

/-- A lane's act with its notices withheld is the act without them, and these notices. -/
theorem withheld_of_act {act : State → State} {a : Act}
    (h : act (s.withNotices [] []) = (s.withNotices [] []).withAct k a) (ha : a.notices.length ≤ 2) :
    withheld act s = (s.withAct k { a with notices := [] }, a.notices) := by
  simp only [withheld, h]
  refine Prod.ext ?_ ?_
  · simp only
    rw [State.withAct_frame, State.withAct_frame]
    rfl
  · simp only
    rw [State.withAct_frame, State.raiseAll_withNotices_nil]
    exact Queue.arriveAll_few _ _ ha

end Sys2Proof.Machine
end

