-- ==== Sys2Proof/Laws/Blocks.lean ====
section
/-! SUPPORT. What the passing of core clock periods, the handing out of an event and the raising of TRIP notices leave as it
was, and what they change. -/

namespace Sys2Proof.Machine

variable (s : State)

/-! ## Core clock periods -/

section
variable (d : Nat)

@[simp] theorem elapse_table : (elapse d s).table = s.table := rfl
@[simp] theorem elapse_buffer : (elapse d s).buffer = s.buffer := rfl
@[simp] theorem elapse_job : (elapse d s).job = s.job := rfl
@[simp] theorem elapse_lanes : (elapse d s).lanes = s.lanes := rfl
@[simp] theorem elapse_owners : (elapse d s).owners = s.owners := rfl
@[simp] theorem elapse_safeLevels : (elapse d s).safeLevels = s.safeLevels := rfl
@[simp] theorem elapse_driveEnable : (elapse d s).driveEnable = s.driveEnable := rfl
@[simp] theorem elapse_posArg : (elapse d s).posArg = s.posArg := rfl
@[simp] theorem elapse_settings : (elapse d s).settings = s.settings := rfl
@[simp] theorem elapse_tripRefused : (elapse d s).tripRefused = s.tripRefused := rfl
@[simp] theorem elapse_tripArg0 : (elapse d s).tripArg0 = s.tripArg0 := rfl
@[simp] theorem elapse_tripArg1 : (elapse d s).tripArg1 = s.tripArg1 := rfl
@[simp] theorem elapse_jobArgSrc : (elapse d s).jobArgSrc = s.jobArgSrc := rfl
@[simp] theorem elapse_jobArgDst : (elapse d s).jobArgDst = s.jobArgDst := rfl
@[simp] theorem elapse_jobArgCount : (elapse d s).jobArgCount = s.jobArgCount := rfl
@[simp] theorem elapse_queue : (elapse d s).queue = s.queue := rfl
@[simp] theorem elapse_late : (elapse d s).late = s.late := rfl
@[simp] theorem elapse_irqEnable : (elapse d s).irqEnable = s.irqEnable := rfl
@[simp] theorem elapse_staging : (elapse d s).staging = s.staging := rfl
@[simp] theorem elapse_cmdResult : (elapse d s).cmdResult = s.cmdResult := rfl
@[simp] theorem elapse_cmdRefused : (elapse d s).cmdRefused = s.cmdRefused := rfl
@[simp] theorem elapse_laneSel : (elapse d s).laneSel = s.laneSel := rfl
@[simp] theorem elapse_resetLow : (elapse d s).resetLow = s.resetLow := rfl
@[simp] theorem elapse_outbox : (elapse d s).outbox = s.outbox := rfl
@[simp] theorem elapse_picks : (elapse d s).picks = s.picks := rfl
@[simp] theorem elapse_early : (elapse d s).early = s.early := rfl
@[simp] theorem elapse_pending : (elapse d s).pending = s.pending := rfl

@[simp] theorem elapse_lane (k : LaneId) : (elapse d s).lane k = s.lane k := rfl
@[simp] theorem elapse_pins : (elapse d s).inputs.pins = s.inputs.pins := rfl
@[simp] theorem elapse_polarity : (elapse d s).inputs.polarity = s.inputs.polarity := rfl
@[simp] theorem elapse_filters : (elapse d s).inputs.filters = s.inputs.filters := rfl
@[simp] theorem elapse_accepted : (elapse d s).inputs.accepted = s.inputs.accepted := rfl
@[simp] theorem elapse_counter : (elapse d s).timebase.counter = s.timebase.counter := rfl
@[simp] theorem elapse_running : (elapse d s).timebase.running = s.timebase.running := rfl

end

/-! ## Events of the core clock -/

/-- An event of the core clock happens exactly when it is in progress, RESET# is high and nothing falls due before it. -/
theorem clockEvent_spec (lacking : Option Nat) (act : State → State) (s : State) :
    clockEvent lacking act s = s ∧ (∀ d, lacking = some d → s.resetLow = true ∨ s.nothingBefore d = false) ∨
      ∃ d, lacking = some d ∧ s.resetLow = false ∧ s.nothingBefore d = true ∧
        clockEvent lacking act s = act (goOnTo d s) := by
  unfold clockEvent
  cases lacking with
  | none => exact .inl ⟨rfl, nofun⟩
  | some d =>
    cases hr : s.resetLow <;> cases hb : s.nothingBefore d <;> simp [hb]

/-- What the block leaves as it was on its way to an event of the core clock. -/
theorem goOnTo_same (d : Nat) (s : State) :
    ∃ t, SameBlocks t s ∧ (goOnTo d s = t ∨ goOnTo d s = elapse d t) := by
  unfold goOnTo
  split
  · exact ⟨s, rfl, .inl rfl⟩
  · exact ⟨drain s, sansWalk_drain s, .inr rfl⟩

/-! ## Handing out an event -/

section
variable (e : Event)

@[simp] theorem handToAll_table : (handToAll e s).table = s.table := rfl
@[simp] theorem handToAll_buffer : (handToAll e s).buffer = s.buffer := rfl
@[simp] theorem handToAll_job : (handToAll e s).job = s.job := rfl
@[simp] theorem handToAll_owners : (handToAll e s).owners = s.owners := rfl
@[simp] theorem handToAll_safeLevels : (handToAll e s).safeLevels = s.safeLevels := rfl
@[simp] theorem handToAll_driveEnable : (handToAll e s).driveEnable = s.driveEnable := rfl
@[simp] theorem handToAll_inputs : (handToAll e s).inputs = s.inputs := rfl
@[simp] theorem handToAll_units : (handToAll e s).units = s.units := rfl
@[simp] theorem handToAll_posArg : (handToAll e s).posArg = s.posArg := rfl
@[simp] theorem handToAll_trips : (handToAll e s).trips = s.trips := rfl
@[simp] theorem handToAll_settings : (handToAll e s).settings = s.settings := rfl
@[simp] theorem handToAll_tripRefused : (handToAll e s).tripRefused = s.tripRefused := rfl
@[simp] theorem handToAll_tripArg0 : (handToAll e s).tripArg0 = s.tripArg0 := rfl
@[simp] theorem handToAll_tripArg1 : (handToAll e s).tripArg1 = s.tripArg1 := rfl
@[simp] theorem handToAll_jobArgSrc : (handToAll e s).jobArgSrc = s.jobArgSrc := rfl
@[simp] theorem handToAll_jobArgDst : (handToAll e s).jobArgDst = s.jobArgDst := rfl
@[simp] theorem handToAll_jobArgCount : (handToAll e s).jobArgCount = s.jobArgCount := rfl
@[simp] theorem handToAll_queue : (handToAll e s).queue = s.queue := rfl
@[simp] theorem handToAll_late : (handToAll e s).late = s.late := rfl
@[simp] theorem handToAll_irqEnable : (handToAll e s).irqEnable = s.irqEnable := rfl
@[simp] theorem handToAll_timebase : (handToAll e s).timebase = s.timebase := rfl
@[simp] theorem handToAll_staging : (handToAll e s).staging = s.staging := rfl
@[simp] theorem handToAll_cmdResult : (handToAll e s).cmdResult = s.cmdResult := rfl
@[simp] theorem handToAll_cmdRefused : (handToAll e s).cmdRefused = s.cmdRefused := rfl
@[simp] theorem handToAll_laneSel : (handToAll e s).laneSel = s.laneSel := rfl
@[simp] theorem handToAll_resetLow : (handToAll e s).resetLow = s.resetLow := rfl
@[simp] theorem handToAll_outbox : (handToAll e s).outbox = s.outbox := rfl
@[simp] theorem handToAll_picks : (handToAll e s).picks = s.picks := rfl
@[simp] theorem handToAll_compared : (handToAll e s).compared = s.compared := rfl
@[simp] theorem handToAll_restarted : (handToAll e s).restarted = s.restarted := rfl
@[simp] theorem handToAll_early : (handToAll e s).early = s.early := rfl
@[simp] theorem handToAll_pending : (handToAll e s).pending = s.pending := rfl

/-- A lane that ignores events is left as it is; to any other lane the event is on its way, last. -/
theorem lane_handToAll (k : LaneId) :
    (handToAll e s).lane k =
      if (s.lane k).ignores then s.lane k else (s.lane k).withComing ((s.lane k).coming ++ [e]) := by
  simp [handToAll]

end

/-! ## Latch settings -/

/-- The TRIP notices of the complete settings at the front are raised in order, and the other settings go on waiting. -/
theorem raiseTrips_eq (l : List Setting) (s : State) :
    raiseTrips l s =
      (s.withSettings (l.dropWhile fun x => x.left == 0)).raiseTripNotices
        ((l.takeWhile fun x => x.left == 0).map fun x => .trip x.source x.moved) := rfl

end Sys2Proof.Machine
end

