-- ==== Sys2Proof/Laws/Taken.lean ====
section
/-! SUPPORT. States in which the lanes have nothing left to take or to complete, how a lane completes what it is in the middle
of, and what a lane takes next. -/

namespace Sys2Proof.Machine

variable {s : State} {k : LaneId}

/-! ## Nothing left to take -/

theorem State.AllTaken.ready_nil (h : s.AllTaken) (k : LaneId) : (s.lane k).ready = [] := by
  unfold Lane.ready
  cases he : (s.lane k).entry with
  | none => simp [h.kept_nil k he, h.coming_nil k]
  | some e => simp [h.coming_nil k]

theorem State.AllTaken.work_nil (h : s.AllTaken) : s.work 0 = [] := by
  simp only [State.work, List.append_eq_nil_iff, List.flatMap_eq_nil_iff, State.arrivals_eq_nil]
  refine ⟨fun k _ => ?_, h.late_nil⟩
  simp [Lane.work, h.ready_nil k, State.serves]

/-- A lane with events on their way has one that is the next of its source. -/
theorem Lane.coming_nil_of_next {l : Lane} (h : l.coming.filter l.nextOfSource = []) : l.coming = [] := by
  cases hc : l.coming with
  | nil => rfl
  | cons e es =>
    have hn : l.nextOfSource e = true := by
      have hs : e.sameSource e = true := by cases e <;> simp [Event.sameSource]
      simp [Lane.nextOfSource, hc, hs]
    rw [hc] at h
    simp [hn] at h

theorem Lane.taken_of_ready_nil {l : Lane} (h : l.ready = []) : l.coming = [] ∧ (l.entry = none → l.kept = []) := by
  unfold Lane.ready at h
  cases he : l.entry <;> cases hk : l.kept <;> simp only [he, hk, reduceCtorEq] at h
  · exact ⟨Lane.coming_nil_of_next h, fun _ => rfl⟩
  · exact ⟨Lane.coming_nil_of_next h, nofun⟩
  · exact ⟨Lane.coming_nil_of_next h, nofun⟩

theorem State.AllTaken.of_work_nil (h : s.work 0 = []) : s.AllTaken := by
  simp only [State.work, List.append_eq_nil_iff, List.flatMap_eq_nil_iff, State.arrivals_eq_nil] at h
  have hr : ∀ k, (s.lane k).ready = [] := by
    intro k
    have := h.1 k (List.mem_finRange k)
    simp only [Lane.work, List.append_eq_nil_iff, List.map_eq_nil_iff] at this
    exact this.2
  exact ⟨h.2, fun k => (Lane.taken_of_ready_nil (hr k)).1, fun k => (Lane.taken_of_ready_nil (hr k)).2⟩

theorem State.AllTaken.drain (h : s.AllTaken) : drain s = s := drain_of_work_nil h.work_nil

/-! ## The completion of entries, in the order of the takers -/

/-- The fetch that is served first is one that lane k's fetch waits for, and none has to be served before it. -/
theorem State.leader_spec {j : LaneId} (h : s.leader k = some j) : s.precedes j k = true ∧ s.inTurn j = true := by
  simpa using List.find?_some h

/-- A lane without an entry in progress waits for no fetch, and no fetch of another lane waits for its own. -/
theorem State.precedes_eq_false (h : (s.lane k).entry = none) (j : LaneId) :
    s.precedes j k = false ∧ s.precedes k j = false := by
  have : (s.lane k).enteredAt = none := by simp [Lane.enteredAt, h]
  unfold State.precedes
  rw [this]
  refine ⟨?_, by simp⟩
  cases (s.lane j).enteredAt <;> simp

theorem State.inTurn_of_settled (h : (s.lane k).entry = none) : s.inTurn k = true := by
  simp [State.inTurn, (State.precedes_eq_false h _).1]

theorem serveLeader_of_settled (h : (s.lane k).entry = none) : serveLeader k s = s := by
  have : s.leader k = none := by simp [State.leader, (State.precedes_eq_false h _).1]
  simp [serveLeader, this]

/-- A lane that is not in the middle of an entry has none to complete. -/
theorem serveInTurn_of_settled (h : (s.lane k).entry = none) : serveInTurn k s = s := by
  have key : ∀ ls : List LaneId, ls.foldl (fun s _ => serveLeader k s) s = s := by
    intro ls
    induction ls with
    | nil => rfl
    | cons _ ls ih => rw [List.foldl_cons, serveLeader_of_settled h, ih]
  rw [serveInTurn, key, serveFetch_of_settled h]

/-- A property that the service of any fetch keeps is kept by the completion of an entry in its turn. -/
theorem serveInTurn_induct {P : State → Prop} (hf : ∀ s j, P s → P (serveFetch j s)) (h : P s) : P (serveInTurn k s) := by
  have key : ∀ (ls : List LaneId) (s : State), P s → P (ls.foldl (fun s _ => serveLeader k s) s) := by
    intro ls
    induction ls with
    | nil => exact fun _ h => h
    | cons _ ls ih =>
      intro s h
      refine ih (serveLeader k s) ?_
      unfold serveLeader
      split
      · exact h
      · exact hf _ _ h
  exact hf _ _ (key allLanes s h)

/-- The completion of a lane's entry leaves it with none. -/
theorem serveInTurn_settled (k : LaneId) (s : State) : ((serveInTurn k s).lane k).settled := serveFetch_settled _ _

/-- A property that the service of any fetch keeps, and the taking of a kept event by a lane not in the middle of an entry,
is kept when a lane completes what it is in the middle of. -/
theorem completeLane_induct {P : State → Prop} (hf : ∀ s j, P s → P (serveFetch j s))
    (ht : ∀ s e, (s.lane k).settled → P s → P (takeEvent k e (s.onLane k Lane.dropKept))) (h : P s) :
    P (completeLane k s) := by
  have key : ∀ (es : List Event) (s : State), (s.lane k).settled → P s →
      P (es.foldl (fun s e => serveInTurn k (takeEvent k e (s.onLane k Lane.dropKept))) s) := by
    intro es
    induction es with
    | nil => exact fun _ _ h => h
    | cons e es ih =>
      intro s hs h
      rw [List.foldl_cons]
      exact ih _ (serveInTurn_settled _ _) (serveInTurn_induct hf (ht s e hs h))
  unfold completeLane
  exact key _ _ (serveInTurn_settled k s) (serveInTurn_induct hf h)

/-! ## Nothing left to complete -/

theorem completeLane_of_settled (he : (s.lane k).entry = none) (hk : (s.lane k).kept = []) : completeLane k s = s := by
  simp only [completeLane, serveInTurn_of_settled he, hk, List.foldl_nil]

/-- Lanes that are not in the middle of an entry have nothing to complete. -/
theorem completeLanes_of_settled (mask : LaneMask) (h : ∀ k, (s.lane k).entry = none ∧ (s.lane k).kept = []) :
    completeLanes mask s = s := by
  have key : ∀ ls : List LaneId,
      ls.foldl (fun s (k : LaneId) => if mask.getLsbD k then completeLane k s else s) s = s := by
    intro ls
    induction ls with
    | nil => rfl
    | cons k ls ih =>
      rw [List.foldl_cons]
      split
      · rw [completeLane_of_settled (h k).1 (h k).2, ih]
      · exact ih
  exact key allLanes

/-! ## What a lane takes next -/

/-- A lane that takes the event next: the event is removed from those that wait, and the lane's act follows. -/
theorem takeNext_of_taking {e : Event} {l : Lane} (h : (s.lane k).taking e = some l) :
    takeNext k e s = takeEvent k e (s.setLane k l) := by
  unfold Lane.taking at h
  simp only [takeNext]
  split at h
  · rename_i x rest he hk
    split at h
    · rename_i hx
      cases h
      subst hx
      simp only [he, hk, if_true, State.onLane, Lane.dropKept, List.tail_cons]
    · cases h
  · rename_i he hk
    split at h
    · rename_i hn
      cases h
      simp only [he, hk, hn, if_true, reach]
      rw [if_pos]
      · simp only [State.onLane, Lane.withComing, he, hk]
      · simp [Lane.free, Lane.withComing, he, hk]
    · cases h
  · cases h

theorem deliver_of_taking {e : Event} {l : Lane} (h : (s.lane k).taking e = some l) :
    deliver k e s = handOut (takeEvent k e (s.setLane k l)) := congrArg handOut (takeNext_of_taking h)

/-- With nothing to hand out before, the step in which a lane takes an event is the state after the lane's act. -/
theorem deliver_eq_afterAct {e : Event} {l : Lane} {a : Act} (h : (s.lane k).taking e = some l) (hs : s.outbox = [])
    (ha : takeEvent k e (s.setLane k l) = (s.setLane k l).withAct k a) : deliver k e s = s.afterAct k a := by
  rw [deliver_of_taking h, ha, handOut_withAct (by simpa using hs)]
  simp only [State.afterAct, State.raiseAll_setLane, State.setLane_setLane]

/-! ## The taking of a tick whose notices reach the queue apart -/

theorem Lane.enters_notices (l : Lane) (full : Bool) (o : Nat) (c : EntryCause) :
    (l.enters k full o c).notices.length ≤ 1 := by
  unfold Lane.enters
  repeat' split
  all_goals simp [Lane.requests, Lane.applies, Act.silent]

theorem Lane.leaves_notices (l : Lane) (skipped : Bool) : (l.leaves k skipped).notices.length ≤ 1 := by
  have ends (l : Lane) : (l.ends k skipped).notices.length ≤ 1 := by
    unfold Lane.ends
    dsimp only
    repeat' split
    all_goals simp [Lane.applies, Lane.faults]
  have goesOn (l : Lane) : (l.goesOn k skipped).notices.length ≤ 1 := by
    unfold Lane.goesOn
    split
    · exact l.enters_notices _ _ _
    · exact ends l
  unfold Lane.leaves
  repeat' split
  all_goals first | exact goesOn _ | exact Lane.enters_notices _ _ _ _ | simp [Lane.faults, Act.silent]

/-- The taking of a tick raises at most two notices. -/
theorem Lane.ticks_notices (l : Lane) (accepted : BitVec 16) : (l.ticks k accepted).notices.length ≤ 2 := by
  have leaves (l : Lane) (b : Bool) := Lane.leaves_notices (k := k) l b
  unfold Lane.ticks
  split
  · simp only [Act.bridge]
    split
    · exact (leaves _ _).trans (by decide)
    · split
      · unfold Lane.actsOnFault
        repeat' split
        · simp [Act.silent]
        · simpa [Act.after] using leaves _ _
        · simpa [Act.after] using Lane.enters_notices (k := k) _ _ _ _
        · simp [Lane.faults]
      · simp [Act.silent]
  · simp [Act.silent]
  · simp [Act.silent]

/-- A lane that takes a tick with its notices apart comes to what it comes to with them together, but that the first of them is
stored and the others are on their way (R172; log 4). -/
theorem takeTickApart_of_taking {l : Lane} (h : (s.lane k).taking .tick = some l) :
    let a := l.ticks k s.inputs.accepted
    takeTickApart k s = (s.withAct k { a with notices := [] }).raiseApart (.lane k) a.notices := by
  have hn : takeNext k .tick (s.withNotices [] []) =
      (s.withNotices [] []).withAct k (l.ticks k s.inputs.accepted) := by
    rw [takeNext_of_taking (s := s.withNotices [] []) (l := l) h, takeEvent, takeTick_eq]
    simp only [State.withAct, State.raiseAll_setLane, State.setLane_setLane]
    simp
  simp only [takeTickApart, withheld_of_act hn (Lane.ticks_notices l _)]

end Sys2Proof.Machine
end

