-- ==== Sys2Proof/Laws/CommandLanes.lean ====
section
/-! SUPPORT. A lane command over several lanes: every named lane takes its part, and what happens beside it is what the
block allows, so the whole is what `State.Commands` describes (R29, R30). -/

namespace Sys2Proof.Machine

/-- The state without what can change within a lane command: what can change beside it, and CMD_REFUSED. -/
def State.sansCommand (s : State) : State := { s.sansChain with cmdRefused := 0 }

/-- In every state that a lane command can come to from s, the judgement of a lane is the act that `judged` gives. -/
def JudgesBy (judge : LaneId → State → Judgement) (s : State) (judged : State → LaneId → Except Result Act) : Prop :=
  ∀ (k : LaneId) (t : State), t.sansCommand = s.sansCommand → judge k t = (judged t k).map fun a => t.withAct k a

section
variable (s : State)

theorem sansCommand_of_sansChain {s t : State} (h : t.sansChain = s.sansChain) : t.sansCommand = s.sansCommand := by
  simp [State.sansCommand, h]

@[simp] theorem sansCommand_cmdRefused (m : LaneMask) : ({ s with cmdRefused := m } : State).sansCommand = s.sansCommand :=
  rfl

@[simp] theorem sansCommand_withAct (k : LaneId) (a : Act) : (s.withAct k a).sansCommand = s.sansCommand := by
  rw [State.withAct_frame]
  rfl

@[simp] theorem sansCommand_interlude (but : LaneMask) : (interlude but s).sansCommand = s.sansCommand :=
  sansCommand_of_sansChain (sansChain_interlude s but)

theorem sansCommand_of_sansWalk {s t : State} (h : t.sansWalk = s.sansWalk) : t.sansCommand = s.sansCommand :=
  sansCommand_of_sansChain (SameBlocks.outside h)

@[simp] theorem sansCommand_completeLane (k : LaneId) : (completeLane k s).sansCommand = s.sansCommand :=
  sansCommand_of_sansWalk (sansWalk_completeLane s k)

@[simp] theorem sansCommand_serveFetch (k : LaneId) : (serveFetch k s).sansCommand = s.sansCommand :=
  sansCommand_of_sansWalk (sansWalk_serveFetch s k)

@[simp] theorem sansCommand_serveFetchApart (k : LaneId) : (serveFetchApart k s).sansCommand = s.sansCommand :=
  sansCommand_of_sansWalk (sansWalk_withheld s fun t => sansWalk_serveFetch t k)

@[simp] theorem sansCommand_arriveFrom (x : Sender) : (s.arriveFrom x).sansCommand = s.sansCommand := rfl

@[simp] theorem sansCommand_between (x : Todo) : (x.between s).sansCommand = s.sansCommand := by
  simp only [Todo.between]
  split
  · rfl
  · split <;> simp

@[simp] theorem sansCommand_refuseLane (k : LaneId) (r : Result) : (refuseLane k r s).sansCommand = s.sansCommand := rfl

end

section
variable {judge : LaneId → State → Judgement} {judged : State → LaneId → Except Result Act} {s : State}

/-- What a lane named makes of a command is the act that `judged` gives, and changes only what can change within a lane
command. -/
theorem judgeLane_spec (h : JudgesBy judge s judged) (k : LaneId) {t : State} (ht : t.sansCommand = s.sansCommand) :
    State.Judged judged k t (judgeLane judge k t) ∧ (judgeLane judge k t).sansCommand = s.sansCommand := by
  simp only [judgeLane, State.Judged]
  have hv : (completeLane k t).sansCommand = s.sansCommand := by simp [ht]
  rw [h k _ hv]
  cases hd : judged (completeLane k t) k with
  | error r => exact ⟨rfl, by simpa [Except.map] using hv⟩
  | ok a => exact ⟨by simp only [Except.map, State.onLane_withAct], by simpa [Except.map, State.onLane_withAct] using hv⟩

/-- The service of a fetch with its notice on its way is the completion of the entry (R47, R48). -/
theorem serveFetchApart_spec (k : LaneId) (t : State) : State.Fetched k t (serveFetchApart k t) := by
  unfold State.Fetched
  split
  · rename_i he
    rw [serveFetchApart, withheld, serveFetch_of_settled (s := t.withNotices [] []) he]
    exact State.send_nil
  · rename_i e he
    have hn : ((t.lane k).completes k e (t.fetched k) t.owners).notices.length ≤ 2 := by
      unfold Lane.completes Lane.failsEntry Lane.faults
      repeat' split
      all_goals simp
    rw [serveFetchApart, withheld_of_act (serveFetch_eq (s := t.withNotices [] []) he) hn]
    rfl

/-- Between two parts only what can go on beside a lane command has happened, and what is held back is still on its way. -/
theorem Todo.between_spec (x : Todo) (t : State) :
    t.GoesOn (maskOfLines x.waiting) (x.between t) ∧ State.Keeps x.held t (x.between t) := by
  simp only [Todo.between]
  split
  · exact ⟨.refl t, fun _ _ => List.prefix_rfl⟩
  · split
    · rename_i h
      exact ⟨interlude_goesOn _ t, h⟩
    · exact ⟨.refl t, fun _ _ => List.prefix_rfl⟩

/-- How many parts may still come. -/
def Todo.size (x : Todo) : Nat := 3 * x.left.length + 2 * x.waiting.length + x.held.length

/-- A part that comes next stores a notice that is held back, serves a fetch that waits, or is the judgement of a lane that is
left, which leaves what is held back on its way. -/
theorem Todo.mem_parts {x : Todo} {u : State} {p : Part} (hp : p ∈ x.parts judge u) :
    (∃ k ∈ x.held, p = .store k) ∨ (∃ k ∈ x.waiting, p = .fetch k) ∨
      ∃ k ∈ x.left, State.Keeps x.held u (judgeLane judge k u) ∧ p = .judge k := by
  simp only [Todo.parts, List.mem_append, List.mem_map, List.mem_filter, decide_eq_true_eq] at hp
  obtain (⟨k, hk, rfl⟩ | ⟨k, hk, rfl⟩) | ⟨k, ⟨hk, hkeep⟩, rfl⟩ := hp
  · exact .inl ⟨k, hk, rfl⟩
  · exact .inr (.inl ⟨k, hk, rfl⟩)
  · exact .inr (.inr ⟨k, hk, hkeep, rfl⟩)

theorem Todo.size_pos {x : Todo} (hx : x ≠ .done) : 1 ≤ x.size := by
  obtain ⟨left, waiting, held⟩ := x
  cases left <;> cases waiting <;> cases held <;> simp_all [Todo.size, Todo.done]
  all_goals omega

/-- Something is left to do as long as there is a part that can come next. -/
theorem Todo.parts_ne_nil {x : Todo} (hx : x ≠ .done) (u : State) : x.parts judge u ≠ [] := by
  obtain ⟨left, waiting, held⟩ := x
  cases left <;> cases waiting <;> cases held <;> simp_all [Todo.parts, Todo.done, State.Keeps]

/-- Each part leaves fewer to do. -/
theorem Todo.size_after {x : Todo} {u : State} (t : State) {p : Part} (hp : p ∈ x.parts judge u) :
    (x.after u t p).size < x.size := by
  rcases Todo.mem_parts hp with ⟨k, hk, rfl⟩ | ⟨k, hk, rfl⟩ | ⟨k, hk, _, rfl⟩
  all_goals
    have hl := List.length_erase_of_mem hk
    have := List.length_pos_of_mem hk
    simp only [Todo.after, Todo.size, hl]
  · omega
  · split <;> simp <;> omega
  · split <;> simp <;> omega

theorem nextPart_mem (free : Bool) (p : Part) (ps : List Part) (t : State) : (nextPart free p ps t).1 ∈ p :: ps := by
  unfold nextPart
  split
  · exact (choose_spec p ps t).1
  · exact List.mem_cons_self

/-- The parts of a lane command are what the relation of the statements allows, in whatever order they are drawn. -/
theorem doParts_spec (h : JudgesBy judge s judged) (free : Bool) (n : Nat) :
    ∀ (x : Todo) (t : State), x.size ≤ n → t.sansCommand = s.sansCommand →
      State.Parts judged x.left x.waiting x.held (doParts free judge n x t).1 t (doParts free judge n x t).2 := by
  induction n with
  | zero =>
    intro x t hn ht
    have : x = .done := by
      by_contra hx
      have := Todo.size_pos hx
      omega
    subst this
    exact .done t
  | succ n ih =>
    intro x t hn ht
    rw [doParts]
    split
    · rename_i hx
      subst hx
      exact .done t
    · rename_i hx
      refine .goOn (x.between_spec t).1 (x.between_spec t).2 ?_
      have hu : (x.between t).sansCommand = s.sansCommand := by simp [ht]
      generalize x.between t = u at hu
      dsimp only
      split
      · rename_i he
        exact absurd he (Todo.parts_ne_nil hx u)
      · rename_i p ps hps
        have hm := hps ▸ nextPart_mem free p ps u
        generalize nextPart free p ps u = c at hm
        have hsize := Todo.size_after (doPart judge u c.1) hm
        have ht' : ∀ q, (doPart judge u q).sansCommand = s.sansCommand := by
          rintro (k | k | k)
          · exact (judgeLane_spec h k hu).2
          · simpa [doPart] using hu
          · simpa [doPart] using hu
        have hrest := ih (x.after u (doPart judge u c.1) c.1) ((doPart judge u c.1).withPicks c.2.picks) (by omega)
          ((show _ = (doPart judge u c.1).sansCommand from rfl).trans (ht' _))
        have hpick : ∀ {left waiting held stored v},
            State.Parts judged left waiting held stored ((doPart judge u c.1).withPicks c.2.picks) v →
            State.Parts judged left waiting held stored (doPart judge u c.1) v :=
          .goOn (Relation.ReflTransGen.single (.inl ⟨_, rfl⟩)) fun _ _ => List.prefix_rfl
        replace hrest := hpick hrest
        simp only
        rcases Todo.mem_parts hm with ⟨k, hk, hk'⟩ | ⟨k, hk, hk'⟩ | ⟨k, hk, hkeep, hk'⟩
        all_goals simp only [hk', Part.stores, Todo.after, doPart, List.cons_append, List.nil_append] at hrest ⊢
        · exact .store hk hrest
        · exact .fetch hk (serveFetchApart_spec k u) hrest
        · exact .judge hk (judgeLane_spec h k hu).1 hkeep hrest

/-- Where the parts are taken in the order of the list, the notices of the entries that the command causes are stored in that
order. -/
theorem doParts_sublist (n : Nat) :
    ∀ (x : Todo) (t : State), (doParts false judge n x t).1.Sublist (x.held ++ (x.waiting ++ x.left)) := by
  induction n with
  | zero => intro x t; exact List.nil_sublist _
  | succ n ih =>
    intro x t
    rw [doParts]
    split
    · exact List.nil_sublist _
    · generalize x.between t = u
      dsimp only
      split
      · exact List.nil_sublist _
      · rename_i p ps hps
        dsimp only [nextPart]
        simp only [Bool.false_eq_true, if_false]
        have hrest := ih (x.after u (doPart judge u p) p) ((doPart judge u p).withPicks u.picks)
        generalize doParts false judge n (x.after u (doPart judge u p) p) _ = r at hrest
        obtain ⟨left, waiting, held⟩ := x
        match held, waiting, left with
        | k :: ks, _, _ =>
          simp only [Todo.parts, List.map_cons, List.cons_append, List.cons.injEq] at hps
          obtain ⟨rfl, _⟩ := hps
          simp only [Todo.after, List.erase_cons_head] at hrest
          exact hrest.cons_cons k
        | [], k :: ks, _ =>
          simp only [Todo.parts, List.map_nil, List.nil_append, List.map_cons, List.cons_append, List.cons.injEq] at hps
          obtain ⟨rfl, _⟩ := hps
          simp only [Todo.after, List.erase_cons_head, List.nil_append] at hrest
          simp only [Part.stores, List.nil_append]
          split at hrest
          · exact (by simpa using hrest : r.1.Sublist _).cons k
          · simpa using hrest
        | [], [], [] => simp [Todo.parts] at hps
        | [], [], k :: ks =>
          have : p = .judge k := by
            simp only [Todo.parts, State.Keeps, List.not_mem_nil, false_imp_iff, implies_true, decide_true, List.filter_true,
              List.map_nil, List.nil_append, List.map_cons, List.cons.injEq] at hps
            exact hps.1.symm
          subst this
          simp only [Todo.after, List.erase_cons_head, List.nil_append] at hrest
          simp only [Part.stores, List.nil_append]
          split at hrest
          · simpa using hrest
          · exact (by simpa using hrest : r.1.Sublist ks).cons k

theorem lanesOf_pairwise (mask : LaneMask) : (lanesOf mask).Pairwise (· < ·) :=
  (List.pairwise_lt_finRange 8).filter _

theorem Todo.size_first (mask : LaneMask) : (Todo.first mask).size ≤ 24 := by
  have : (lanesOf mask).length ≤ (List.finRange 8).length := List.length_filter_le _ _
  simp only [List.length_finRange] at this
  simp only [Todo.first, Todo.size, List.length_nil]
  omega

/-- Every named lane takes its part, in an order in which the notices of the entries that the command causes are stored in
ascending lane order. -/
theorem commandLanes_parts (h : JudgesBy judge s judged) (mask : LaneMask) :
    ∃ stored, State.Parts judged (lanesOf mask) [] [] stored s (commandLanes judge mask s) ∧ stored.Pairwise (· < ·) := by
  simp only [commandLanes]
  split
  · rename_i hp
    exact ⟨_, doParts_spec h true 24 (.first mask) s (Todo.size_first mask) rfl, hp⟩
  · exact ⟨_, doParts_spec h false 24 (.first mask) s (Todo.size_first mask) rfl,
      (lanesOf_pairwise mask).sublist (doParts_sublist 24 (.first mask) s)⟩

/-- A lane command while RESET# is high is the parts of the named lanes, and what follows from them. -/
theorem laneCommand_parts (hs : s.resetLow = false) (h : JudgesBy judge s judged) (mask : LaneMask) :
    ∃ t stored, State.Parts judged (lanesOf mask) [] [] stored { s with cmdRefused := 0 } t ∧ stored.Pairwise (· < ·) ∧
      laneCommand judge mask s = followUp t := by
  obtain ⟨stored, h1, h2⟩ := commandLanes_parts (s := { s with cmdRefused := 0 })
    (fun k t ht => h k t (ht.trans (sansCommand_cmdRefused s 0))) mask
  exact ⟨_, stored, h1, h2, by simp [laneCommand, hostAccess, hs]⟩

/-- A command that names no lane clears CMD_REFUSED, and the emissions that wait are handed out. -/
theorem laneCommand_of_none (hs : s.resetLow = false) :
    laneCommand judge 0 s = followUp { s with cmdRefused := 0 } := by
  have : Todo.first 0 = .done := by decide
  have : ∀ free t, doParts free judge 24 (.first 0) t = ([], t) := by
    intro free t
    rw [this, doParts, if_pos rfl]
  simp only [laneCommand, commandLanes, this, List.Pairwise.nil, if_true, hostAccess, hs, Bool.false_eq_true, if_false]

/-- A property that everything that goes on, every judgement, every fetch and every arrival keep is kept by a lane command's
parts. -/
theorem doParts_induct {P : State → Prop} (hpick : ∀ s p, P s → P { s with picks := p })
    (hgo : ∀ s but, P s → P (interlude but s)) (hjudge : ∀ s k, P s → P (judgeLane judge k s))
    (hfetch : ∀ s k, P s → P (serveFetchApart k s)) (hstore : ∀ s x, P s → P (s.arriveFrom x)) (free : Bool) (n : Nat) :
    ∀ (x : Todo) (t : State), P t → P (doParts free judge n x t).2 := by
  have hpart : ∀ s p, P s → P (doPart judge s p) := by
    rintro s (k | k | k) hs
    · exact hjudge s k hs
    · exact hfetch s k hs
    · exact hstore s _ hs
  have hbetween : ∀ (x : Todo) s, P s → P (x.between s) := by
    intro x s hs
    simp only [Todo.between]
    split
    · exact hs
    · split
      · exact hgo _ _ hs
      · exact hs
  induction n with
  | zero => exact fun _ _ ht => ht
  | succ n ih =>
    intro x t ht
    rw [doParts]
    split
    · exact ht
    · have hu := hbetween x t ht
      generalize x.between t = u at hu
      dsimp only
      split
      · exact hu
      · exact ih _ _ (hpick _ _ (hpart _ _ hu))

/-- The same of all that the named lanes do. -/
theorem commandLanes_induct {P : State → Prop} (hpick : ∀ s p, P s → P { s with picks := p })
    (hgo : ∀ s but, P s → P (interlude but s)) (hjudge : ∀ s k, P s → P (judgeLane judge k s))
    (hfetch : ∀ s k, P s → P (serveFetchApart k s)) (hstore : ∀ s x, P s → P (s.arriveFrom x)) (mask : LaneMask) (hs : P s) :
    P (commandLanes judge mask s) := by
  simp only [commandLanes]
  split <;> exact doParts_induct hpick hgo hjudge hfetch hstore _ _ _ _ hs

end
end Sys2Proof.Machine
end

