-- ==== Sys2Proof/Laws/OneLane.lean ====
section
/-! SUPPORT. The acts of one lane: what each makes of that lane, and that it leaves every other lane as it was. -/

namespace Sys2Proof.Machine

/-- t comes from s by acts of lane k alone: the blocks and every other lane are as they were. -/
structure OnlyLane (k : LaneId) (t s : State) : Prop where
  blocks : t.sansWalk = s.sansWalk
  others : ∀ j, j ≠ k → t.lane j = s.lane j

section
variable {k : LaneId} {s t u : State}

theorem OnlyLane.rfl : OnlyLane k s s := ⟨Eq.refl _, fun _ _ => Eq.refl _⟩

theorem OnlyLane.trans (h : OnlyLane k t s) (h' : OnlyLane k u t) : OnlyLane k u s :=
  ⟨h'.blocks.trans h.blocks, fun j hj => (h'.others j hj).trans (h.others j hj)⟩

theorem OnlyLane.onLane (h : OnlyLane k t s) (f : Lane → Lane) : OnlyLane k (t.onLane k f) s :=
  h.trans ⟨sansWalk_onLane t k f, fun _ hj => t.lane_onLane_ne hj f⟩

theorem OnlyLane.raise (h : OnlyLane k t s) (b : NoticeBody) : OnlyLane k (t.raise b) s :=
  h.trans ⟨sansWalk_raise t b, fun _ _ => Eq.refl _⟩

theorem OnlyLane.raiseFrom (h : OnlyLane k t s) (x : Sender) (b : NoticeBody) : OnlyLane k (t.raiseFrom x b) s :=
  h.trans ⟨sansWalk_raiseFrom t x b, fun _ _ => Eq.refl _⟩

theorem OnlyLane.raiseTripNotices (h : OnlyLane k t s) (bs : List NoticeBody) : OnlyLane k (t.raiseTripNotices bs) s :=
  h.trans ⟨sansWalk_raiseTripNotices t bs, fun j _ => t.raiseTripNotices_lane bs j⟩

theorem OnlyLane.withNotices (h : OnlyLane k t s) (q : List Notice) (l : List (Sender × NoticeBody)) :
    OnlyLane k (t.withNotices q l) s :=
  h.trans ⟨sansWalk_withNotices t q l, fun _ _ => Eq.refl _⟩

theorem OnlyLane.raiseWhen (h : OnlyLane k t s) (c : Bool) (i : LaneId) (b : NoticeBody) :
    OnlyLane k (t.raiseWhen c i b) s :=
  h.trans ⟨sansWalk_raiseWhen t c i b, fun j _ => t.raiseWhen_lane c i b j⟩

theorem OnlyLane.emitWhen (h : OnlyLane k t s) (c : Bool) (j : LaneId) : OnlyLane k (t.emitWhen c j) s :=
  h.trans ⟨sansWalk_emitWhen t c j, fun i _ => t.emitWhen_lane c j i⟩

theorem OnlyLane.withSettings (h : OnlyLane k t s) (l : List Setting) : OnlyLane k (t.withSettings l) s :=
  h.trans ⟨sansWalk_withSettings t l, fun _ _ => Eq.refl _⟩

theorem OnlyLane.requestEntry (h : OnlyLane k t s) (full : Bool) (o : Nat) (c : EntryCause) :
    OnlyLane k (requestEntry k full o c t) s := h.onLane _

theorem OnlyLane.applySwap (h : OnlyLane k t s) (d : Descriptor) (o : SwapOccasion) :
    OnlyLane k (applySwap k d o t) s := ((h.onLane _).raiseFrom _ _).requestEntry _ _ _

theorem OnlyLane.enter (h : OnlyLane k t s) (full : Bool) (o : Nat) (c : EntryCause) :
    OnlyLane k (enter k full o c t) s := by
  unfold Machine.enter
  split
  · split
    · exact h.applySwap _ _
    · exact h.requestEntry _ _ _
  · exact h.requestEntry _ _ _

theorem OnlyLane.startEvent (h : OnlyLane k t s) : OnlyLane k (startEvent k t) s := by
  unfold Machine.startEvent
  split
  · exact h.applySwap _ _
  · exact h.requestEntry _ _ _

theorem OnlyLane.faultEntry (h : OnlyLane k t s) (c : FaultCause) : OnlyLane k (faultEntry k c t) s :=
  ((h.onLane _).raiseFrom _ _).emitWhen _ _

theorem OnlyLane.commit (h : OnlyLane k t s) (c : EntryCause) (r : Record) : OnlyLane k (commit k c r t) s :=
  ((h.onLane _).raiseWhen _ _ _).emitWhen _ _

theorem OnlyLane.completeEntry (h : OnlyLane k t s) (e : Entry) (r : Record) :
    OnlyLane k (completeEntry k e r t) s := by
  unfold Machine.completeEntry
  split
  · exact (h.onLane _).faultEntry _
  · split
    · split
      · exact (h.onLane _).faultEntry _
      · exact (h.onLane _).commit _ _
    · exact h.commit _ _

theorem OnlyLane.serveFetch (h : OnlyLane k t s) : OnlyLane k (serveFetch k t) s := by
  unfold Machine.serveFetch
  split
  · exact h
  · exact (h.onLane _).completeEntry _ _

theorem OnlyLane.passEnd (h : OnlyLane k t s) (o : EndOutcome) : OnlyLane k (passEnd k o t) s :=
  ((h.onLane _).raiseFrom _ _).emitWhen _ _

theorem OnlyLane.endOfRange (h : OnlyLane k t s) (b : Bool) : OnlyLane k (endOfRange k b t) s := by
  simp only [Machine.endOfRange]
  split
  · exact h.applySwap _ _
  · split
    · exact h.faultEntry _
    · split
      · exact (h.passEnd _).onLane _
      · exact (h.passEnd _).requestEntry _ _ _

theorem OnlyLane.goToNext (h : OnlyLane k t s) (b : Bool) : OnlyLane k (goToNext k b t) s := by
  simp only [Machine.goToNext]
  split
  · exact h.enter _ _ _
  · exact h.endOfRange _

theorem OnlyLane.leave (h : OnlyLane k t s) (b : Bool) : OnlyLane k (leave k b t) s := by
  simp only [Machine.leave]
  split
  · exact h
  · split
    · split
      · exact h.faultEntry _
      · split
        · exact (h.onLane _).enter _ _ _
        · exact (h.onLane _).goToNext _
    · exact h.goToNext _

theorem OnlyLane.faultAction (h : OnlyLane k t s) : OnlyLane k (faultAction k t) s := by
  simp only [Machine.faultAction]
  split
  · exact h
  · split
    · exact (h.raiseFrom _ _).leave _
    · exact ((h.raiseFrom _ _).onLane _).enter _ _ _
    all_goals exact h.faultEntry _

theorem OnlyLane.advanceIfMet (h : OnlyLane k t s) : OnlyLane k (advanceIfMet k t) s := by
  simp only [Machine.advanceIfMet]
  split
  · exact h.leave _
  · exact h

theorem OnlyLane.judgeTick (h : OnlyLane k t s) (n : Nat) (m : Option Nat) : OnlyLane k (judgeTick k n m t) s := by
  unfold Machine.judgeTick
  split
  · exact h.leave _
  · split
    · exact h.faultAction
    · exact h

theorem OnlyLane.takeTick (h : OnlyLane k t s) : OnlyLane k (takeTick k t) s := by
  simp only [Machine.takeTick]
  split
  · exact ((h.onLane _).judgeTick _ _).onLane _
  · exact h.onLane _
  all_goals exact h

theorem OnlyLane.followTaking (h : OnlyLane k t s) (e : Event) : OnlyLane k (followTaking k e t) s := by
  unfold Machine.followTaking
  exact h.onLane _

theorem OnlyLane.takeEdge (h : OnlyLane k t s) (n : InputId) (e : Sense) : OnlyLane k (takeEdge k n e t) s := by
  simp only [Machine.takeEdge]
  split
  · split
    · exact h.startEvent.followTaking _
    · exact h
  · split
    · exact (h.onLane _).advanceIfMet
    · split
      · exact h.advanceIfMet
      · exact h

theorem OnlyLane.takeArrival (h : OnlyLane k t s) (u : UnitId) (v : Word) (d : Direction) :
    OnlyLane k (takeArrival k u v d t) s := by
  unfold Machine.takeArrival
  split
  · exact (h.onLane _).advanceIfMet
  · exact h

theorem OnlyLane.takeEmission (h : OnlyLane k t s) (line : LaneId) : OnlyLane k (takeEmission k line t) s := by
  simp only [Machine.takeEmission]
  split
  · split
    · exact h.startEvent.followTaking _
    · exact h
  · split
    · exact (h.onLane _).advanceIfMet.followTaking _
    · exact h

theorem OnlyLane.raiseTrips (h : OnlyLane k t s) (l : List Setting) : OnlyLane k (raiseTrips l t) s := by
  exact (h.withSettings _).raiseTripNotices _

theorem OnlyLane.takeForcing (h : OnlyLane k t s) (n : SourceId) : OnlyLane k (takeForcing k n t) s :=
  ((h.onLane _).withSettings _).raiseTrips _

theorem OnlyLane.reachForcing (h : OnlyLane k t s) (n : SourceId) : OnlyLane k (reachForcing n k t) s := by
  unfold Machine.reachForcing
  split
  · exact (h.onLane _).withSettings _
  · exact h.onLane _

theorem OnlyLane.takeEvent (h : OnlyLane k t s) (e : Event) : OnlyLane k (takeEvent k e t) s := by
  cases e with
  | tick => exact h.takeTick
  | edge n e => exact h.takeEdge n e
  | arrival u v d => exact h.takeArrival u v d
  | emission line => exact h.takeEmission line
  | forcing n => exact h.takeForcing n

theorem OnlyLane.reach (h : OnlyLane k t s) (e : Event) : OnlyLane k (reach k e t) s := by
  unfold Machine.reach
  split
  · exact h.takeEvent e
  · exact h.onLane _

end

/-! ## What the lane itself becomes -/

section
variable (k : LaneId) (s : State)

@[simp] theorem lane_requestEntry (full : Bool) (o : Nat) (c : EntryCause) :
    (requestEntry k full o c s).lane k = { s.lane k with active := o, entry := some { full, cause := c } } := by
  simp [requestEntry]

@[simp] theorem lane_applySwap (d : Descriptor) (o : SwapOccasion) :
    (applySwap k d o s).lane k =
      { s.lane k with
        descriptor := d, swap := none, stack := [], cycles := 0, active := d.preset
        entry := some { full := true, cause := .swap } } := by
  simp [applySwap, installSwap]

@[simp] theorem lane_faultEntry (c : FaultCause) :
    (faultEntry k c s).lane k = (s.lane k).fault c := by
  simp [faultEntry]

@[simp] theorem lane_entryFault (c : FaultCause) :
    (entryFault k c s).lane k = (s.lane k).unenter.fault c := by
  simp [entryFault]

@[simp] theorem lane_commit (c : EntryCause) (r : Record) :
    (commit k c r s).lane k = (s.lane k).commit r (pulseAfterCommit s.owners k r (s.lane k).pulse) := by
  simp [commit]

@[simp] theorem lane_passEnd (o : EndOutcome) :
    (passEnd k o s).lane k = { s.lane k with cycles := min Config.countMax ((s.lane k).cycles + 1) } := by
  simp [passEnd]

@[simp] theorem lane_raiseTrips (l : List Setting) (j : LaneId) : (raiseTrips l s).lane j = s.lane j := by
  simp [raiseTrips]

@[simp] theorem lane_takeForcing (n : SourceId) : (takeForcing k n s).lane k = (s.lane k).force := by
  simp [takeForcing, forceLane]

end
end Sys2Proof.Machine
end

