-- ==== Sys2Proof/Laws/LaneOk.lean ====
section
/-! SUPPORT. Every act of a lane keeps the lane in its ranges, and its pulse on its own line. -/

namespace Sys2Proof.Machine

/-- The lane is in its ranges, and its pulse in flight is on a line it owns. -/
structure LaneGood (owners : Vector (Option LaneId) 32) (k : LaneId) (l : Lane) : Prop where
  ok : l.Ok
  owned : ∀ p, l.pulse = some p → owners[p.line.val] = some k

theorem State.LanesOk.good {s : State} (h : s.LanesOk) (k : LaneId) : LaneGood s.owners k (s.lane k) :=
  ⟨h.each k, fun p hp => h.pulses k p hp⟩

theorem State.LanesOk.of_good {s : State} (h : ∀ k, LaneGood s.owners k (s.lane k)) : s.LanesOk :=
  ⟨fun k => (h k).ok, fun k p hp => (h k).owned p hp⟩

/-- Acts of one lane that leave it good leave every lane good. -/
theorem State.LanesOk.onlyLane {k : LaneId} {s t : State} (h : s.LanesOk) (hk : OnlyLane k t s)
    (hg : LaneGood t.owners k (t.lane k)) : t.LanesOk := by
  refine .of_good fun j => ?_
  by_cases hj : j = k
  · subst hj; exact hg
  · rw [hk.others j hj, SameBlocks.owners hk.blocks]; exact h.good j

section
variable {ow : Vector (Option LaneId) 32} {k : LaneId} {l : Lane}

theorem Lane.Ok.prior_eq_none (h : l.Ok) (hs : l.state ≠ .tripped) : l.prior = none := by
  cases hp : l.prior with
  | none => rfl
  | some p => exact absurd (h.prior_tripped (by simp [hp])) hs

theorem Lane.Ok.length_pos (h : l.Ok) : 0 < l.descriptor.length := Nat.lt_of_le_of_lt (Nat.zero_le _) h.active_lt

/-- The events kept and on their way, and the last result, are not in the ranges. -/
theorem LaneGood.sameContext {l' : Lane} (h : LaneGood ow k l)
    (e : l' = { l with lastResult := l'.lastResult, kept := l'.kept, coming := l'.coming }) : LaneGood ow k l' := by
  rw [e]
  obtain ⟨⟨h1, h2, h3, h4, h5, h6, h7, h8, h9, h10, h11, h12, h13, h14, h15, h16, h17⟩, h18⟩ := h
  exact ⟨⟨h1, h2, h3, h4, h5, h6, h7, h8, h9, h10, h11, h12, h13, h14, h15, h16, h17⟩, h18⟩

/-- The events that a lane forgets are not in its ranges. -/
theorem LaneGood.forget (h : LaneGood ow k l) : LaneGood ow k l.forget := h.sameContext rfl

/-- The lane requests the fetch of an entry. -/
theorem LaneGood.request (h : LaneGood ow k l) (hp : l.prior = none) {o : Nat} (ho : o < l.descriptor.length)
    (e : Entry) : LaneGood ow k { l with active := o, entry := some e } := by
  obtain ⟨⟨h1, h2, h3, h4, h5, h6, h7, h8, h9, h10, h11, h12, h13, h14, h15, h16, h17⟩, h18⟩ := h
  exact ⟨⟨h1, ho, h3, h4, h5, h6, h7, nofun, nofun, h10, h11, h12, h13, h14, h15, h16, fun _ => hp⟩, h18⟩

/-- The lane applies a swap at an entry or at an end of range. -/
theorem LaneGood.applied (h : LaneGood ow k l) (hp : l.prior = none) {d : Descriptor} (hd : d.Ok) (e : Entry) :
    LaneGood ow k
      { l with descriptor := d, swap := none, stack := [], cycles := 0, active := d.preset, entry := some e } := by
  obtain ⟨⟨h1, h2, h3, h4, h5, h6, h7, h8, h9, h10, h11, h12, h13, h14, h15, h16, h17⟩, h18⟩ := h
  exact ⟨⟨hd, hd.preset_lt, nofun, Nat.zero_le _, fun _ => rfl, nofun, fun _ => rfl, nofun, nofun, h10, h11, h12, h13,
    Nat.zero_le _, h15, h16, fun _ => hp⟩, h18⟩

/-- A lane that is not in a trip enters FAULTED. -/
theorem LaneGood.faulted (h : LaneGood ow k l) (hp : l.prior = none) (c : FaultCause) : LaneGood ow k (l.fault c) := by
  obtain ⟨⟨h1, h2, h3, h4, h5, h6, h7, h8, h9, h10, h11, h12, h13, h14, h15, h16, h17⟩, h18⟩ := h
  refine ⟨⟨h1, h2, h3, h4, ?_, h6, ?_, h8, ?_, h10, h11, h12, h13, h14, nofun, ?_, h17⟩, nofun⟩ <;> simp [Lane.fault, hp]

/-- The repeat stack replaced by frames that are in range. -/
theorem LaneGood.withStack (h : LaneGood ow k l) {st : List Frame} (hf : ∀ f ∈ st, f.Ok l.descriptor.length)
    (hd : st.length ≤ 4) (he : l.stack = [] → st = []) : LaneGood ow k { l with stack := st } := by
  obtain ⟨⟨h1, h2, h3, h4, h5, h6, h7, h8, h9, h10, h11, h12, h13, h14, h15, h16, h17⟩, h18⟩ := h
  exact ⟨⟨h1, h2, hf, hd, fun hx => he (h5 hx), h6, h7, h8, h9, h10, h11, h12, h13, h14, h15, h16, h17⟩, h18⟩

end

section
variable {k : LaneId} {s : State}

/-- The state's lane k is good. -/
abbrev Good (k : LaneId) (s : State) : Prop := LaneGood s.owners k (s.lane k)

theorem Good.applySwap (h : Good k s) (hp : (s.lane k).prior = none) {d : Descriptor} (hd : d.Ok)
    (o : SwapOccasion) : Good k (applySwap k d o s) := by
  rw [Good, lane_applySwap, SameBlocks.owners (sansWalk_applySwap s k d o)]
  exact LaneGood.applied h hp hd _

theorem Good.enter (h : Good k s) (hp : (s.lane k).prior = none) (full : Bool) {o : Nat}
    (ho : o < (s.lane k).descriptor.length) (c : EntryCause) : Good k (enter k full o c s) := by
  have hr : Good k (requestEntry k full o c s) := by
    rw [Good, lane_requestEntry]; exact LaneGood.request h hp ho _
  unfold Machine.enter
  split
  · rename_i d hd
    split
    · exact h.applySwap hp (h.ok.swap_ok d hd) _
    · exact hr
  · exact hr

theorem Good.startEvent (h : Good k s) (hp : (s.lane k).prior = none) : Good k (startEvent k s) := by
  unfold Machine.startEvent
  split
  · rename_i d hd; exact h.applySwap hp (h.ok.swap_ok d hd) _
  · rw [Good, lane_requestEntry]; exact LaneGood.request h hp h.ok.active_lt _

theorem Good.faultEntry (h : Good k s) (hp : (s.lane k).prior = none) (c : FaultCause) :
    Good k (faultEntry k c s) := by
  rw [Good, lane_faultEntry, SameBlocks.owners (sansWalk_faultEntry s k c)]
  exact LaneGood.faulted h hp c

theorem Good.passEnd (h : Good k s) (o : EndOutcome) : Good k (passEnd k o s) := by
  rw [Good, lane_passEnd, SameBlocks.owners (sansWalk_passEnd s k o)]
  obtain ⟨⟨h1, h2, h3, h4, h5, h6, h7, h8, h9, h10, h11, h12, h13, h14, h15, h16, h17⟩, h18⟩ := h
  exact ⟨⟨h1, h2, h3, h4, h5, h6, h7, h8, h9, h10, h11, h12, h13, Nat.min_le_left _ _, h15, h16, h17⟩, h18⟩

/-- A lane that leaves its step is RUNNING, so no trip prior state is held. -/
theorem Good.running_prior (h : Good k s) (hr : (s.lane k).state = .running) : (s.lane k).prior = none :=
  h.ok.prior_eq_none (by simp [hr])

theorem Good.endOfRange (h : Good k s) (hr : (s.lane k).state = .running) (b : Bool) :
    Good k (endOfRange k b s) := by
  have hp := h.running_prior hr
  simp only [Machine.endOfRange]
  split
  · rename_i d hd; exact h.applySwap hp (h.ok.swap_ok d hd) _
  · rename_i hsw
    split
    · exact h.faultEntry hp _
    · rename_i hst
      have hst : (s.lane k).stack = [] := by simpa using hst
      split
      · have := h.passEnd (k := k) .done
        rw [Good, lane_passEnd] at this
        rw [Good, State.lane_onLane_self, lane_passEnd, State.onLane_owners]
        obtain ⟨⟨h1, h2, h3, h4, h5, h6, h7, h8, h9, h10, h11, h12, h13, h14, h15, h16, h17⟩, h18⟩ := this
        refine ⟨⟨h1, h2, h3, h4, fun _ => hst, h6, fun _ => hsw, h8, fun hs _ => h9 hs (.inl hr), ?_,
          Nat.zero_le _, nofun, h13, h14, ?_, ?_, h17⟩, h18⟩
        · intro hc; exact ⟨rfl, rfl, (h10 hc).2.2⟩
        · intro p hpu; obtain ⟨a, b, _⟩ := h15 p hpu; exact ⟨a, b, .inr (.inr rfl)⟩
        · intro hx; simp [Lane.goToDone, hp] at hx
      · have := h.passEnd (k := k) .wrap
        rw [Good, lane_requestEntry]
        refine LaneGood.request this ?_ ?_ _
        · simpa using hp
        · simpa using h.ok.length_pos

theorem Good.goToNext (h : Good k s) (hr : (s.lane k).state = .running) (b : Bool) : Good k (goToNext k b s) := by
  simp only [Machine.goToNext]
  split
  · exact h.enter (h.running_prior hr) _ ‹_› _
  · exact h.endOfRange hr _

theorem Good.leave (h : Good k s) (hr : (s.lane k).state = .running) (b : Bool) : Good k (leave k b s) := by
  have hp := h.running_prior hr
  simp only [Machine.leave]
  split
  · exact h
  · split
    · split
      · exact h.faultEntry hp _
      · rename_i top below hst
        have hf : ∀ f ∈ top :: below, f.Ok (s.lane k).descriptor.length := hst ▸ h.ok.frames_ok
        have hd : (top :: below).length ≤ 4 := hst ▸ h.ok.depth_le
        have hne : (s.lane k).stack = [] → ∀ x : List Frame, x = [] := by intro e; rw [e] at hst; cases hst
        split
        · rename_i h2
          have hg : Good k (s.onLane k fun l => { l with stack := ⟨top.head, top.passes - 1⟩ :: below }) := by
            rw [Good, State.lane_onLane_self]
            refine LaneGood.withStack h ?_ hd (fun e => hne e _)
            intro f hfm
            rcases List.mem_cons.1 hfm with rfl | hfm
            · have := hf top (by simp)
              exact ⟨this.head_lt, Nat.le_sub_of_add_le h2, Nat.le_trans (Nat.sub_le _ _) this.passes_le⟩
            · exact hf f (by simp [hfm])
          refine hg.enter ?_ _ ?_ _
          · simpa using hp
          · simpa using (hf top (by simp)).head_lt
        · have hg : Good k (s.onLane k fun l => { l with stack := below }) := by
            rw [Good, State.lane_onLane_self]
            exact LaneGood.withStack h (fun f hfm => hf f (by simp [hfm]))
              (Nat.le_trans (Nat.le_succ _) hd) (fun e => hne e _)
          exact hg.goToNext (by simpa using hr) _
    · exact h.goToNext hr _

theorem Record.divert_lt {r : Record} {n : Nat} (h : r.validFor n = true) (hf : r.onFault = some .divert) :
    r.divert < n := by
  simp only [Record.validFor, hf, Bool.and_eq_true, Bool.not_eq_true'] at h
  simpa using h.2

theorem Good.faultAction (h : Good k s) (hr : (s.lane k).state = .running) (hs : (s.lane k).settled) :
    Good k (faultAction k s) := by
  have hp := h.running_prior hr
  simp only [Machine.faultAction]
  split
  · exact h
  · rename_i r hc
    split
    · exact Good.leave (s := s.raiseFrom _ _) h hr _
    · rename_i hf
      have hg : Good k ((s.raiseFrom (.lane k) (.fault k (s.lane k).active .limit .divert)).onLane k fun l => { l with stack := [] }) := by
        rw [Good, State.lane_onLane_self]
        exact LaneGood.withStack h nofun (Nat.zero_le _) (fun _ => rfl)
      refine hg.enter ?_ _ ?_ _
      · simpa using hp
      · simpa using Record.divert_lt (h.ok.copy_valid hs r hc) hf
    all_goals exact h.faultEntry hp _

theorem Good.advanceIfMet (h : Good k s) : Good k (advanceIfMet k s) := by
  simp only [Machine.advanceIfMet]
  split
  · rename_i hc
    refine h.leave ?_ _
    simp only [Lane.awaitsCondition, Bool.and_eq_true, decide_eq_true_eq] at hc
    exact hc.1.1
  · exact h

theorem Pulse.count_ok {p q : Pulse} (h : p.count = some q) (hp : 1 ≤ p.ticks ∧ p.ticks ≤ 65535) :
    q.line = p.line ∧ 1 ≤ q.ticks ∧ q.ticks ≤ 65535 := by
  unfold Pulse.count at h
  split at h
  · cases h
  · cases h; refine ⟨rfl, ?_, ?_⟩ <;> simp only <;> omega

theorem LaneGood.countPulse {ow : Vector (Option LaneId) 32} {l : Lane} (h : LaneGood ow k l) :
    LaneGood ow k { l with pulse := l.pulse.bind Pulse.count } := by
  have hpulse : ∀ p, l.pulse.bind Pulse.count = some p → ∃ q, l.pulse = some q ∧ p.line = q.line ∧
      1 ≤ p.ticks ∧ p.ticks ≤ 65535 := by
    intro p hp
    obtain ⟨q, hq, hc⟩ := Option.bind_eq_some_iff.1 hp
    have := h.ok.pulse_ok q hq
    obtain ⟨a, b, c⟩ := Pulse.count_ok hc ⟨this.1, this.2.1⟩
    exact ⟨q, hq, a, b, c⟩
  obtain ⟨⟨h1, h2, h3, h4, h5, h6, h7, h8, h9, h10, h11, h12, h13, h14, h15, h16, h17⟩, h18⟩ := h
  refine ⟨⟨h1, h2, h3, h4, h5, h6, h7, h8, h9, h10, h11, h12, h13, h14, ?_, h16, h17⟩, ?_⟩
  · intro p hp
    obtain ⟨q, hq, _, b, c⟩ := hpulse p hp
    exact ⟨b, c, (h15 q hq).2.2⟩
  · intro p hp
    obtain ⟨q, hq, e, _⟩ := hpulse p hp
    simp only [e]
    exact h18 q hq

theorem LaneGood.countTick {ow : Vector (Option LaneId) 32} {l : Lane} (h : LaneGood ow k l) :
    LaneGood ow k l.countTick := by
  obtain ⟨⟨h1, h2, h3, h4, h5, h6, h7, h8, h9, h10, h11, h12, h13, h14, h15, h16, h17⟩, h18⟩ := h.countPulse
  refine ⟨⟨h1, h2, h3, h4, h5, h6, h7, h8, h9, ?_, ?_, ?_, h13, h14, h15, h16, h17⟩, h18⟩
  · intro hc
    obtain ⟨a, b, c, d⟩ := h10 hc
    simp only at a b c d
    simp [Lane.countTick, a, b, c, d]
  · exact Nat.le_trans (Nat.sub_le _ _) h11
  · intro n hn
    obtain ⟨m, hm, hx⟩ := Option.bind_eq_some_iff.1 hn
    have := h12 m hm
    split at hx
    · cases hx
    · cases hx; omega

/-- What an entry in progress goes on showing is not in the ranges. -/
theorem LaneGood.mapEntry {ow : Vector (Option LaneId) 32} {l : Lane} (h : LaneGood ow k l) (f : Entry → Entry) :
    LaneGood ow k { l with entry := l.entry.map f } := by
  obtain ⟨⟨h1, h2, h3, h4, h5, h6, h7, h8, h9, h10, h11, h12, h13, h14, h15, h16, h17⟩, h18⟩ := h
  have hs : ({ l with entry := l.entry.map f } : Lane).settled ↔ l.settled := by
    unfold Lane.settled; simp
  exact ⟨⟨h1, h2, h3, h4, h5, h6, h7, fun e => h8 (hs.1 e), fun e => h9 (hs.1 e), h10, h11, h12, h13, h14, h15, h16,
    fun e => h17 (by simpa using e)⟩, h18⟩

/-- Nor is the place of an entry among those that one event leads to. -/
theorem Good.followTaking (h : Good k s) (e : Event) : Good k (followTaking k e s) := by
  unfold Machine.followTaking
  rw [Good, State.lane_onLane_self]
  exact LaneGood.mapEntry h _

theorem Good.judgeTick (h : Good k s) (hr : (s.lane k).state = .running) (hs : (s.lane k).settled) (n : Nat)
    (m : Option Nat) : Good k (judgeTick k n m s) := by
  unfold Machine.judgeTick
  split
  · exact h.leave hr _
  · split
    · exact h.faultAction hr hs
    · exact h

theorem Good.takeTick (h : Good k s) (hs : (s.lane k).settled) : Good k (takeTick k s) := by
  have hg : Good k (s.onLane k Lane.countTick) := by
    rw [Good, State.lane_onLane_self]; exact LaneGood.countTick h
  simp only [Machine.takeTick]
  split
  · rename_i hr
    rw [Good, State.lane_onLane_self]
    exact LaneGood.mapEntry
      (hg.judgeTick (by simpa [Lane.countTick] using hr) (by simpa [Lane.countTick] using hs) _ _) _
  · rw [Good, State.lane_onLane_self]; exact LaneGood.countPulse h
  all_goals exact h

/-- The condition state of a lane that has entered its step replaced. -/
theorem LaneGood.withCondition {ow : Vector (Option LaneId) 32} {l : Lane} (h : LaneGood ow k l) (hc : l.copy ≠ none)
    (b : Bool) {n : Nat} (hn : n ≤ 65535) : LaneGood ow k { l with latch := b, edges := n } := by
  obtain ⟨⟨h1, h2, h3, h4, h5, h6, h7, h8, h9, h10, h11, h12, h13, h14, h15, h16, h17⟩, h18⟩ := h
  exact ⟨⟨h1, h2, h3, h4, h5, h6, h7, h8, h9, fun e => absurd e hc, h11, h12, hn, h14, h15, h16, h17⟩, h18⟩

theorem Lane.takesConditions_copy {l : Lane} (h : l.takesConditions = true) : l.copy ≠ none := by
  simp only [Lane.takesConditions, Lane.entered, Bool.and_eq_true] at h
  intro e; simp [e] at h

theorem Good.setLatch (h : Good k s) (hc : (s.lane k).takesConditions = true) :
    Good k (s.onLane k Lane.setLatch) := by
  rw [Good, State.lane_onLane_self]
  exact LaneGood.withCondition h (Lane.takesConditions_copy hc) true h.ok.edges_le

theorem Good.takeEdge (h : Good k s) (n : InputId) (e : Sense) : Good k (takeEdge k n e s) := by
  simp only [Machine.takeEdge]
  split
  · rename_i ha
    split
    · exact (h.startEvent (h.ok.prior_eq_none (by simp [ha]))).followTaking _
    · exact h
  · split
    · rename_i hc
      have hc : (s.lane k).takesConditions = true := by
        simp only [Lane.countsEdge, Bool.and_eq_true] at hc; exact hc.1
      apply Good.advanceIfMet
      rw [Good, State.lane_onLane_self]
      exact LaneGood.withCondition h (Lane.takesConditions_copy hc) _ (Nat.min_le_left _ _)
    · split
      · exact h.advanceIfMet
      · exact h

theorem Good.takeArrival (h : Good k s) (u : UnitId) (v : Word) (d : Direction) :
    Good k (takeArrival k u v d s) := by
  unfold Machine.takeArrival
  split
  · rename_i hc
    simp only [Lane.awaitsArrival, Bool.and_eq_true] at hc
    exact (h.setLatch hc.1).advanceIfMet
  · exact h

theorem Good.takeEmission (h : Good k s) (line : LaneId) : Good k (takeEmission k line s) := by
  simp only [Machine.takeEmission]
  split
  · rename_i ha
    split
    · exact (h.startEvent (h.ok.prior_eq_none (by simp [ha]))).followTaking _
    · exact h
  · split
    · rename_i hc
      simp only [Lane.awaitsEmission, Bool.and_eq_true] at hc
      exact (h.setLatch hc.1.1).advanceIfMet.followTaking _
    · exact h

theorem LaneGood.force {ow : Vector (Option LaneId) 32} {l : Lane} (h : LaneGood ow k l) (hs : l.settled) :
    LaneGood ow k l.force := by
  unfold Lane.force
  split
  · exact h
  · rename_i p hp
    obtain ⟨⟨h1, h2, h3, h4, h5, h6, h7, h8, h9, h10, h11, h12, h13, h14, h15, h16, h17⟩, h18⟩ := h
    refine ⟨⟨h1, h2, h3, h4, ?_, h6, ?_, h8, ?_, h10, h11, h12, h13, h14, nofun, fun _ => rfl, ?_⟩, nofun⟩
    · cases hst : l.state <;> rw [hst] at hp <;> cases hp <;> simp_all
    · cases hst : l.state <;> rw [hst] at hp <;> cases hp <;> simp_all
    · intro _ e
      refine h9 hs ?_
      cases hst : l.state <;> rw [hst] at hp <;> cases hp <;> simp_all
    · simp [show l.entry = none from hs]

theorem Good.takeEvent (h : Good k s) (hs : (s.lane k).settled) (e : Event) : Good k (takeEvent k e s) := by
  cases e with
  | tick => exact h.takeTick hs
  | edge n e => exact h.takeEdge n e
  | arrival u v d => exact h.takeArrival u v d
  | emission line => exact h.takeEmission line
  | forcing n =>
    rw [Good, Machine.takeEvent, lane_takeForcing, SameBlocks.owners (sansWalk_takeForcing s k n)]
    exact LaneGood.force h hs

end
end Sys2Proof.Machine
end

