-- ==== Sys2Proof/Laws/LaneOkSettle.lean ====
section
/-! SUPPORT. Entries, the taking of events by all lanes, settling and the judging of lane commands keep every lane in its
ranges. -/

namespace Sys2Proof.Machine

theorem wordField_lt (w : Word) (low width : Nat) : wordField w low width < 2 ^ width :=
  Nat.mod_lt _ (Nat.two_pow_pos _)

theorem Record.loopCount_range {r : Record} {n : Nat} (h : r.validFor n = true) (hh : r.isHead = true) :
    1 ≤ r.loopCount ∧ r.loopCount ≤ 255 := by
  simp only [Record.validFor, hh, Bool.and_eq_true, Bool.not_eq_true', Bool.and_eq_false_iff, beq_eq_false_iff_ne,
    Bool.true_eq_false, false_or] at h
  have : r.loopCount < 2 ^ 8 := wordField_lt _ _ _
  omega

theorem Record.limitTicks_range {r : Record} {n : Nat} (h : r.limitTicks = some n) : 1 ≤ n ∧ n ≤ 65535 := by
  unfold Record.limitTicks at h
  split at h
  · cases h
  · rename_i h0
    cases h
    have := r.w3.isLt
    have : r.w3.toNat ≠ 0 := fun e => h0 (by simpa using BitVec.eq_of_toNat_eq (y := 0#16) e)
    omega

section
variable {ow : Vector (Option LaneId) 32} {k : LaneId} {l : Lane}

/-- The commit of a valid record by a lane that was in the middle of an entry. -/
theorem LaneGood.commit (h : LaneGood ow k l) (hp : l.prior = none) {r : Record}
    (hv : r.validFor l.descriptor.length = true) :
    LaneGood ow k ({ l with entry := none }.commit r (pulseAfterCommit ow k r l.pulse)) := by
  obtain ⟨⟨h1, h2, h3, h4, h5, h6, h7, h8, h9, h10, h11, h12, h13, h14, h15, h16, h17⟩, h18⟩ := h
  have hpulse : ∀ p, pulseAfterCommit ow k r l.pulse = some p →
      1 ≤ p.ticks ∧ p.ticks ≤ 65535 ∧ ow[p.line.val] = some k := by
    intro p hpu
    unfold pulseAfterCommit at hpu
    split at hpu
    · rename_i hc
      cases hpu
      simp only [Bool.and_eq_true, beq_iff_eq] at hc
      have := r.w9.isLt
      refine ⟨Nat.le_max_left _ _, ?_, hc.2⟩
      simp only [Record.pulseTicks]; omega
    · exact ⟨(h15 p hpu).1, (h15 p hpu).2.1, h18 p hpu⟩
  refine ⟨⟨h1, h2, h3, h4, ?_, h6, ?_, ?_, fun _ _ => rfl, nofun, ?_, fun n hn => Record.limitTicks_range hn,
    Nat.zero_le _, h14, ?_, ?_, nofun⟩, fun p hpu => (hpulse p hpu).2.2⟩
  · simp [Lane.commit, hp]
  · simp [Lane.commit, hp]
  · intro _ r' hr'; cases hr'; exact hv
  · have := r.w2.isLt
    simp only [Lane.commit, Record.dwellTicks]; omega
  · intro p hpu; exact ⟨(hpulse p hpu).1, (hpulse p hpu).2.1, .inl rfl⟩
  · simp [Lane.commit, hp]

/-- An entry ends in an entry fault. -/
theorem LaneGood.entryFault (h : LaneGood ow k l) (hp : l.prior = none) (c : FaultCause) :
    LaneGood ow k ({ l with entry := none }.unenter.fault c) := by
  obtain ⟨⟨h1, h2, h3, h4, h5, h6, h7, h8, h9, h10, h11, h12, h13, h14, h15, h16, h17⟩, h18⟩ := h
  refine ⟨⟨h1, h2, h3, h4, ?_, h6, ?_, nofun, ?_, fun _ => ⟨rfl, rfl, rfl, rfl⟩, Nat.zero_le _, nofun, Nat.zero_le _,
    h14, nofun, ?_, nofun⟩, nofun⟩ <;> simp [Lane.unenter, Lane.fault, hp]

end

section
variable {k : LaneId} {s : State}

theorem Good.serveFetch (h : Good k s) : Good k (serveFetch k s) := by
  have how := SameBlocks.owners (sansWalk_serveFetch s k)
  unfold Good
  rw [how]
  unfold Machine.serveFetch
  split
  · exact h
  · rename_i e he
    have hp : (s.lane k).prior = none := h.ok.prior_none (by simp [he])
    simp only [completeEntry]
    split
    · rw [lane_entryFault, State.lane_onLane_self]; exact LaneGood.entryFault h hp _
    · rename_i hv
      have hv : (s.fetched k).validFor (s.lane k).descriptor.length = true := by simpa using hv
      split
      · rename_i hh
        simp only [Bool.and_eq_true] at hh
        have hl := Record.loopCount_range hv hh.2
        split
        · rw [lane_entryFault, State.lane_onLane_self]; exact LaneGood.entryFault h hp _
        · rename_i hd
          have hd : (s.lane k).stack.length < 4 := by simpa [Config.stackDepth] using hd
          -- the frame pushed is in range, and the lane that holds it commits
          have hc := LaneGood.commit h hp hv
          rw [lane_commit]
          simp only [pushFrame, State.lane_onLane_self, State.onLane_owners]
          obtain ⟨⟨h1, h2, h3, h4, h5, h6, h7, h8, h9, h10, h11, h12, h13, h14, h15, h16, h17⟩, h18⟩ := hc
          refine ⟨⟨h1, h2, ?_, ?_, ?_, h6, h7, h8, h9, h10, h11, h12, h13, h14, h15, h16, h17⟩, h18⟩
          · intro f hf
            rcases List.mem_cons.1 hf with rfl | hf
            · exact ⟨h.ok.active_lt, hl.1, hl.2⟩
            · exact h.ok.frames_ok f hf
          · simpa [Lane.commit] using hd
          · simp [Lane.commit, hp]
      · rw [lane_commit, State.lane_onLane_self, State.onLane_owners]
        exact LaneGood.commit h hp hv

end

/-! ## All lanes -/

section
variable {s : State}

theorem State.LanesOk.congr {t : State} (h : s.LanesOk) (hl : t.lanes = s.lanes) (ho : t.owners = s.owners) :
    t.LanesOk := by
  refine .of_good fun k => ?_
  have : t.lane k = s.lane k := by simp [State.lane, hl]
  rw [ho, this]; exact h.good k

theorem State.LanesOk.raise (h : s.LanesOk) (b : NoticeBody) : (s.raise b).LanesOk := h.congr rfl rfl

theorem State.LanesOk.withNotices (h : s.LanesOk) (q : List Notice) (l : List (Sender × NoticeBody)) :
    (s.withNotices q l).LanesOk := h.congr rfl rfl

theorem State.LanesOk.raiseApart (h : s.LanesOk) (x : Sender) (bs : List NoticeBody) : (s.raiseApart x bs).LanesOk := by
  rw [State.raiseApart_frame]
  exact h.congr rfl rfl

theorem State.LanesOk.arriveNext (h : s.LanesOk) (x : Sender) : (s.arriveNext x).LanesOk := by
  rw [State.arriveNext_frame]
  exact h.congr rfl rfl

theorem State.LanesOk.onLane (h : s.LanesOk) (k : LaneId) {f : Lane → Lane}
    (hf : LaneGood s.owners k (f (s.lane k))) : (s.onLane k f).LanesOk :=
  h.onlyLane (OnlyLane.rfl.onLane f) (by rw [State.lane_onLane_self]; exact hf)

theorem State.LanesOk.onLanes (_h : s.LanesOk) {f : LaneId → Lane → Lane}
    (hf : ∀ k, LaneGood s.owners k (f k (s.lane k))) : (s.onLanes f).LanesOk :=
  .of_good fun k => by rw [State.lane_onLanes]; exact hf k

theorem State.LanesOk.foldl {α : Type} (f : State → α → State) (hf : ∀ s a, s.LanesOk → (f s a).LanesOk)
    (l : List α) : ∀ s : State, s.LanesOk → (l.foldl f s).LanesOk := by
  induction l with
  | nil => intro s h; exact h
  | cons a rest ih => intro s h; exact ih _ (hf s a h)

theorem State.LanesOk.handToAll (h : s.LanesOk) (e : Event) : (handToAll e s).LanesOk :=
  h.onLanes fun k => by
    split
    · exact h.good k
    · exact (h.good k).sameContext rfl

theorem State.LanesOk.handLines (h : s.LanesOk) (lines : List LaneId) : (handLines lines s).LanesOk :=
  State.LanesOk.foldl _ (fun _ _ h => h.handToAll _) _ _ h

theorem State.LanesOk.withOutbox (h : s.LanesOk) (lines : List LaneId) : (s.withOutbox lines).LanesOk := h.congr rfl rfl

theorem State.LanesOk.withPicks (h : s.LanesOk) (n : Nat) : ({ s with picks := n } : State).LanesOk := h.congr rfl rfl

theorem State.LanesOk.handOut (h : s.LanesOk) : (handOut s).LanesOk := (h.withOutbox _).handLines _

theorem State.LanesOk.serveFetch (h : s.LanesOk) (k : LaneId) : (serveFetch k s).LanesOk :=
  h.onlyLane OnlyLane.rfl.serveFetch (Good.serveFetch (h.good k))

theorem State.LanesOk.takeEvent (h : s.LanesOk) {k : LaneId} (hs : (s.lane k).settled) (e : Event) :
    (takeEvent k e s).LanesOk :=
  h.onlyLane (OnlyLane.rfl.takeEvent e) (Good.takeEvent (h.good k) hs e)

theorem State.LanesOk.reach (h : s.LanesOk) (k : LaneId) (e : Event) : (reach k e s).LanesOk := by
  unfold Machine.reach
  split
  · rename_i hf
    simp only [Lane.free, Bool.and_eq_true, Option.isNone_iff_eq_none] at hf
    exact h.takeEvent hf.1 e
  · exact h.onLane k ((h.good k).sameContext rfl)

theorem State.LanesOk.reachForcing (h : s.LanesOk) (n : SourceId) (k : LaneId) : (reachForcing n k s).LanesOk := by
  unfold Machine.reachForcing
  split
  · rename_i hf
    simp only [Lane.free, Bool.and_eq_true, Option.isNone_iff_eq_none] at hf
    refine (h.takeEvent hf.1 (.forcing n)).congr (State.lanes_ext _ fun j => ?_) ?_
    · exact (lane_raiseTrips _ _ j).symm
    · exact (SameBlocks.owners (sansWalk_takeEvent s k (.forcing n))).symm
  · exact h.onLane k ((h.good k).sameContext rfl)

theorem State.LanesOk.dropKept (h : s.LanesOk) (k : LaneId) : (s.onLane k Lane.dropKept).LanesOk :=
  h.onLane k ((h.good k).sameContext rfl)

theorem State.LanesOk.takeNext (h : s.LanesOk) (k : LaneId) (e : Event) : (takeNext k e s).LanesOk := by
  simp only [Machine.takeNext]
  split
  · rename_i e' rest he _
    split
    · exact (h.dropKept k).takeEvent (by simpa [Lane.settled, Lane.dropKept] using he) e
    · exact h
  · split
    · exact (h.onLane k (f := fun l => l.withComing (l.coming.erase e)) ((h.good k).sameContext rfl)).reach k e
    · exact h

theorem State.LanesOk.deliver (h : s.LanesOk) (k : LaneId) (e : Event) : (deliver k e s).LanesOk := (h.takeNext k e).handOut

theorem State.LanesOk.raiseJob (h : s.LanesOk) (o : JobOutcome) : (raiseJob o s).LanesOk := by
  simp only [Machine.raiseJob]
  split <;> exact h.congr rfl rfl

theorem State.LanesOk.withJob (h : s.LanesOk) (j : Job) : ({ s with job := j } : State).LanesOk := h.congr rfl rfl

theorem State.LanesOk.jobServed (h : s.LanesOk) : (jobServed s).LanesOk := by
  simp only [Machine.jobServed]
  split
  · exact (h.withJob _).raiseJob _
  · exact h.withJob _

theorem State.LanesOk.letPass (h : s.LanesOk) : s.letPass.LanesOk := h.onLanes fun k => (h.good k).mapEntry _

theorem State.LanesOk.serveAccess (h : s.LanesOk) : (serveAccess s).LanesOk := by
  unfold Machine.serveAccess
  refine State.LanesOk.jobServed (State.LanesOk.letPass ?_)
  split <;> exact h.congr rfl rfl

theorem State.LanesOk.takeTickApart (h : s.LanesOk) (k : LaneId) : (takeTickApart k s).LanesOk :=
  (((h.withNotices [] []).takeNext k .tick).withNotices _ _).raiseApart _ _

theorem State.LanesOk.arriveFrom (h : s.LanesOk) (x : Sender) : (s.arriveFrom x).LanesOk := h.congr rfl rfl

theorem State.LanesOk.serveFetchApart (h : s.LanesOk) (k : LaneId) : (serveFetchApart k s).LanesOk :=
  (((h.withNotices [] []).serveFetch k).withNotices _ _).withNotices _ _

theorem State.LanesOk.doWork (h : s.LanesOk) (w : Work) : (doWork s w).LanesOk := by
  unfold Machine.doWork
  split
  · exact h.serveFetch _
  · exact h.takeTickApart _
  · exact h.takeNext _ _
  · exact h.arriveNext _

theorem State.LanesOk.settle (h : s.LanesOk) (host : Bool) (n : Nat) (c : Chain) : (settle host n c s).LanesOk :=
  settle_induct (P := State.LanesOk) host (fun _ h => h.withPicks _) (fun _ _ w _ h => (h.doWork w).handOut) n c s h

theorem State.LanesOk.drain (h : s.LanesOk) : (drain s).LanesOk := h.settle _ _ _

/-- A lane that completes its entry takes what it has kept, each event after the entry that the one before led to. -/
theorem State.LanesOk.completeLane (h : s.LanesOk) (k : LaneId) : (completeLane k s).LanesOk :=
  completeLane_induct (P := State.LanesOk) (fun _ j h => h.serveFetch j)
    (fun s e hs h => (h.dropKept k).takeEvent (by simpa [Lane.settled, Lane.dropKept] using hs) e) h

theorem State.LanesOk.completeLanes (h : s.LanesOk) (mask : LaneMask) : (completeLanes mask s).LanesOk :=
  State.LanesOk.foldl _ (fun s k h => by
    split
    · exact h.completeLane k
    · exact h) _ _ h

theorem State.LanesOk.hostAccess (h : s.LanesOk) {act : State → State} (ha : ∀ s : State, s.LanesOk → (act s).LanesOk) :
    (hostAccess act s).LanesOk := by
  unfold Machine.hostAccess
  split
  · exact h
  · exact ha _ h

end

/-! ## The lane commands -/

section
variable {ow : Vector (Option LaneId) 32} {k : LaneId} {l : Lane}

/-- A lane in IDLE or ARMED with its walk cleared, at PRESET. -/
theorem LaneGood.goIdle (h : LaneGood ow k l) (hsw : l.swap = none) (hp : l.prior = none) : LaneGood ow k l.goIdle := by
  obtain ⟨⟨h1, h2, h3, h4, h5, h6, h7, h8, h9, h10, h11, h12, h13, h14, h15, h16, h17⟩, h18⟩ := h
  exact ⟨⟨h1, h1.preset_lt, nofun, Nat.zero_le _, fun _ => rfl, h6, fun _ => hsw, nofun, fun _ e => by simp [Lane.goIdle, Lane.unenter, hp] at e,
    fun _ => ⟨rfl, rfl, rfl, rfl⟩, Nat.zero_le _, nofun, Nat.zero_le _, h14, nofun,
    by intro e; simp [Lane.goIdle, Lane.unenter, hp] at e, fun _ => hp⟩, nofun⟩

/-- The same with a swap put in force. -/
theorem LaneGood.goIdleWith (h : LaneGood ow k l) {d : Descriptor} (hd : d.Ok) (hp : l.prior = none) :
    LaneGood ow k ({ l with descriptor := d, swap := none, stack := [], cycles := 0 } : Lane).goIdle := by
  obtain ⟨⟨h1, h2, h3, h4, h5, h6, h7, h8, h9, h10, h11, h12, h13, h14, h15, h16, h17⟩, h18⟩ := h
  exact ⟨⟨hd, hd.preset_lt, nofun, Nat.zero_le _, fun _ => rfl, nofun, fun _ => rfl, nofun,
    fun _ e => by simp [Lane.goIdle, Lane.unenter, hp] at e, fun _ => ⟨rfl, rfl, rfl, rfl⟩, Nat.zero_le _, nofun,
    Nat.zero_le _, Nat.zero_le _, nofun, by intro e; simp [Lane.goIdle, Lane.unenter, hp] at e, fun _ => hp⟩, nofun⟩

theorem LaneGood.clear (h : LaneGood ow k l) : LaneGood ow k l.clear := by
  obtain ⟨⟨h1, h2, h3, h4, h5, h6, h7, h8, h9, h10, h11, h12, h13, h14, h15, h16, h17⟩, h18⟩ := h
  exact ⟨⟨h1, h1.preset_lt, nofun, Nat.zero_le _, fun _ => rfl, nofun, fun _ => rfl, nofun,
    fun _ e => by simp [Lane.clear, Lane.goIdle] at e, fun _ => ⟨rfl, rfl, rfl, rfl⟩, Nat.zero_le _, nofun, Nat.zero_le _,
    Nat.zero_le _, nofun, nofun, fun _ => rfl⟩, nofun⟩

/-- A descriptor that passes the check of R21 is in the ranges of R18. -/
theorem Staging.image_ok {g : Staging} {d : Descriptor} (h : g.image = some d) : d.Ok := by
  unfold Staging.image at h
  split at h
  · rename_i hr
    simp only [Staging.rangeValid, Bool.and_eq_true, decide_eq_true_eq] at hr
    obtain ⟨source, _, rfl⟩ := Option.map_eq_some_iff.1 h
    have := g.cycles.isLt
    exact ⟨hr.2, hr.1.2, by simp only; omega⟩
  · cases h

end

section
variable {k : LaneId} {s t : State}

/-- A judgement that, where it takes the command, keeps lane k good and touches no other lane. -/
structure JudgeGood (judge : LaneId → State → Judgement) : Prop where
  keeps : ∀ {k s t}, Good k s → judge k s = .ok t → Good k t
  only : ∀ {k s t}, judge k s = .ok t → OnlyLane k t s

theorem judgeStart_good : JudgeGood judgeStart := by
  constructor
  · intro k s t h ht
    simp only [judgeStart] at ht
    split at ht; · cases ht
    split at ht
    · rename_i hst
      have hnt : (s.lane k).state ≠ .tripped := by
        intro e; simp [e] at hst
      have hp := h.ok.prior_eq_none hnt
      have hstk : (s.lane k).stack = [] := h.ok.stack_empty (by
        simp only [Bool.or_eq_true, decide_eq_true_eq] at hst
        rcases hst with e | e <;> simp [e])
      have hsw : (s.lane k).swap = none := h.ok.swap_none (by
        simp only [Bool.or_eq_true, decide_eq_true_eq] at hst
        rcases hst with e | e <;> simp [e])
      split at ht; · cases ht
      split at ht
      · cases ht
        have hg : Good k (s.onLane k fun l => { l with cycles := 0, faultCause := none }) := by
          rw [Good, State.lane_onLane_self]
          obtain ⟨⟨h1, h2, h3, h4, h5, h6, h7, h8, h9, h10, h11, h12, h13, h14, h15, h16, h17⟩, h18⟩ := h
          exact ⟨⟨h1, h2, h3, h4, h5, h6, h7, h8, h9, h10, h11, h12, h13, Nat.zero_le _, h15, h16, h17⟩, h18⟩
        rw [Good, lane_requestEntry]
        refine LaneGood.request hg ?_ ?_ _
        · simpa using hp
        · simpa using h.ok.descriptor_ok.preset_lt
      · cases ht
        rw [Good, State.lane_onLane_self]
        obtain ⟨⟨h1, h2, h3, h4, h5, h6, h7, h8, h9, h10, h11, h12, h13, h14, h15, h16, h17⟩, h18⟩ := h
        refine ⟨⟨h1, h1.preset_lt, h3, h4, fun _ => hstk, h6, fun _ => hsw, nofun, ?_, fun _ => ⟨rfl, rfl, rfl, rfl⟩,
          Nat.zero_le _, nofun, Nat.zero_le _, Nat.zero_le _, nofun, ?_, fun _ => hp⟩, nofun⟩ <;>
          simp [Lane.arm, Lane.unenter, hp]
    · cases ht
  · intro k s t ht
    simp only [judgeStart] at ht
    split at ht; · cases ht
    split at ht
    · split at ht; · cases ht
      split at ht
      · cases ht; exact (OnlyLane.rfl.onLane _).requestEntry _ _ _
      · cases ht; exact OnlyLane.rfl.onLane _
    · cases ht

theorem judgeStop_good : JudgeGood judgeStop := by
  constructor
  · intro k s t h ht
    simp only [judgeStop] at ht
    split at ht; · cases ht
    rename_i hst
    have hp := h.ok.prior_eq_none (fun e => by simp [e] at hst)
    split at ht
    · rename_i d hd
      cases ht
      rw [Good, State.lane_onLane_self]
      simp only [installSwap, State.raiseFrom_lane, State.lane_onLane_self]
      exact LaneGood.goIdleWith h (h.ok.swap_ok d hd) hp
    · rename_i hsw
      cases ht
      rw [Good, State.lane_onLane_self]; exact LaneGood.goIdle h hsw hp
  · intro k s t ht
    simp only [judgeStop] at ht
    split at ht; · cases ht
    split at ht <;> cases ht
    · exact ((OnlyLane.rfl.onLane _).raiseFrom _ _).onLane _
    · exact OnlyLane.rfl.onLane _

theorem judgeHold_good : JudgeGood judgeHold := by
  constructor
  · intro k s t h ht
    simp only [judgeHold] at ht
    split at ht
    · rename_i hr
      cases ht
      rw [Good, State.lane_onLane_self]
      have hp := h.running_prior hr
      obtain ⟨⟨h1, h2, h3, h4, h5, h6, h7, h8, h9, h10, h11, h12, h13, h14, h15, h16, h17⟩, h18⟩ := h
      refine ⟨⟨h1, h2, h3, h4, ?_, h6, ?_, h8, ?_, h10, h11, h12, h13, h14, ?_, ?_, h17⟩, h18⟩
      · simp [hp]
      · simp [hp]
      · simp [hp]
      · intro p e; exact ⟨(h15 p e).1, (h15 p e).2.1, .inr (.inl rfl)⟩
      · simp [hp]
    · cases ht
  · intro k s t ht
    simp only [judgeHold] at ht
    split at ht <;> cases ht
    exact OnlyLane.rfl.onLane _

theorem judgeRelease_good : JudgeGood judgeRelease := by
  constructor
  · intro k s t h ht
    simp only [judgeRelease] at ht
    split at ht
    · rename_i hh
      have hp := h.ok.prior_eq_none (fun e => by simp [e] at hh)
      split at ht
      · rename_i hent
        cases ht
        apply Good.advanceIfMet
        rw [Good, State.lane_onLane_self]
        obtain ⟨⟨h1, h2, h3, h4, h5, h6, h7, h8, h9, h10, h11, h12, h13, h14, h15, h16, h17⟩, h18⟩ := h
        refine ⟨⟨h1, h2, h3, h4, ?_, h6, ?_, h8, fun _ _ => hent, h10, h11, h12, h13, h14, ?_, ?_, h17⟩, h18⟩
        · simp [hp]
        · simp [hp]
        · intro p e; exact ⟨(h15 p e).1, (h15 p e).2.1, .inl rfl⟩
        · simp [hp]
      · cases ht; exact h.enter hp _ h.ok.active_lt _
    · cases ht
  · intro k s t ht
    simp only [judgeRelease] at ht
    split at ht
    · split at ht <;> cases ht
      · exact (OnlyLane.rfl.onLane _).advanceIfMet
      · exact OnlyLane.rfl.enter _ _ _
    · cases ht

theorem judgeStep_good : JudgeGood judgeStep := by
  constructor
  · intro k s t h ht
    simp only [judgeStep] at ht
    split at ht
    · rename_i hc
      cases ht
      simp only [Bool.and_eq_true] at hc
      exact (h.setLatch hc.1).advanceIfMet
    · cases ht
  · intro k s t ht
    simp only [judgeStep] at ht
    split at ht <;> cases ht
    exact (OnlyLane.rfl.onLane _).advanceIfMet

theorem judgeResume_good : JudgeGood judgeResume := by
  constructor
  · intro k s t h ht
    simp only [judgeResume] at ht
    have back : ∀ st : LaneState, st ≠ .running → (st = .done → (s.lane k).prior = some .done) →
        (st = .armed → (s.lane k).prior = some .armed) → st ≠ .idle → (s.lane k).state = .tripped →
        Good k (s.onLane k fun l => { l with state := st, prior := none }) := by
      intro st hr hd ha hi htr
      rw [Good, State.lane_onLane_self]
      obtain ⟨⟨h1, h2, h3, h4, h5, h6, h7, h8, h9, h10, h11, h12, h13, h14, h15, h16, h17⟩, h18⟩ := h
      refine ⟨⟨h1, h2, h3, h4, ?_, h6, ?_, h8, ?_, h10, h11, h12, h13, h14, ?_, nofun, fun _ => rfl⟩, h18⟩
      · rintro (e | e | e | e | e)
        · exact absurd e hi
        · exact h5 (by simp [ha e])
        · exact h5 (by simp [hd e])
        · cases e
        · cases e
      · rintro (e | e | e)
        · exact absurd e hi
        · exact h7 (by simp [hd e])
        · cases e
      · rintro hs (e | e | e | e)
        · exact absurd e hr
        · exact h9 hs (by simp [hd e])
        · cases e
        · cases e
      · intro p hp; have := (h15 p hp).2.2; simp [htr] at this
    split at ht
    · split at ht <;> cases ht
      rename_i hf _
      have hp := h.ok.prior_eq_none (fun e => by simp [e] at hf)
      have hg : Good k (s.onLane k fun l => { l with faultCause := none }) := by
        rw [Good, State.lane_onLane_self]
        obtain ⟨⟨h1, h2, h3, h4, h5, h6, h7, h8, h9, h10, h11, h12, h13, h14, h15, h16, h17⟩, h18⟩ := h
        exact ⟨⟨h1, h2, h3, h4, h5, h6, h7, h8, h9, h10, h11, h12, h13, h14, h15, h16, h17⟩, h18⟩
      exact hg.enter (by simpa using hp) _ (by simpa using h.ok.active_lt) _
    · rename_i htr
      have hg : ∀ p, (s.lane k).prior = some p → p ≠ .done → p ≠ .armed →
          Good k (s.onLane k fun l => { l with prior := none }) := by
        intro p hp hd ha
        rw [Good, State.lane_onLane_self]
        obtain ⟨⟨h1, h2, h3, h4, h5, h6, h7, h8, h9, h10, h11, h12, h13, h14, h15, h16, h17⟩, h18⟩ := h
        refine ⟨⟨h1, h2, h3, h4, ?_, h6, ?_, h8, ?_, h10, h11, h12, h13, h14, h15, nofun, fun _ => rfl⟩, h18⟩ <;>
          simp [htr]
      split at ht; · cases ht
      split at ht
      · rename_i hpr
        cases ht
        exact back .armed nofun nofun (fun _ => hpr) nofun htr
      · rename_i hpr; cases ht; exact back .done nofun (fun _ => hpr) nofun nofun htr
      · cases ht; exact back .faulted nofun nofun nofun nofun htr
      · rename_i hpr
        cases ht
        exact (hg _ hpr nofun nofun).enter (by simp) _ (by simpa using h.ok.active_lt) _
      · rename_i hpr
        cases ht
        exact (hg _ hpr nofun nofun).enter (by simp) _ (by simpa using h.ok.active_lt) _
      · cases ht
    all_goals cases ht
  · intro k s t ht
    simp only [judgeResume] at ht
    split at ht
    · split at ht <;> cases ht
      exact (OnlyLane.rfl.onLane _).enter _ _ _
    · split at ht; · cases ht
      split at ht <;> cases ht
      · exact OnlyLane.rfl.onLane _
      · exact OnlyLane.rfl.onLane _
      · exact OnlyLane.rfl.onLane _
      · exact (OnlyLane.rfl.onLane _).enter _ _ _
      · exact (OnlyLane.rfl.onLane _).enter _ _ _
    all_goals cases ht

theorem judgeJump_good (offset : Nat) : JudgeGood (judgeJump offset) := by
  constructor
  · intro k s t h ht
    simp only [judgeJump] at ht
    split at ht
    · rename_i hst
      have hp := h.ok.prior_eq_none (fun e => by simp [e] at hst)
      split at ht <;> cases ht
      rename_i hlt
      rw [Good, State.lane_onLane_self]
      obtain ⟨⟨h1, h2, h3, h4, h5, h6, h7, h8, h9, h10, h11, h12, h13, h14, h15, h16, h17⟩, h18⟩ := h
      refine ⟨⟨h1, Nat.lt_of_not_le hlt, nofun, Nat.zero_le _, fun _ => rfl, h6, h7, nofun, ?_,
        fun _ => ⟨rfl, rfl, rfl, rfl⟩, Nat.zero_le _, nofun, Nat.zero_le _, h14, h15, h16, h17⟩, h18⟩
      rintro _ (e | e | e | e)
      · simp [show (s.lane k).state = .running from e] at hst
      · simp [show (s.lane k).state = .done from e] at hst
      · simp [show (s.lane k).prior = _ from e] at hp
      · simp [show (s.lane k).prior = _ from e] at hp
    · cases ht
  · intro k s t ht
    simp only [judgeJump] at ht
    split at ht
    · split at ht <;> cases ht
      exact OnlyLane.rfl.onLane _
    · cases ht

theorem judgeReset_good : JudgeGood judgeReset := by
  constructor
  · intro k s t h ht
    cases ht
    rw [Good, State.lane_onLane_self]; exact LaneGood.clear h
  · intro k s t ht
    cases ht; exact OnlyLane.rfl.onLane _

/-- A loaded lane is IDLE at PRESET of its new descriptor with its walk cleared. -/
theorem LaneGood.loaded {ow : Vector (Option LaneId) 32} {l : Lane} (h : LaneGood ow k l) {d : Descriptor} (hd : d.Ok) :
    LaneGood ow k ({ l with descriptor := d } : Lane).clear := by
  obtain ⟨⟨h1, h2, h3, h4, h5, h6, h7, h8, h9, h10, h11, h12, h13, h14, h15, h16, h17⟩, h18⟩ := h
  exact ⟨⟨hd, hd.preset_lt, nofun, Nat.zero_le _, fun _ => rfl, nofun, fun _ => rfl, nofun,
    fun _ e => by simp [Lane.clear, Lane.goIdle] at e, fun _ => ⟨rfl, rfl, rfl, rfl⟩, Nat.zero_le _, nofun, Nat.zero_le _,
    Nat.zero_le _, nofun, nofun, fun _ => rfl⟩, nofun⟩

theorem judgeLoad_good : JudgeGood judgeLoad := by
  constructor
  · intro k s t h ht
    simp only [judgeLoad] at ht
    split at ht; · cases ht
    split at ht; · cases ht
    rename_i d hd
    split at ht <;> cases ht
    all_goals rw [Good, State.lane_onLane_self]; exact LaneGood.loaded h (Staging.image_ok hd)
  · intro k s t ht
    simp only [judgeLoad] at ht
    split at ht; · cases ht
    split at ht; · cases ht
    split at ht <;> cases ht
    all_goals exact OnlyLane.rfl.onLane _

theorem judgeSwap_good : JudgeGood judgeSwap := by
  constructor
  · intro k s t h ht
    simp only [judgeSwap] at ht
    split at ht; · cases ht
    rename_i d hd
    split at ht; · cases ht
    rename_i hr
    split at ht <;> cases ht
    rw [Good, State.lane_onLane_self]
    obtain ⟨⟨h1, h2, h3, h4, h5, h6, h7, h8, h9, h10, h11, h12, h13, h14, h15, h16, h17⟩, h18⟩ := h
    refine ⟨⟨h1, h2, h3, h4, h5, fun _ e => by cases e; exact Staging.image_ok hd, fun e => ?_, h8, h9, h10, h11, h12, h13,
      h14, h15, h16, h17⟩, h18⟩
    exfalso
    apply hr
    rcases e with e | e | e
    · simp [Lane.refusesSwap, show (s.lane k).state = .idle from e]
    · simp [Lane.refusesSwap, show (s.lane k).state = .done from e]
    · have e : (s.lane k).prior = some .done := e
      simp [Lane.refusesSwap, e, h16 (by simp [e])]
  · intro k s t ht
    simp only [judgeSwap] at ht
    split at ht; · cases ht
    split at ht; · cases ht
    split at ht <;> cases ht
    exact OnlyLane.rfl.onLane _

theorem judgeCancelSwap_good : JudgeGood judgeCancelSwap := by
  constructor
  · intro k s t h ht
    simp only [judgeCancelSwap] at ht
    split at ht <;> cases ht
    rw [Good, State.lane_onLane_self]
    obtain ⟨⟨h1, h2, h3, h4, h5, h6, h7, h8, h9, h10, h11, h12, h13, h14, h15, h16, h17⟩, h18⟩ := h
    exact ⟨⟨h1, h2, h3, h4, h5, nofun, fun _ => rfl, h8, h9, h10, h11, h12, h13, h14, h15, h16, h17⟩, h18⟩
  · intro k s t ht
    simp only [judgeCancelSwap] at ht
    split at ht <;> cases ht
    exact OnlyLane.rfl.onLane _

end
end Sys2Proof.Machine
end

