-- ==== Sys2Proof/Laws/LaneOkBlocks.lean ====
section
/-! SUPPORT. The acts of the other blocks keep every lane in its ranges: latch settings, the clock, accepted changes, lane and
line commands with what goes on beside them, the soft reset and what the block does on its own. -/

namespace Sys2Proof.Machine

variable {s : State}

theorem State.LanesOk.elapse (h : s.LanesOk) (d : Nat) : (elapse d s).LanesOk := h.congr rfl rfl

theorem State.LanesOk.markCompared (h : s.LanesOk) : s.markCompared.LanesOk := h.congr rfl rfl

theorem State.LanesOk.onUnit (h : s.LanesOk) (u : UnitId) (f : PositionUnit → PositionUnit) : (s.onUnit u f).LanesOk :=
  h.congr rfl rfl

theorem State.LanesOk.onTrip (h : s.LanesOk) (n : SourceId) (f : TripSource → TripSource) : (s.onTrip n f).LanesOk :=
  h.congr rfl rfl

theorem State.LanesOk.restart (h : s.LanesOk) (changed : FilteredPin → Bool) : (s.restart changed).LanesOk :=
  h.congr rfl rfl

theorem State.LanesOk.withInputs (h : s.LanesOk) (i : Inputs) : ({ s with inputs := i } : State).LanesOk :=
  h.congr rfl rfl

theorem State.LanesOk.withTable (h : s.LanesOk) (t : List (Nat × Record)) : ({ s with table := t } : State).LanesOk :=
  h.congr rfl rfl

theorem State.LanesOk.setLatch (h : s.LanesOk) (n : SourceId) : (setLatch n s).LanesOk := by
  simp only [Machine.setLatch]
  refine State.LanesOk.congr (s := allLanes.foldl
    (fun s' (k : LaneId) => if s.trips[n.val].scope.getLsbD k then Machine.reachForcing n k s' else s')
    ((s.onTrip n fun t => { t with latch := true }).withSettings (s.settings ++ [⟨n, s.trips[n.val].scope, 0⟩]))) ?_ ?_ ?_
  · refine State.LanesOk.foldl _ (fun s k h => ?_) _ _ (h.congr rfl rfl)
    split
    · exact h.reachForcing n k
    · exact h
  · exact State.lanes_ext _ (fun k => lane_raiseTrips _ _ k)
  · exact SameBlocks.owners (sansWalk_raiseTrips _ _)

/-- An event of the core clock keeps the lanes in their ranges when its act does. -/
theorem State.LanesOk.clockEvent (h : s.LanesOk) (lacking : Option Nat) {act : State → State}
    (ha : ∀ s : State, s.LanesOk → (act s).LanesOk) : (clockEvent lacking act s).LanesOk := by
  unfold Machine.clockEvent
  split
  · exact h
  · split
    · refine ha _ ?_
      unfold goOnTo
      split
      · exact h
      · exact h.drain.elapse _
    · exact h

theorem State.LanesOk.tick (h : s.LanesOk) (takers : LaneMask) : (tick takers s).LanesOk :=
  h.clockEvent _ fun s h => by
    refine State.LanesOk.handOut (State.LanesOk.foldl _ (fun s k h => ?_) _ _ (h.congr rfl rfl))
    unfold handTick
    split
    · exact h.reach _ _
    · exact h.onLane k (f := fun l => l.withComing (l.coming ++ [.tick])) ((h.good k).sameContext rfl)

/-- A line whose owner is not busy carries no pulse, so it may change its owner. -/
theorem State.LanesOk.withOwner (h : s.LanesOk) (n : Fin 32) (o : Option LaneId) (hb : s.ownerBusy n = false) :
    ({ s with owners := s.owners.set n.val o } : State).LanesOk := by
  refine .of_good fun k => ⟨h.each k, fun p hp => ?_⟩
  have howner := h.pulses k p hp
  have hne : p.line ≠ n := by
    rintro rfl
    have hidle : (s.lane k).state = .idle := by simpa [State.ownerBusy, howner] using hb
    have := ((h.each k).pulse_ok p hp).2.2
    simp [hidle] at this
  simp only [Vector.getElem_set]
  rw [if_neg fun e => hne (Fin.ext e.symm)]
  exact howner

theorem State.LanesOk.inputAcceptedChange (h : s.LanesOk) (n : InputId) : (inputAcceptedChange n s).LanesOk :=
  h.clockEvent _ fun _ h => State.LanesOk.foldl _ (fun _ _ h => h.handToAll _) _ _ (h.markCompared.withInputs _)

theorem State.LanesOk.quadratureChange (h : s.LanesOk) (u : UnitId) (c : Channel) :
    (quadratureChange u c s).LanesOk :=
  h.clockEvent _ fun s h => by
    simp only [acceptQuadrature]
    split
    · split
      · exact h.markCompared.onUnit _ _
      · exact (h.markCompared.onUnit _ _).raise _
    · exact State.LanesOk.handToAll (h.markCompared.onUnit _ _) _

theorem State.LanesOk.tripAcceptedChange (h : s.LanesOk) (n : Fin 4) : (tripAcceptedChange n s).LanesOk :=
  h.clockEvent _ fun s h => by
    simp only [acceptTrip]
    split
    · exact (h.markCompared.onTrip _ _).setLatch _
    · exact h.markCompared.onTrip _ _

theorem State.LanesOk.acceptedChange (h : s.LanesOk) (pin : FilteredPin) : (acceptedChange pin s).LanesOk := by
  cases pin with
  | input n => exact h.inputAcceptedChange n
  | quadrature u c => exact h.quadratureChange u c
  | trip n => exact h.tripAcceptedChange n

/-! ## Pins -/

theorem State.LanesOk.movePin (h : s.LanesOk) (pin : FilteredPin) (level : Bool) : (movePin pin level s).LanesOk := by
  cases pin <;> exact h.congr rfl rfl

theorem State.LanesOk.withEarly (h : s.LanesOk) (moves : List (FilteredPin × Bool)) : (s.withEarly moves).LanesOk :=
  h.congr rfl rfl

/-- A pin that moves, after its accepted change where that is due, keeps the lanes in their ranges. -/
theorem State.LanesOk.takeLevel (h : s.LanesOk) (pin : FilteredPin) (level : Bool) : (takeLevel pin level s).LanesOk := by
  unfold Machine.takeLevel
  split
  · exact h
  · refine State.LanesOk.movePin ?_ _ _
    split
    · exact h.acceptedChange pin
    · exact h

theorem State.LanesOk.presentedLevelChange (h : s.LanesOk) (pin : FilteredPin) (level : Bool) :
    (presentedLevelChange pin level s).LanesOk := by
  unfold Machine.presentedLevelChange
  split
  · exact h.takeLevel pin level
  · split
    · exact h.withEarly _
    · exact h.takeLevel pin level

/-! ## Host writes of several parts -/

theorem State.LanesOk.happen (h : s.LanesOk) (x : Happening) : (happen s x).LanesOk := by
  cases x with
  | work w => exact (((h.withOutbox []).doWork w).handOut).withOutbox _
  | access => exact h.serveAccess
  | acceptance pin => exact ((h.withOutbox []).acceptedChange pin).withOutbox _
  | tick => exact ((h.withOutbox []).tick 0).withOutbox _
  | move pin level => exact (((h.withEarly _).withOutbox []).takeLevel pin level).withOutbox _
  | period => exact h.elapse 1

theorem State.LanesOk.goesOn {t : State} {but : LaneMask} (h : s.LanesOk) (hg : s.GoesOn but t) : t.LanesOk :=
  hg.induct (fun _ _ h => h.withPicks _) (fun _ x _ h => h.happen x) h

theorem State.LanesOk.interlude (h : s.LanesOk) (but : LaneMask) : (interlude but s).LanesOk :=
  h.goesOn (interlude_goesOn but s)

theorem State.LanesOk.followUp (h : s.LanesOk) : (followUp s).LanesOk :=
  followUp_induct (P := State.LanesOk) (fun _ _ h => h.withPicks _) (fun _ h => h.handOut) (fun _ x _ h => h.happen x)
    (fun _ w h => h.doWork w) h

theorem State.LanesOk.refuseLane (h : s.LanesOk) (k : LaneId) (r : Result) : (refuseLane k r s).LanesOk :=
  (h.onLane k (f := fun l => { l with lastResult := r }) ((h.good k).sameContext rfl)).congr rfl rfl

theorem State.LanesOk.withRefused (h : s.LanesOk) (m : LaneMask) : ({ s with cmdRefused := m } : State).LanesOk :=
  h.congr rfl rfl

theorem JudgeGood.judgeLane {judge : LaneId → State → Judgement} (hj : JudgeGood judge) (h : s.LanesOk)
    (k : LaneId) : (judgeLane judge k s).LanesOk := by
  simp only [Machine.judgeLane]
  have hv := h.completeLane k
  split
  · rename_i t ht
    have h1 : t.LanesOk := hv.onlyLane (hj.only ht) (hj.keeps (hv.good k) ht)
    exact h1.onLane k (f := fun l => { l with lastResult := .taken }) ((h1.good k).sameContext rfl)
  · exact hv.refuseLane k _

theorem JudgeGood.commandLanes {judge : LaneId → State → Judgement} (hj : JudgeGood judge) (h : s.LanesOk)
    (mask : LaneMask) : (commandLanes judge mask s).LanesOk :=
  commandLanes_induct (P := State.LanesOk) (fun _ _ h => h.withPicks _) (fun _ but h => h.interlude but)
    (fun _ k h => hj.judgeLane h k) (fun _ k h => h.serveFetchApart k) (fun _ x h => h.arriveFrom x) mask h

theorem JudgeGood.laneCommand {judge : LaneId → State → Judgement} (hj : JudgeGood judge) (h : s.LanesOk)
    (mask : LaneMask) : (laneCommand judge mask s).LanesOk :=
  h.hostAccess fun _ h => (hj.commandLanes (h.withRefused 0) mask).followUp

theorem State.LanesOk.completeSettings (h : s.LanesOk) : (completeSettings s).LanesOk :=
  (h.completeLanes _).congr rfl rfl

theorem State.LanesOk.setLatchNow (h : s.LanesOk) (n : SourceId) : (setLatchNow n s).LanesOk :=
  ((h.setLatch n).interlude 0).completeSettings.followUp

theorem State.LanesOk.configureTrip (h : s.LanesOk) (n : SourceId) : (configureTrip n s).LanesOk := by
  simp only [Machine.configureTrip]
  split
  · exact h.onTrip _ _
  · split
    · exact ((h.onTrip _ _).restart _).setLatchNow _
    · exact (h.onTrip _ _).restart _

/-! ## Jobs, the soft reset, drive enable and the block on its own -/

theorem completeAccess_lanes (s : State) : (completeAccess s).lanes = s.lanes ∧ (completeAccess s).owners = s.owners := by
  simp only [completeAccess]
  split <;> exact ⟨rfl, rfl⟩

theorem State.LanesOk.abandonJob (h : s.LanesOk) : (abandonJob s).LanesOk := by
  have hl : (Machine.abandonJob s).lanes = s.lanes ∧ (Machine.abandonJob s).owners = s.owners := by
    simp only [Machine.abandonJob]
    split
    · split
      · exact completeAccess_lanes s
      · exact ⟨rfl, rfl⟩
    · exact ⟨rfl, rfl⟩
  exact h.congr hl.1 hl.2

theorem State.LanesOk.pickDone (h : s.LanesOk) : s.pickDone.LanesOk := h.congr rfl rfl

theorem State.LanesOk.choose {α : Type} (h : s.LanesOk) (x : α) (rest : List α) : (choose x rest s).2.LanesOk := by
  rcases (choose_spec x rest s).2 with e | e <;> rw [e]
  · exact h
  · exact h.pickDone

theorem State.LanesOk.takeIdly (h : s.LanesOk) : (takeIdly s).LanesOk :=
  h.onLanes (f := fun _ l => l.withComing []) fun k => (h.good k).sameContext rfl

theorem State.LanesOk.discarding (h : s.LanesOk) : (discarding s).LanesOk := (h.interlude 0).takeIdly.withNotices _ _

theorem State.LanesOk.setLatches (n : Nat) :
    ∀ (sources : List SourceId) {s : State}, s.LanesOk → (setLatches n sources s).LanesOk := by
  induction n with
  | zero => intro sources s h; cases sources <;> exact h
  | succ n ih =>
    intro sources s h
    cases sources with
    | nil => exact h
    | cons x rest =>
      have hc := h.choose x rest
      simp only [Machine.setLatches]
      generalize Machine.choose x rest s = c at hc ⊢
      exact ih _ (hc.setLatch _)

/-- A lane at the values of a reset, with a descriptor in its ranges. -/
theorem LaneGood.fresh {ow : Vector (Option LaneId) 32} {k : LaneId} {d : Descriptor} (hd : d.Ok) :
    LaneGood ow k (.fresh d) :=
  ⟨{
    descriptor_ok := hd
    active_lt := hd.preset_lt
    frames_ok := nofun
    depth_le := by simp [Lane.fresh]
    stack_empty := fun _ => rfl
    swap_ok := nofun
    swap_none := fun _ => rfl
    copy_valid := nofun
    entered := fun _ e => by simp [Lane.fresh] at e
    cleared := fun _ => ⟨rfl, rfl, rfl, rfl⟩
    dwell_le := by simp [Lane.fresh]
    limit_range := nofun
    edges_le := by simp [Lane.fresh]
    cycles_le := by simp [Lane.fresh]
    pulse_ok := nofun
    prior_tripped := nofun
    prior_none := nofun }, nofun⟩

theorem State.LanesOk.resetBlocks (h : s.LanesOk) : (resetBlocks s).LanesOk := by
  refine .of_good fun k => ?_
  simp only [Machine.resetBlocks, State.lane, Vector.getElem_ofFn]
  exact LaneGood.fresh (h.each k).descriptor_ok

theorem State.LanesOk.softReset (h : s.LanesOk) : (softReset s).LanesOk := by
  simp only [Machine.softReset]
  split
  · exact h
  · exact State.LanesOk.discarding (State.LanesOk.setLatches _ _ (h.interlude 0).abandonJob.resetBlocks)

theorem State.LanesOk.setDrive (h : s.LanesOk) (on : Bool) : (s.setDrive on).LanesOk := by
  unfold State.setDrive
  split
  · exact (h.onLanes (f := fun _ => Lane.bridge none) fun k => (h.good k).mapEntry _).congr rfl rfl
  · exact h.congr rfl rfl

theorem State.LanesOk.entryFetch (h : s.LanesOk) (k : LaneId) : (entryFetch k s).LanesOk := by
  simp only [Machine.entryFetch]
  split
  · exact h
  · exact (h.serveFetch _).handOut

theorem State.LanesOk.doDue (h : s.LanesOk) (d : Due) : (doDue s d).LanesOk := by
  cases d with
  | fetch k => exact h.entryFetch k
  | access kind =>
    cases kind <;> simp only [Machine.doDue, clearWrite, copyMove, checkRead] <;> split
    all_goals first | exact h.serveAccess | exact h
  | input n => exact h.inputAcceptedChange n
  | quadrature u c => exact h.quadratureChange u c
  | trip n => exact h.tripAcceptedChange n
  | tick => exact h.tick 0
  | period => exact h.elapse 1

theorem State.LanesOk.idle (h : s.LanesOk) : (idle s).LanesOk := by
  unfold Machine.idle
  split
  · exact h
  · split
    · exact h.drain
    · split
      · exact h
      · exact (h.choose _ _).doDue _

end Sys2Proof.Machine
end

