-- ==== Sys2Proof/Laws/Memory.lean ====
section
/-! SUPPORT. The step table as a memory: read after write, other indices left alone, and the canonical form kept. -/

namespace Sys2Proof.Machine

theorem Memory.read_place (t : List (Nat × Record)) (i j : Nat) (r : Record)
    (h : t.Pairwise (fun x y => x.1 < y.1)) :
    Memory.read (Memory.place t i r) j = if j = i then r else Memory.read t j := by
  induction t with
  | nil =>
    unfold Memory.place
    split <;> simp_all [Memory.read]
  | cons e rest ih =>
    obtain ⟨a, x⟩ := e
    have hrest := ih h.of_cons
    have hlt : ∀ e ∈ rest, a < e.1 := fun e he => List.rel_of_pairwise_cons h he
    have absent : ∀ (l : List (Nat × Record)) (j : Nat), (∀ e ∈ l, j < e.1) → Memory.read l j = .zero := by
      intro l
      induction l with
      | nil => intros; rfl
      | cons e l ihl =>
        obtain ⟨b, y⟩ := e
        intro j hj
        have := hj (b, y) (by simp)
        simp only at this
        rw [Memory.read, if_neg (by omega)]
        exact ihl j fun e he => hj e (by simp [he])
    unfold Memory.place
    split
    · rename_i hia
      split
      · rename_i hz
        by_cases hj : j = i
        · subst hj
          rw [if_pos rfl, hz, absent]
          intro e he
          rcases List.mem_cons.1 he with rfl | he
          · exact hia
          · exact Nat.lt_trans hia (hlt e he)
        · rw [if_neg hj]
      · rw [Memory.read]
    · split
      · rename_i hia; subst hia
        split
        · rename_i hz
          by_cases hj : j = i
          · subst hj; rw [if_pos rfl, hz, absent _ _ hlt]
          · simp [hj, Memory.read]
        · simp only [Memory.read]; split <;> rfl
      · simp only [Memory.read]
        split
        · rename_i hia _ hja; subst hja; rw [if_neg (by omega)]
        · exact hrest

/-- A read after a write of the table (R1): the record written at its index, every other record as it was. -/
theorem Memory.read_write (t : List (Nat × Record)) (i j : Nat) (r : Record) (h : Memory.wf t)
    (hi : i < Config.tableSize) :
    Memory.read (Memory.write t i r) j = if j = i then r else Memory.read t j := by
  rw [Memory.write, if_pos hi]
  exact Memory.read_place t i j r h.1

theorem Memory.mem_place {t : List (Nat × Record)} {i : Nat} {r : Record} {e : Nat × Record}
    (h : e ∈ Memory.place t i r) : e ∈ t ∨ (e = (i, r) ∧ r ≠ .zero) := by
  induction t with
  | nil =>
    unfold Memory.place at h
    split at h <;> simp_all
  | cons x rest ih =>
    obtain ⟨a, y⟩ := x
    unfold Memory.place at h
    split at h
    · split at h
      · exact .inl h
      · rcases List.mem_cons.1 h with rfl | h
        · exact .inr ⟨rfl, ‹_›⟩
        · exact .inl h
    · split at h
      · split at h
        · exact .inl (List.mem_cons_of_mem _ h)
        · rcases List.mem_cons.1 h with rfl | h
          · exact .inr ⟨rfl, ‹_›⟩
          · exact .inl (List.mem_cons_of_mem _ h)
      · rcases List.mem_cons.1 h with rfl | h
        · exact .inl (by simp)
        · rcases ih h with h | h
          · exact .inl (List.mem_cons_of_mem _ h)
          · exact .inr h

theorem Memory.place_sorted (t : List (Nat × Record)) (i : Nat) (r : Record)
    (h : t.Pairwise (fun x y => x.1 < y.1)) : (Memory.place t i r).Pairwise (fun x y => x.1 < y.1) := by
  induction t with
  | nil =>
    unfold Memory.place
    split <;> simp
  | cons x rest ih =>
    obtain ⟨a, y⟩ := x
    have hlt : ∀ e ∈ rest, a < e.1 := fun e he => List.rel_of_pairwise_cons h he
    unfold Memory.place
    split
    · rename_i hia
      split
      · exact h
      · refine List.pairwise_cons.2 ⟨?_, h⟩
        intro e he
        rcases List.mem_cons.1 he with rfl | he
        · exact hia
        · exact Nat.lt_trans hia (hlt e he)
    · split
      · rename_i hia; subst hia
        split
        · exact h.of_cons
        · exact List.pairwise_cons.2 ⟨hlt, h.of_cons⟩
      · rename_i h1 h2
        refine List.pairwise_cons.2 ⟨?_, ih h.of_cons⟩
        intro e he
        rcases Memory.mem_place he with he | ⟨rfl, -⟩
        · exact hlt e he
        · show a < i; omega

/-- Every write of the table keeps its canonical form. -/
theorem Memory.write_wf (t : List (Nat × Record)) (i : Nat) (r : Record) (h : Memory.wf t) :
    Memory.wf (Memory.write t i r) := by
  unfold Memory.write
  split
  · rename_i hi
    refine ⟨Memory.place_sorted t i r h.1, fun e he => ?_⟩
    rcases Memory.mem_place he with he | ⟨rfl, hr⟩
    · exact h.2 e he
    · exact ⟨hi, hr⟩
  · exact h

/-- Reset memory, which lists nothing, has the canonical form. -/
theorem Memory.wf_reset : Memory.wf State.reset.table := ⟨.nil, by simp [State.reset]⟩

end Sys2Proof.Machine
end

