-- ==== Sys2Proof/Laws/PerInstr.lean ====
section
/-! SUPPORT. Statements about every command as syntax, one lemma per row of the opcode table. -/

namespace Sys2Proof.Laws.Row

/-- The one ill-formed kind of command is a PLAIN_REGISTER_WRITE at an address whose write is another row
(R178, R179). -/
def Statement (i : Instr) : Prop :=
  i.wellFormed = false ↔ ∃ address value, i = .plainRegisterWrite address value ∧ address.toNat ∈ rowAddresses

/-- A command that is no PLAIN_REGISTER_WRITE is well-formed. -/
theorem of_wellFormed {i : Instr} (h : i.wellFormed = true)
    (hne : ∀ address value, i ≠ .plainRegisterWrite address value) : Statement i := by
  constructor
  · intro e
    rw [h] at e
    cases e
  · rintro ⟨a, v, e, _⟩
    exact absurd e (hne a v)

theorem recordRead (index : Word) : Statement (.recordRead index) := of_wellFormed rfl nofun
theorem recordWrite (index : Word) : Statement (.recordWrite index) := of_wellFormed rfl nofun
theorem laneStart (value : Word) : Statement (.laneStart value) := of_wellFormed rfl nofun
theorem laneStop (value : Word) : Statement (.laneStop value) := of_wellFormed rfl nofun
theorem laneHold (value : Word) : Statement (.laneHold value) := of_wellFormed rfl nofun
theorem laneRelease (value : Word) : Statement (.laneRelease value) := of_wellFormed rfl nofun
theorem laneReset (value : Word) : Statement (.laneReset value) := of_wellFormed rfl nofun
theorem laneResume (value : Word) : Statement (.laneResume value) := of_wellFormed rfl nofun
theorem laneStep (value : Word) : Statement (.laneStep value) := of_wellFormed rfl nofun
theorem laneJump (value : Word) : Statement (.laneJump value) := of_wellFormed rfl nofun
theorem laneLoad (value : Word) : Statement (.laneLoad value) := of_wellFormed rfl nofun
theorem laneSwap (value : Word) : Statement (.laneSwap value) := of_wellFormed rfl nofun
theorem laneCancelSwap (value : Word) : Statement (.laneCancelSwap value) := of_wellFormed rfl nofun
theorem lineAssign (value : Word) : Statement (.lineAssign value) := of_wellFormed rfl nofun
theorem lineFree (value : Word) : Statement (.lineFree value) := of_wellFormed rfl nofun
theorem posLoad (value : Word) : Statement (.posLoad value) := of_wellFormed rfl nofun
theorem posClear (value : Word) : Statement (.posClear value) := of_wellFormed rfl nofun
theorem triggerEmit (value : Word) : Statement (.triggerEmit value) := of_wellFormed rfl nofun
theorem tripConfig (value : Word) : Statement (.tripConfig value) := of_wellFormed rfl nofun
theorem tripAssert (value : Word) : Statement (.tripAssert value) := of_wellFormed rfl nofun
theorem tripClear (value : Word) : Statement (.tripClear value) := of_wellFormed rfl nofun
theorem jobCopy (value : Word) : Statement (.jobCopy value) := of_wellFormed rfl nofun
theorem jobCheck (value : Word) : Statement (.jobCheck value) := of_wellFormed rfl nofun
theorem jobAbort (value : Word) : Statement (.jobAbort value) := of_wellFormed rfl nofun
theorem noticePop (value : Word) : Statement (.noticePop value) := of_wellFormed rfl nofun
theorem driveEn (on : Bool) : Statement (.driveEn on) := of_wellFormed rfl nofun
theorem tbRun (on : Bool) : Statement (.tbRun on) := of_wellFormed rfl nofun
theorem noticeIrqEn (on : Bool) : Statement (.noticeIrqEn on) := of_wellFormed rfl nofun
theorem softReset : Statement .softReset := of_wellFormed rfl nofun
theorem safeLevelWrite (half : SafeHalf) (value : Word) : Statement (.safeLevelWrite half value) :=
  of_wellFormed rfl nofun
theorem inputSettingWrite (setting : InputSetting) (value : Word) : Statement (.inputSettingWrite setting value) :=
  of_wellFormed rfl nofun
theorem posFiltWrite (unit : UnitId) (value : Word) : Statement (.posFiltWrite unit value) := of_wellFormed rfl nofun
theorem tbDivPreWrite (setting : TimebaseSetting) (value : Word) : Statement (.tbDivPreWrite setting value) :=
  of_wellFormed rfl nofun
theorem tbCountWrite (value : Word) : Statement (.tbCountWrite value) := of_wellFormed rfl nofun
theorem plainRegisterWrite (address : BitVec 8) (value : Word) : Statement (.plainRegisterWrite address value) := by
  simp [Statement, Instr.wellFormed]
theorem resetAssert : Statement .resetAssert := of_wellFormed rfl nofun
theorem resetRelease : Statement .resetRelease := of_wellFormed rfl nofun
theorem clearWrite : Statement .clearWrite := of_wellFormed rfl nofun
theorem copyMove : Statement .copyMove := of_wellFormed rfl nofun
theorem checkRead : Statement .checkRead := of_wellFormed rfl nofun
theorem entryFetch (lane : LaneId) : Statement (.entryFetch lane) := of_wellFormed rfl nofun
theorem tick (takers : LaneMask) : Statement (.tick takers) := of_wellFormed rfl nofun
theorem dwellExpiry (lane : LaneId) : Statement (.dwellExpiry lane) := of_wellFormed rfl nofun
theorem limitExpiry (lane : LaneId) : Statement (.limitExpiry lane) := of_wellFormed rfl nofun
theorem pulseEnd (lane : LaneId) : Statement (.pulseEnd lane) := of_wellFormed rfl nofun
theorem inputAcceptedChange (input : InputId) : Statement (.inputAcceptedChange input) := of_wellFormed rfl nofun
theorem edgeEvent (lane : LaneId) (input : InputId) (sense : Sense) : Statement (.edgeEvent lane input sense) :=
  of_wellFormed rfl nofun
theorem quadratureChange (unit : UnitId) (channel : Channel) : Statement (.quadratureChange unit channel) :=
  of_wellFormed rfl nofun
theorem arrival (lane : LaneId) (unit : UnitId) (value : Word) (direction : Direction) :
    Statement (.arrival lane unit value direction) :=
  of_wellFormed rfl nofun
theorem emission (lane : LaneId) (line : LaneId) : Statement (.emission lane line) := of_wellFormed rfl nofun
theorem tripAcceptedChange (source : Fin 4) : Statement (.tripAcceptedChange source) := of_wellFormed rfl nofun
theorem tripForcing (lane : LaneId) (source : SourceId) : Statement (.tripForcing lane source) :=
  of_wellFormed rfl nofun
theorem presentedLevelChange (pin : FilteredPin) (level : Bool) : Statement (.presentedLevelChange pin level) :=
  of_wellFormed rfl nofun

end Sys2Proof.Laws.Row
end

