-- ==== Sys2Proof/Laws/SoftReset.lean ====
section
/-! SUPPORT. What goes on around lanes that have taken a soft reset: they stay IDLE with their walk cleared, and take what reaches
them without a change, so that the reset leaves every lane as it put it (R26, R43, R183). -/

namespace Sys2Proof.Machine

/-- Every lane is IDLE with its walk cleared under its descriptor of `ds`, with any events on their way to it. -/
def State.AllFresh (ds : LaneId → Descriptor) (s : State) : Prop := ∀ k, (s.lane k).withComing [] = .fresh (ds k)

section
variable {ds : LaneId → Descriptor} {s t : State}

theorem State.AllFresh.state_idle (h : s.AllFresh ds) (k : LaneId) : (s.lane k).state = .idle := congrArg Lane.state (h k)

theorem State.AllFresh.entry_none (h : s.AllFresh ds) (k : LaneId) : (s.lane k).entry = none := congrArg Lane.entry (h k)

theorem State.AllFresh.kept_nil (h : s.AllFresh ds) (k : LaneId) : (s.lane k).kept = [] := congrArg Lane.kept (h k)

theorem State.AllFresh.congr (h : s.AllFresh ds) (hl : ∀ k, t.lane k = s.lane k) : t.AllFresh ds := fun k => by
  rw [hl k]; exact h k

/-- Other events may be on their way to one of the lanes. -/
theorem State.AllFresh.withComing (h : s.AllFresh ds) (k : LaneId) (f : Lane → List Event) :
    (s.onLane k fun l => l.withComing (f l)).AllFresh ds := fun j => by
  rw [State.lane_onLane]
  split
  · rename_i hj
    subst hj
    exact h j
  · exact h j

theorem State.AllFresh.foldl {α : Type} {f : State → α → State} (hf : ∀ s a, s.AllFresh ds → (f s a).AllFresh ds)
    (l : List α) : ∀ {s : State}, s.AllFresh ds → (l.foldl f s).AllFresh ds := by
  induction l with
  | nil => exact id
  | cons a l ih => exact fun h => ih (hf _ a h)

/-! ## What an IDLE lane takes changes nothing in it (R26) -/

theorem lane_takeEvent_of_idle {k : LaneId} (h : (s.lane k).state = .idle) (e : Event) (j : LaneId) :
    (takeEvent k e s).lane j = s.lane j := by
  by_cases hj : j = k
  · subst hj
    cases e with
    | forcing n => simp [takeEvent, Lane.force, LaneState.forcible, h]
    | tick => simp [takeEvent, takeTick, h]
    | edge n e => simp [takeEvent, takeEdge, Lane.countsEdge, Lane.takesConditions, h]
    | arrival u v d => simp [takeEvent, takeArrival, Lane.awaitsArrival, Lane.takesConditions, h]
    | emission line => simp [takeEvent, takeEmission, Lane.awaitsEmission, Lane.takesConditions, h]
  · exact (OnlyLane.rfl.takeEvent (k := k) e).others j hj

theorem State.AllFresh.reach (h : s.AllFresh ds) (k : LaneId) (e : Event) : (reach k e s).AllFresh ds := by
  rw [Machine.reach, if_pos (by simp [Lane.free, h.entry_none k, h.kept_nil k])]
  exact h.congr (lane_takeEvent_of_idle (h.state_idle k) e)

theorem State.AllFresh.takeNext (h : s.AllFresh ds) (k : LaneId) (e : Event) : (takeNext k e s).AllFresh ds := by
  simp only [Machine.takeNext, h.entry_none k, h.kept_nil k]
  split
  · exact (h.withComing k fun l => l.coming.erase e).reach k e
  · exact h

theorem State.AllFresh.handToAll (h : s.AllFresh ds) (e : Event) : (handToAll e s).AllFresh ds := fun k => by
  rw [lane_handToAll]
  split <;> exact h k

theorem State.AllFresh.handOut (h : s.AllFresh ds) : (handOut s).AllFresh ds :=
  State.AllFresh.foldl (fun _ _ h => h.handToAll _) _ (h.congr fun _ => rfl)

theorem State.AllFresh.doWork (h : s.AllFresh ds) (w : Work) : (doWork s w).AllFresh ds := by
  cases w with
  | fetch k => exact (serveFetch_of_settled (h.entry_none k)).symm.subst (motive := State.AllFresh ds) h
  | notice x => exact h.congr (s.arriveNext_lane x)
  | deliver k e =>
    have hn := h.takeNext k e
    cases e with
    | tick =>
      have h0 : (s.withNotices [] []).AllFresh ds := h.congr (State.withNotices_lane s [] [])
      refine State.AllFresh.congr (h0.takeNext k .tick) fun j => ?_
      rw [Machine.doWork, takeTickApart, State.raiseApart_lane, withheld, State.withNotices_lane]
    | edge n e => exact hn
    | arrival u v d => exact hn
    | emission line => exact hn
    | forcing n => exact hn

/-! ## What other blocks do around such lanes -/

theorem State.AllFresh.drain (h : s.AllFresh ds) : (drain s).AllFresh ds := by
  unfold Machine.drain
  exact settle_induct (P := State.AllFresh ds) false (fun _ h => h) (fun _ _ w _ h => (h.doWork w).handOut) _ _ s h

theorem State.AllFresh.goOnTo (h : s.AllFresh ds) (d : Nat) : (goOnTo d s).AllFresh ds := by
  unfold Machine.goOnTo
  split
  · exact h
  · exact h.drain.congr (elapse_lane _ d)

theorem State.AllFresh.clockEvent (h : s.AllFresh ds) (lacking : Option Nat) {act : State → State}
    (ha : ∀ s, s.AllFresh ds → (act s).AllFresh ds) : (clockEvent lacking act s).AllFresh ds := by
  unfold Machine.clockEvent
  split
  · exact h
  · split
    · exact ha _ (h.goOnTo _)
    · exact h

/-- The setting of a latch finds the lanes IDLE and changes none (R155). -/
theorem State.AllFresh.setLatch (h : s.AllFresh ds) (n : SourceId) : (setLatch n s).AllFresh ds := by
  simp only [Machine.setLatch]
  refine State.AllFresh.congr (State.AllFresh.foldl (f := fun s' (k : LaneId) =>
      if s.trips[n.val].scope.getLsbD k then reachForcing n k s' else s') (fun s k h => ?_) allLanes
    (h.congr fun _ => rfl :
      ((s.onTrip n fun t => { t with latch := true }).withSettings (s.settings ++ [⟨n, s.trips[n.val].scope, 0⟩])).AllFresh ds))
    fun k => lane_raiseTrips _ _ k
  split
  · rw [reachForcing, if_pos (by simp [Lane.free, h.entry_none k, h.kept_nil k])]
    refine h.congr fun j => ?_
    rw [forceLane, State.withSettings_lane, State.lane_onLane]
    split
    · rename_i hj
      subst hj
      simp [Lane.force, LaneState.forcible, h.state_idle j]
    · rfl
  · exact h

theorem State.AllFresh.acceptTrip (h : s.AllFresh ds) (n : SourceId) : (acceptTrip n s).AllFresh ds := by
  have hu : (s.markCompared.onTrip n fun t => { t with active := !t.active, acceptance := none }).AllFresh ds := h.congr fun _ => rfl
  simp only [Machine.acceptTrip]
  split
  · exact hu.setLatch n
  · exact hu

theorem State.AllFresh.acceptedChange (h : s.AllFresh ds) (pin : FilteredPin) : (acceptedChange pin s).AllFresh ds := by
  cases pin with
  | input n =>
    exact h.clockEvent _ fun s h => State.AllFresh.foldl (fun _ _ h => h.handToAll _) _ (h.congr fun _ => rfl)
  | quadrature u c =>
    refine h.clockEvent _ fun s h => ?_
    simp only [acceptQuadrature]
    have hu (f : PositionUnit → PositionUnit) : (s.markCompared.onUnit u f).AllFresh ds :=
      h.congr fun k => (State.onUnit_lane _ u f k).trans (State.markCompared_lane s k)
    split
    · split
      · exact hu _
      · exact (hu _).congr (State.raise_lane _ _)
    · exact (hu _).handToAll _
  | trip n => exact h.clockEvent _ fun _ h => h.acceptTrip _

theorem State.AllFresh.tick (h : s.AllFresh ds) (takers : LaneMask) : (tick takers s).AllFresh ds :=
  h.clockEvent _ fun s h => by
    refine State.AllFresh.handOut (State.AllFresh.foldl (fun s k h => ?_) _ (h.congr fun _ => rfl))
    unfold handTick
    split
    · exact h.reach _ _
    · exact h.withComing k fun l => l.coming ++ [.tick]

theorem State.AllFresh.takeLevel (h : s.AllFresh ds) (pin : FilteredPin) (level : Bool) :
    (takeLevel pin level s).AllFresh ds := by
  unfold Machine.takeLevel
  split
  · exact h
  · refine State.AllFresh.congr (s := if s.pinLacking pin = some 0 then Machine.acceptedChange pin s else s) ?_ fun k => by
      cases pin <;> rfl
    split
    · exact h.acceptedChange pin
    · exact h

theorem State.AllFresh.serveAccess (h : s.AllFresh ds) : (serveAccess s).AllFresh ds :=
  h.congr fun k => by
    rw [serveAccess_lane, h.entry_none k]
    exact congrArg (fun e => { s.lane k with entry := e }) (h.entry_none k).symm

theorem State.AllFresh.withOutbox (h : s.AllFresh ds) (lines : List LaneId) : (s.withOutbox lines).AllFresh ds :=
  h.congr (State.withOutbox_lane s lines)

theorem State.AllFresh.aside (h : s.AllFresh ds) {act : State → State} (ha : ∀ s, s.AllFresh ds → (act s).AllFresh ds) :
    (aside act s).AllFresh ds := by
  unfold Machine.aside
  exact (ha _ (h.withOutbox [])).withOutbox _

theorem State.AllFresh.happen (h : s.AllFresh ds) (x : Happening) : (happen s x).AllFresh ds := by
  cases x with
  | work w => exact h.aside fun _ h => (h.doWork w).handOut
  | access => exact h.serveAccess
  | acceptance pin => exact h.aside fun _ h => h.acceptedChange pin
  | tick => exact h.aside fun _ h => h.tick 0
  | move pin level =>
    exact State.AllFresh.aside (h.congr (State.withEarly_lane s _)) fun _ h => h.takeLevel pin level
  | period => exact h.congr (elapse_lane s 1)

/-! ## The soft reset -/

theorem State.AllFresh.goesOn {but : LaneMask} (h : s.AllFresh ds) (hg : s.GoesOn but t) : t.AllFresh ds :=
  hg.induct (P := State.AllFresh ds) (fun _ _ h => h) (fun _ x _ h => h.happen x) h

theorem State.AllFresh.setLatches (n : Nat) :
    ∀ (sources : List SourceId) {s : State}, s.AllFresh ds → (setLatches n sources s).AllFresh ds := by
  induction n with
  | zero => intro sources s h; cases sources <;> exact h
  | succ n ih =>
    intro sources s h
    cases sources with
    | nil => exact h
    | cons x rest =>
      have hc := (choose_spec x rest s).2
      simp only [Machine.setLatches]
      generalize choose x rest s = c at hc ⊢
      refine ih _ (State.AllFresh.setLatch ?_ _)
      rcases hc with e | e <;> rw [e] <;> exact h

theorem takeIdly_lane (s : State) (k : LaneId) : (takeIdly s).lane k = (s.lane k).withComing [] := State.lane_onLanes _ _ k

/-- Lanes that have taken a soft reset, and what then happens within it: each is as the reset puts it, with nothing on its way
(R43, R183). -/
theorem discarding_lane (h : s.AllFresh ds) (k : LaneId) : (discarding s).lane k = .fresh (ds k) := by
  rw [discarding, State.withNotices_lane, takeIdly_lane]
  exact h.goesOn (interlude_goesOn 0 s) k

theorem resetBlocks_allFresh (s : State) : (resetBlocks s).AllFresh fun k => (s.lane k).descriptor := fun k => by
  simp only [resetBlocks, State.lane, Vector.getElem_ofFn]
  rfl

theorem relatch_allFresh (h : s.AllFresh ds) : (relatch s).AllFresh ds := by
  unfold relatch
  exact h.setLatches _ _

/-- When a soft reset is complete every lane is IDLE with its walk cleared, and nothing is on its way to it: a tick that fell
during the reset changes no lane that is started afterwards (R43, R183). -/
theorem softReset_lane (hs : s.resetLow = false) (k : LaneId) : ∃ d, (softReset s).lane k = .fresh d := by
  rw [softReset, if_neg (by simp [hs])]
  exact ⟨_, discarding_lane (relatch_allFresh (resetBlocks_allFresh _)) k⟩

end
end Sys2Proof.Machine
end

