-- ==== Sys2Proof/Tests/Slice0.lean ====
section
/-! SUPPORT. Tests of single steps, with results from the spec's examples and tables, and for every statement with
hypotheses a concrete state and operands that meet them. -/

namespace Sys2Proof.Tests

open Sys2Proof.Machine

-- The kernel's evaluations run one after another: many at once ask for more threads than a check may have.
set_option Elab.async false

/-! ## Small states -/

/-- The state that a command leaves. -/
def after (c : Instr) (s : State) : State :=
  match exec c s with
  | .next t => t
  | .fault _ | .refused _ => s

/-- The part after the power-on clear (R15). -/
def ready : State := { State.reset with job := ⟨.clear, 0, 0, 512, 512, .done, 0⟩ }

/-- A record of kind TIME with this control word, dwell and limit. -/
def rec (control dwell limit : Word) : Record := { Record.zero with w2 := dwell, w3 := limit, w4 := control }

/-- The entry that an advance requests. -/
def advancing : Entry := { full := true, cause := .advance }

/-- The range of four records at 10 that the valve example gives lane 0 (spec/03). -/
def range : Descriptor := { Descriptor.powerOn with base := 10, length := 4, endAction := .wrap }

/-- A lane in an entered step. -/
def walking (d : Descriptor) (st : LaneState) (active : Nat) (r : Record) (dwell : Nat) (limit : Option Nat) : Lane :=
  { Lane.fresh d with state := st, active := active, copy := some r, pattern := r.pattern, dwell := dwell, limit := limit }

/-- A swap to the range of example 2 of spec/05, at the end of the range. -/
def discharge : Descriptor :=
  { Descriptor.powerOn with base := 40, length := 5, preset := 1, swapBoundary := .sequenceEnd }

/-- Lanes 0 to 6 in the seven states, lane 7 RUNNING in the middle of an entry. Lane 2 waits in a COMMAND step, lane 5 holds
a swap, and lane 6 was tripped from RUNNING. -/
def mixed : State :=
  { ready with
    lanes := #v[Lane.fresh range, { Lane.fresh range with state := .armed },
      walking range .running 1 (rec 0x0005 1 0) 0 none, walking range .held 1 .zero 0 none,
      walking range .done 3 .zero 0 none,
      { walking range .faulted 2 .zero 1 none with faultCause := some .limit, swap := some discharge },
      { walking range .tripped 2 .zero 1 none with prior := some .running },
      { walking range .running 2 .zero 0 none with entry := some advancing }]
    owners := (Vector.replicate 32 none).set 3 (some 2) }

/-- The same lanes, lane 7 in its step, so that nothing is under way (`calm_happenings`). -/
def calm : State := mixed.setLane 7 (walking range .running 2 .zero 1 none)

theorem calm_happenings : calm.happenings 0 = [] := by decide +kernel

/-- An END notice of lane 1 is on its way. -/
def arriving : State := { ready with late := [(.lane 1, .rangeEnd 1 3 .wrap 1)] }

/-- One lane replaced. -/
def withLane (k : LaneId) (l : Lane) : State := ready.setLane k l

/-! ## Well-formedness -/

/-- A write of a register whose write has a row of its own is no PLAIN_REGISTER_WRITE; a write of a plain register, of a
read-only one and of an unnamed address is (R178, R179). -/
theorem test_wellFormed_addresses :
    Instr.wellFormed (.plainRegisterWrite 0x28#8 1) = false ∧ Instr.wellFormed (.plainRegisterWrite 0x01#8 0) = false ∧
    Instr.wellFormed (.plainRegisterWrite 0xE6#8 0) = false ∧ Instr.wellFormed (.plainRegisterWrite 0x98#8 0) = false ∧
    Instr.wellFormed (.plainRegisterWrite 0x10#8 1) = true ∧ Instr.wellFormed (.plainRegisterWrite 0x02#8 1) = true ∧
    Instr.wellFormed (.plainRegisterWrite 0xFF#8 1) = true := by decide +kernel

/-! ## Records (spec/01) -/

/-- Record 40 of the example of section 1.5. -/
def fallingEdge : Record := { Record.zero with w4 := 0x201A#16, w5 := 1, w8 := 6 }

/-- The example's table: 6 < 10, 6 ≥ 4, and 6 < 8 after the swap. -/
theorem test_record_valid_by_lane :
    fallingEdge.validFor 10 = true ∧ fallingEdge.validFor 4 = false ∧ fallingEdge.validFor 8 = true ∧
    fallingEdge.kind = some .edge ∧ fallingEdge.sel = 3 ∧ fallingEdge.edgeSense = some .falling := by decide +kernel

theorem test_recordWrite_stores_the_buffer :
    let t := after (.recordWrite 40) { ready with buffer := fallingEdge }
    t.table = [(40, fallingEdge)] ∧ t.cmdResult = .taken := by decide +kernel

theorem test_recordWrite_of_zeros_unlists :
    (after (.recordWrite 40) { ready with table := [(39, fallingEdge), (40, fallingEdge)] }).table = [(39, fallingEdge)] := by
  decide +kernel

/-- R10: BUSY before RANGE. -/
theorem test_recordRead_results :
    (after (.recordRead 512) State.reset).cmdResult = .busy ∧ (after (.recordRead 512) ready).cmdResult = .range ∧
    (after (.recordRead 511) { ready with table := [(511, fallingEdge)] }).buffer = fallingEdge := by decide +kernel

theorem test_clearWrite_ends_the_clear :
    let s := { State.reset with table := [(511, fallingEdge)], job := ⟨.clear, 0, 0, 512, 511, .running, 0⟩ }
    let t := after .clearWrite s
    t.table = [] ∧ t.job.state = .done ∧ t.queue = [] ∧ s.statusWord = 3 ∧ t.statusWord = 0 := by decide +kernel

/-! ## Lane commands (spec/02) -/

/-- What a lane command makes of the lanes in this order, before the emissions are handed out: one of the orders that the free
choice can give (log 3, log 19). -/
def partsInOrder (judge : LaneId → State → Judgement) (lanes : List LaneId) (s : State) : State :=
  (doParts false judge 24 ⟨lanes, [], []⟩ { s with cmdRefused := 0 }).2

/-- What the command leaves when its lanes take their parts in ascending order. -/
def inOrder (judge : LaneId → State → Judgement) (mask : LaneMask) (s : State) : State :=
  followUp (partsInOrder judge (lanesOf mask) s)

/-- The example "One command, several lanes", before the emission on TG0 is handed out. -/
theorem test_laneStart_one_command_several_lanes :
    let s := { ready with
      table := [(10, rec 0x0800 1 0)]
      lanes := ((ready.lanes.set 0 (Lane.fresh range)).set 1 (Lane.fresh { range with startSource := .trigger 0 })).set 2
        (walking range .running 1 .zero 1 none)
      trips := ready.trips.set 1 { ready.trips[1] with enable := true, latch := true, scope := 0x08 } }
    let t := partsInOrder judgeStart (lanesOf 0x0F) s
    t.cmdRefused = 0x0C ∧ t.outbox = [0] ∧ (t.lane 0).state = .running ∧ (t.lane 1).state = .armed ∧
    (t.lane 2).lastResult = .state ∧ (t.lane 3).lastResult = .tripped ∧ (t.lane 3).state = .idle := by decide +kernel

/-- R16. -/
theorem test_laneStart_busy_during_the_clear :
    let t := inOrder judgeStart 0xFF State.reset
    t.cmdRefused = 0xFF ∧ (t.lane 5).lastResult = .busy ∧ (t.lane 5).state = .idle := by decide +kernel

/-- R33: the running lanes 2 and 7 go to HELD, the others refuse. -/
theorem test_laneHold_every_state :
    let t := inOrder judgeHold 0xFF calm
    t.cmdRefused = 0x7B ∧ (t.lane 2).state = .held ∧ (t.lane 7).state = .held ∧ (t.lane 7).dwell = 1 := by decide +kernel

/-- R36, R98: IDLE and TRIPPED refuse; lane 5 applies its swap at the stop and keeps its fault cause. -/
theorem test_laneStop_every_state :
    let t := inOrder judgeStop 0x7F calm
    t.cmdRefused = 0x41 ∧ (t.lane 5).state = .idle ∧ (t.lane 5).active = 1 ∧ (t.lane 5).descriptor = discharge ∧
    (t.lane 5).faultCause = some .limit ∧ t.queue = [⟨.swap 5 2 .sequenceEnd .stop, 0⟩] := by decide +kernel

/-- R34, R66: lane 3's dwell has expired and TIME holds, so it advances at the release. -/
theorem test_laneRelease_advances :
    let t := inOrder judgeRelease 0x0C calm
    t.cmdRefused = 0x04 ∧ (t.lane 3).state = .running ∧ (t.lane 3).active = 2 ∧ (t.lane 3).dwell = 1 := by decide +kernel

/-- R40: taken in every state. -/
theorem test_laneReset_every_state :
    let t := inOrder judgeReset 0xFF calm
    t.cmdRefused = 0 ∧ (List.finRange 8).all (fun k => (t.lane k).state == .idle && (t.lane k).swap.isNone) ∧
    t.queue = [] := by decide +kernel

/-- R37, R38: lanes 5 and 6 enter offset 2 again by re-entries; the other states refuse. -/
theorem test_laneResume_every_state :
    let t := inOrder judgeResume 0x7F calm
    t.cmdRefused = 0x1F ∧ (t.lane 5).state = .running ∧ (t.lane 5).faultCause = none ∧ (t.lane 6).state = .running ∧
    (t.lane 6).prior = none ∧ (t.lane 6).active = 2 := by decide +kernel

/-- R35, R62: lane 2 waits in a COMMAND step with its dwell expired. -/
theorem test_laneStep_advances :
    let t := inOrder judgeStep 0x0C calm
    t.cmdRefused = 0x08 ∧ (t.lane 2).active = 2 ∧ (t.lane 2).latch = false := by decide +kernel

/-- The example's lane 2, HELD with LENGTH 6: 2007h is refused RANGE. -/
theorem test_laneJump_range :
    let s := withLane 2 (walking { range with length := 6 } .held 1 .zero 1 none)
    let t := after (.laneJump 0x2007) s
    t.cmdRefused = 0x04 ∧ (t.lane 2).lastResult = .range ∧ (t.lane 2).active = 1 ∧ (t.lane 2).entered = true := by
  decide +kernel

/-- The example's second jump, 2004h, is taken. -/
theorem test_laneJump_taken :
    let s := withLane 2 { walking { range with length := 6 } .held 1 .zero 1 none with stack := [⟨0, 2⟩] }
    let t := after (.laneJump 0x2004) s
    t.cmdRefused = 0 ∧ (t.lane 2).active = 4 ∧ (t.lane 2).entered = false ∧ (t.lane 2).stack = [] ∧
    (t.lane 2).state = .held := by decide +kernel

/-- Step 6 of the bring-up procedure (spec/12). -/
theorem test_laneLoad_bring_up :
    let t := inOrder judgeLoad 0x03 { ready with staging := ⟨0, 6, 0, 0, 1⟩ }
    t.cmdRefused = 0 ∧ Window.read t 0x62#8 = 6 ∧ Window.read t 0x65#8 = 1 ∧ (t.lane 1).descriptor.endAction = .wrap ∧
    (t.lane 2).descriptor.length = 1 := by decide +kernel

/-- R41 and R21: PRESET equal to LENGTH; then the states that refuse. -/
theorem test_laneLoad_refusals :
    (after (.laneLoad 0x01) { calm with staging := ⟨0, 6, 6, 0, 0⟩ }).cmdRefused = 0x01 ∧
    (inOrder judgeLoad 0x7F { calm with staging := ⟨506, 6, 5, 0, 0⟩ }).cmdRefused = 0x0E := by decide +kernel

/-- R90: STATE in IDLE and DONE, PENDING in lane 5. -/
theorem test_laneSwap_every_state :
    let t := inOrder judgeSwap 0x7F { calm with staging := ⟨40, 5, 1, 0, 0x10⟩ }
    t.cmdRefused = 0x31 ∧ (t.lane 5).lastResult = .pending ∧ (t.lane 2).swap = some discharge ∧
    (t.lane 2).active = 1 := by decide +kernel

theorem test_laneCancelSwap :
    let t := inOrder judgeCancelSwap 0x7F calm
    t.cmdRefused = 0x5F ∧ (t.lane 5).swap = none ∧ t.queue = [] := by decide +kernel

/-- R28: lane 7 completes the entry it is in the middle of, and is then held. -/
theorem test_laneHold_after_the_entry :
    ((completeLane 7 mixed).lane 7).entry = none ∧ ((completeLane 7 mixed).lane 7).dwell = 1 ∧
    ((judgeHold 7 (completeLane 7 mixed)).toOption.map fun t => (t.lane 7).state) = some .held := by decide +kernel

/-- R139, R36: an emission on its way to a lane that is stopped does not start it when it is armed again. -/
theorem test_laneStop_drops_an_emission :
    let l := { Lane.fresh { range with startSource := .trigger 0 } with state := .armed, coming := [.emission 0, .tick] }
    l.goIdle.coming = [.tick] ∧ l.goIdle.arm.coming = [.tick] := by decide +kernel

/-- Lanes 0 and 1 are IDLE over one record that reports, both channels of unit 0 have reached their counts, and a copy onto
that record waits. -/
def starting : State :=
  { ready with
    table := [(20, rec 0x0400 7 0)]
    lanes := (ready.lanes.set 0 (.fresh { Descriptor.powerOn with base := 12 })).set 1 (.fresh { Descriptor.powerOn with base := 12 })
    job := ⟨.copy, 20, 12, 1, 0, .running, 0⟩
    units := ready.units.set 0 { ready.units[0] with a := ⟨true, false, some 0⟩, b := ⟨true, false, some 0⟩ } }

/-- What a LANE_START makes of these lanes. -/
def startBoth (u : State) (k : LaneId) : Except Result Act := .ok ((u.lane k).requests true 0 .start)

section
variable {judged : State → LaneId → Except Result Act} {left waiting stored : List LaneId} {k : LaneId} {s u t : State}

/-- The judgement of a lane in which the command causes an entry, nothing being held back. -/
theorem parts_judge_entering (hk : k ∈ left) (hj : State.Judged judged k s u) (he : (u.lane k).entry.isSome = true)
    (h : State.Parts judged (left.erase k) (waiting ++ [k]) [] stored u t) : State.Parts judged left waiting [] stored s t :=
  .judge hk hj nofun (by rwa [if_pos he])

/-- A fetch whose entry raises no notice. -/
theorem parts_fetch_silent (hk : k ∈ waiting) (he : (serveFetchApart k s).lateOf (.lane k) = s.lateOf (.lane k))
    (h : State.Parts judged left (waiting.erase k) [] stored (serveFetchApart k s) t) :
    State.Parts judged left waiting [] stored s t :=
  .fetch hk (serveFetchApart_spec k s) (by rwa [if_pos he])

/-- A fetch whose entry raises a notice. -/
theorem parts_fetch_raising (hk : k ∈ waiting) (he : (serveFetchApart k s).lateOf (.lane k) ≠ s.lateOf (.lane k))
    (h : State.Parts judged left (waiting.erase k) [k] stored (serveFetchApart k s) t) :
    State.Parts judged left waiting [] stored s t :=
  .fetch hk (serveFetchApart_spec k s) (by rwa [if_neg he])

end

/-- R12, R161, R172, R177: between the parts of two lanes that one write starts, the copy's move onto their record and an
illegal transition can happen, so that lane 1 alone reports its step, behind the POSITION notice. -/
theorem test_laneStart_between_two_parts :
    ∃ t, State.Parts startBoth [0, 1] [] [] [1] starting t ∧ (t.lane 0).dwell = 1 ∧ (t.lane 1).dwell = 7 ∧
      t.queue = [⟨.job .copy .done 1, 0⟩, ⟨.position 0, 0⟩, ⟨.step 1 0 .start, 0⟩] := by
  let asked (k : LaneId) (v : State) : State := v.withAct k { (v.lane k).requests true 0 .start with
    lane := { ((v.lane k).requests true 0 .start).lane with lastResult := .taken } }
  let x := serveFetchApart 0 (asked 0 (completeLane 0 starting))
  let y := happen (happen x .access) (.acceptance (.quadrature 0 .a))
  let z := serveFetchApart 1 (asked 1 (completeLane 1 y))
  have h1 : x.GoesOn 0 y :=
    Relation.ReflTransGen.head (.inr ⟨.access, by decide +kernel, rfl⟩)
      (Relation.ReflTransGen.head (.inr ⟨.acceptance (.quadrature 0 .a), by decide +kernel, rfl⟩) Relation.ReflTransGen.refl)
  have h2 : State.Parts startBoth [1] [] [] [1] y (z.arriveFrom (.lane 1)) :=
    parts_judge_entering (k := 1) (u := asked 1 (completeLane 1 y)) (by decide) rfl (by decide +kernel)
      (parts_fetch_raising (k := 1) (by decide) (by decide +kernel) (.store (k := 1) (by decide) (.done _)))
  have h3 : State.Parts startBoth [0, 1] [] [] [1] starting (z.arriveFrom (.lane 1)) :=
    parts_judge_entering (k := 0) (u := asked 0 (completeLane 0 starting)) (by decide) rfl (by decide +kernel)
      (parts_fetch_silent (k := 0) (by decide) (by decide +kernel) (.goOn h1 nofun h2))
  exact ⟨_, h3, by decide +kernel⟩

/-- R12, R30: the fetch of lane 1 is served before the copy's move onto the record and that of lane 0 after it, and their notices
are stored in ascending lane order all the same. -/
theorem test_laneStart_fetches_in_any_order :
    let s := { starting with table := [(12, rec 0x0400 1 0), (20, rec 0x0400 7 0)] }
    let parts := [Part.judge 0, .judge 1, .fetch 1].foldl (doPart judgeStart) s
    let t := [Part.fetch 0, .store 0, .store 1].foldl (doPart judgeStart) (happen parts .access)
    (t.lane 0).dwell = 7 ∧ (t.lane 1).dwell = 1 ∧ t.late = [] ∧
    t.queue = [⟨.job .copy .done 1, 0⟩, ⟨.step 0 0 .start, 0⟩, ⟨.step 1 0 .start, 0⟩] ∧
    (Todo.mk [] [0] [1]).parts judgeStart parts = [.store 1, .fetch 0] := by decide +kernel

/-- Lanes 0 and 1 are HELD with their dwells expired, lane 0 before a record that reports and lane 1 at the end of a range that
wraps. -/
def releasing : State :=
  { (withLane 0 (walking range .held 0 .zero 0 none)).setLane 1 (walking range .held 3 .zero 0 none) with
    table := [(11, rec 0x0400 1 0)] }

/-- R30, R172: lane 1 wraps before the entry of lane 0 is committed, so that its END notice stands before lane 0's STEP notice;
the notices of the entries stand in ascending order (log 19). -/
theorem test_laneRelease_end_before_step :
    (Todo.mk [1] [0] []).parts judgeRelease releasing = [.fetch 0, .judge 1] ∧
    let t := [Part.judge 0, .judge 1, .fetch 0, .store 0, .fetch 1].foldl (doPart judgeRelease) releasing
    (t.lane 0).active = 1 ∧ (t.lane 1).active = 0 ∧ t.queue = [⟨.rangeEnd 1 3 .wrap 1, 0⟩, ⟨.step 0 1 .advance, 0⟩] := by
  decide +kernel

/-- R30, R172: the lanes of one write raise their SWAP notices in either order (log 19, log 31). -/
theorem test_laneStop_in_either_order :
    let l := { walking range .running 1 .zero 1 none with swap := some discharge }
    let s := (withLane 0 l).setLane 1 l
    (partsInOrder judgeStop [0, 1] s).queue = [⟨.swap 0 1 .sequenceEnd .stop, 0⟩, ⟨.swap 1 1 .sequenceEnd .stop, 0⟩] ∧
    (partsInOrder judgeStop [1, 0] s).queue = [⟨.swap 1 1 .sequenceEnd .stop, 0⟩, ⟨.swap 0 1 .sequenceEnd .stop, 0⟩] := by
  decide +kernel

/-- R26: a lane that stands HELD without a current step ignores an edge, and one on its way does not reach it any more. -/
theorem test_laneJump_takes_no_edge :
    let l := ({ calm.lane 3 with coming := [.edge 5 .rising, .tick] } : Lane).jump 2
    l.ignores = true ∧ l.coming = [.tick] ∧ (calm.lane 3).ignores = false := by decide +kernel

/-! ## Lines (spec/06) -/

/-- Step 5 of the bring-up procedure: line 4 to lane 1. -/
theorem test_lineAssign_shows_the_owner :
    let t := after (.lineAssign 0x0104) ready
    t.cmdResult = .taken ∧ Window.read t 0x89#8 = 0x8881 := by decide +kernel

/-- R104: line 3 belongs to lane 2, which runs; line 5 has no owner. -/
theorem test_lineAssign_refusals :
    (after (.lineAssign 0x0003) mixed).cmdResult = .owned ∧ (after (.lineAssign 0x0205) mixed).cmdResult = .state := by
  decide +kernel

theorem test_lineFree :
    (after (.lineFree 0x0003) mixed).cmdResult = .owned ∧
    (after (.lineFree 0xFFE3) { ready with owners := mixed.owners }).owners[3] = none := by decide +kernel

/-- Step 4 of the bring-up procedure: OUT2 goes to 1 at once. -/
theorem test_safeLevelWrite :
    Window.read (after (.safeLevelWrite .lo 4) ready) 0x84#8 = 4 ∧
    Window.read (after (.safeLevelWrite .hi 0x8000) { ready with safeLevels := 4 }) 0x84#8 = 4 := by decide +kernel

/-- The example "Two lanes sharing one range" after tick 106: lane 0 on OUT0–OUT3, lane 1 on OUT4–OUT7 with a pulse on 6. -/
theorem test_lines_of_two_lanes :
    let l0 := walking range .running 2 { Record.zero with w0 := 0x000F } 3 none
    let l1 := { walking range .running 1 { Record.zero with w0 := 0x00F0 } 2 none with pulse := some ⟨6, 5⟩ }
    let s := { ready with
      lanes := (ready.lanes.set 0 l0).set 1 l1
      owners := Vector.ofFn fun n => if n.val < 4 then some 0 else if n.val < 8 then some 1 else none
      safeLevels := 4
      driveEnable := true }
    Window.read s 0x84#8 = 0xBF ∧ Window.read { s with driveEnable := false } 0x84#8 = 4 := by decide +kernel

/-! ## Position Units and inputs (spec/07) -/

theorem test_posLoad_is_no_arrival :
    let t := after (.posLoad 0xFFFF) { ready with posArg := 1 }
    t.units[1].counter = 1 ∧ t.units[0].counter = 0 ∧ t.cmdResult = .taken := by decide +kernel

theorem test_posClear :
    let flagged := { ready with units := .replicate 2 { ready.units[0] with error := true } }
    let t := after (.posClear 0xFFFD) flagged
    t.units[0].error = false ∧ t.units[1].error = true := by decide +kernel

/-- R124, R128: bits 8–15 are stored without effect; a change of the count discards the acceptance. -/
theorem test_posFiltWrite :
    let s := { ready with
      units := ready.units.set 0 { ready.units[0] with filter := 2, a := ⟨true, false, some 7⟩ } }
    (after (.posFiltWrite 0 0xAB02) s).units[0].a.acceptance = some 7 ∧
    Window.read (after (.posFiltWrite 0 0xAB02) s) 0xA0#8 = 0xAB02 ∧
    (after (.posFiltWrite 0 0xAB03) s).units[0].a.acceptance = none := by decide +kernel

/-- The example of section 7.4, second row: the counter wraps from 65535 to 0. -/
theorem test_quadratureChange_wraps_up :
    let u := { ready.units[0] with a := ⟨true, true, none⟩, b := ⟨true, false, some 0⟩, counter := 65535 }
    let t := after (.quadratureChange 0 .b) ({ mixed with units := ready.units.set 0 u })
    t.units[0].counter = 0 ∧ t.units[0].lastDirection = some .up ∧ (t.lane 2).coming = [.arrival 0 0 .up] ∧
    (t.lane 4).coming = [] := by decide +kernel

/-- The third row: both channels fall in one period. -/
theorem test_quadratureChange_illegal :
    let u := { ready.units[0] with a := ⟨false, true, some 0⟩, b := ⟨false, true, some 0⟩, lastDirection := some .up }
    let t := after (.quadratureChange 0 .a) { ready with units := ready.units.set 0 u }
    t.units[0].counter = 0 ∧ t.units[0].error = true ∧ t.units[0].a.accepted = false ∧ t.units[0].b.accepted = false ∧
    t.queue = [⟨.position 0, 0⟩] := by decide +kernel

/-- R128: channel A is accepted first, so the two changes are two counts; B's row does nothing before A's. -/
theorem test_quadratureChange_one_after_the_other :
    let u := { ready.units[0] with filter := 1, a := ⟨true, false, some 16⟩, b := ⟨true, false, some 10⟩ }
    let s := { ready with units := ready.units.set 0 u }
    after (.quadratureChange 0 .b) s = s ∧
    (after (.quadratureChange 0 .a) s).units[0].counter = 1 ∧ (after (.quadratureChange 0 .a) s).units[0].error = false := by
  decide +kernel

/-- R128, R119: with filter count 0 a channel that moves after an accepted change of the same core clock period is accepted
in the next one, so that the two changes are two counts. -/
theorem test_quadratureChange_in_the_next_period :
    let s := after (.quadratureChange 0 .a) (after (.presentedLevelChange (.quadrature 0 .a) true) ready)
    let t := after (.presentedLevelChange (.quadrature 0 .b) true) s
    s.compared = true ∧ t.units[0].lacking .b = some 1 ∧ (elapse 1 t).compared = false ∧
    (after (.quadratureChange 0 .b) t).units[0].counter = 2 ∧ (after (.quadratureChange 0 .b) t).units[0].error = false := by
  decide +kernel

/-- IN5 of the example of section 7.2: filter count 2, so 32 core clock periods. -/
def in5 (pin accepted : Bool) (acceptance : Option Nat) : Inputs :=
  { ready.inputs with
    pins := if pin then 0x20 else 0
    filters := ready.inputs.filters.set 2 0x0200
    accepted := if accepted then 0x20 else 0
    acceptance := ready.inputs.acceptance.set 5 acceptance }

theorem test_presentedLevelChange_begins_and_discards :
    (after (.presentedLevelChange (.input 5) true) { ready with inputs := in5 false false none }).inputs.acceptance[5] =
      some 0 ∧
    (after (.presentedLevelChange (.input 5) false) { ready with inputs := in5 true false (some 20) }).inputs.acceptance[5] =
      none := by decide +kernel

theorem test_acceptance_after_32_periods :
    let s := { ready with inputs := in5 true false (some 0) }
    (elapse 31 s).inputs.lacking 5 = some 1 ∧ (elapse 32 s).inputs.lacking 5 = some 0 := by decide +kernel

/-- R117: the acceptance that has reached its count is made before the pin goes back, which is first compared in the next
period (log 23), and a tick waits for it. -/
theorem test_due_acceptance_comes_first :
    let s := { ready with inputs := in5 true false (some 32), timebase := ⟨9, 0, true, some ⟨10, 3⟩, 0⟩ }
    let t := after (.presentedLevelChange (.input 5) false) s
    t.inputs.accepted = 0x20 ∧ t.inputs.acceptance[5] = none ∧ t.inputs.lacking 5 = some 33 ∧ after (.tick 0xFF) s = s := by
  decide +kernel

/-- Time 57 of the example: accepted RISING, handed to the ARMED lane and to no IDLE one. -/
theorem test_inputAcceptedChange_rising :
    let t := after (.inputAcceptedChange 5) { mixed with inputs := in5 true false (some 32) }
    t.inputs.accepted = 0x20 ∧ t.inputs.acceptance[5] = none ∧ (t.lane 1).coming = [.edge 5 .rising] ∧
    (t.lane 0).coming = [] := by decide +kernel

/-- The write of IN_POL at time 180 of the example discards IN5's acceptance, and no other. -/
theorem test_inputSettingWrite_polarity :
    let i := in5 false true (some 9)
    let s := { ready with inputs := { i with pins := 0x40, acceptance := i.acceptance.set 6 (some 3) } }
    let t := after (.inputSettingWrite .polarity 0x20) s
    t.inputs.acceptance[5] = none ∧ t.inputs.acceptance[6] = some 3 ∧ t.inputs.accepted = 0x20 := by decide +kernel

/-- R118, R119: IN4 and IN5 move in the core clock period in which the filter count of IN5 was written. IN5 is compared under
its new count of 2 in the next period, and IN4, whose count stands, at once. -/
theorem test_inputSettingWrite_then_a_move :
    let s := after (.inputSettingWrite (.filter 2) 0x0200) ready
    let t := after (.presentedLevelChange (.input 4) true) (after (.presentedLevelChange (.input 5) true) s)
    s.restarted = [.input 5] ∧ t.inputs.lacking 5 = some 33 ∧ t.inputs.lacking 4 = some 0 ∧ (elapse 1 s).restarted = [] := by
  decide +kernel

/-- R128: both channels move after their filter count was written, and lack the same. -/
theorem test_posFiltWrite_then_a_move :
    let s := after (.posFiltWrite 0 1) ready
    let t := after (.presentedLevelChange (.quadrature 0 .b) true) (after (.presentedLevelChange (.quadrature 0 .a) true) s)
    t.units[0].lacking .a = some 17 ∧ t.units[0].lacking .b = some 17 := by decide +kernel

/-- R177: a pin move that follows a write in the queue may fall within the write; its own row then does no more (log 37). -/
theorem test_a_move_within_a_write :
    let s := { ready with pending := [.presentedLevelChange (.input 5) true, .tick 0, .presentedLevelChange (.input 6) true] }
    let t := happen s (.move (.input 5) true)
    s.happenings 0 = [.move (.input 5) true, .period] ∧ t.inputs.pins = 0x20 ∧ t.happenings 0 = [.acceptance (.input 5)] ∧
    t.early = [(.input 5, true)] ∧ (after (.presentedLevelChange (.input 5) true) t) = { t with early := [] } := by
  decide +kernel

/-- Record 12 of the valve example: three rising edges of IN5. -/
def threeEdges : Record := { Record.zero with w0 := 2, w2 := 2, w3 := 100, w4 := 0x042A, w6 := 3 }

/-- The third edge sets the latch with the dwell expired, so the lane goes on to offset 3 (spec/03). -/
theorem test_edgeEvent_third_edge_advances :
    let l := { walking range .running 2 threeEdges 0 (some 95) with edges := 2, coming := [.edge 5 .rising] }
    let t := after (.edgeEvent 0 5 .rising) (withLane 0 l)
    (t.lane 0).active = 3 ∧ (t.lane 0).entry = some advancing ∧ (t.lane 0).edges = 3 := by decide +kernel

theorem test_edgeEvent_wrong_sense :
    let l := { walking range .running 2 threeEdges 0 (some 95) with edges := 2, coming := [.edge 5 .falling] }
    let t := after (.edgeEvent 0 5 .falling) (withLane 0 l)
    (t.lane 0).edges = 2 ∧ (t.lane 0).entry = none ∧ (t.lane 0).coming = [] := by decide +kernel

/-- The last row of the example of section 7.4: lane 1 waits on unit 0 at 1 going UP. -/
theorem test_arrival_advances :
    let r := { Record.zero with w4 := 0x0003, w6 := 1 }
    let l := { walking range .running 1 r 0 none with coming := [.arrival 0 1 .up] }
    let t := after (.arrival 1 0 1 .up) (withLane 1 l)
    (t.lane 1).active = 2 ∧ (t.lane 1).latch = true := by decide +kernel

/-! ## Trigger lines (spec/08) -/

/-- The synchronized start, for the one lane ARMED on TG7. -/
theorem test_triggerEmit_starts :
    let s := { withLane 2 { Lane.fresh { range with startSource := .trigger 7 } with state := .armed } with
      table := [(10, rec 0x0400 4 0)] }
    let t := after (.triggerEmit 0x80) s
    (t.lane 2).state = .running ∧ (t.lane 2).dwell = 4 ∧ t.queue = [⟨.step 2 0 .start, 0⟩] ∧ t.cmdResult = .taken := by
  decide +kernel

/-- R61, R138: an emission on another line sets the latch, one on the lane's own line does not. -/
theorem test_emission_own_line :
    let waits (line : LaneId) : Lane :=
      { walking range .held 1 (rec 0x0014 1 0) 0 none with coming := [.emission line] }
    ((after (.emission 3 2) (withLane 3 (waits 2))).lane 3).latch = true ∧
    ((after (.emission 2 2) (withLane 2 (waits 2))).lane 2).latch = false := by decide +kernel

/-- Lanes 0 to 2 in the middle of entries; lanes 1 and 2 took one emission on TG5, lane 2 first. -/
def following : State :=
  { ready with
    table := [(10, rec 0x0400 1 0)]
    lanes := ((ready.lanes.set 0 (entering none 0)).set 1 (entering (some (.emission 5)) 1)).set 2
      (entering (some (.emission 5)) 0) }
where
  entering (event : Option Event) (turn : Nat) : Lane :=
    { Lane.fresh range with state := .armed, entry := some { full := true, cause := .start, event := event, turn := turn } }

/-- R136: the entries of lanes that took one emission follow the order in which they took it; lane 0's is free. -/
theorem test_entryFetch_in_turn :
    after (.entryFetch 1) following = following ∧
    (after (.entryFetch 1) (after (.entryFetch 2) following)).queue = [⟨.step 2 0 .start, 0⟩, ⟨.step 1 0 .start, 0⟩] ∧
    (after (.entryFetch 0) following).queue = [⟨.step 0 0 .start, 0⟩] ∧
    following.due = [.fetch 0, .fetch 2, .period] := by decide +kernel

/-- R136: of two lanes ARMED on TG5 the one that takes the emission second is second in that order. -/
theorem test_emission_gives_the_turn :
    let armed := { Lane.fresh { range with startSource := .trigger 5 } with state := .armed, coming := [.emission 5] }
    let t := after (.emission 1 5) (after (.emission 2 5) ((withLane 1 armed).setLane 2 armed))
    ((t.lane 2).turn, (t.lane 1).turn) = (0, 1) ∧ t.inTurn 1 = false ∧ t.inTurn 2 = true := by decide +kernel

/-! ## Entries, ticks and faults (spec/03, spec/04) -/

/-- The valve example between ticks 111 and 112: offset 2 is committed with its STEP notice. -/
theorem test_entryFetch_commits :
    let l := { walking range .running 2 .zero 0 (some 44) with entry := some advancing }
    let s := { withLane 0 l with table := [(12, threeEdges)], timebase := { ready.timebase with counter := 111 } }
    let t := after (.entryFetch 0) s
    (t.lane 0).dwell = 2 ∧ (t.lane 0).limit = some 100 ∧ (t.lane 0).pattern = 2 ∧ (t.lane 0).edges = 0 ∧
    t.queue = [⟨.step 0 2 .advance, 111⟩] := by decide +kernel

/-- The example "Overflow and recovery": a SELF step met with four frames. -/
theorem test_entryFetch_stack_over :
    let frames := [⟨3, 2⟩, ⟨2, 2⟩, ⟨1, 2⟩, ⟨0, 2⟩]
    let l := { walking { range with length := 9 } .running 4 .zero 0 none with
      stack := frames, entry := some advancing }
    let t := after (.entryFetch 5) { withLane 5 l with table := [(14, { rec 0x0300 1 0 with w7 := 2 })] }
    (t.lane 5).state = .faulted ∧ (t.lane 5).faultCause = some .stackOver ∧ (t.lane 5).entered = false ∧
    (t.lane 5).stack = frames ∧ t.queue = [⟨.fault 5 4 .stackOver .halt, 0⟩] := by decide +kernel

/-- R185, R171: the counter wraps, and a lane takes the tick within the step. -/
theorem test_tick_wraps_the_counter :
    let s := { withLane 0 (walking range .running 0 (rec 0 5 0) 5 none) with
      timebase := ⟨2499, 1, true, some ⟨40000, 39999⟩, 65535⟩ }
    let t := after (.tick 0xFF) s
    t.timebase.counter = 0 ∧ t.timebase.period = some ⟨40000, 0⟩ ∧ (t.lane 0).dwell = 4 := by decide +kernel

/-- The valve example after tick 105: the TIME step of offset 0 is left. -/
theorem test_dwellExpiry_advances :
    let l := { walking range .running 0 (rec 0 5 0) 1 none with coming := [.tick] }
    let t := after (.dwellExpiry 0) (withLane 0 l)
    (t.lane 0).active = 1 ∧ (t.lane 0).entry = some advancing := by decide +kernel

/-- The valve example after tick 108: the INPUT condition of offset 1 does not hold. -/
theorem test_dwellExpiry_waits :
    let r := { Record.zero with w2 := 3, w3 := 50, w4 := 1, w5 := 4, w6 := 4 }
    let l := { walking range .running 1 r 1 (some 48) with coming := [.tick] }
    let t := after (.dwellExpiry 0) (withLane 0 l)
    (t.lane 0).entry = none ∧ (t.lane 0).dwell = 0 ∧ (t.lane 0).limit = some 47 := by decide +kernel

/-- The valve example at tick 136, which lane 0 has not taken. -/
def skipping : State :=
  let r := { Record.zero with w2 := 4, w3 := 20, w4 := 0x1001, w5 := 8 }
  { withLane 0 { walking range .running 3 r 0 (some 1) with coming := [.tick] } with
    inputs := { ready.inputs with accepted := 8 }, timebase := { ready.timebase with counter := 136 } }

/-- The valve example after tick 136: SKIP at the end of the range. -/
theorem test_limitExpiry_skips_and_wraps :
    let t := after (.limitExpiry 0) skipping
    (t.lane 0).active = 0 ∧ (t.lane 0).entry = some { full := true, cause := .skip } ∧ (t.lane 0).cycles = 1 ∧
    t.queue = [⟨.fault 0 3 .limit .skip, 136⟩, ⟨.rangeEnd 0 3 .wrap 1, 136⟩] := by decide +kernel

/-- R172: where the lanes take a tick in a free order, the END notice behind a FAULT with SKIP is on its way, so that the STEP
notice of another lane and a pop can come between them (log 4). -/
theorem test_notice_between_fault_and_end :
    let s := { skipping.setLane 1 { walking range .running 0 .zero 0 none with entry := some advancing } with
      table := [(10, rec 0x0400 1 0)] }
    let t := doWork s (.deliver 0 .tick)
    t.queue = [⟨.fault 0 3 .limit .skip, 136⟩] ∧ t.late = [(.lane 0, .rangeEnd 0 3 .wrap 1)] ∧
    (doWork (doWork t (.fetch 1)) (.notice (.lane 0))).queue =
      [⟨.fault 0 3 .limit .skip, 136⟩, ⟨.step 1 0 .advance, 136⟩, ⟨.rangeEnd 0 3 .wrap 1, 136⟩] ∧
    (doWork (popOldest t) (.notice (.lane 0))).queue = [⟨.rangeEnd 0 3 .wrap 1, 136⟩] ∧
    Happening.work (.notice (.lane 0)) ∈ t.happenings 0 ∧ Happening.work (.fetch 1) ∈ t.happenings 0 := by
  decide +kernel

/-- The example "One tick, three outcomes", case B: the DIVERT clears the stack. -/
theorem test_limitExpiry_diverts :
    let r := { Record.zero with w2 := 10, w3 := 10, w4 := 0x200B, w8 := 1 }
    let l := { walking range .running 2 r 1 (some 1) with stack := [⟨0, 2⟩], coming := [.tick] }
    let t := after (.limitExpiry 6) (withLane 6 l)
    (t.lane 6).active = 1 ∧ (t.lane 6).stack = [] ∧ (t.lane 6).entry = some { full := true, cause := .divert } ∧
    t.queue = [⟨.fault 6 2 .limit .divert, 0⟩] := by decide +kernel

/-- R103: a pulse that ended while drive enable was clear does not reappear when it is set, within the entry either. -/
theorem test_driveEn_shows_no_ended_pulse :
    let l := { walking range .running 0 .zero 0 none with entry := some { advancing with bridged := some 6 } }
    let s := { withLane 0 l with owners := ready.owners.set 6 (some 0) }
    ({ s with driveEnable := true } : State).outLevel 6 = true ∧ (after (.driveEn true) s).outLevel 6 = false := by
  decide +kernel

theorem test_pulseEnd :
    let l := { walking range .done 3 .zero 0 none with pulse := some ⟨6, 1⟩, coming := [.tick] }
    ((after (.pulseEnd 1) (withLane 1 l)).lane 1).pulse = none := by decide +kernel

/-- R108, R113: a pulse that ends at the tick of an advance is shown until the entry commits, and goes on there without a
gap when the new step starts one. -/
theorem test_pulse_without_a_gap :
    let pulsing := { rec 0x4000 5 0 with w8 := 0x3000, w9 := 9 }
    let l := { walking range .running 0 pulsing 1 none with pulse := some ⟨6, 1⟩, coming := [.tick] }
    let s := { withLane 0 l with
      table := [(11, pulsing)], owners := ready.owners.set 6 (some 0), driveEnable := true }
    let t := after (.dwellExpiry 0) s
    let u := after (.entryFetch 0) t
    (t.lane 0).pulse = none ∧ t.outLevel 6 = true ∧ (u.lane 0).pulse = some ⟨6, 9⟩ ∧ u.outLevel 6 = true ∧
    (after (.entryFetch 0) { t with table := [] }).outLevel 6 = false := by decide +kernel

/-- The inner tail of "A two-level nest", left with passes remaining 3: a re-entry of offset 2. -/
theorem test_repeat_decision :
    let l := { walking { range with length := 6 } .running 3 (rec 0x0200 1 0) 1 none with
      stack := [⟨2, 3⟩, ⟨1, 2⟩], coming := [.tick] }
    let t := after (.dwellExpiry 1) (withLane 1 l)
    (t.lane 1).active = 2 ∧ (t.lane 1).entry = some { full := false, cause := .repeated } ∧ (t.lane 1).stack = [⟨2, 2⟩, ⟨1, 2⟩] := by
  decide +kernel

/-- The example "A SEQUENCE_END swap on a wrapping lane": the END notice is not raised. -/
theorem test_swap_at_end_of_range :
    let l := { walking { range with base := 0, length := 3, emitOnEnd := true } .running 2 .zero 1 none with
      cycles := 7, swap := some discharge, coming := [.tick] }
    let t := after (.dwellExpiry 2) (withLane 2 l)
    (t.lane 2).descriptor = discharge ∧ (t.lane 2).active = 1 ∧ (t.lane 2).cycles = 0 ∧
    t.queue = [⟨.swap 2 2 .sequenceEnd .endOfRange, 0⟩] := by decide +kernel

/-! ## Trips (spec/09) -/

/-- Lane 2 RUNNING, lane 3 DONE and lane 5 IDLE, with TRIP1 and SW configured as in the example; TRIP1's pin is low. -/
def tripping (latched tripped : Bool) : State :=
  { ready with
    lanes := (ready.lanes.set 2 { walking range .running 1 .zero 12 none with
        state := if tripped then .tripped else .running, prior := if tripped then some .running else none }).set 3
      { walking range .done 3 .zero 0 none with
        state := if tripped then .tripped else .done, prior := if tripped then some .done else none }
    trips := (ready.trips.set 1 ⟨true, 0x0C, latched, true, 4, false, latched, if latched then none else some 0⟩).set 4
      { ready.trips[4] with enable := true, scope := 0x24 } }

theorem test_tripAcceptedChange_forces :
    let t := after (.tripAcceptedChange 1) (tripping false false)
    t.trips[1].latch = true ∧ (t.lane 2).state = .tripped ∧ (t.lane 2).prior = some .running ∧ (t.lane 2).dwell = 12 ∧
    (t.lane 3).prior = some .done ∧ t.queue = [⟨.trip 1 0x0C, 0⟩] := by decide +kernel

theorem test_tripAssert_empty_mask :
    let t := after (.tripAssert 0) (tripping true true)
    t.trips[4].latch = true ∧ (t.lane 5).state = .idle ∧ t.queue = [⟨.trip 4 0, 0⟩] := by decide +kernel

/-- 12h: TRIP1 is still active, SW clears. -/
theorem test_tripClear_refuses_active :
    let s := after (.tripAssert 0) (tripping true true)
    let t := after (.tripClear 0x12) s
    t.tripRefused = 0x02 ∧ t.cmdResult = .active ∧ t.trips[1].latch = true ∧ t.trips[4].latch = false := by decide +kernel

/-- R143: ACTIVE_LOW, filter count 4, scope 0Ch, over a high pin; TRIP_MODE1 and TRIP_SCOPE1 show it. -/
theorem test_tripConfig_stores :
    let s := { ready with
      tripArg0 := 0x0403, tripArg1 := 0x0C, trips := ready.trips.set 1 { ready.trips[1] with pin := true, active := true } }
    let t := after (.tripConfig 0xFFF9) s
    t.cmdResult = .taken ∧ Window.read t 0xB9#8 = 0x0403 ∧ Window.read t 0xC1#8 = 0x0C ∧ t.trips[1].active = false ∧
    t.trips[1].latch = false := by decide +kernel

/-- R143, R145: over a low pin the source latches at once. -/
theorem test_tripConfig_latches :
    let t := after (.tripConfig 1) { calm with tripArg0 := 0x0403, tripArg1 := 0x0C }
    t.trips[1].latch = true ∧ t.queue = [⟨.trip 1 0x0C, 0⟩] ∧
    (after (.tripConfig 5) mixed).cmdResult = .range := by decide +kernel

/-- R28, R147: a lane takes the forcing it kept during its entry, and the TRIP notice follows. -/
theorem test_tripForcing_after_the_entry :
    let s := { withLane 2 { walking range .running 1 .zero 1 none with kept := [.forcing 1] } with
      settings := [⟨1, 0x04, 0x08⟩] }
    let t := after (.tripForcing 2 1) s
    (t.lane 2).state = .tripped ∧ t.settings = [] ∧ t.queue = [⟨.trip 1 0x0C, 0⟩] := by decide +kernel

/-- R147, R172: the STEP notice of an entry that a LANE_START caused is still on its way when a latch set between two parts of the
command forces the lane, and the TRIP notice waits for it (log 39). -/
theorem test_trip_follows_the_step :
    let s := { withLane 1 { Lane.fresh range with entry := some { full := true, cause := .start } } with
      table := [(10, rec 0x0400 1 0)], trips := ready.trips.set 0 { ready.trips[0] with enable := true, scope := 0x02 } }
    let t := setLatch 0 (serveFetchApart 1 s)
    (t.lane 1).state = .tripped ∧ t.queue = [] ∧
    t.late = [(.lane 1, .step 1 0 .start), (.tripUnit, .trip 0 2)] ∧ t.arrivals = [.notice (.lane 1)] ∧
    (t.arriveFrom (.lane 1)).arrivals = [.notice .tripUnit] := by decide +kernel

/-! ## Table jobs (spec/10) -/

/-- Records A to F of the overlapping copy. -/
def block : List (Nat × Record) := (List.range 6).map fun i => (100 + i, rec 0 (BitVec.ofNat 16 (i + 1)) 0)

def copying : State := { ready with table := block, job := ⟨.copy, 100, 102, 4, 0, .running, 0⟩ }

theorem test_jobCopy_takes_its_arguments :
    let t := after (.jobCopy 0) { ready with jobArgSrc := 100, jobArgDst := 102, jobArgCount := 4 }
    t.job = copying.job ∧ t.cmdResult = .taken ∧ (after (.jobCopy 0) ready).cmdResult = .range := by decide +kernel

theorem test_jobCheck_busy_then_fresh :
    (after (.jobCheck 0) copying).cmdResult = .busy ∧
    (after (.jobCheck 0) { ready with jobArgSrc := 511, jobArgDst := 600, jobArgCount := 1 }).job =
      ⟨.check, 511, 0, 1, 0, .running, 0xFFFF⟩ := by decide +kernel

theorem test_jobAbort :
    (after (.jobAbort 0) State.reset).cmdResult = .busy ∧ (after (.jobAbort 0) ready).cmdResult = .state ∧
    (after (.jobAbort 0) copying).queue = [⟨.job .copy .aborted 0, 0⟩] := by decide +kernel

/-- Move 0 of the descending copy: 103 to 105. -/
theorem test_copyMove_descends :
    let t := after .copyMove copying
    Memory.read t.table 105 = Memory.read block 103 ∧ Memory.read t.table 102 = Memory.read block 102 ∧
    t.job.progress = 1 := by decide +kernel

/-- R161: a fetch that has waited for an access does not wait for a second one. -/
theorem test_copyMove_waits_for_a_fetch :
    let s (passed : Bool) : State := { withLane 2
        { walking range .running 2 .zero 0 none with entry := some { advancing with passed := passed } } with
      table := block, job := copying.job }
    after .copyMove (s true) = s true ∧ (after .copyMove (s false)).job.progress = 1 ∧
    ((after .copyMove (s false)).lane 2).entry = some { advancing with passed := true } := by decide +kernel

/-- The check value of one zero record, worked out apart from the model from the text of R163. -/
theorem test_checkRead_of_a_zero_record :
    let t := after .checkRead { ready with job := ⟨.check, 7, 0, 1, 0, .running, 0xFFFF⟩ }
    t.job.crc = 0xF6B8 ∧ t.job.state = .done ∧ t.queue = [⟨.job .check .done 1, 0⟩] := by decide +kernel

/-- The check value of one word, 8001h, worked out apart from the model. -/
theorem test_crc_of_one_word : crcWord 0xFFFF 0x8001 = 0x16B6 := by decide +kernel

/-! ## Notices (spec/11) -/

/-- A queue of n STEP notices. -/
def steps (n : Nat) : List Notice := List.replicate n ⟨.step 0 0 .advance, 500⟩

/-- The rows "STEP at 503" and "STEP at 504" of the example. -/
theorem test_queue_counts_lost :
    Queue.arrive (steps 63) (.step 0 0 .advance) 503 = steps 63 ++ [⟨.lost 1, 503⟩] ∧
    Queue.arrive (steps 63 ++ [⟨.lost 1, 503⟩]) (.step 0 0 .advance) 504 = steps 63 ++ [⟨.lost 2, 503⟩] ∧
    Queue.arrive (steps 62 ++ [⟨.lost 255, 503⟩]) (.position 1) 507 = steps 62 ++ [⟨.lost 255, 503⟩] := by decide +kernel

theorem test_queue_appends_below_63 :
    Queue.arrive (steps 62) (.step 0 0 .advance) 502 = steps 62 ++ [⟨.step 0 0 .advance, 502⟩] := by decide +kernel

theorem test_noticePop :
    (after (.noticePop 0) ready).cmdResult = .empty ∧
    (after (.noticePop 0) { ready with queue := [⟨.lost 3, 1⟩, ⟨.position 1, 2⟩] }).queue = [⟨.position 1, 2⟩] := by
  decide +kernel

/-- R172: a notice that reaches the queue together with the pop arrives before it or after it. -/
theorem test_noticePop_beside_an_arrival :
    arriving.happenings 0 = [.work (.notice (.lane 1))] ∧ (popOldest arriving).cmdResult = .empty ∧
    (let t := popOldest (happen arriving (.work (.notice (.lane 1))))
     t.cmdResult = .taken ∧ t.queue = [] ∧ t.late = []) := by decide +kernel

/-- R177: the word that stood when RD# fell is held. -/
theorem test_read_is_held :
    busData true true false 0xE5#8 none ready = some 0 ∧
    busData true true false 0xE5#8 (some 7) ready = some 7 ∧ busData true false false 0xE5#8 (some 7) ready = none := by
  decide +kernel

/-- R173, R179: the head of a FAULT notice of lane 3, LIMIT and SKIP. -/
theorem test_notice_head :
    let s := { ready with queue := [⟨.fault 3 5 .limit .skip, 136⟩] }
    Window.read s 0xE0#8 = 0x0303 ∧ Window.read s 0xE1#8 = 5 ∧ Window.read s 0xE2#8 = 0x0011 ∧
    Window.read s 0xE4#8 = 136 ∧ Window.read s 0xE5#8 = 1 := by decide +kernel

/-! ## CONTROL, Timebase and resets (spec/12) -/

/-- Step 7 of the bring-up procedure: every line still shows its safe level. -/
theorem test_driveEn_of_idle_lanes :
    let t := after (.driveEn true) { ready with safeLevels := 4, owners := .replicate 32 (some 0) }
    t.driveEnable = true ∧ Window.read t 0x84#8 = 4 ∧ Window.read t 0x01#8 = 1 := by decide +kernel

/-- Steps 2 and 8 of the bring-up procedure: 40000 core clock periods. A rewrite leaves the period as it is. -/
theorem test_tbRun_begins_a_period :
    let s := { ready with timebase := ⟨2499, 1, false, none, 0⟩ }
    (after (.tbRun true) s).timebase.period = some ⟨40000, 0⟩ ∧
    (after (.tbRun true) (elapse 7 (after (.tbRun true) s))).timebase.period = some ⟨40000, 7⟩ := by decide +kernel

theorem test_noticeIrqEn_moves_the_line :
    let s := { ready with queue := [⟨.position 1, 2⟩] }
    s.irqLine = false ∧ (after (.noticeIrqEn true) s).irqLine = true := by decide +kernel

/-- R155, R176: an active enabled source latches again with an empty mask, in an emptied queue. -/
theorem test_softReset_relatches :
    let t := after .softReset { tripping true true with queue := steps 3 }
    t.trips[1].latch = true ∧ (t.lane 2).state = .idle ∧ (t.lane 2).descriptor = range ∧
    t.queue = [⟨.trip 1 0, 0⟩] := by decide +kernel

/-- R176, R177: an illegal transition within the soft reset sets its flag, and its notice is discarded (log 38). -/
theorem test_softReset_discards_a_notice :
    ∃ t, State.Discards starting t ∧ t.units[0].error = true ∧ t.queue = [] :=
  ⟨_, ⟨happen starting (.acceptance (.quadrature 0 .a)),
    Relation.ReflTransGen.single (.inr ⟨.acceptance (.quadrature 0 .a), by decide +kernel, rfl⟩), rfl⟩, by decide +kernel⟩

/-- R183: a tick within the soft reset is counted, and the IDLE lanes have taken it when the reset is complete (log 38). -/
theorem test_softReset_tick_changes_no_lane :
    let due := { ready with timebase := ⟨2499, 1, true, some ⟨40000, 39999⟩, 65535⟩ }
    ∃ t, State.Discards due t ∧ t.timebase.counter = 0 ∧ ((happen due .tick).lane 0).coming = [.tick] ∧
      t.lane 0 = due.lane 0 :=
  ⟨_, ⟨happen _ .tick, Relation.ReflTransGen.single (.inr ⟨.tick, by decide +kernel, rfl⟩), rfl⟩, by decide +kernel⟩

theorem test_tbDivPreWrite_leaves_the_period :
    let s := { ready with timebase := ⟨1, 0, true, some ⟨2, 1⟩, 0⟩ }
    (after (.tbDivPreWrite .div 9) s).timebase = ⟨9, 0, true, some ⟨2, 1⟩, 0⟩ ∧
    (after (.tbDivPreWrite .pre 0xFFFE) s).timebase = ⟨1, 2, true, some ⟨2, 1⟩, 0⟩ := by decide +kernel

theorem test_tbCountWrite :
    (after (.tbCountWrite 0xFFFF) { ready with timebase := ⟨1, 0, true, some ⟨2, 1⟩, 5⟩ }).timebase =
      ⟨1, 0, true, some ⟨2, 1⟩, 0xFFFF⟩ := by decide +kernel

theorem test_plainRegisterWrite_lane_sel :
    Window.read (after (.plainRegisterWrite 0x60#8 0xFFFF) ready) 0x60#8 = 7 ∧
    after (.plainRegisterWrite 0x02#8 0xFFFF) ready = ready := by decide +kernel

theorem test_plainRegisterWrite_buffer :
    (after (.plainRegisterWrite 0x14#8 0x201A) ready).buffer = { Record.zero with w4 := 0x201A } := by decide +kernel

/-- R109, R184. -/
theorem test_resetAssert :
    let t := after .resetAssert { ready with safeLevels := 4 }
    t.outField = 0 ∧ after (.tbCountWrite 9) t = t := by decide +kernel

/-- The register map's power-on values, with IN0 high. -/
theorem test_resetRelease :
    let low := { mixed with resetLow := true, inputs := { mixed.inputs with pins := 1 } }
    let t := after .resetRelease low
    Window.read t 0x00#8 = 0x0840 ∧ Window.read t 0x02#8 = 3 ∧ Window.read t 0x88#8 = 0x8888 ∧
    Window.read t 0x99#8 = 1 ∧ Window.read t 0xD8#8 = 0x10 ∧ Window.read t 0xDB#8 = 0x200 := by decide +kernel

/-! ## What the statements suppose can be met

For each statement with hypotheses, a state and operands that meet them, clause by clause and at the ends of the ranges. -/

/-- RESET# held low over the mixed state. -/
def low : State := { mixed with resetLow := true, table := block }

/-- Lane 2 with one event on its way to it. -/
def handed (e : Event) (l : Lane) : State := withLane 2 { l with coming := [e] }

/-- A lane in a loop, with a swap and a pulse on its line. -/
def looping : Lane :=
  { walking range .running 1 .zero 1 (some 9) with
    stack := [⟨1, 255⟩, ⟨0, 1⟩], swap := some discharge, pulse := some ⟨3, 1⟩ }

theorem ready_quiet : ready.Quiet := ⟨rfl, rfl, rfl, by decide +kernel⟩

/-- A copy runs while lane 7 waits for its fetch, which has waited for an access of the job already, or has not. -/
def copyingIn (passed : Bool) : State :=
  { mixed.setLane 7 { mixed.lane 7 with entry := some { advancing with passed := passed } } with
    table := block, job := copying.job }

/-- RESET# low; an event on its way, and a notice; a period alone; an access, and a fetch and an access, that let periods go
by; and no emission waits. -/
theorem witness_IdleBlockGoesOnByItself :
    (low.pending = [] ∧ low.outbox = [] ∧ low.resetLow = true) ∧
    (¬ (handed .tick looping).AllTaken ∧ (handed .tick looping).outbox = [] ∧ (handed .tick looping).resetLow = false) ∧
    (¬ arriving.AllTaken ∧ arriving.outbox = [] ∧ arriving.resetLow = false) ∧
    (ready.AllTaken ∧ ready.outbox = [] ∧ ready.due = [.period] ∧ ready.nothingBefore 1 = true) ∧
    (copying.AllTaken ∧ copying.outbox = [] ∧ copying.due = [.access .copy, .period]) ∧
    (copyingIn false).AllTaken ∧ (copyingIn false).outbox = [] ∧ (copyingIn false).due = [.fetch 7, .access .copy, .period] :=
  ⟨⟨rfl, rfl, rfl⟩, ⟨fun h => absurd (h.coming_nil 2) (by decide +kernel), rfl, rfl⟩,
    ⟨fun h => absurd h.late_nil (by decide), rfl, rfl⟩,
    ⟨⟨rfl, by decide +kernel, by decide +kernel⟩, rfl, by decide +kernel, by decide +kernel⟩,
    ⟨⟨rfl, by decide +kernel, by decide +kernel⟩, rfl, by decide +kernel⟩, ⟨rfl, by decide +kernel, by decide +kernel⟩, rfl,
    by decide +kernel⟩

/-- A valid record and an invalid one under the entry of lane 7, and DIVERT on both sides of LENGTH 4. -/
theorem witness_RecordCheckRefusesExactlyTheInvalid :
    mixed.resetLow = false ∧ (mixed.lane 7).entry = some advancing ∧ mixed.inTurn 7 = true ∧
    (Memory.read mixed.table 12).validFor 4 = true ∧ (Memory.read [(12, rec 6 1 0)] 12).validFor 4 = false ∧
    ({ Record.zero with w4 := 0x2000, w8 := 3 } : Record).validFor 4 = true ∧
    ({ Record.zero with w4 := 0x2000, w8 := 4 } : Record).validFor 4 = false := by decide +kernel

theorem block_wf : Memory.wf block := by decide +kernel

theorem witness_RecordTransfersMoveOneRecord :
    (State.reset.resetLow = false ∧ State.reset.job.state = .running) ∧
    (copying.resetLow = false ∧ copying.job.kind = .copy ∧ Memory.wf copying.table) ∧
    512 ≤ (512 : Word).toNat ∧ ¬ 512 ≤ (511 : Word).toNat := by decide +kernel

/-- A clear at its first and at its last index; a fetch that has not waited for an access, and one that has. -/
theorem witness_ClearWriteZeroesTheNextRecord :
    (Job.powerOnClear.Ok ∧ State.reset.job = .powerOnClear) ∧
    Job.Ok ⟨.clear, 0, 0, 512, 511, .running, 0⟩ ∧ State.reset.resetLow = false ∧ Memory.wf block ∧
    (copyingIn false).accessFree = true ∧ (copyingIn true).accessFree = false :=
  ⟨⟨by constructor <;> decide, rfl⟩, by constructor <;> decide, rfl, block_wf, by decide +kernel, by decide +kernel⟩

theorem witness_PowerOnClearFillsTheTable : low.resetLow = true ∧ Memory.wf low.table := ⟨rfl, block_wf⟩

/-- Each start source, and PRESET and BASE + LENGTH on both sides of their bounds. -/
theorem witness_StagingCheckRefusesExactlyTheInvalid :
    (Staging.image ⟨0, 512, 511, 0, 0⟩).isSome = true ∧ (Staging.image ⟨1, 512, 511, 0, 0⟩) = none ∧
    (Staging.image ⟨0, 512, 512, 0, 0⟩) = none ∧
    (Staging.image ⟨511, 1, 0, 9, 0x1D1F⟩).map (fun d => d.startSource) = some (.trigger 7) ∧
    (Staging.image ⟨511, 1, 0, 9, 0x3E00⟩).map (fun d => d.startSource) = some (.edge 15 .rising) ∧
    (Staging.image ⟨511, 1, 0, 9, 0x3F00⟩).map (fun d => d.startSource) = some (.edge 15 .falling) ∧
    (Staging.image ⟨511, 1, 0, 9, 0x2100⟩) = none ∧ (Staging.image ⟨511, 1, 0, 9, 0x4200⟩) = none := by decide +kernel

theorem witness_LaneHoldResetAndCancelSwap :
    mixed.resetLow = false ∧ (mixed.lane 2).state = .running ∧ (mixed.lane 3).state ≠ .running ∧
    (mixed.lane 5).swap.isSome = true ∧ (mixed.lane 2).swap.isSome = false := by decide +kernel

theorem witness_LaneLoadAndSwapTakeTheStagingImage :
    (State.reset.resetLow = false ∧ State.reset.clearRunning = true) ∧
    (mixed.resetLow = false ∧ mixed.clearRunning = false ∧ mixed.staging.image.isSome = true) ∧
    (Staging.image ⟨0, 0, 0, 0, 0⟩ = none) ∧ (mixed.lane 5).refusesSwap = false ∧ (mixed.lane 4).refusesSwap = true := by
  decide +kernel

/-- Lane 3 is HELD with LENGTH 4: offsets 3 and 4; lane 2 runs. -/
theorem witness_LaneJumpMovesAHeldOrFaultedLane :
    (mixed.resetLow = false ∧ 3 = ((0x3003 : Word).extractLsb' 12 3).toNat ∧ 3 < (mixed.lane 3).descriptor.length) ∧
    ((0x3004 : Word).extractLsb' 0 9).toNat = (mixed.lane 3).descriptor.length ∧ (mixed.lane 3).state = .held ∧
    (mixed.lane 2).state = .running := by decide +kernel

theorem witness_LaneStopReturnsToIdle :
    mixed.resetLow = false ∧ (mixed.lane 5).swap = some discharge ∧ (mixed.lane 3).swap = none ∧
    (mixed.lane 6).state = .tripped := by decide +kernel

/-- The part still in its clear, a lane that enters, one that arms and one that is covered. -/
theorem witness_LaneStartEntersOrArms :
    (State.reset.resetLow = false ∧ State.reset.clearRunning = true) ∧
    (ready.resetLow = false ∧ (ready.lane 0).descriptor.startSource = .command ∧ ready.covered 0 = false) ∧
    (Lane.fresh { range with startSource := .trigger 0 }).descriptor.startSource ≠ .command ∧
    (tripping true true).covered 2 = true := by decide +kernel

/-- Lane 3 is HELD in an entered step; a lane HELD without one; lane 2 waits in a COMMAND step. -/
theorem witness_LaneReleaseAndStepLetTheLaneGoOn :
    mixed.resetLow = false ∧ (mixed.lane 3).copy.isSome = true ∧
    (Lane.jump (mixed.lane 3) 2).state = .held ∧ (Lane.jump (mixed.lane 3) 2).copy.isSome = false ∧
    (mixed.lane 2).waitsIn .command = true := by decide +kernel

/-- Lane 5 is FAULTED and lane 6 tripped from RUNNING, neither covered; under TRIP1 lanes 2 and 3 are. -/
theorem witness_LaneResumeContinuesTheWalk :
    mixed.resetLow = false ∧ (mixed.lane 5).state = .faulted ∧ (mixed.lane 6).prior = some .running ∧
    mixed.covered 6 = false ∧ (tripping true true).covered 3 = true := by decide +kernel

/-- A part with a job RUNNING and one without, and a job whose access may not be served now. -/
theorem witness_SoftResetClearsTheWalks :
    (copying.resetLow = false ∧ copying.job.state = .running ∧ copying.job.kind = .copy ∧ copying.accessFree = true ∧
      exec .copyMove copying = .next (after .copyMove copying)) ∧
    (ready.resetLow = false ∧ ready.job.state ≠ .running) ∧ State.reset.job.kind = .clear ∧
    (copyingIn true).accessFree = false := by
  refine ⟨⟨rfl, rfl, rfl, by decide +kernel, rfl⟩, ⟨rfl, by decide⟩, rfl, by decide +kernel⟩

theorem witness_EntryFetchCompletesTheEntry :
    mixed.resetLow = false ∧ mixed.outbox = [] ∧ (mixed.lane 7).entry = some advancing ∧ mixed.inTurn 7 = true ∧
    (mixed.lane 2).entry = none ∧ (following.resetLow = false ∧ following.outbox = [] ∧ following.inTurn 1 = false) := by
  decide +kernel

/-- The Timebase one period before its tick, in the mixed state. -/
def ticking (inputs : Inputs) : State :=
  { mixed with timebase := ⟨2499, 1, true, some ⟨40000, 39999⟩, 65535⟩, inputs := inputs }

/-- TB_RUN clear, and set with one period to go; with a filter that is due before, and without. -/
theorem witness_TickReachesEveryLane :
    (mixed.resetLow = false ∧ mixed.outbox = [] ∧ mixed.timebase.running = false) ∧
    (let s := ticking mixed.inputs
     s.resetLow = false ∧ s.outbox = [] ∧ s.timebase.running = true ∧ s.timebase.period = some ⟨40000, 39999⟩ ∧
       s.nothingBefore 1 = true) ∧
    (ticking (in5 true false (some 32))).nothingBefore 1 = false := by decide +kernel

/-- A RUNNING lane at the last tick of its dwell, its limit and its pulse at once, and a DONE lane at the last of its
pulse. -/
theorem witness_ExpiringTicksAreTaken :
    let running := { walking range .running 1 .zero 1 (some 1) with pulse := some ⟨3, 1⟩ }
    let done := { walking range .done 3 .zero 0 none with pulse := some ⟨3, 1⟩ }
    (handed .tick running).resetLow = false ∧ (handed .tick running).outbox = [] ∧
    ((handed .tick running).lane 2).taking .tick = some running ∧ running.state = .running ∧ running.dwell = 1 ∧
    running.limit = some 1 ∧ ((handed .tick done).lane 2).taking .tick = some done ∧ done.pulse = some ⟨3, 1⟩ := by
  decide +kernel

/-- Dwells of 1 and of 5. -/
theorem witness_TimeStepLastsItsDwell :
    let l (dwell : Word) : Lane := (withLane 2 (walking range .running 1 (rec 0 dwell 0) dwell.toNat none)).lane 2
    (l 5).entry = none ∧ (l 5).state = .running ∧ (l 5).copy = some (rec 0 5 0) ∧ (rec 0 5 0).kind = some .time ∧ (l 5).limit = none ∧
    (l 5).dwell = 4 + 1 ∧ (l 1).dwell = 0 + 1 := by decide +kernel

theorem witness_NoLeavingWhileTheDwellRemains :
    let s := withLane 2 (walking range .running 2 threeEdges 1 (some 95))
    s.resetLow = false ∧ s.outbox = [] ∧ (s.lane 2).state = .running ∧ (s.lane 2).entry = none ∧
    1 ≤ (s.lane 2).dwell ∧ (∀ n, Event.edge 5 .rising ≠ .forcing n) ∧ Event.edge 5 .rising ≠ .tick :=
  ⟨rfl, rfl, rfl, rfl, by decide +kernel, nofun, nofun⟩

theorem witness_EventsAreTakenByState :
    let l := walking range .running 2 threeEdges 0 (some 95)
    let armed := { Lane.fresh { range with startSource := .trigger 0 } with state := .armed }
    ((handed (.edge 5 .rising) l).lane 2).taking (.edge 5 .rising) = some l ∧
    ((handed (.arrival 1 65535 .down) l).lane 2).taking (.arrival 1 65535 .down) = some l ∧
    ((handed (.emission 0) armed).lane 2).taking (.emission 0) = some armed ∧
    (handed (.emission 0) armed).resetLow = false ∧ (handed (.emission 0) armed).outbox = [] := by decide +kernel

/-- A lane that moves, and one that is IDLE by the time it takes the forcing. -/
theorem witness_TripForcingMovesTheLane :
    let running := walking range .running 1 .zero 1 none
    let s (l : Lane) : State := { withLane 2 { l with kept := [.forcing 1] } with settings := [⟨1, 0x04, 0x08⟩] }
    (s running).resetLow = false ∧ (s running).outbox = [] ∧ ((s running).lane 2).taking (.forcing 1) = some running ∧
    ((s (.fresh range)).lane 2).taking (.forcing 1) = some (.fresh range) := by decide +kernel

/-- An emission that reaches lane 7 in the middle of its entry; and an edge that is not the next of its source. -/
theorem witness_EventsWaitDuringAnEntry :
    let entering := { mixed.lane 7 with coming := [.emission 3] }
    let other := { mixed.lane 2 with coming := [.edge 5 .rising] }
    (withLane 2 entering).resetLow = false ∧ (withLane 2 entering).outbox = [] ∧ entering.entry.isSome = true ∧
    entering.nextOfSource (.emission 3) = true ∧ other.entry = none ∧ other.taking (.edge 5 .falling) = none := by
  decide +kernel

/-- Line 31 and lane 7; a line whose owner runs; a lane that is not IDLE. -/
theorem witness_LineCommandsNeedIdleOwners :
    mixed.resetLow = false ∧ 31 = ((0x071F : Word).extractLsb' 0 5).toNat ∧ 7 = ((0x071F : Word).extractLsb' 8 3).toNat ∧
    mixed.ownerBusy 3 = true ∧ mixed.ownerBusy 31 = false ∧ (mixed.lane 7).state ≠ .idle ∧ (mixed.lane 0).state = .idle := by
  decide +kernel

/-- Every case of the level: RESET# low, drive enable clear, an unowned line, and an owner in each state. -/
theorem witness_LineLevelFollowsItsOwner :
    low.resetLow = true ∧ (mixed.resetLow = false ∧ mixed.driveEnable = false) ∧
    (let s := { mixed with driveEnable := true, owners := Vector.ofFn fun n => if h : n.val < 8 then some ⟨n, h⟩ else none }
     s.owners[8] = none ∧ (∀ k : LaneId, s.owners[k.val] = some k) ∧
     (s.lane 0).state = .idle ∧ (s.lane 5).state = .faulted ∧ (s.lane 5).descriptor.faultPolicy = .safe ∧
     (s.lane 2).state = .running ∧ (s.lane 2).pulse = none) ∧
    ({ range with faultPolicy := .hold } : Descriptor).faultPolicy = .hold ∧
    ({ mixed.lane 2 with pulse := some ⟨2, 5⟩ } : Lane).pulse.map Pulse.line = some 2 ∧
    ({ mixed.lane 7 with entry := some { advancing with bridged := some 7 } } : Lane).inverts 7 = true := by decide +kernel

/-- A line given to an IDLE lane, and one taken from an IDLE owner. -/
theorem witness_OwnersChangeOnlyWhileIdle :
    (let s := { ready with pending := [.lineAssign 0x071F] }
     s.resetLow = false ∧ ∃ t, step s = .next t ∧ t.owners[31] ≠ s.owners[31]) ∧
    (let s := { ready with pending := [.lineFree 0], owners := ready.owners.set 0 (some 1) }
     s.resetLow = false ∧ ∃ t, step s = .next t ∧ t.owners[0] ≠ s.owners[0]) :=
  ⟨⟨rfl, after (.lineAssign 0x071F) ready, rfl, by decide +kernel⟩,
    ⟨rfl, after (.lineFree 0) { ready with owners := ready.owners.set 0 (some 1) }, rfl, by decide +kernel⟩⟩

/-- A swap applied at the end of a range, and a load. -/
theorem witness_DescriptorChangesOnlyWhole :
    (let l := { walking { range with length := 3 } .running 2 .zero 1 none with
        swap := some discharge, coming := [.tick] }
     ∃ t, step { withLane 2 l with pending := [.dwellExpiry 2] } = .next t ∧ (t.lane 2).descriptor ≠ l.descriptor) ∧
    ∃ t, step { ready with pending := [.laneLoad 1], staging := ⟨0, 6, 0, 0, 1⟩ } = .next t ∧
      (t.lane 0).descriptor ≠ (ready.lane 0).descriptor :=
  ⟨⟨_, rfl, by decide +kernel⟩, ⟨_, rfl, by decide +kernel⟩⟩

/-- An acceptance that has reached its count under a pin that moves; a pin that does not move; one short of its count; and a
move that has fallen within a write. -/
theorem witness_PresentedLevelStartsAnAcceptance :
    (let s := { ready with inputs := in5 true false (some 32) }
     s.early.head? ≠ some (.input 5, false) ∧ s.resetLow = false ∧ s.pinLevel (.input 5) ≠ false ∧ s.pinLacking (.input 5) = some 0 ∧
       exec (.inputAcceptedChange 5) s = .next (after (.inputAcceptedChange 5) s)) ∧
    ready.inputs.pins.getLsbD 5 = false ∧ (in5 true false (some 31)).lacking 5 ≠ some 0 ∧ low.resetLow = true ∧
    ({ ready with early := [(.input 5, true)] } : State).early = [(.input 5, true)] ∧
    ({ ready with restarted := [.trip 3] } : State).restarted = [.trip 3] :=
  ⟨⟨by decide, rfl, by decide +kernel, by decide +kernel, rfl⟩, by decide +kernel, by decide +kernel, rfl, rfl, rfl⟩

/-- IN5 with a filter count of 2, short of 32 periods and at them; channel B of unit 1 and TRIP1 likewise. -/
theorem witness_AcceptanceTakesTheFilterCount :
    (let s := { ready with inputs := in5 true false (some 0) }
     s.inputs.differs 5 = true ∧ s.inputs.acceptance[5] = some 0 ∧ (elapse 31 s).inputs.lacking 5 ≠ some 0 ∧
       (elapse 32 s).inputs.lacking 5 = some 0) ∧
    (let s := { ready with units := ready.units.set 1 { ready.units[1] with filter := 0xFF02, b := ⟨true, false, some 0⟩ } }
     (s.units[1].channel .b).pin ≠ (s.units[1].channel .b).accepted ∧ (s.units[1].channel .b).acceptance = some 0 ∧
       (elapse 31 s).units[1].lacking .b ≠ some 0 ∧ (elapse 32 s).units[1].lacking .b = some 0) ∧
    (let s := tripping false false
     (s.trips[1].pin ^^ s.trips[1].activeLow) ≠ s.trips[1].active ∧ s.trips[1].acceptance = some 0 ∧
       (elapse 63 s).trips[1].lacking ≠ some 0 ∧ (elapse 64 s).trips[1].lacking = some 0) := by decide +kernel

/-- No acceptance; one that is the next event; one behind a tick that is due before. -/
theorem witness_InputAcceptedChangeHandsOutEdges :
    ready.resetLow = false ∧ ready.inputs.lacking 5 = none ∧ (in5 true false (some 7)).lacking 5 = some 25 ∧
    ({ ready with inputs := in5 true false (some 7) } : State).nothingBefore 25 = true ∧
    (ticking (in5 true false (some 7))).nothingBefore 25 = false := by decide +kernel

/-- No differing channel; one alone; both in one period; a tick that is due before. -/
theorem witness_QuadratureChangeCountsOrFlags :
    let u (a b : QuadChannel) : PositionUnit := { ready.units[0] with filter := 1, a := a, b := b }
    ready.resetLow = false ∧ (u ⟨true, true, none⟩ ⟨true, true, none⟩).lacking .a = none ∧
    (u ⟨true, false, some 0⟩ ⟨false, false, none⟩).lacking .a = some 16 ∧
    (u ⟨true, false, some 0⟩ ⟨false, false, none⟩).lacking .b = none ∧
    (u ⟨true, false, some 0⟩ ⟨true, false, some 0⟩).lacking .b = some 16 ∧
    ({ ready with units := ready.units.set 0 (u ⟨true, false, some 0⟩ ⟨false, false, none⟩) } : State).nothingBefore 16 =
      true ∧
    (ticking ready.inputs).nothingBefore 16 = false := by decide +kernel

theorem witness_PosLoadAndPosClear :
    ready.resetLow = false ∧ 1 = ((0xFFFF : Word).extractLsb' 0 1).toNat ∧ 0 = ((0xFFFE : Word).extractLsb' 0 1).toNat := by
  decide +kernel

theorem witness_TriggerEmitReachesEveryLane :
    mixed.resetLow = false ∧ mixed.outbox = [] ∧ (0xFF00 : Word).extractLsb' 0 8 = 0 ∧
    (0x0081 : Word).extractLsb' 0 8 ≠ 0 := by decide +kernel

/-- A state in which nothing is under way; one in which an emission waits while a lane is in the middle of an entry, an event
is on its way and a job runs. -/
theorem witness_HostCommandCompletesWhatFollows :
    (calm.resetLow = false ∧ calm.outbox = [] ∧ calm.happenings 0 = []) ∧
    let s := (copyingIn false).setLane 2 { mixed.lane 2 with coming := [.tick] }
    (s.withOutbox [3]).outbox ≠ [] ∧ 3 ∈ (s.withOutbox [3]).outbox ∧ s.happenings 0 ≠ [] :=
  ⟨⟨rfl, rfl, calm_happenings⟩, by decide +kernel⟩

/-- Lane 7 keeps the forcing of TRIP1 until its entry is complete. -/
def forcedInEntry : State :=
  { mixed.setLane 7 { mixed.lane 7 with kept := [.forcing 1] } with
    settings := [⟨1, 0x80, 0x04⟩]
    trips := ready.trips.set 1 ⟨true, 0x80, true, false, 0, true, true, none⟩ }

theorem forcedInEntry_settingsWait : forcedInEntry.SettingsWait := by
  unfold State.SettingsWait
  decide +kernel

theorem witness_TripConfigReplacesTheConfiguration :
    forcedInEntry.resetLow = false ∧ forcedInEntry.SettingsWait ∧ 5 ≤ ((5 : Word).extractLsb' 0 3).toNat ∧
    ((4 : Word).extractLsb' 0 3).toNat < 5 ∧ forcedInEntry.trips[1].latch = true ∧
    forcedInEntry.trips[0].latch = false ∧
    ({ forcedInEntry.trips[0] with enable := true, active := true } : TripSource).latch = false :=
  ⟨rfl, forcedInEntry_settingsWait, by decide, by decide, by decide +kernel, by decide +kernel, by decide +kernel⟩

theorem witness_TripAssertSetsTheSoftwareLatch :
    (forcedInEntry.resetLow = false ∧ forcedInEntry.SettingsWait ∧ forcedInEntry.trips[4].enable = false) ∧
    (let s := tripping true true
     s.SettingsWait ∧ s.trips[4].enable = true ∧ s.trips[4].latch = false ∧ s.outbox = [] ∧
       (({ s with cmdResult := .taken } : State).latched 4).happenings 0 = []) :=
  ⟨⟨rfl, forcedInEntry_settingsWait, by decide +kernel⟩,
    ⟨by unfold State.SettingsWait; decide +kernel, by decide +kernel, by decide +kernel, rfl, by decide +kernel⟩⟩

theorem witness_TripClearRefusesActiveSources :
    let s := tripping true true
    s.resetLow = false ∧ s.trips[1].active = true ∧ s.trips[1].latch = true ∧ s.trips[4].active = false := by
  decide +kernel

/-- A pin without a difference; one that becomes active under an enabled source; one that returns. -/
theorem witness_TripAcceptedChangeSetsTheLatch :
    let s := tripping false false
    s.resetLow = false ∧ s.SettingsWait ∧ s.trips[0].lacking = none ∧ s.trips[1].lacking = some 64 ∧
    s.trips[1].active = false ∧ s.trips[1].enable = true ∧ s.trips[1].latch = false ∧
    ({ s.trips[1] with pin := true, active := true, acceptance := some 64 } : TripSource).lacking = some 0 ∧
    s.nothingBefore 64 = true ∧ ({ s with timebase := (ticking s.inputs).timebase } : State).nothingBefore 64 = false :=
  ⟨rfl, by unfold State.SettingsWait; decide +kernel, by decide +kernel, by decide +kernel, by decide +kernel,
    by decide +kernel, by decide +kernel, by decide +kernel, by decide +kernel, by decide +kernel⟩

/-- The ranges that just fit and those that do not. -/
theorem witness_JobCommandsStartAndAbort :
    ready.resetLow = false ∧ ready.job.state ≠ .running ∧ copying.job.state = .running ∧
    State.reset.job.kind = .clear ∧ countInTable 512 = true ∧ countInTable 513 = false ∧ countInTable 0 = false ∧
    rangeInTable 511 1 = true ∧ rangeInTable 511 2 = false := by decide +kernel

theorem copying_ok (n : Nat) (h : n < 4) : Job.Ok { copying.job with progress := n } := by
  interval_cases n <;> constructor <;> decide

/-- The first and the last move; the clauses by `accessFree` are met as in `witness_ClearWriteZeroesTheNextRecord`. -/
theorem witness_CopyMoveMovesOneRecord :
    copying.resetLow = false ∧ copying.job.kind = .copy ∧ copying.job.state = .running ∧
    Job.Ok { copying.job with progress := 0 } ∧ Job.Ok { copying.job with progress := 3 } ∧ Memory.wf copying.table :=
  ⟨rfl, rfl, rfl, copying_ok 0 (by decide), copying_ok 3 (by decide), block_wf⟩

theorem witness_WholeCopyIsExact :
    copying.resetLow = false ∧ copying.job.kind = .copy ∧ copying.job.state = .running ∧ copying.job.progress = 0 ∧
    copying.job.Ok ∧ Memory.wf copying.table ∧ ∀ k, (copying.lane k).entry = none :=
  ⟨rfl, rfl, rfl, rfl, copying_ok 0 (by decide), block_wf, by decide +kernel⟩

/-- A read before the last one and the last one. -/
theorem witness_CheckReadFoldsOneRecord :
    let s (n : Nat) : State := { copying with job := ⟨.check, 100, 0, 6, n, .running, 0xFFFF⟩ }
    (s 0).resetLow = false ∧ (s 0).job.kind = .check ∧ (s 0).job.state = .running ∧ (s 0).job.Ok ∧ (s 5).job.Ok :=
  ⟨rfl, rfl, rfl, by constructor <;> decide, by constructor <;> decide⟩

/-- Lengths 62, 63 and 64, with and without a LOST record at the newest end. -/
theorem witness_ArrivalsAreStoredOrCountedAsLost :
    let lost (n : Nat) : List Notice := [⟨.lost n, 503⟩]
    (steps 62).length < 63 ∧ 63 ≤ (steps 62 ++ lost 255).length ∧
    (63 ≤ (steps 63).length ∧ ∀ older n st, steps 63 ≠ older ++ [⟨.lost n, st⟩]) ∧
    (steps 63 ++ lost 1).length = 64 ∧ newestLost (steps 63 ++ lost 1) := by
  refine ⟨by decide, by decide, ⟨by decide, fun older n st h => ?_⟩, by decide, 1, 503, rfl⟩
  have := congrArg List.getLast? h
  simp [steps] at this

/-- An empty queue and one with records, nothing else being under way; a notice on its way; and TRIP notices, raised or on their
way, that wait and that do not. -/
theorem witness_NoticePopRemovesTheOldest :
    (ready.resetLow = false ∧ ready.happenings 0 = [] ∧ ready.queue = []) ∧
    (let s := { ready with queue := [⟨.lost 3, 1⟩, ⟨.position 1, 2⟩] }
     s.resetLow = false ∧ s.happenings 0 = [] ∧ s.queue = ⟨.lost 3, 1⟩ :: [⟨.position 1, 2⟩]) ∧
    arriving.lateOf (.lane 1) = .rangeEnd 1 3 .wrap 1 :: [] ∧ [NoticeBody.position 0] ≠ [] ∧
    let behind := { ready with late := [(.lane 1, .step 1 0 .start), (.tripUnit, .trip 0 2)] }
    behind.tripWaits (.trip 0 2) = true ∧ behind.tripWaits (.trip 0 4) = false ∧
    { behind with late := [(.lane 1, .fault 1 0 .stackOver .halt)] }.tripWaits (.trip 4 2) = true ∧
    { behind with late := [(.lane 1, .fault 1 0 .limit .skip)] }.tripWaits (.trip 4 2) = false ∧
    behind.arrivals = [.notice (.lane 1)] ∧
    { behind with late := [(.tripUnit, .trip 0 2)] }.arrivals = [.notice .tripUnit] := by decide +kernel

theorem witness_InterruptLineFollowsQueueAndEnable :
    ({ ready with queue := [⟨.position 1, 2⟩], irqEnable := true } : State).irqLine = true ∧
    ready.resetLow = false ∧ low.resetLow = true := by decide +kernel

/-- The ends of each group of plain registers, a read-only register and an address without a register. -/
theorem witness_PlainRegistersReadBackWhatIsWritten :
    ready.resetLow = false ∧
    ([0x10#8, 0x19#8, 0x20#8, 0x24#8, 0x60#8, 0xA5#8, 0xB0#8, 0xB1#8, 0xD0#8, 0xD2#8, 0x02#8, 0x61#8, 0x75#8, 0xFF#8].all
      fun a => Instr.wellFormed (.plainRegisterWrite a 0xFFFF)) = true := by decide +kernel

/-- A report, a soft reset after a refusal, and a write at the address of a command register. -/
theorem witness_CmdResultKeepsTheLastOutcome :
    (∃ t, exec (.recordRead 512) ready = .next t ∧ t.cmdResult ≠ ready.cmdResult) ∧
    (∃ t, exec .softReset { ready with cmdResult := .range } = .next t ∧ t.cmdResult ≠ .range) ∧
    ∃ t, exec (.plainRegisterWrite 0x1A#8 512) ready = .next t ∧ t.cmdResult ≠ ready.cmdResult :=
  ⟨⟨_, rfl, by decide +kernel⟩, ⟨_, rfl, by decide +kernel⟩, ⟨_, rfl, by decide +kernel⟩⟩

theorem witness_ResetAssertHoldsThePart :
    low.resetLow = true ∧ Instr.recordRead 0 ≠ .resetRelease ∧
    ∀ pin level, Instr.recordRead 0 ≠ .presentedLevelChange pin level := ⟨rfl, nofun, nofun⟩

/-- RESET# high with commands that need no more: the safe levels, the filter settings, CONTROL and the Timebase. -/
theorem witness_resetHigh : mixed.resetLow = false ∧ ready.resetLow = false := ⟨rfl, rfl⟩

theorem witness_ResetReleaseTakesPowerOnValues : low.resetLow = true ∧ ready.resetLow = false := ⟨rfl, rfl⟩

theorem range_ok : range.Ok := by constructor <;> decide

theorem discharge_ok : discharge.Ok := by constructor <;> decide

theorem looping_ok : looping.Ok where
  descriptor_ok := range_ok
  active_lt := by decide
  frames_ok := by
    intro f hf
    rcases List.mem_cons.mp hf with rfl | hf
    · constructor <;> decide
    · cases List.mem_singleton.mp hf
      constructor <;> decide
  depth_le := by decide
  stack_empty := by decide +kernel
  swap_ok := by
    intro d h
    cases h
    exact discharge_ok
  swap_none := by decide +kernel
  copy_valid := by
    intro _ r h
    cases h
    decide +kernel
  entered := by decide +kernel
  cleared := nofun
  dwell_le := by decide
  limit_range := by
    intro n h
    cases h
    decide
  edges_le := by decide
  cycles_le := by decide
  pulse_ok := by
    intro p h
    cases h
    decide +kernel
  prior_tripped := nofun
  prior_none := nofun

theorem fresh_powerOn_ok : (Lane.fresh .powerOn).Ok := by
  refine ⟨by constructor <;> decide, by decide, nofun, by decide, by decide, nofun, by decide, nofun, by decide +kernel,
    by decide, by decide, nofun, by decide, by decide, nofun, nofun, nofun⟩

theorem witness_StepKeepsLanesInRange :
    let s := { withLane 2 looping with owners := ready.owners.set 3 (some 2), pending := [.tick 0xFF] }
    s.LanesOk ∧ ∃ t, step s = .next t := by
  refine ⟨⟨fun k => ?_, fun k p h => ?_⟩, _, rfl⟩
  · by_cases hk : k = 2
    · cases hk
      exact looping_ok
    · have : ∀ k : LaneId, k ≠ 2 → (withLane 2 looping).lane k = Lane.fresh .powerOn := by decide +kernel
      exact this k hk ▸ fresh_powerOn_ok
  · by_cases hk : k = 2
    · cases hk
      cases h
      decide
    · have : ∀ k : LaneId, k ≠ 2 → ((withLane 2 looping).lane k).pulse = none := by decide +kernel
      cases (this k hk).symm.trans h

/-- TRIP1's latch is set: lane 7 keeps its forcing, and every other lane in its scope is IDLE or TRIPPED. -/
theorem witness_StepKeepsTripProtection :
    forcedInEntry.TripsHold ∧ forcedInEntry.SettingsWait ∧ forcedInEntry.LatchesOk ∧ ∃ t, step forcedInEntry = .next t :=
  ⟨by unfold State.TripsHold; decide +kernel, forcedInEntry_settingsWait, ⟨by decide +kernel, by decide +kernel⟩, _, rfl⟩

/-- A full queue with a notice on its way, a table with records and a job before its last move. -/
theorem witness_StepKeepsQueueTableAndJobInRange :
    let s := { copying with
      queue := steps 63 ++ [⟨.lost 255, 503⟩], late := arriving.late, job := { copying.job with progress := 3 }
      pending := [.copyMove] }
    Queue.Ok s.queue ∧ s.LateOk ∧ Memory.wf s.table ∧ s.job.Ok ∧ ∃ t, step s = .next t := by
  refine ⟨⟨by decide, fun _ => ⟨255, 503, rfl⟩, fun x hx => ?_⟩, fun n hn => ?_, block_wf, copying_ok 3 (by decide), _, rfl⟩
  · rcases List.mem_append.mp hx with h | h
    · cases List.eq_of_mem_replicate h
      exact trivial
    · cases List.mem_singleton.mp h
      exact ⟨by decide, by decide⟩
  · cases List.mem_singleton.mp hn
    nofun

/-- A period at its end, an acceptance in progress, and the next pin move fallen within a write. -/
theorem witness_StepKeepsClocksAndFiltersConsistent :
    let s := { ready with
      timebase := ⟨2499, 1, true, some ⟨40000, 40000⟩, 7⟩, inputs := in5 true false (some 32)
      early := [(.input 5, true)], pending := [.presentedLevelChange (.input 5) true, .presentedLevelChange (.input 6) true] }
    s.timebase.Ok ∧ s.FiltersOk ∧ s.outbox = [] ∧ s.early <+: frontMoves s.pending ∧ ∃ t, step s = .next t := by
  refine ⟨⟨rfl, fun p h => ?_⟩, ⟨fun _ n c h => ?_, fun _ u c a h => ?_, fun _ n c h => ?_⟩, rfl, ⟨_, rfl⟩, _, rfl⟩
  · cases h
    decide
  · have : ∀ n : InputId, (in5 true false (some 32)).acceptance[n.val].all fun c =>
        (in5 true false (some 32)).differs n && decide (c ≤ (in5 true false (some 32)).fullCount n) := by decide +kernel
    have := this n
    rw [show (in5 true false (some 32)).acceptance[n.val] = some c from h] at this
    simpa using this
  · have : ∀ (u : UnitId) (c : Channel), (ready.units[u.val].channel c).acceptance = none := by
      intro u c
      revert u
      cases c <;> decide +kernel
    cases (this u c).symm.trans h
  · have : ∀ n : SourceId, ready.trips[n.val].acceptance = none := by decide +kernel
    cases (this n).symm.trans h

end Sys2Proof.Tests
end

/-! The fields of a step record at their words and bits, and the check at entry by these fields (R2, R3, R4, R7). -/

namespace Sys2Proof.Machine

/-! ## The fields of a record (R2, R3, R4) -/

theorem wordField_eq (w : Word) (low width : Nat) : wordField w low width = (w.extractLsb' low width).toNat := by
  simp [wordField]

theorem Record.kind_eq (r : Record) :
    r.kind = ([some .time, some .input, some .edge, some .position, some .trigger, some .command] : List _).getD
      (r.w4.extractLsb' 0 3).toNat none := by
  rw [Record.kind, wordField_eq]
  match (r.w4.extractLsb' 0 3).toNat with
  | 0 | 1 | 2 | 3 | 4 | 5 | _ + 6 => rfl

theorem Record.loop_eq (r : Record) :
    r.loop = ([.none, .mark, .tail, .self] : List _).getD (r.w4.extractLsb' 8 2).toNat .none := by
  have hlt := (r.w4.extractLsb' 8 2).isLt
  rw [Record.loop, wordField_eq]
  match (r.w4.extractLsb' 8 2).toNat, hlt with
  | 0, _ | 1, _ | 2, _ | 3, _ => rfl

theorem Record.onFault_eq (r : Record) :
    r.onFault = ([some .halt, some .skip, some .divert] : List _).getD (r.w4.extractLsb' 12 2).toNat none := by
  rw [Record.onFault, wordField_eq]
  match (r.w4.extractLsb' 12 2).toNat with
  | 0 | 1 | 2 | _ + 3 => rfl

theorem Record.edgeSense_eq (r : Record) :
    r.edgeSense = ([some .rising, some .falling, some .both] : List _).getD (r.w5.extractLsb' 0 2).toNat none := by
  rw [Record.edgeSense, wordField_eq]
  match (r.w5.extractLsb' 0 2).toNat with
  | 0 | 1 | 2 | _ + 3 => rfl

theorem Record.approach_eq (r : Record) :
    r.approach = ([some .up, some .down, some .either] : List _).getD (r.w5.extractLsb' 0 2).toNat none := by
  rw [Record.approach, wordField_eq]
  match (r.w5.extractLsb' 0 2).toNat with
  | 0 | 1 | 2 | _ + 3 => rfl

/-- A time of 0 acts as 1 (R4). -/
theorem max_one_toNat (w : Word) : max 1 w.toNat = if w = 0 then 1 else w.toNat := by
  split
  · subst w; rfl
  · have : w.toNat ≠ 0 := fun h => by simp_all [BitVec.toNat_eq]
    omega

theorem Record.pulseLine_val (r : Record) : r.pulseLine.val = (r.w8.extractLsb' 11 5).toNat := by
  rw [Record.pulseLine, wordField_eq]
  exact Nat.mod_eq_of_lt (r.w8.extractLsb' 11 5).isLt

/-- Settles O4, field by field. -/
theorem recordFieldsStandInTheirBits : Obligations.RecordFieldsStandInTheirBits := fun r =>
  ⟨rfl, max_one_toNat r.w2, rfl, r.kind_eq, wordField_eq _ _ _, r.loop_eq, rfl, rfl, r.onFault_eq, rfl, r.edgeSense_eq,
    r.approach_eq, rfl, rfl, wordField_eq _ _ _, wordField_eq _ _ _, r.pulseLine_val, max_one_toNat r.w9⟩

/-! ## The check at entry (R7) -/

theorem Record.edgeSense_isSome (r : Record) : r.edgeSense.isSome = true ↔ (r.w5.extractLsb' 0 2).toNat ≠ 3 := by
  have hlt := (r.w5.extractLsb' 0 2).isLt
  rw [r.edgeSense_eq]
  match (r.w5.extractLsb' 0 2).toNat, hlt with
  | 0, _ | 1, _ | 2, _ | 3, _ => simp

theorem Record.approach_isSome (r : Record) : r.approach.isSome = true ↔ (r.w5.extractLsb' 0 2).toNat ≠ 3 := by
  have hlt := (r.w5.extractLsb' 0 2).isLt
  rw [r.approach_eq]
  match (r.w5.extractLsb' 0 2).toNat, hlt with
  | 0, _ | 1, _ | 2, _ | 3, _ => simp

theorem Record.onFault_isSome (r : Record) : r.onFault.isSome = true ↔ (r.w4.extractLsb' 12 2).toNat ≠ 3 := by
  have hlt := (r.w4.extractLsb' 12 2).isLt
  rw [r.onFault_eq]
  match (r.w4.extractLsb' 12 2).toNat, hlt with
  | 0, _ | 1, _ | 2, _ | 3, _ => simp

theorem Record.onFault_eq_divert (r : Record) : r.onFault = some .divert ↔ (r.w4.extractLsb' 12 2).toNat = 2 := by
  have hlt := (r.w4.extractLsb' 12 2).isLt
  rw [r.onFault_eq]
  match (r.w4.extractLsb' 12 2).toNat, hlt with
  | 0, _ | 1, _ | 2, _ | 3, _ => simp

theorem Record.isHead_iff (r : Record) :
    r.isHead = true ↔ (r.w4.extractLsb' 8 2).toNat = 1 ∨ (r.w4.extractLsb' 8 2).toNat = 3 := by
  have hlt := (r.w4.extractLsb' 8 2).isLt
  rw [Record.isHead, r.loop_eq]
  match (r.w4.extractLsb' 8 2).toNat, hlt with
  | 0, _ | 1, _ | 2, _ | 3, _ => simp

/-- The KIND, SEL and ARG_A part of the check, by the code of KIND. -/
theorem Record.conditionValid_eq_false (r : Record) :
    r.conditionValid = false ↔
      ((r.w4.extractLsb' 0 3).toNat = 6 ∨ (r.w4.extractLsb' 0 3).toNat = 7) ∨
      ((r.w4.extractLsb' 0 3).toNat = 2 ∧ 16 ≤ (r.w4.extractLsb' 3 5).toNat ∨
        (r.w4.extractLsb' 0 3).toNat = 3 ∧ 2 ≤ (r.w4.extractLsb' 3 5).toNat ∨
        (r.w4.extractLsb' 0 3).toNat = 4 ∧ 8 ≤ (r.w4.extractLsb' 3 5).toNat) ∨
      (((r.w4.extractLsb' 0 3).toNat = 2 ∨ (r.w4.extractLsb' 0 3).toNat = 3) ∧ (r.w5.extractLsb' 0 2).toNat = 3) := by
  have hlt := (r.w4.extractLsb' 0 3).isLt
  have hsel : r.sel = (r.w4.extractLsb' 3 5).toNat := wordField_eq _ _ _
  rw [← Bool.not_eq_true, Record.conditionValid, r.kind_eq, ← hsel]
  match (r.w4.extractLsb' 0 3).toNat, hlt with
  | 0, _ | 1, _ | 5, _ | 6, _ | 7, _ => simp
  | 2, _ => simp [r.edgeSense_isSome]; omega
  | 3, _ => simp [r.approach_isSome]; omega
  | 4, _ => simp

/-- The check of a record, by its parts (R7). -/
theorem Record.validFor_eq_false (r : Record) (length : Nat) :
    r.validFor length = false ↔
      r.conditionValid = false ∨ ¬ r.onFault.isSome = true ∨ (r.isHead = true ∧ r.loopCount = 0) ∨
        (r.onFault = some .divert ∧ length ≤ r.divert) := by
  simp only [Record.validFor, Bool.and_eq_false_iff, Bool.not_eq_false', Bool.and_eq_true, beq_iff_eq, decide_eq_true_eq,
    Bool.not_eq_true, or_assoc]

theorem Record.zero_validFor (length : Nat) : Record.zero.validFor length = true := rfl

end Sys2Proof.Machine

/-! The rows of the step table: ENTRY_FETCH, RECORD_READ, RECORD_WRITE and CLEAR_WRITE (R10, R11, R12, R15, R47). -/

namespace Sys2Proof.Machine

section
variable {s : State}

/-! ## Handing out -/

/-- Handing out an event changes nothing in a lane but what is on its way to it. -/
theorem handLines_lane (lines : List LaneId) (s : State) (k : LaneId) :
    ∃ es, (handLines lines s).lane k = (s.lane k).withComing es := by
  unfold handLines
  induction lines generalizing s with
  | nil => exact ⟨_, rfl⟩
  | cons line lines ih =>
    obtain ⟨es, h⟩ := ih (handToAll (.emission line) s)
    rw [List.foldl_cons, h, lane_handToAll]
    split <;> exact ⟨es, rfl⟩

theorem handOut_lane (s : State) (k : LaneId) : ∃ es, (handOut s).lane k = (s.lane k).withComing es :=
  handLines_lane _ _ k

/-! ## ENTRY_FETCH -/

theorem exec_entryFetch (k : LaneId) (s : State) : exec (.entryFetch k) s = .next (entryFetch k s) := rfl

/-- A fetch in its turn is served while RESET# is high, and the emission of its commit is handed out. -/
theorem entryFetch_of_inTurn {k : LaneId} {e : Entry} (hs : s.resetLow = false) (ht : s.inTurn k = true)
    (he : (s.lane k).entry = some e) :
    entryFetch k s = handOut (s.withAct k ((s.lane k).completes k e (s.fetched k) s.owners)) := by
  rw [entryFetch, if_neg (by simp [hs, ht]), serveFetch_eq he]

/-- Settles O18: the served fetch is the act `Lane.completes` (`serveFetch_eq`), and what it emits is handed out. -/
theorem entryFetchCompletesTheEntry : Obligations.EntryFetchCompletesTheEntry := by
  intro k s hs ho
  refine ⟨fun h => ?_, fun e he ht => ?_⟩
  · rw [exec_entryFetch, entryFetch]
    rcases h with he | ht
    · rw [serveFetch_of_settled he, handOut_of_outbox_nil ho, ite_self]
    · rw [if_pos (by simp [ht])]
  · rw [exec_entryFetch, entryFetch_of_inTurn hs ht he, handOut_withAct ho]
    rfl

/-! ## The check at entry -/

/-- The completion of an entry ends in BAD_STEP exactly when the record received is invalid (R7, R51): an entry that is
committed leaves the lane RUNNING, and STACK_OVER is another cause. -/
theorem Lane.completes_badStep (l : Lane) (k : LaneId) (e : Entry) (r : Record) (owners : Vector (Option LaneId) 32) :
    r.validFor l.descriptor.length = false ↔
      (l.completes k e r owners).lane.state = .faulted ∧ (l.completes k e r owners).lane.faultCause = some .badStep ∧
        (l.completes k e r owners).lane.copy = none := by
  unfold Lane.completes
  split
  · rename_i h
    exact iff_of_true h ⟨rfl, rfl, rfl⟩
  · rename_i h
    split
    · exact iff_of_false h fun hf => absurd hf.2.1 (by simp [Lane.failsEntry, Lane.faults])
    · exact iff_of_false h fun hf => nomatch hf.1

/-- Settles O5, by the parts of the check and the completion of an entry. -/
theorem recordCheckRefusesExactlyTheInvalid : Obligations.RecordCheckRefusesExactlyTheInvalid := by
  refine ⟨fun r length => ?_, fun k s e hs ht he => ?_, Record.zero_validFor⟩
  · dsimp only
    rw [r.validFor_eq_false, r.conditionValid_eq_false, r.onFault_isSome, r.isHead_iff, r.onFault_eq_divert,
      Record.loopCount, Record.divert, wordField_eq, wordField_eq]
    simp only [or_assoc, not_not]
  · obtain ⟨es, hes⟩ := handOut_lane (s.withAct k ((s.lane k).completes k e (s.fetched k) s.owners)) k
    refine ⟨_, rfl, ?_⟩
    rw [entryFetch_of_inTurn hs ht he, hes, State.lane_withAct_self]
    exact Lane.completes_badStep _ _ _ _ _

/-! ## RECORD_READ and RECORD_WRITE -/

/-- The answer to a record transfer, refusals first (R10, R11). -/
theorem recordRequest_eq (hs : s.resetLow = false) (index : Word) (transfer : State → State) :
    recordRequest index transfer s =
      if s.job.kind = .clear ∧ s.job.state = .running then s.report .busy
      else if 512 ≤ index.toNat then s.report .range
      else (transfer s).report .taken := by
  rw [recordRequest, hostAccess_of_resetHigh hs]
  exact if_congr (by simp [State.clearRunning]) rfl rfl

theorem exec_recordRead (index : Word) (s : State) : exec (.recordRead index) s = .next (recordRead index s) := rfl

/-- Settles O6, by the refusals in order and the law of the table's writes (`Memory.read_write`). -/
theorem recordTransfersMoveOneRecord : Obligations.RecordTransfersMoveOneRecord := by
  intro index s hs hwf
  refine ⟨by rw [exec_recordRead, recordRead, recordRequest_eq hs]; rfl, _, rfl, ?_⟩
  rw [recordWrite, recordRequest_eq hs]
  split
  · exact ⟨rfl, rfl, rfl⟩
  · split
    · exact ⟨rfl, rfl, rfl⟩
    · rename_i hlt
      exact ⟨rfl, rfl, fun j => Memory.read_write _ _ j _ hwf (Nat.lt_of_not_le hlt)⟩

/-! ## CLEAR_WRITE -/

theorem exec_clearWrite (s : State) : exec .clearWrite s = .next (clearWrite s) := rfl

/-- An access of a job that runs may be served exactly while no fetch has waited for one already (R161). -/
theorem jobRuns_eq {kind : JobKind} (hs : s.resetLow = false) (hk : s.job.kind = kind) (hr : s.job.state = .running) :
    s.jobRuns kind = s.accessFree := by simp [State.jobRuns, hs, hk, hr]

/-- The progress of the clear raises no notice: at the count the job is DONE, and that is all (R15). -/
theorem jobServed_of_clear (hk : s.job.kind = .clear) :
    jobServed s = { s with job := { s.job with
      progress := s.job.progress + 1
      state := if s.job.progress + 1 = s.job.count then .done else s.job.state } } := by
  simp only [jobServed]
  split
  · simp [raiseJob, hk, JobKind.host]
  · rfl

/-- One clear write: the next record, the progress and the fetches that wait (R15, R161). -/
theorem serveAccess_of_clear (hk : s.job.kind = .clear) :
    serveAccess s = { s.letPass with
      table := Memory.write s.table s.job.progress .zero
      job := { s.job with
        progress := s.job.progress + 1
        state := if s.job.progress + 1 = s.job.count then .done else s.job.state } } := by
  have hserve : serveAccess s = jobServed (clearRecord s).letPass := by simp only [serveAccess, hk]
  rw [hserve, jobServed_of_clear (s := (clearRecord s).letPass) hk]
  rfl

/-- A job that runs has a next index within the table. -/
theorem Job.Ok.progress_lt {j : Job} (h : j.Ok) (hr : j.state = .running) : j.progress < Config.tableSize := by
  have := h.unfinished (.inl hr)
  have := h.destination_le
  simp only [Config.tableSize]
  omega

/-- Settles O7, by the one clear write and the law of the table's writes. -/
theorem clearWriteZeroesTheNextRecord : Obligations.ClearWriteZeroesTheNextRecord := by
  intro s hs hk hr hj hwf
  refine ⟨fun hf => ?_, fun hf => ⟨_, rfl, ?_⟩⟩
  · rw [exec_clearWrite, clearWrite, jobRuns_eq hs hk hr, hf]
    rfl
  · rw [clearWrite, jobRuns_eq hs hk hr, hf, if_pos rfl, serveAccess_of_clear hk]
    refine ⟨rfl, fun k => letPass_lane s k, ?_, fun j => Memory.read_write _ _ j _ hwf (hj.progress_lt hr)⟩
    simp only [hr]

end
end Sys2Proof.Machine

/-! The whole power-on clear (R15, R184). -/

namespace Sys2Proof.Machine

section
variable {s t : State}

/-! ## The power-on clear -/

/-- A step that answers a next state is one step of a run. -/
theorem core_run_succ (n : Nat) (h : step s = .next t) : core.run (n + 1) s = core.run n t := by
  have h' : core.step s = .next t := h
  simp only [Host.Core.run, h']

theorem exec_resetRelease (s : State) : exec .resetRelease s = .next (resetRelease s) := rfl

theorem resetRelease_of_resetLow (h : s.resetLow = true) : resetRelease s = powerOn s := by
  rw [resetRelease, if_pos h]

/-- The power-on clear has written its first n records: no lane is in the middle of an entry, and no notice has been raised
(R15). -/
structure State.ClearedTo (n : Nat) (s : State) : Prop where
  resetHigh : s.resetLow = false
  job : s.job = ⟨.clear, 0, 0, 512, n, if n = 512 then .done else .running, 0⟩
  settled : ∀ k, (s.lane k).entry = none
  table_wf : Memory.wf s.table
  zeros : ∀ j, j < n → Memory.read s.table j = .zero
  queue_nil : s.queue = []

theorem powerOn_clearedTo (h : Memory.wf s.table) : (powerOn s).ClearedTo 0 where
  resetHigh := rfl
  job := rfl
  settled k := by simp [State.lane, powerOn, State.reset, Lane.fresh]
  table_wf := h
  zeros := nofun
  queue_nil := rfl

/-- One more clear write: no fetch waits, so that it is served. -/
theorem State.ClearedTo.clearWrite {n : Nat} (h : s.ClearedTo n) (hn : n < 512) : (clearWrite s).ClearedTo (n + 1) := by
  have hk : s.job.kind = .clear := by rw [h.job]
  have hr : s.job.state = .running := by rw [h.job]; exact if_neg (by omega)
  have hp : s.job.progress = n := by rw [h.job]
  have hfree : s.accessFree = true := by simp [State.accessFree, h.settled]
  rw [Machine.clearWrite, jobRuns_eq h.resetHigh hk hr, hfree, if_pos rfl, serveAccess_of_clear hk]
  refine ⟨h.resetHigh, ?_, fun k => ?_, Memory.write_wf _ _ _ h.table_wf, fun j hj => ?_, h.queue_nil⟩
  · simp only [h.job]
    rw [if_neg (show n ≠ 512 by omega)]
  · exact (congrArg Lane.entry (letPass_lane s k)).trans (by rw [h.settled k]; rfl)
  · rw [Memory.read_write _ _ j _ h.table_wf (hp ▸ hn), hp]
    split
    · rfl
    · exact h.zeros j (by omega)

/-- The clear writes that are left, one after another. -/
theorem State.ClearedTo.run (m : Nat) :
    ∀ (n : Nat) (s : State), n + m = 512 → s.ClearedTo n → s.pending = List.replicate m .clearWrite →
      ∃ t, core.run m s = .next t ∧ t.ClearedTo 512 := by
  induction m with
  | zero =>
    rintro n s rfl h -
    exact ⟨s, rfl, h⟩
  | succ m ih =>
    intro n s hn h hp
    have hrest : ({ s with pending := List.replicate m .clearWrite } : State).ClearedTo n :=
      ⟨h.resetHigh, h.job, h.settled, h.table_wf, h.zeros, h.queue_nil⟩
    have hstep : step s = .next (Machine.clearWrite { s with pending := List.replicate m .clearWrite }) := by
      rw [step, hp]
      rfl
    rw [core_run_succ m hstep]
    refine ih (n + 1) _ (by omega) (hrest.clearWrite (by omega)) ?_
    unfold Machine.clearWrite
    split
    · rw [serveAccess_frame]
    · rfl

/-- STATUS while the power-on clear runs, and when it has ended, with no notice in the queue (R181). -/
theorem State.ClearedTo.statusWord {n : Nat} (h : s.ClearedTo n) :
    s.statusWord = if n = 512 then 0 else 0x0003#16 := by
  unfold State.statusWord State.clearRunning
  rw [h.job, h.queue_nil]
  split <;> rfl

/-- Settles O8, by induction over the clear writes that are left. -/
theorem powerOnClearFillsTheTable : Obligations.PowerOnClearFillsTheTable := by
  intro s hs hwf
  have h0 := powerOn_clearedTo hwf
  refine ⟨powerOn s, by rw [exec_resetRelease, resetRelease_of_resetLow hs], h0.job, h0.statusWord, ?_⟩
  obtain ⟨t, ht, hdone⟩ := State.ClearedTo.run 512 0 { powerOn s with pending := List.replicate 512 .clearWrite } rfl
    ⟨h0.resetHigh, h0.job, h0.settled, h0.table_wf, h0.zeros, h0.queue_nil⟩ rfl
  exact ⟨t, ht, hdone.zeros, hdone.job, hdone.statusWord, hdone.queue_nil⟩

end
end Sys2Proof.Machine

/-! The lane commands that lead to entries: LANE_START, LANE_RELEASE, LANE_STEP and LANE_RESUME (R31 to R38). -/

namespace Sys2Proof.Machine

section
variable {s : State}

/-! ## A lane command is what `State.Commands` describes -/

/-- A command that is a write of a lane command register comes to the parts of the lanes named, when each lane's judgement is
the act given. -/
theorem State.commands_of {judge : LaneId → State → Judgement} {judged : State → LaneId → Except Result Act} {c : Instr}
    {mask : LaneMask} (hc : exec c s = .next (laneCommand judge mask s)) (hs : s.resetLow = false)
    (h : JudgesBy judge s judged) : s.Commands c mask judged := by
  obtain ⟨t, stored, hparts, hsorted, hcommand⟩ := laneCommand_parts hs h mask
  exact ⟨t, stored, hparts, hsorted, by rw [hc, hcommand]⟩

/-! ## LANE_START -/

/-- An entry requested by a lane that has changed before is an act on the lane as it was. -/
theorem requestEntry_onLane (k : LaneId) (f : Lane → Lane) (full : Bool) (o : Nat) (c : EntryCause) :
    requestEntry k full o c (s.onLane k f) = s.withAct k ((f (s.lane k)).requests full o c) := by
  rw [requestEntry_eq, State.withAct_onLane, State.lane_onLane_self]

/-- Settles O14: each lane's judgement is one of the refusals, the entry of PRESET, or ARMED at PRESET. -/
theorem laneStartEntersOrArms : Obligations.LaneStartEntersOrArms := by
  intro v s hs
  refine State.commands_of (judge := judgeStart) rfl hs fun k t _ => ?_
  dsimp only [judgeStart]
  by_cases hb : t.clearRunning = true
  · rw [if_pos hb, if_pos hb]
    rfl
  · rw [if_neg hb, if_neg hb]
    by_cases hi : (t.lane k).state = .idle ∨ (t.lane k).state = .done
    · have hstay : ¬ ((t.lane k).state ≠ .idle ∧ (t.lane k).state ≠ .done) := by tauto
      rw [if_pos (by simpa using hi), if_neg hstay]
      by_cases hc : t.covered k = true
      · rw [if_pos hc, if_pos hc]
        rfl
      · rw [if_neg hc, if_neg hc]
        by_cases hsrc : (t.lane k).descriptor.startSource = .command
        · rw [if_pos hsrc, if_pos hsrc, requestEntry_onLane]
          rfl
        · rw [if_neg hsrc, if_neg hsrc, State.onLane_eq_withAct]
          rfl
    · rw [if_neg (by simpa using hi), if_pos (by tauto)]
      rfl

/-! ## LANE_RELEASE and LANE_STEP -/

/-- A condition event judged by a lane that has changed before is an act on the lane as it was. -/
theorem advanceIfMet_onLane (k : LaneId) (f : Lane → Lane) :
    advanceIfMet k (s.onLane k f) = s.withAct k ((f (s.lane k)).judges k s.inputs.accepted) := by
  rw [advanceIfMet_eq, State.withAct_onLane, State.lane_onLane_self, State.onLane_inputs]

/-- Settles O15: a HELD lane goes on in its step or makes an entry, and a COMMAND step sets its latch. -/
theorem laneReleaseAndStepLetTheLaneGoOn : Obligations.LaneReleaseAndStepLetTheLaneGoOn := by
  refine fun v s hs => ⟨State.commands_of (judge := judgeRelease) rfl hs fun k t _ => ?_,
    State.commands_of (judge := judgeStep) rfl hs fun k t _ => ?_⟩
  · dsimp only [judgeRelease]
    by_cases hh : (t.lane k).state = .held
    · rw [if_pos hh, if_neg (not_not_intro hh)]
      by_cases he : (t.lane k).entered = true
      · rw [if_pos he, if_pos (show (t.lane k).copy.isSome = true from he), advanceIfMet_onLane]
        rfl
      · rw [if_neg he, if_neg (show ¬ (t.lane k).copy.isSome = true from he), enter_eq]
        rfl
    · rw [if_neg hh, if_pos hh]
      rfl
  · dsimp only [judgeStep]
    rw [Lane.takesConditions_stepKind]
    by_cases hw : (t.lane k).waitsIn .command = true
    · rw [if_pos hw, if_pos hw, advanceIfMet_onLane]
      rfl
    · rw [if_neg hw, if_neg hw]
      rfl

/-! ## LANE_RESUME -/

/-- The RESUME entry of a lane that has changed before, a re-entry where it has entered its step (R37, R38). -/
theorem resumeEntry_onLane (k : LaneId) (f : Lane → Lane) :
    resumeEntry k (s.onLane k f) =
      s.withAct k ((f (s.lane k)).enters k (!(f (s.lane k)).copy.isSome) (f (s.lane k)).active .resume) := by
  rw [resumeEntry, enter_eq, State.withAct_onLane, State.lane_onLane_self, Lane.entered]

/-- Settles O16: by the state of the lane, and in TRIPPED by its prior state. -/
theorem laneResumeContinuesTheWalk : Obligations.LaneResumeContinuesTheWalk := by
  intro v s hs
  refine State.commands_of (judge := judgeResume) rfl hs fun k t _ => ?_
  dsimp only [judgeResume]
  split
  · rename_i hst
    have hin : ¬ ((t.lane k).state ≠ .faulted ∧ (t.lane k).state ≠ .tripped) := by simp [hst]
    rw [if_neg hin]
    by_cases hc : t.covered k = true
    · rw [if_pos hc, if_pos hc]
      rfl
    · rw [if_neg hc, if_neg hc, if_pos hst, resumeEntry_onLane]
      rfl
  · rename_i hst
    have hin : ¬ ((t.lane k).state ≠ .faulted ∧ (t.lane k).state ≠ .tripped) := by simp [hst]
    rw [if_neg hin]
    by_cases hc : t.covered k = true
    · rw [if_pos hc, if_pos hc]
      rfl
    · rw [if_neg hc, if_neg hc, if_neg (show (t.lane k).state ≠ .faulted by simp [hst])]
      cases (t.lane k).prior with
      | none => rfl
      | some p =>
        cases p with
        | armed | done | faulted => rfl
        | running | held =>
          rw [resumeEntry_onLane]
          rfl
  all_goals
    rename_i hst
    have hout : (t.lane k).state ≠ .faulted ∧ (t.lane k).state ≠ .tripped := by simp [hst]
    rw [if_pos hout]
    rfl

end
end Sys2Proof.Machine

/-! PLAIN_REGISTER_WRITE and the reads after it (R178, R179). -/

namespace Sys2Proof.Machine

section
variable (s : State)

/-! ## What a read of the window shows after a write of a plain register -/

theorem Record.word_setWord (r : Record) (v : Word) {n m : Nat} (hn : n ≤ 9) (hm : m ≤ 9) :
    (r.setWord n v).word m = if m = n then v else r.word m := by
  interval_cases n <;> interval_cases m <;> rfl

theorem Staging.word_setWord (g : Staging) (v : Word) {n m : Nat} (hn : n ≤ 4) (hm : m ≤ 4) :
    (g.setWord n v).word m = if m = n then v else g.word m := by
  interval_cases n <;> interval_cases m <;> rfl

/-- The buffer is read at 10h to 19h, and nowhere else (R9). -/
theorem Window.read_withBuffer (r : Record) (b : BitVec 8) :
    Window.read { s with buffer := r } b =
      if 0x10 ≤ b.toNat ∧ b.toNat ≤ 0x19 then r.word (b.toNat - 0x10) else Window.read s b := by
  simp only [Window.read]
  by_cases hb : 0x10 ≤ b.toNat ∧ b.toNat ≤ 0x19
  · rw [if_pos hb, if_pos (show b.toNat < 0x40 by omega)]
    simp only [Window.readCore, if_pos hb]
  · simp only [Window.readCore, if_neg hb]
    rfl

/-- The staging descriptor is read at 20h to 24h, and nowhere else (R20). -/
theorem Window.read_withStaging (g : Staging) (b : BitVec 8) :
    Window.read { s with staging := g } b =
      if 0x20 ≤ b.toNat ∧ b.toNat ≤ 0x24 then g.word (b.toNat - 0x20) else Window.read s b := by
  simp only [Window.read]
  by_cases hb : 0x20 ≤ b.toNat ∧ b.toNat ≤ 0x24
  · have hbuf : ¬ (0x10 ≤ b.toNat ∧ b.toNat ≤ 0x19) := by omega
    rw [if_pos hb, if_pos (show b.toNat < 0x40 by omega)]
    simp only [Window.readCore, if_neg hbuf, if_pos hb]
  · simp only [Window.readCore, if_neg hb]
    rfl

/-- The inspection window ends at 75h (R179). -/
theorem Lane.inspect_of_lt (l : Lane) {n : Nat} (h : 20 < n) : l.inspect n = 0 := by
  obtain ⟨m, rfl⟩ := Nat.exists_eq_add_of_le' h
  rfl

/-- The low three bits of a word, as LANE_SEL holds them and shows them (R45, R179). -/
theorem low_three_bits (v : Word) : (v.setWidth 3).setWidth 16 = v &&& 7 := by
  apply BitVec.eq_of_toNat_eq
  have hand : v.toNat &&& 7 = v.toNat % 8 := Nat.and_two_pow_sub_one_eq_mod v.toNat 3
  have hseven : (7 : Word).toNat = 7 := rfl
  rw [BitVec.toNat_setWidth, BitVec.toNat_setWidth, BitVec.toNat_and, hseven, hand]
  omega

/-- LANE_SEL is read at 60h, and what it selects at 61h to 75h (R45). -/
theorem Window.read_withLaneSel (v : BitVec 3) (b : BitVec 8) (hb : ¬ (0x61 ≤ b.toNat ∧ b.toNat ≤ 0x75)) :
    Window.read { s with laneSel := v } b = if b.toNat = 0x60 then v.setWidth 16 else Window.read s b := by
  simp only [Window.read, Window.readLanes]
  by_cases hsel : b.toNat = 0x60
  · simp [hsel]
  · by_cases hend : 0x75 < b.toNat
    · have hlast : 20 < b.toNat - 0x61 := by omega
      simp only [hsel, if_false, Lane.inspect_of_lt _ hlast]
      rfl
    · have hbelow : b.toNat ≤ 0x5F := by omega
      simp only [hsel, if_false, hbelow, if_true]
      rfl

/-- POS_ARG is read at its own address alone (R129). -/
theorem Window.readPins_withPosArg (v : Word) {m : Nat} (hm : m ≠ 0xA5) :
    Window.readPins { s with posArg := v } m = Window.readPins s m := by
  unfold Window.readPins
  refine ite_congr rfl (fun _ => rfl) fun _ => ite_congr rfl (fun _ => rfl) fun _ => ?_
  split
  case h_12 => exact absurd rfl hm
  all_goals rfl

/-- The arguments of the Trip Unit and of the table jobs are each read at its own address alone (R143, R158). -/
theorem Window.readUnits_plainWrite {n : Nat} (hn : n ∈ [0xB0, 0xB1, 0xD0, 0xD1, 0xD2]) (v : Word) {m : Nat} (hm : m ≠ n) :
    Window.readUnits (plainWrite n v s) m = Window.readUnits s m := by
  simp only [List.mem_cons, List.not_mem_nil, or_false] at hn
  unfold Window.readUnits
  rcases hn with rfl | rfl | rfl | rfl | rfl
  all_goals
    refine ite_congr rfl (fun _ => rfl) fun _ => ite_congr rfl (fun _ => rfl) fun _ => ite_congr rfl (fun _ => rfl) fun _ => ?_
    split
    all_goals first | exact absurd rfl hm | rfl

/-- The other plain registers are read at their own addresses, and nowhere else (R129, R143, R158). -/
theorem Window.read_plainWrite_single {n : Nat} (hn : n ∈ [0xA5, 0xB0, 0xB1, 0xD0, 0xD1, 0xD2]) (v : Word) (b : BitVec 8) :
    Window.read (plainWrite n v s) b = if b.toNat = n then v else Window.read s b := by
  have cases : n = 0xA5 ∨ n = 0xB0 ∨ n = 0xB1 ∨ n = 0xD0 ∨ n = 0xD1 ∨ n = 0xD2 := by simpa using hn
  unfold Window.read
  dsimp only
  generalize b.toNat = m
  by_cases hm : m = n
  · subst hm
    rcases cases with rfl | rfl | rfl | rfl | rfl | rfl <;> rfl
  · rw [if_neg hm]
    rcases cases with rfl | rfl | rfl | rfl | rfl | rfl
    · simp only [← Window.readPins_withPosArg s v hm]
      rfl
    all_goals
      simp only [← Window.readUnits_plainWrite s (by decide) v hm]
      rfl

/-! ## PLAIN_REGISTER_WRITE -/

/-- The plain registers without a behaviour of their own (R178, R179). -/
def plainAddress (n : Nat) : Prop :=
  0x10 ≤ n ∧ n ≤ 0x19 ∨ 0x20 ≤ n ∧ n ≤ 0x24 ∨ n ∈ [0x60, 0xA5, 0xB0, 0xB1, 0xD0, 0xD1, 0xD2]

/-- A write whose address has no row of its own stores a plain register, or is ignored (R178). -/
theorem busWrite_of_no_row {n : Nat} (h : n ∉ rowAddresses) (v : Word) : busWrite n v = hostAccess (plainWrite n v) := by
  unfold busWrite
  split
  case h_35 =>
    split
    · rename_i hfilter
      exact absurd (by simp only [rowAddresses, List.mem_append, List.mem_cons]; omega) h
    · rfl
  all_goals exact absurd (by decide) h

theorem plainWrite_buffer {n : Nat} (h : 0x10 ≤ n ∧ n ≤ 0x19) (v : Word) :
    plainWrite n v s = { s with buffer := s.buffer.setWord (n - 0x10) v } := by simp only [plainWrite, if_pos h]

theorem plainWrite_staging {n : Nat} (h : 0x20 ≤ n ∧ n ≤ 0x24) (v : Word) :
    plainWrite n v s = { s with staging := s.staging.setWord (n - 0x20) v } := by
  have hbuf : ¬ (0x10 ≤ n ∧ n ≤ 0x19) := by omega
  simp only [plainWrite, if_neg hbuf, if_pos h]

theorem plainWrite_ignored {n : Nat} (h : ¬ plainAddress n) (v : Word) : plainWrite n v s = s := by
  simp only [plainAddress, not_or] at h
  obtain ⟨hbuf, hstg, hmem⟩ := h
  simp only [plainWrite, if_neg hbuf, if_neg hstg]
  split
  case h_8 => rfl
  all_goals exact absurd (by decide) hmem

/-- A write of a plain register leaves every other part of the state as it was. -/
theorem plainWrite_frame (n : Nat) (v : Word) :
    plainWrite n v s = { s with
      buffer := (plainWrite n v s).buffer, staging := (plainWrite n v s).staging, laneSel := (plainWrite n v s).laneSel
      posArg := (plainWrite n v s).posArg, tripArg0 := (plainWrite n v s).tripArg0
      tripArg1 := (plainWrite n v s).tripArg1, jobArgSrc := (plainWrite n v s).jobArgSrc
      jobArgDst := (plainWrite n v s).jobArgDst, jobArgCount := (plainWrite n v s).jobArgCount } := by
  unfold plainWrite
  (repeat' split) <;> rfl

/-- What the window shows after a write of a plain register: the value at its address, LANE_SEL its low three bits, and every
other register as before, but for the inspection window after a write of LANE_SEL. -/
theorem Window.read_plainWrite {n : Nat} (h : plainAddress n) (v : Word) (b : BitVec 8)
    (hb : ¬ (n = 0x60 ∧ 0x61 ≤ b.toNat ∧ b.toNat ≤ 0x75)) :
    Window.read (plainWrite n v s) b =
      if b.toNat = n then (if n = 0x60 then v &&& 7 else v) else Window.read s b := by
  rcases h with hbuf | hstg | hmem
  · rw [plainWrite_buffer s hbuf, Window.read_withBuffer, if_neg (show n ≠ 0x60 by omega)]
    by_cases hin : 0x10 ≤ b.toNat ∧ b.toNat ≤ 0x19
    · have hold : Window.read s b = s.buffer.word (b.toNat - 0x10) :=
        (Window.read_withBuffer s s.buffer b).trans (if_pos hin)
      rw [if_pos hin, Record.word_setWord _ _ (by omega) (by omega), hold]
      exact if_congr (by omega) rfl rfl
    · rw [if_neg hin, if_neg (by rintro rfl; exact hin hbuf)]
  · rw [plainWrite_staging s hstg, Window.read_withStaging, if_neg (show n ≠ 0x60 by omega)]
    by_cases hin : 0x20 ≤ b.toNat ∧ b.toNat ≤ 0x24
    · have hold : Window.read s b = s.staging.word (b.toNat - 0x20) :=
        (Window.read_withStaging s s.staging b).trans (if_pos hin)
      rw [if_pos hin, Staging.word_setWord _ _ (by omega) (by omega), hold]
      exact if_congr (by omega) rfl rfl
    · rw [if_neg hin, if_neg (by rintro rfl; exact hin hstg)]
  · rcases List.mem_cons.mp hmem with rfl | hmem
    · rw [if_pos rfl, ← low_three_bits]
      exact Window.read_withLaneSel s _ b fun h => hb ⟨rfl, h⟩
    · have hne : n ≠ 0x60 := by rintro rfl; exact absurd hmem (by decide)
      rw [Window.read_plainWrite_single s hmem, if_neg hne]

theorem exec_plainRegisterWrite (a : BitVec 8) (v : Word) :
    exec (.plainRegisterWrite a v) s = .next (busWrite a.toNat v s) := rfl

/-- Settles O50: a write of an address without a row of its own is `plainWrite`, whose reads are known. -/
theorem plainRegistersReadBackWhatIsWritten : Obligations.PlainRegistersReadBackWhatIsWritten := by
  intro a v s hs hwf
  have hrow : a.toNat ∉ rowAddresses := by simpa [Instr.wellFormed] using hwf
  have hsel : a = 0x60#8 ↔ a.toNat = 0x60 := BitVec.toNat_eq
  refine ⟨plainWrite a.toNat v s, ?_, fun h => ?_, fun h b hne hb => ?_, fun h => plainWrite_ignored s h v,
    plainWrite_frame s _ v⟩
  · rw [exec_plainRegisterWrite, busWrite_of_no_row hrow, hostAccess_of_resetHigh hs]
  · rw [Window.read_plainWrite s h v a (by omega), if_pos rfl]
    exact if_congr hsel.symm rfl rfl
  · rw [hsel] at hb
    rw [Window.read_plainWrite s h v b hb, if_neg fun h => hne (BitVec.eq_of_toNat_eq h)]

end
end Sys2Proof.Machine

/-! RESET_RELEASE: the power-on values, and the register map that shows them (R179, R184). -/

namespace Sys2Proof.Machine

section
variable (s : State)

/-! ## The part after the release of RESET# -/

/-- The accepted levels are taken from the pins, none of which is inverted (R121, R184). -/
theorem powerOn_inputs :
    (powerOn s).inputs = { State.reset.inputs with pins := s.inputs.pins, accepted := s.inputs.pins } := by
  simp [powerOn, Inputs.resample, State.reset]

theorem powerOn_unit (u : UnitId) : (powerOn s).units[u.val] = { State.reset.units[u.val] with
    a := ⟨s.units[u.val].a.pin, s.units[u.val].a.pin, none⟩
    b := ⟨s.units[u.val].b.pin, s.units[u.val].b.pin, none⟩ } := by
  simp only [powerOn, Vector.getElem_ofFn]

theorem powerOn_trip (n : SourceId) : (powerOn s).trips[n.val] =
    { State.reset.trips[n.val] with pin := s.trips[n.val].pin, active := s.trips[n.val].pin } := by
  simp only [powerOn, Vector.getElem_ofFn]

/-- What the window shows of the inputs, the lines and the Position Units after a power-on reset does not depend on the pins,
but for the accepted levels. -/
theorem readPins_powerOn {n : Nat} (h1 : n ≠ 0x99) (h2 : n ≠ 0xA4) :
    Window.readPins (powerOn s) n = Window.readPins State.reset n := by
  unfold Window.readPins
  refine ite_congr rfl (fun _ => rfl) fun _ => ite_congr rfl (fun _ => rfl) fun _ => ?_
  split
  case h_6 => exact absurd rfl h1
  case h_11 => exact absurd rfl h2
  case h_7 => exact (congrArg PositionUnit.filter (powerOn_unit s 0)).trans rfl
  case h_8 => exact (congrArg PositionUnit.filter (powerOn_unit s 1)).trans rfl
  case h_9 => exact (congrArg PositionUnit.counter (powerOn_unit s 0)).trans rfl
  case h_10 => exact (congrArg PositionUnit.counter (powerOn_unit s 1)).trans rfl
  all_goals rfl

/-- The same of the Trip Unit, the jobs and the notices. -/
theorem readUnits_powerOn {n : Nat} (h : n ≠ 0xB6) :
    Window.readUnits (powerOn s) n = Window.readUnits State.reset n := by
  unfold Window.readUnits
  refine ite_congr rfl (fun _ => ?_) fun _ => ite_congr rfl (fun _ => ?_) fun _ => ite_congr rfl (fun _ => rfl) fun _ => ?_
  · simp only [State.tripMode, powerOn_trip]
  · have htrip := powerOn_trip s ⟨(n - 0xC0) % 5, Nat.mod_lt _ (by decide)⟩
    dsimp only at htrip
    rw [htrip]
  · split
    case h_4 => exact absurd rfl h
    all_goals rfl

theorem read_powerOn {a : BitVec 8} (h1 : a ≠ 0x99#8) (h2 : a ≠ 0xA4#8) (h3 : a ≠ 0xB6#8) :
    Window.read (powerOn s) a = Window.read State.reset a := by
  have key (n : Nat) (hn : n < 2 ^ 8) (h : a ≠ BitVec.ofNat 8 n) : a.toNat ≠ n := fun e =>
    h (BitVec.eq_of_toNat_eq (by rw [e, BitVec.toNat_ofNat, Nat.mod_eq_of_lt hn]))
  simp only [Window.read, readPins_powerOn s (key 0x99 (by decide) h1) (key 0xA4 (by decide) h2),
    readUnits_powerOn s (key 0xB6 (by decide) h3)]
  rfl

/-- The values of the register map after a power-on reset (R179). -/
def powerOnWords : List (BitVec 8 × Word) :=
  [(0x00#8, 0x0840#16), (0x02#8, 0x0003#16), (0x21#8, 0x0001#16), (0x62#8, 0x0001#16),
    (0x6A#8, 0x0001#16), (0x88#8, 0x8888#16), (0x89#8, 0x8888#16), (0x8A#8, 0x8888#16), (0x8B#8, 0x8888#16),
    (0x8C#8, 0x8888#16), (0x8D#8, 0x8888#16), (0x8E#8, 0x8888#16), (0x8F#8, 0x8888#16), (0xD8#8, 0x0010#16),
    (0xDB#8, 0x0200#16), (0xE0#8, 0x8000#16)]

theorem read_reset : ∀ a : BitVec 8, Window.read State.reset a = (powerOnWords.lookup a).getD 0 := by decide +kernel

/-- Settles O55: no register but the three that show accepted levels depends on the pins, and the others are read off. -/
theorem resetReleaseTakesPowerOnValues : Obligations.ResetReleaseTakesPowerOnValues := by
  refine fun s => ⟨fun h => ?_, fun h => ⟨powerOn s, ?_, ?_, powerOn_unit s, powerOn_trip s, fun a h1 h2 h3 => ?_⟩⟩
  · rw [exec_resetRelease, resetRelease, if_neg (by simp [h])]
  · rw [exec_resetRelease, resetRelease_of_resetLow h]
  · rw [← powerOn_inputs]
    rfl
  · rw [read_powerOn s h1 h2 h3, read_reset]
    rfl

end
end Sys2Proof.Machine

/-! What keeps the notice queue, the notices on their way, the table and the job context within their rules (R1, R157, R170):
the operations on each of them, and every act of the lanes. -/

namespace Sys2Proof.Machine

/-! ## Arrivals (R170) -/

/-- A notice that a block raises: no LOST record, which the Notice Queue alone makes (R169, R170). -/
def NoticeBody.Raised (b : NoticeBody) : Prop := ∀ count, b ≠ .lost count

theorem NoticeBody.Raised.countOk {b : NoticeBody} (h : b.Raised) : b.countOk := by
  cases b
  case lost count => exact absurd rfl (h count)
  all_goals exact trivial

theorem Queue.Ok.nil : Queue.Ok [] := ⟨by simp, by simp, by simp⟩

/-- A queue whose newest record is a LOST record of 1 to 255 notices, behind at most 63 others, keeps R170. -/
theorem Queue.ok_of_newest_lost {q : List Notice} {n : Nat} {st : Word} (hlen : q.length ≤ 63)
    (hq : ∀ x ∈ q, x.body.countOk) (hn : 1 ≤ n ∧ n ≤ 255) : Queue.Ok (q ++ [⟨.lost n, st⟩]) where
  length_le := by
    rw [List.length_append, List.length_singleton]
    omega
  full_lost _ := ⟨n, st, by simp⟩
  counts x hx := by
    rcases List.mem_append.mp hx with hx | hx
    · exact hq x hx
    · rw [List.mem_singleton.mp hx]
      exact hn

theorem Queue.Ok.arrive {q : List Notice} {b : NoticeBody} (h : Queue.Ok q) (hb : b.Raised) (stamp : Word) :
    Queue.Ok (Queue.arrive q b stamp) := by
  unfold Queue.arrive
  split
  · rename_i hroom
    have hlen : q.length < 63 := hroom
    refine ⟨by simp; omega, fun hfull => ?_, fun x hx => ?_⟩
    · simp only [List.length_append, List.length_singleton] at hfull
      omega
    · rcases List.mem_append.mp hx with hx | hx
      · exact h.counts x hx
      · rw [List.mem_singleton.mp hx]
        exact hb.countOk
  · have hlen := h.length_le
    split
    · rename_i n st hlast
      have hcount : 1 ≤ n ∧ n ≤ 255 := h.counts _ (List.mem_of_getLast? hlast)
      refine Queue.ok_of_newest_lost (by simp; omega) (fun x hx => h.counts x (List.dropLast_subset q hx)) ?_
      simp only [Config.lostMax]
      omega
    · rename_i hlast
      have hne : q.length ≠ 64 := fun hfull => by
        obtain ⟨n, st, he⟩ := h.full_lost hfull
        exact hlast n st he
      exact Queue.ok_of_newest_lost (by omega) h.counts (by decide)

theorem Queue.Ok.arriveAll {bs : List NoticeBody} (hbs : ∀ b ∈ bs, b.Raised) (stamp : Word) {q : List Notice}
    (h : Queue.Ok q) : Queue.Ok (Queue.arriveAll q bs stamp) :=
  List.foldlRecOn bs _ h fun _ hq b hb => hq.arrive (hbs b hb) stamp

/-- A record that is removed makes room (R174). -/
theorem Queue.Ok.tail {x : Notice} {q : List Notice} (h : Queue.Ok (x :: q)) : Queue.Ok q := by
  have hlen := h.length_le
  simp only [List.length_cons] at hlen
  exact ⟨by omega, by omega, fun y hy => h.counts y (List.mem_cons_of_mem x hy)⟩

/-! ## The stores of the state -/

/-- The notice queue, the notices on their way, the table and the job context are within their rules (R1, R157, R170). -/
structure State.StoresOk (s : State) : Prop where
  queue : Queue.Ok s.queue
  late : s.LateOk
  table : Memory.wf s.table
  job : s.job.Ok

section
variable {s t : State} {k : LaneId}

theorem State.StoresOk.congr (h : s.StoresOk) (hq : t.queue = s.queue) (hl : t.late = s.late) (ht : t.table = s.table)
    (hj : t.job = s.job) : t.StoresOk :=
  ⟨hq ▸ h.queue, fun n hn => h.late n (hl ▸ hn), ht ▸ h.table, hj ▸ h.job⟩

theorem State.StoresOk.withNotices (h : s.StoresOk) {q : List Notice} {l : List (Sender × NoticeBody)} (hq : Queue.Ok q)
    (hl : ∀ n ∈ l, n.2.Raised) : (s.withNotices q l).StoresOk := ⟨hq, hl, h.table, h.job⟩

theorem State.StoresOk.lateOf (h : s.StoresOk) (x : Sender) : ∀ b ∈ s.lateOf x, b.Raised := by
  intro b hb
  obtain ⟨n, hn, rfl⟩ := List.mem_map.mp hb
  exact h.late n (List.mem_filter.mp hn).1

theorem State.StoresOk.withTable (h : s.StoresOk) {m : List (Nat × Record)} (hm : Memory.wf m) :
    ({ s with table := m } : State).StoresOk := ⟨h.queue, h.late, hm, h.job⟩

theorem State.StoresOk.withJob (h : s.StoresOk) {j : Job} (hj : j.Ok) : ({ s with job := j } : State).StoresOk :=
  ⟨h.queue, h.late, h.table, hj⟩

theorem State.StoresOk.withPicks (h : s.StoresOk) (n : Nat) : ({ s with picks := n } : State).StoresOk :=
  h.congr rfl rfl rfl rfl

theorem State.StoresOk.withOutbox (h : s.StoresOk) (lines : List LaneId) : (s.withOutbox lines).StoresOk :=
  h.congr rfl rfl rfl rfl

theorem State.StoresOk.withSettings (h : s.StoresOk) (l : List Setting) : (s.withSettings l).StoresOk :=
  h.congr rfl rfl rfl rfl

theorem State.StoresOk.onLane (h : s.StoresOk) (k : LaneId) (f : Lane → Lane) : (s.onLane k f).StoresOk :=
  h.congr rfl rfl rfl rfl

theorem State.StoresOk.report (h : s.StoresOk) (r : Result) : (s.report r).StoresOk := h.congr rfl rfl rfl rfl

/-! ## Notices -/

theorem State.StoresOk.raise (h : s.StoresOk) {b : NoticeBody} (hb : b.Raised) : (s.raise b).StoresOk :=
  ⟨h.queue.arrive hb _, h.late, h.table, h.job⟩

theorem State.StoresOk.arriveFrom (h : s.StoresOk) (x : Sender) : (s.arriveFrom x).StoresOk :=
  ⟨h.queue.arriveAll (h.lateOf x) _, fun n hn => h.late n (List.mem_filter.mp hn).1, h.table, h.job⟩

theorem State.StoresOk.raiseFrom (h : s.StoresOk) (x : Sender) {b : NoticeBody} (hb : b.Raised) :
    (s.raiseFrom x b).StoresOk := (h.arriveFrom x).raise hb

theorem State.StoresOk.raiseAll (h : s.StoresOk) (x : Sender) {bs : List NoticeBody} (hbs : ∀ b ∈ bs, b.Raised) :
    (s.raiseAll x bs).StoresOk :=
  List.foldlRecOn bs _ h fun _ hs b hb => hs.raiseFrom x (hbs b hb)

theorem State.StoresOk.send (h : s.StoresOk) (x : Sender) {bs : List NoticeBody} (hbs : ∀ b ∈ bs, b.Raised) :
    (s.send x bs).StoresOk := by
  refine h.withNotices h.queue fun n hn => ?_
  rcases List.mem_append.mp hn with hn | hn
  · exact h.late n hn
  · obtain ⟨b, hb, rfl⟩ := List.mem_map.mp hn
    exact hbs b hb

theorem State.StoresOk.raiseApart (h : s.StoresOk) (x : Sender) {bs : List NoticeBody} (hbs : ∀ b ∈ bs, b.Raised) :
    (s.raiseApart x bs).StoresOk := by
  cases bs with
  | nil => exact h
  | cons b bs => exact (h.raiseFrom x (hbs b List.mem_cons_self)).send x fun c hc => hbs c (List.mem_cons_of_mem b hc)

theorem State.StoresOk.raiseTripNotices (h : s.StoresOk) {bs : List NoticeBody} (hbs : ∀ b ∈ bs, b.Raised) :
    (s.raiseTripNotices bs).StoresOk := by
  unfold State.raiseTripNotices
  split
  · exact h.send _ hbs
  · exact h.raiseApart _ hbs

theorem State.StoresOk.arriveNext (h : s.StoresOk) (x : Sender) : (s.arriveNext x).StoresOk := by
  unfold State.arriveNext
  split
  · exact h
  · rename_i n hn
    have hlate : ({ s with late := s.late.erase n } : State).StoresOk :=
      ⟨h.queue, fun m hm => h.late m (List.mem_of_mem_erase hm), h.table, h.job⟩
    exact hlate.raise (h.late n (List.mem_of_find?_eq_some hn))

/-! ## The acts of a lane -/

/-- The act raises no LOST record. -/
def Act.Raises (a : Act) : Prop := ∀ b ∈ a.notices, b.Raised

theorem State.StoresOk.withAct (h : s.StoresOk) {a : Act} (ha : a.Raises) : (s.withAct k a).StoresOk := by
  rw [State.withAct_frame]
  exact (h.raiseAll (.lane k) ha).congr rfl rfl (by rw [State.raiseAll_frame]; rfl) (by rw [State.raiseAll_frame]; rfl)

theorem Act.raises_of_nil {a : Act} (h : a.notices = []) : a.Raises := by simp [Act.Raises, h]

theorem Act.raises_of_single {a : Act} {b : NoticeBody} (h : a.notices = [b]) (hb : b.Raised) : a.Raises := by
  simpa [Act.Raises, h] using hb

theorem Act.Raises.after {a : Act} (h : a.Raises) {b : NoticeBody} (hb : b.Raised) : (a.after b).Raises :=
  List.forall_mem_cons.mpr ⟨hb, h⟩

variable {l : Lane}

theorem Lane.faults_raises (c : FaultCause) : (l.faults k c).Raises := Act.raises_of_single rfl nofun

theorem Lane.applies_raises (d : Descriptor) (o : SwapOccasion) : (l.applies k d o).Raises := Act.raises_of_single rfl nofun

theorem Lane.enters_raises (full : Bool) (o : Nat) (c : EntryCause) : (l.enters k full o c).Raises := by
  unfold Lane.enters
  split
  · exact Act.raises_of_nil rfl
  · split
    · exact Lane.applies_raises _ _
    · exact Act.raises_of_nil rfl

theorem Lane.starts_raises : (l.starts k).Raises := by
  unfold Lane.starts
  split
  · exact Act.raises_of_nil rfl
  · exact Lane.applies_raises _ _

theorem Lane.ends_raises (b : Bool) : (l.ends k b).Raises := by
  simp only [Lane.ends]
  split
  · exact Lane.applies_raises _ _
  · split
    · exact Lane.faults_raises _
    · split <;> exact Act.raises_of_single rfl nofun

theorem Lane.goesOn_raises (b : Bool) : (l.goesOn k b).Raises := by
  unfold Lane.goesOn
  split
  · exact Lane.enters_raises _ _ _
  · exact Lane.ends_raises b

theorem Lane.leaves_raises (b : Bool) : (l.leaves k b).Raises := by
  simp only [Lane.leaves]
  split
  · exact Act.raises_of_nil rfl
  · split
    · exact Lane.goesOn_raises b
    · exact Lane.goesOn_raises b
    · exact Lane.faults_raises _
    · split
      · exact Lane.goesOn_raises b
      · exact Lane.enters_raises _ _ _

theorem Lane.actsOnFault_raises : (l.actsOnFault k).Raises := by
  unfold Lane.actsOnFault
  split
  · exact Act.raises_of_nil rfl
  · split
    · exact (Lane.leaves_raises true).after nofun
    · exact (Lane.enters_raises _ _ _).after nofun
    · exact Lane.faults_raises _

theorem Lane.judges_raises (accepted : BitVec 16) : (l.judges k accepted).Raises := by
  unfold Lane.judges
  split
  · exact Lane.leaves_raises _
  · exact Act.raises_of_nil rfl

theorem Lane.ticks_raises (accepted : BitVec 16) : (l.ticks k accepted).Raises := by
  unfold Lane.ticks
  split
  · show Act.Raises (ite _ _ _)
    split
    · exact Lane.leaves_raises _
    · split
      · exact Lane.actsOnFault_raises
      · exact Act.raises_of_nil rfl
  all_goals exact Act.raises_of_nil rfl

theorem Lane.takesEdge_raises (n : InputId) (e : Sense) (accepted : BitVec 16) (turn : Nat) :
    (l.takesEdge k n e accepted turn).Raises := by
  unfold Lane.takesEdge
  split
  · split
    · exact Lane.starts_raises (l := l)
    · exact Act.raises_of_nil rfl
  · split
    · exact Lane.judges_raises _
    · split
      · exact Lane.judges_raises _
      · exact Act.raises_of_nil rfl

theorem Lane.takesArrival_raises (u : UnitId) (v : Word) (d : Direction) (accepted : BitVec 16) :
    (l.takesArrival k u v d accepted).Raises := by
  unfold Lane.takesArrival
  split
  · exact Lane.judges_raises _
  · exact Act.raises_of_nil rfl

theorem Lane.takesEmission_raises (line : LaneId) (accepted : BitVec 16) (turn : Nat) :
    (l.takesEmission k line accepted turn).Raises := by
  unfold Lane.takesEmission
  split
  · split
    · exact Lane.starts_raises (l := l)
    · exact Act.raises_of_nil rfl
  · split
    · exact Lane.judges_raises (l := { l with latch := true }) _
    · exact Act.raises_of_nil rfl

theorem Lane.completes_raises (e : Entry) (r : Record) (owners : Vector (Option LaneId) 32) :
    (l.completes k e r owners).Raises := by
  unfold Lane.completes
  split
  · exact Lane.faults_raises _
  · split
    · exact Lane.faults_raises _
    · by_cases hr : r.report = true
      · exact Act.raises_of_single (if_pos hr) nofun
      · exact Act.raises_of_nil (if_neg hr)

/-! ## Events and fetches -/

theorem State.StoresOk.serveFetch (h : s.StoresOk) (k : LaneId) : (serveFetch k s).StoresOk := by
  cases he : (s.lane k).entry with
  | none => rwa [serveFetch_of_settled he]
  | some e =>
    rw [serveFetch_eq he]
    exact h.withAct (Lane.completes_raises _ _ _)

theorem State.StoresOk.forceLane (h : s.StoresOk) (k : LaneId) (n : SourceId) : (forceLane k n s).StoresOk :=
  (h.onLane k _).withSettings _

theorem State.StoresOk.raiseTrips (h : s.StoresOk) (l : List Setting) : (raiseTrips l s).StoresOk := by
  refine (h.withSettings _).raiseTripNotices fun b hb => ?_
  obtain ⟨x, -, rfl⟩ := List.mem_map.mp hb
  exact nofun

theorem State.StoresOk.takeEvent (h : s.StoresOk) (hs : (s.lane k).settled) (e : Event) : (takeEvent k e s).StoresOk := by
  cases e with
  | tick =>
    rw [Machine.takeEvent, takeTick_eq]
    exact h.withAct (Lane.ticks_raises _)
  | edge n e =>
    rw [Machine.takeEvent, takeEdge_eq hs]
    exact h.withAct (Lane.takesEdge_raises _ _ _ _)
  | arrival u v d =>
    rw [Machine.takeEvent, takeArrival_eq]
    exact h.withAct (Lane.takesArrival_raises _ _ _ _)
  | emission line =>
    rw [Machine.takeEvent, takeEmission_eq hs]
    exact h.withAct (Lane.takesEmission_raises _ _ _)
  | forcing n => exact (h.forceLane k n).raiseTrips _

end
end Sys2Proof.Machine

/-! Every step keeps the notice queue, the notices on their way, the table and the job context within their rules: what goes on
between the blocks, the host commands, and the block on its own (R1, R157, R170). -/

namespace Sys2Proof.Machine

section
variable {s t : State} {k : LaneId}

/-! ## What the lanes take, and settling -/

theorem State.StoresOk.handToAll (h : s.StoresOk) (e : Event) : (handToAll e s).StoresOk := h.congr rfl rfl rfl rfl

theorem State.StoresOk.handOut (h : s.StoresOk) : (handOut s).StoresOk :=
  List.foldlRecOn _ _ (h.withOutbox []) fun _ hs _ _ => hs.handToAll _

theorem State.StoresOk.reach (h : s.StoresOk) (k : LaneId) (e : Event) : (reach k e s).StoresOk := by
  unfold Machine.reach
  split
  · rename_i hf
    simp only [Lane.free, Bool.and_eq_true, Option.isNone_iff_eq_none] at hf
    exact h.takeEvent hf.1 e
  · exact h.onLane k _

theorem State.StoresOk.takeNext (h : s.StoresOk) (k : LaneId) (e : Event) : (takeNext k e s).StoresOk := by
  simp only [Machine.takeNext]
  split
  · rename_i he _
    split
    · exact (h.onLane k Lane.dropKept).takeEvent (by simpa [Lane.settled, Lane.dropKept] using he) e
    · exact h
  · split
    · exact (h.onLane k _).reach k e
    · exact h

theorem State.StoresOk.deliver (h : s.StoresOk) (k : LaneId) (e : Event) : (deliver k e s).StoresOk := (h.takeNext k e).handOut

/-- A lane that does not take the event next keeps it, or is left as it is, and raises no notice. -/
theorem takeNext_of_not_taking {e : Event} (h : (s.lane k).taking e = none) :
    (takeNext k e s).queue = s.queue := by
  unfold Lane.taking at h
  simp only [takeNext]
  split at h
  · rename_i x rest he hk
    have hne : ¬ e = x := fun hx => by simp [hx] at h
    simp [he, hk, hne]
  · rename_i he hk
    have hn : ¬ (s.lane k).nextOfSource e = true := fun hn => by simp [hn] at h
    simp [he, hk, hn]
  · rename_i x he
    have hbusy : ((s.onLane k fun l => l.withComing (l.coming.erase e)).lane k).free = false := by simp [Lane.free, he]
    simp only [he]
    split
    · rw [reach, hbusy]
      rfl
    · rfl

theorem State.StoresOk.takeTickApart (h : s.StoresOk) (k : LaneId) : (takeTickApart k s).StoresOk := by
  cases ht : (s.lane k).taking .tick with
  | some l =>
    rw [takeTickApart_of_taking ht]
    exact State.StoresOk.raiseApart (h.withAct (Act.raises_of_nil rfl)) _ (Lane.ticks_raises _)
  | none =>
    have hq : (Machine.takeNext k .tick (s.withNotices [] [])).queue = [] :=
      takeNext_of_not_taking (s := s.withNotices [] []) ht
    have hblocks := sansWalk_takeNext (s.withNotices [] []) k .tick
    simp only [Machine.takeTickApart, withheld, hq, List.map_nil, State.raiseApart_nil]
    exact h.congr rfl rfl (SameBlocks.table hblocks) (SameBlocks.job hblocks)

theorem State.StoresOk.serveFetchApart (h : s.StoresOk) (k : LaneId) : (serveFetchApart k s).StoresOk := by
  have hf := serveFetchApart_spec k s
  unfold State.Fetched at hf
  split at hf
  · rw [hf]
    exact h
  · rw [hf]
    exact State.StoresOk.send (h.withAct (Act.raises_of_nil rfl)) _ (Lane.completes_raises _ _ _)

theorem State.StoresOk.doWork (h : s.StoresOk) (w : Work) : (doWork s w).StoresOk := by
  unfold Machine.doWork
  split
  · exact h.serveFetch _
  · exact h.takeTickApart _
  · exact h.takeNext _ _
  · exact h.arriveNext _

theorem State.StoresOk.settle (h : s.StoresOk) (host : Bool) (n : Nat) (c : Chain) : (settle host n c s).StoresOk :=
  settle_induct (P := State.StoresOk) host (fun _ h => h.withPicks _) (fun _ _ w _ h => (h.doWork w).handOut) n c s h

theorem State.StoresOk.drain (h : s.StoresOk) : (drain s).StoresOk := h.settle _ _ _

theorem State.StoresOk.completeLane (h : s.StoresOk) (k : LaneId) : (completeLane k s).StoresOk :=
  completeLane_induct (P := State.StoresOk) (fun _ j h => h.serveFetch j)
    (fun _ e hs h => (h.onLane k Lane.dropKept).takeEvent (by simpa [Lane.settled, Lane.dropKept] using hs) e) h

theorem State.StoresOk.completeLanes (h : s.StoresOk) (mask : LaneMask) : (completeLanes mask s).StoresOk :=
  List.foldlRecOn allLanes _ h fun _ hs k _ => by
    split
    · exact hs.completeLane k
    · exact hs

/-! ## The core clock, the pins and the trip latches -/

theorem State.StoresOk.reachForcing (h : s.StoresOk) (n : SourceId) (k : LaneId) : (reachForcing n k s).StoresOk := by
  unfold Machine.reachForcing
  split
  · exact h.forceLane k n
  · exact h.onLane k _

theorem State.StoresOk.onTrip (h : s.StoresOk) (n : SourceId) (f : TripSource → TripSource) : (s.onTrip n f).StoresOk :=
  h.congr rfl rfl rfl rfl

theorem State.StoresOk.markCompared (h : s.StoresOk) : s.markCompared.StoresOk := h.congr rfl rfl rfl rfl

theorem State.StoresOk.setLatch (h : s.StoresOk) (n : SourceId) : (setLatch n s).StoresOk := by
  simp only [Machine.setLatch]
  refine State.StoresOk.raiseTrips (List.foldlRecOn allLanes _ ((h.onTrip n _).withSettings _) fun _ hs k _ => ?_) _
  split
  · exact hs.reachForcing n k
  · exact hs

theorem State.StoresOk.elapse (h : s.StoresOk) (d : Nat) : (elapse d s).StoresOk :=
  h.congr (elapse_queue s d) (elapse_late s d) (elapse_table s d) (elapse_job s d)

/-- An event of the core clock keeps the stores within their rules when its act does. -/
theorem State.StoresOk.clockEvent (h : s.StoresOk) (lacking : Option Nat) {act : State → State}
    (ha : ∀ s : State, s.StoresOk → (act s).StoresOk) : (clockEvent lacking act s).StoresOk := by
  rcases clockEvent_spec lacking act s with ⟨he, -⟩ | ⟨d, -, -, -, he⟩
  · rw [he]
    exact h
  · rw [he]
    refine ha _ ?_
    unfold goOnTo
    split
    · exact h
    · exact h.drain.elapse d

theorem State.StoresOk.tick (h : s.StoresOk) (takers : LaneMask) : (tick takers s).StoresOk :=
  h.clockEvent _ fun s h => by
    refine State.StoresOk.handOut (List.foldlRecOn allLanes _ (h.congr rfl rfl rfl rfl) fun _ hs k _ => ?_)
    unfold handTick
    split
    · exact hs.reach k .tick
    · exact hs.onLane k _

theorem State.StoresOk.inputAcceptedChange (h : s.StoresOk) (n : InputId) : (inputAcceptedChange n s).StoresOk :=
  h.clockEvent _ fun _ h => List.foldlRecOn _ _ (h.congr rfl rfl rfl rfl) fun _ hs _ _ => hs.handToAll _

theorem State.StoresOk.quadratureChange (h : s.StoresOk) (u : UnitId) (c : Channel) : (quadratureChange u c s).StoresOk :=
  h.clockEvent _ fun s h => by
    have hunit (f : PositionUnit → PositionUnit) : (s.markCompared.onUnit u f).StoresOk := h.congr rfl rfl rfl rfl
    simp only [acceptQuadrature]
    split
    · split
      · exact hunit _
      · exact (hunit _).raise nofun
    · exact (hunit _).handToAll _

theorem State.StoresOk.tripAcceptedChange (h : s.StoresOk) (n : Fin 4) : (tripAcceptedChange n s).StoresOk :=
  h.clockEvent _ fun s h => by
    simp only [acceptTrip]
    split
    · exact (h.markCompared.onTrip _ _).setLatch _
    · exact h.markCompared.onTrip _ _

theorem State.StoresOk.acceptedChange (h : s.StoresOk) (pin : FilteredPin) : (acceptedChange pin s).StoresOk := by
  cases pin with
  | input n => exact h.inputAcceptedChange n
  | quadrature u c => exact h.quadratureChange u c
  | trip n => exact h.tripAcceptedChange n

theorem State.StoresOk.movePin (h : s.StoresOk) (pin : FilteredPin) (level : Bool) : (movePin pin level s).StoresOk := by
  cases pin <;> exact h.congr rfl rfl rfl rfl

theorem State.StoresOk.takeLevel (h : s.StoresOk) (pin : FilteredPin) (level : Bool) : (takeLevel pin level s).StoresOk := by
  unfold Machine.takeLevel
  split
  · exact h
  · refine State.StoresOk.movePin ?_ _ _
    split
    · exact h.acceptedChange pin
    · exact h

theorem State.StoresOk.withEarly (h : s.StoresOk) (moves : List (FilteredPin × Bool)) : (s.withEarly moves).StoresOk :=
  h.congr rfl rfl rfl rfl

theorem State.StoresOk.presentedLevelChange (h : s.StoresOk) (pin : FilteredPin) (level : Bool) :
    (presentedLevelChange pin level s).StoresOk := by
  unfold Machine.presentedLevelChange
  split
  · exact h.takeLevel pin level
  · split
    · exact h.withEarly _
    · exact h.takeLevel pin level

/-! ## The table job -/

/-- A RUNNING job that completes one more record: at the count it is DONE, short of it it runs on, and wherever it stands it may
be abandoned (R157, R161, R166). -/
theorem Job.Ok.served {j : Job} (h : j.Ok) (hr : j.state = .running) {st : JobState}
    (hst : st = .idle ∨ st = .done ∧ j.progress + 1 = j.count ∨ st = .running ∧ j.progress + 1 ≠ j.count) :
    Job.Ok { j with progress := j.progress + 1, state := st } := by
  have hlt := h.unfinished (.inl hr)
  refine ⟨h.count_pos, h.source_le, h.destination_le, hlt, fun hu => ?_, fun hd => ?_, h.result_zero⟩
  · rcases hst with rfl | ⟨rfl, -⟩ | ⟨rfl, hne⟩
    · simp at hu
    · simp at hu
    · exact Nat.lt_of_le_of_ne hlt hne
  · rcases hst with rfl | ⟨rfl, he⟩ | ⟨rfl, -⟩
    · cases hd
    · exact he
    · cases hd

theorem State.StoresOk.raiseJob (h : s.StoresOk) (o : JobOutcome) : (raiseJob o s).StoresOk := by
  unfold Machine.raiseJob
  split
  · exact h
  · exact h.raise nofun

theorem State.StoresOk.jobServed (h : s.StoresOk) (hr : s.job.state = .running) : (jobServed s).StoresOk := by
  simp only [Machine.jobServed]
  split
  · rename_i he
    exact (h.withJob (h.job.served hr (.inr (.inl ⟨rfl, he⟩)))).raiseJob .done
  · rename_i hne
    have hjob := h.job.served hr (.inr (.inr ⟨rfl, hne⟩))
    rw [← hr] at hjob
    exact h.withJob hjob

theorem State.StoresOk.clearRecord (h : s.StoresOk) : (clearRecord s).StoresOk := h.withTable (Memory.write_wf _ _ _ h.table)

theorem State.StoresOk.moveRecord (h : s.StoresOk) : (moveRecord s).StoresOk := h.withTable (Memory.write_wf _ _ _ h.table)

theorem State.StoresOk.foldRecord (h : s.StoresOk) (hk : s.job.kind = .check) : (foldRecord s).StoresOk :=
  h.withJob ⟨h.job.count_pos, h.job.source_le, h.job.destination_le, h.job.progress_le, h.job.unfinished, h.job.finished,
    fun hne => absurd hk hne⟩

theorem State.StoresOk.letPass (h : s.StoresOk) : s.letPass.StoresOk := h.congr rfl rfl rfl rfl

theorem State.StoresOk.serveAccess (h : s.StoresOk) (hr : s.job.state = .running) : (serveAccess s).StoresOk := by
  unfold Machine.serveAccess
  split
  · exact h.clearRecord.letPass.jobServed hr
  · exact h.moveRecord.letPass.jobServed hr
  · rename_i hk
    exact (h.foldRecord hk).letPass.jobServed hr

theorem State.StoresOk.access (h : s.StoresOk) (kind : JobKind) :
    (if s.jobRuns kind then Machine.serveAccess s else s).StoresOk := by
  split
  · rename_i hruns
    simp only [State.jobRuns, Bool.and_eq_true, decide_eq_true_eq] at hruns
    obtain ⟨⟨⟨-, hr⟩, -⟩, -⟩ := hruns
    exact h.serveAccess hr
  · exact h

theorem State.StoresOk.clearWrite (h : s.StoresOk) : (clearWrite s).StoresOk := h.access .clear
theorem State.StoresOk.copyMove (h : s.StoresOk) : (copyMove s).StoresOk := h.access .copy
theorem State.StoresOk.checkRead (h : s.StoresOk) : (checkRead s).StoresOk := h.access .check

/-- The access that a soft reset finds in service, with the job abandoned (R166). -/
theorem State.StoresOk.completeAccess (h : s.StoresOk) (hr : s.job.state = .running) :
    ({ Machine.completeAccess s with job := { (Machine.completeAccess s).job with state := .idle } } : State).StoresOk := by
  unfold Machine.completeAccess
  split
  · exact h.withJob (h.job.served hr (.inl rfl))
  · exact h.moveRecord.withJob (h.moveRecord.job.served hr (.inl rfl))
  · rename_i hk
    exact (h.foldRecord hk).withJob ((h.foldRecord hk).job.served hr (.inl rfl))

theorem State.StoresOk.abandonJob (h : s.StoresOk) : (abandonJob s).StoresOk := by
  simp only [Machine.abandonJob]
  split
  · rename_i hab
    simp only [Bool.and_eq_true, decide_eq_true_eq] at hab
    refine State.StoresOk.withPicks ?_ _
    split
    · exact h.completeAccess hab.1
    · exact h.withJob ⟨h.job.count_pos, h.job.source_le, h.job.destination_le, h.job.progress_le, by simp, by simp,
        h.job.result_zero⟩
  · exact h

/-! ## What goes on beside a host write -/

/-- An access of the table job happens beside a host write only while the job runs. -/
theorem job_running_of_access {but : LaneMask} (h : Happening.access ∈ s.happenings but) : s.job.state = .running := by
  have hm : Happening.access ∉ s.machineSide := by
    unfold State.machineSide
    split
    · simp
    · split <;> simp
  have hw : s.accessWaits = true := by
    by_contra hno
    simp [State.happenings, State.lanesWork, hno, hm] at h
  simp only [State.accessWaits, Bool.and_eq_true, decide_eq_true_eq] at hw
  obtain ⟨⟨⟨-, hr⟩, -⟩, -⟩ := hw
  exact hr

theorem State.StoresOk.happen (h : s.StoresOk) {but : LaneMask} {x : Happening} (hx : x ∈ s.happenings but) :
    (happen s x).StoresOk := by
  cases x with
  | work w => exact (((h.withOutbox []).doWork w).handOut).withOutbox _
  | access => exact h.serveAccess (job_running_of_access hx)
  | acceptance pin => exact ((h.withOutbox []).acceptedChange pin).withOutbox _
  | tick => exact ((h.withOutbox []).tick 0).withOutbox _
  | move pin level => exact (((h.withEarly _).withOutbox []).takeLevel pin level).withOutbox _
  | period => exact h.elapse 1

theorem State.StoresOk.goesOn {but : LaneMask} (h : s.StoresOk) (hg : s.GoesOn but t) : t.StoresOk :=
  hg.induct (fun _ _ h => h.withPicks _) (fun _ _ hx h => h.happen hx) h

theorem State.StoresOk.interlude (h : s.StoresOk) (but : LaneMask) : (interlude but s).StoresOk :=
  h.goesOn (interlude_goesOn but s)

theorem State.StoresOk.followUp (h : s.StoresOk) : (followUp s).StoresOk :=
  followUp_induct (P := State.StoresOk) (fun _ _ h => h.withPicks _) (fun _ h => h.handOut) (fun _ _ hx h => h.happen hx)
    (fun _ w h => h.doWork w) h

end
end Sys2Proof.Machine

/-! Every command, and the block on its own, keep the stores within their rules (R1, R157, R170). -/

namespace Sys2Proof.Machine

section
variable {s t : State} {k : LaneId}

theorem State.StoresOk.hostAccess (h : s.StoresOk) {act : State → State} (ha : (act s).StoresOk) :
    (hostAccess act s).StoresOk := by
  unfold Machine.hostAccess
  split
  · exact h
  · exact ha

/-! ## Lane commands -/

/-- A judgement that, where it takes the command, keeps the stores within their rules. -/
def JudgeStoresOk (judge : LaneId → State → Judgement) : Prop :=
  ∀ {k : LaneId} {s t : State}, s.StoresOk → judge k s = .ok t → t.StoresOk

theorem judgeStart_storesOk : JudgeStoresOk judgeStart := by
  intro k s t h ht
  simp only [judgeStart] at ht
  split at ht; · cases ht
  split at ht
  · split at ht; · cases ht
    split at ht <;> cases ht
    · exact (h.onLane k _).onLane k _
    · exact h.onLane k _
  · cases ht

theorem State.StoresOk.installSwap (h : s.StoresOk) (k : LaneId) (d : Descriptor) (o : SwapOccasion) :
    (installSwap k d o s).StoresOk :=
  State.StoresOk.raiseFrom (b := .swap k (s.lane k).active d.swapBoundary o) (h.onLane k _) (.lane k) nofun

theorem judgeStop_storesOk : JudgeStoresOk judgeStop := by
  intro k s t h ht
  simp only [judgeStop] at ht
  split at ht; · cases ht
  split at ht <;> cases ht
  · exact (h.installSwap k _ _).onLane k _
  · exact h.onLane k _

theorem judgeHold_storesOk : JudgeStoresOk judgeHold := by
  intro k s t h ht
  simp only [judgeHold] at ht
  split at ht <;> cases ht
  exact h.onLane k _

theorem State.StoresOk.enter (h : s.StoresOk) (k : LaneId) (full : Bool) (o : Nat) (c : EntryCause) :
    (enter k full o c s).StoresOk := by
  rw [enter_eq]
  exact h.withAct (Lane.enters_raises _ _ _)

theorem State.StoresOk.advanceIfMet (h : s.StoresOk) (k : LaneId) : (advanceIfMet k s).StoresOk := by
  rw [advanceIfMet_eq]
  exact h.withAct (Lane.judges_raises _)

theorem judgeRelease_storesOk : JudgeStoresOk judgeRelease := by
  intro k s t h ht
  simp only [judgeRelease] at ht
  split at ht
  · split at ht <;> cases ht
    · exact (h.onLane k _).advanceIfMet k
    · exact h.enter k _ _ _
  · cases ht

theorem judgeStep_storesOk : JudgeStoresOk judgeStep := by
  intro k s t h ht
  simp only [judgeStep] at ht
  split at ht <;> cases ht
  exact (h.onLane k _).advanceIfMet k

theorem judgeResume_storesOk : JudgeStoresOk judgeResume := by
  intro k s t h ht
  simp only [judgeResume] at ht
  split at ht
  · split at ht <;> cases ht
    exact (h.onLane k _).enter k _ _ _
  · split at ht; · cases ht
    split at ht <;> cases ht
    · exact h.onLane k _
    · exact h.onLane k _
    · exact h.onLane k _
    · exact (h.onLane k _).enter k _ _ _
    · exact (h.onLane k _).enter k _ _ _
  all_goals cases ht

theorem judgeJump_storesOk (offset : Nat) : JudgeStoresOk (judgeJump offset) := by
  intro k s t h ht
  simp only [judgeJump] at ht
  split at ht
  · split at ht <;> cases ht
    exact h.onLane k _
  · cases ht

theorem judgeReset_storesOk : JudgeStoresOk judgeReset := by
  intro k s t h ht
  cases ht
  exact h.onLane k _

theorem judgeLoad_storesOk : JudgeStoresOk judgeLoad := by
  intro k s t h ht
  simp only [judgeLoad] at ht
  split at ht; · cases ht
  split at ht; · cases ht
  split at ht <;> cases ht
  all_goals exact h.onLane k _

theorem judgeSwap_storesOk : JudgeStoresOk judgeSwap := by
  intro k s t h ht
  simp only [judgeSwap] at ht
  split at ht; · cases ht
  split at ht; · cases ht
  split at ht <;> cases ht
  exact h.onLane k _

theorem judgeCancelSwap_storesOk : JudgeStoresOk judgeCancelSwap := by
  intro k s t h ht
  simp only [judgeCancelSwap] at ht
  split at ht <;> cases ht
  exact h.onLane k _

variable {judge : LaneId → State → Judgement}

theorem State.StoresOk.refuseLane (h : s.StoresOk) (k : LaneId) (r : Result) : (refuseLane k r s).StoresOk :=
  h.congr rfl rfl rfl rfl

theorem State.StoresOk.judgeLane (h : s.StoresOk) (hj : JudgeStoresOk judge) (k : LaneId) : (judgeLane judge k s).StoresOk := by
  simp only [Machine.judgeLane]
  have hv := h.completeLane k
  split
  · rename_i t ht
    exact (hj hv ht).onLane k _
  · exact hv.refuseLane k _

theorem State.StoresOk.laneCommand (h : s.StoresOk) (hj : JudgeStoresOk judge) (mask : LaneMask) :
    (laneCommand judge mask s).StoresOk := by
  refine h.hostAccess (State.StoresOk.followUp ?_)
  exact commandLanes_induct (P := State.StoresOk) (fun _ _ h => h.withPicks _) (fun _ but h => h.interlude but)
    (fun _ k h => h.judgeLane hj k) (fun _ k h => h.serveFetchApart k) (fun _ x h => h.arriveFrom x) mask
    (h.congr rfl rfl rfl rfl)

/-! ## The other host commands -/

theorem State.StoresOk.recordRequest (h : s.StoresOk) (index : Word) {transfer : State → State}
    (ht : (transfer s).StoresOk) : (recordRequest index transfer s).StoresOk := by
  refine h.hostAccess ?_
  split
  · exact h.report _
  · split
    · exact h.report _
    · exact ht.report _

theorem State.StoresOk.recordRead (h : s.StoresOk) (index : Word) : (recordRead index s).StoresOk :=
  h.recordRequest index (h.congr rfl rfl rfl rfl)

theorem State.StoresOk.recordWrite (h : s.StoresOk) (index : Word) : (recordWrite index s).StoresOk :=
  h.recordRequest index (h.withTable (Memory.write_wf _ _ _ h.table))

theorem State.StoresOk.lineAssign (h : s.StoresOk) (v : Word) : (lineAssign v s).StoresOk := by
  refine h.hostAccess ?_
  (repeat' split) <;> exact h.congr rfl rfl rfl rfl

theorem State.StoresOk.lineFree (h : s.StoresOk) (v : Word) : (lineFree v s).StoresOk := by
  refine h.hostAccess ?_
  split <;> exact h.congr rfl rfl rfl rfl

theorem State.StoresOk.safeLevelWrite (h : s.StoresOk) (half : SafeHalf) (v : Word) : (safeLevelWrite half v s).StoresOk :=
  h.hostAccess (h.congr rfl rfl rfl rfl)

theorem State.StoresOk.inputSettingWrite (h : s.StoresOk) (setting : InputSetting) (v : Word) :
    (inputSettingWrite setting v s).StoresOk := h.hostAccess (h.congr rfl rfl rfl rfl)

theorem State.StoresOk.posFiltWrite (h : s.StoresOk) (u : UnitId) (v : Word) : (posFiltWrite u v s).StoresOk :=
  h.hostAccess (h.congr rfl rfl rfl rfl)

theorem State.StoresOk.posLoad (h : s.StoresOk) (v : Word) : (posLoad v s).StoresOk :=
  h.hostAccess (h.congr rfl rfl rfl rfl)

theorem State.StoresOk.posClear (h : s.StoresOk) (v : Word) : (posClear v s).StoresOk :=
  h.hostAccess (h.congr rfl rfl rfl rfl)

theorem State.StoresOk.triggerEmit (h : s.StoresOk) (v : Word) : (triggerEmit v s).StoresOk :=
  h.hostAccess ((h.withOutbox _).report _).followUp

theorem State.StoresOk.tbDivPreWrite (h : s.StoresOk) (setting : TimebaseSetting) (v : Word) :
    (tbDivPreWrite setting v s).StoresOk := by
  refine h.hostAccess ?_
  cases setting <;> exact h.congr rfl rfl rfl rfl

theorem State.StoresOk.tbCountWrite (h : s.StoresOk) (v : Word) : (tbCountWrite v s).StoresOk :=
  h.hostAccess (h.congr rfl rfl rfl rfl)

theorem State.StoresOk.popOldest (h : s.StoresOk) : (popOldest s).StoresOk := by
  unfold Machine.popOldest
  split
  · exact h.report _
  · rename_i x rest hq
    exact ⟨Queue.Ok.tail (hq ▸ h.queue), h.late, h.table, h.job⟩

theorem State.StoresOk.noticePop (h : s.StoresOk) (v : Word) : (noticePop v s).StoresOk :=
  h.hostAccess (h.interlude 0).popOldest

theorem State.StoresOk.controlWrite (h : s.StoresOk) (drive run irq : Bool) : (controlWrite drive run irq s).StoresOk := by
  unfold Machine.controlWrite State.setDrive
  split <;> exact h.congr rfl rfl rfl rfl

theorem State.StoresOk.plainWrite (h : s.StoresOk) (n : Nat) (v : Word) : (plainWrite n v s).StoresOk := by
  rw [plainWrite_frame]
  exact h.congr rfl rfl rfl rfl

/-! ## The table jobs -/

/-- The job that a command puts in the context is within its ranges when its arguments pass the check (R157, R159, R160). -/
theorem State.StoresOk.jobRequest (h : s.StoresOk) {valid : State → Bool} {job : State → Job}
    (hj : valid s = true → (job s).Ok) : (jobRequest valid job s).StoresOk := by
  refine h.hostAccess ?_
  split
  · exact h.report _
  · split
    · exact h.report _
    · rename_i hv
      exact (h.withJob (hj (by simpa using hv))).report _

theorem State.StoresOk.jobCopy (h : s.StoresOk) (v : Word) : (jobCopy v s).StoresOk := by
  refine h.jobRequest fun hv => ?_
  simp only [countInTable, rangeInTable, Bool.and_eq_true, decide_eq_true_eq] at hv
  obtain ⟨⟨⟨hpos, -⟩, -, hsrc⟩, -, hdst⟩ := hv
  exact ⟨hpos, hsrc, hdst, Nat.zero_le _, fun _ => hpos, nofun, fun _ => rfl⟩

theorem State.StoresOk.jobCheck (h : s.StoresOk) (v : Word) : (jobCheck v s).StoresOk := by
  refine h.jobRequest fun hv => ?_
  simp only [countInTable, rangeInTable, Bool.and_eq_true, decide_eq_true_eq] at hv
  obtain ⟨⟨hpos, hcount⟩, -, hsrc⟩ := hv
  exact ⟨hpos, hsrc, by simpa using hcount, Nat.zero_le _, fun _ => hpos, nofun, fun hne => absurd rfl hne⟩

theorem State.StoresOk.jobAbort (h : s.StoresOk) (v : Word) : (jobAbort v s).StoresOk := by
  refine h.hostAccess ?_
  split
  · rename_i hr
    split
    · exact h.report _
    · have hjob : Job.Ok { s.job with state := .aborted } :=
        ⟨h.job.count_pos, h.job.source_le, h.job.destination_le, h.job.progress_le,
          fun _ => h.job.unfinished (.inl hr), by simp, h.job.result_zero⟩
      exact ((h.withJob hjob).report _).raiseJob _
  · exact h.report _

/-! ## The Trip Unit -/

theorem State.StoresOk.setLatchNow (h : s.StoresOk) (n : SourceId) : (setLatchNow n s).StoresOk :=
  ((((h.setLatch n).interlude 0).completeLanes _).arriveFrom _).followUp

theorem State.StoresOk.tripConfig (h : s.StoresOk) (v : Word) : (tripConfig v s).StoresOk := by
  refine h.hostAccess ?_
  dsimp only
  split
  · split
    · exact h.report _
    · unfold configureTrip
      split
      · exact (h.report _).onTrip _ _
      · have hpin (f : TripSource → TripSource) (n : SourceId) (changed : FilteredPin → Bool) :
            (((s.report .taken).onTrip n f).restart changed).StoresOk := h.congr rfl rfl rfl rfl
        dsimp only
        split
        · exact (hpin _ _ _).setLatchNow _
        · exact hpin _ _ _
  · exact h.report _

theorem State.StoresOk.tripAssert (h : s.StoresOk) (v : Word) : (tripAssert v s).StoresOk := by
  refine h.hostAccess ?_
  dsimp only
  split
  · exact h.report _
  · split
    · exact h.report _
    · exact (h.report _).setLatchNow _

theorem State.StoresOk.tripClear (h : s.StoresOk) (v : Word) : (tripClear v s).StoresOk :=
  h.hostAccess (h.congr rfl rfl rfl rfl)

/-! ## Resets -/

theorem State.StoresOk.choose {α : Type} (h : s.StoresOk) (x : α) (rest : List α) : (choose x rest s).2.StoresOk := by
  rcases (choose_spec x rest s).2 with he | he <;> rw [he]
  · exact h
  · exact h.withPicks _

theorem State.StoresOk.setLatches (n : Nat) :
    ∀ (sources : List SourceId) {s : State}, s.StoresOk → (setLatches n sources s).StoresOk := by
  induction n with
  | zero => exact fun _ _ h => h
  | succ n ih =>
    intro sources s h
    cases sources with
    | nil => exact h
    | cons x rest =>
      simp only [Machine.setLatches]
      exact ih _ ((h.choose x rest).setLatch _)

theorem State.StoresOk.resetBlocks (h : s.StoresOk) : (resetBlocks s).StoresOk := ⟨.nil, nofun, h.table, h.job⟩

theorem State.StoresOk.takeIdly (h : s.StoresOk) : (takeIdly s).StoresOk := h.congr rfl rfl rfl rfl

theorem State.StoresOk.discarding (h : s.StoresOk) : (discarding s).StoresOk :=
  (h.interlude 0).takeIdly.withNotices h.queue h.late

theorem State.StoresOk.softReset (h : s.StoresOk) : (softReset s).StoresOk := by
  unfold Machine.softReset
  split
  · exact h
  · exact State.StoresOk.discarding (State.StoresOk.setLatches _ _ (h.interlude 0).abandonJob.resetBlocks)

theorem Job.ok_powerOnClear : Job.powerOnClear.Ok :=
  ⟨by decide, by decide, by decide, by decide, by decide, nofun, fun _ => rfl⟩

theorem State.StoresOk.resetRelease (h : s.StoresOk) : (resetRelease s).StoresOk := by
  unfold Machine.resetRelease
  split
  · exact ⟨.nil, nofun, h.table, Job.ok_powerOnClear⟩
  · exact h

/-! ## Events of the part -/

theorem State.StoresOk.entryFetch (h : s.StoresOk) (k : LaneId) : (entryFetch k s).StoresOk := by
  unfold Machine.entryFetch
  split
  · exact h
  · exact (h.serveFetch k).handOut

theorem State.StoresOk.takeTickWhen (h : s.StoresOk) (named : Lane → Bool) (k : LaneId) :
    (takeTickWhen named k s).StoresOk := by
  simp only [Machine.takeTickWhen]
  split
  · exact h.deliver k .tick
  · exact h

/-- The row of a lane's taking of an event, which does nothing while RESET# is low. -/
theorem State.StoresOk.taking (h : s.StoresOk) (k : LaneId) (e : Event) :
    (if s.resetLow then s else Machine.deliver k e s).StoresOk := by
  split
  · exact h
  · exact h.deliver k e

/-! ## Every step -/

theorem State.StoresOk.controlRegisterWrite (h : s.StoresOk) (v : Word) : (controlRegisterWrite v s).StoresOk := by
  unfold Machine.controlRegisterWrite
  split
  · exact h.softReset
  · exact h.hostAccess (h.controlWrite _ _ _)

/-- A write through the window is the row of the register at its address (R178). -/
theorem State.StoresOk.busWrite (h : s.StoresOk) (n : Nat) (v : Word) : (busWrite n v s).StoresOk := by
  unfold Machine.busWrite
  split
  · exact h.controlRegisterWrite v
  · exact h.tbDivPreWrite .div v
  · exact h.tbDivPreWrite .pre v
  · exact h.tbCountWrite v
  · exact h.recordRead v
  · exact h.recordWrite v
  · exact h.laneCommand judgeStart_storesOk _
  · exact h.laneCommand judgeStop_storesOk _
  · exact h.laneCommand judgeHold_storesOk _
  · exact h.laneCommand judgeRelease_storesOk _
  · exact h.laneCommand judgeReset_storesOk _
  · exact h.laneCommand judgeResume_storesOk _
  · exact h.laneCommand judgeStep_storesOk _
  · exact h.laneCommand (judgeJump_storesOk _) _
  · exact h.laneCommand judgeLoad_storesOk _
  · exact h.laneCommand judgeSwap_storesOk _
  · exact h.laneCommand judgeCancelSwap_storesOk _
  · exact h.safeLevelWrite .lo v
  · exact h.safeLevelWrite .hi v
  · exact h.lineAssign v
  · exact h.lineFree v
  · exact h.inputSettingWrite .polarity v
  · exact h.posFiltWrite 0 v
  · exact h.posFiltWrite 1 v
  · exact h.posLoad v
  · exact h.posClear v
  · exact h.triggerEmit v
  · exact h.tripConfig v
  · exact h.tripAssert v
  · exact h.tripClear v
  · exact h.jobCopy v
  · exact h.jobCheck v
  · exact h.jobAbort v
  · exact h.noticePop v
  · split
    · exact h.inputSettingWrite _ v
    · exact h.hostAccess (h.plainWrite _ v)

/-- Every command keeps the stores within their rules. -/
theorem State.StoresOk.exec (h : s.StoresOk) (c : Instr) (ht : exec c s = .next t) : t.StoresOk := by
  cases c <;> cases ht
  case recordRead v => exact h.recordRead v
  case recordWrite v => exact h.recordWrite v
  case laneStart v => exact h.laneCommand judgeStart_storesOk _
  case laneStop v => exact h.laneCommand judgeStop_storesOk _
  case laneHold v => exact h.laneCommand judgeHold_storesOk _
  case laneRelease v => exact h.laneCommand judgeRelease_storesOk _
  case laneReset v => exact h.laneCommand judgeReset_storesOk _
  case laneResume v => exact h.laneCommand judgeResume_storesOk _
  case laneStep v => exact h.laneCommand judgeStep_storesOk _
  case laneJump v => exact h.laneCommand (judgeJump_storesOk _) _
  case laneLoad v => exact h.laneCommand judgeLoad_storesOk _
  case laneSwap v => exact h.laneCommand judgeSwap_storesOk _
  case laneCancelSwap v => exact h.laneCommand judgeCancelSwap_storesOk _
  case lineAssign v => exact h.lineAssign v
  case lineFree v => exact h.lineFree v
  case posLoad v => exact h.posLoad v
  case posClear v => exact h.posClear v
  case triggerEmit v => exact h.triggerEmit v
  case tripConfig v => exact h.tripConfig v
  case tripAssert v => exact h.tripAssert v
  case tripClear v => exact h.tripClear v
  case jobCopy v => exact h.jobCopy v
  case jobCheck v => exact h.jobCheck v
  case jobAbort v => exact h.jobAbort v
  case noticePop v => exact h.noticePop v
  case driveEn on => exact h.hostAccess (h.controlWrite _ _ _)
  case tbRun on => exact h.hostAccess (h.controlWrite _ _ _)
  case noticeIrqEn on => exact h.hostAccess (h.controlWrite _ _ _)
  case softReset => exact h.softReset
  case safeLevelWrite half v => exact h.safeLevelWrite half v
  case inputSettingWrite setting v => exact h.inputSettingWrite setting v
  case posFiltWrite u v => exact h.posFiltWrite u v
  case tbDivPreWrite setting v => exact h.tbDivPreWrite setting v
  case tbCountWrite v => exact h.tbCountWrite v
  case plainRegisterWrite a v => exact h.busWrite _ v
  case resetAssert => exact h.congr rfl rfl rfl rfl
  case resetRelease => exact h.resetRelease
  case clearWrite => exact h.clearWrite
  case copyMove => exact h.copyMove
  case checkRead => exact h.checkRead
  case entryFetch k => exact h.entryFetch k
  case tick takers => exact h.tick takers
  case dwellExpiry k => exact h.takeTickWhen _ k
  case limitExpiry k => exact h.takeTickWhen _ k
  case pulseEnd k => exact h.takeTickWhen _ k
  case inputAcceptedChange n => exact h.inputAcceptedChange n
  case edgeEvent k n e => exact h.taking k _
  case quadratureChange u c => exact h.quadratureChange u c
  case arrival k u v d => exact h.taking k _
  case emission k line => exact h.taking k _
  case tripAcceptedChange n => exact h.tripAcceptedChange n
  case tripForcing k n => exact h.taking k _
  case presentedLevelChange pin level => exact h.presentedLevelChange pin level

theorem State.StoresOk.doDue (h : s.StoresOk) (d : Due) : (doDue s d).StoresOk := by
  cases d with
  | fetch k => exact h.entryFetch k
  | access kind =>
    cases kind
    · exact h.clearWrite
    · exact h.copyMove
    · exact h.checkRead
  | input n => exact h.inputAcceptedChange n
  | quadrature u c => exact h.quadratureChange u c
  | trip n => exact h.tripAcceptedChange n
  | tick => exact h.tick 0
  | period => exact h.elapse 1

theorem State.StoresOk.idle (h : s.StoresOk) : (idle s).StoresOk := by
  unfold Machine.idle
  split
  · exact h
  · split
    · exact h.drain
    · split
      · exact h
      · exact (h.choose _ _).doDue _

theorem State.StoresOk.step (h : s.StoresOk) (ht : step s = .next t) : t.StoresOk := by
  unfold Machine.step at ht
  split at ht
  · cases ht
    exact h.idle
  · rename_i c rest _
    have hrest : ({ s with pending := rest } : State).StoresOk := h.congr rfl rfl rfl rfl
    exact hrest.exec c ht

/-- Settles O59: `State.StoresOk` is kept by every command and by the block on its own. -/
theorem stepKeepsQueueTableAndJobInRange : Obligations.StepKeepsQueueTableAndJobInRange := by
  intro s t hq hl hm hj ht
  have h : t.StoresOk := State.StoresOk.step ⟨hq, hl, hm, hj⟩ ht
  exact ⟨h.queue, h.late, h.table, h.job⟩

end
end Sys2Proof.Machine

/-! SOFT_RESET: the act that the blocks take together, with the latches that set again at once (R155, R166, R183). -/

namespace Sys2Proof.Machine

section
variable {s : State} {ds : LaneId → Descriptor}

/-! ## The access of a table job in service (R166) -/

theorem jobServed_table (s : State) : (jobServed s).table = s.table := by
  simp only [jobServed, raiseJob]
  (repeat' split) <;> rfl

theorem jobServed_job (s : State) : (jobServed s).job = { s.job with
    progress := s.job.progress + 1
    state := if s.job.progress + 1 = s.job.count then .done else s.job.state } := by
  simp only [jobServed]
  split
  · rw [raiseJob_job]
  · rfl

/-- An access that a soft reset finds in service is the one that the Table Controller would have served, with the job as it runs
(R162, R163, R166). -/
theorem completeAccess_eq (hr : s.job.state = .running) (hk : s.job.kind ≠ .clear) :
    completeAccess s =
      { s with table := (serveAccess s).table, job := { (serveAccess s).job with state := .running } } := by
  unfold completeAccess serveAccess
  rw [jobServed_table, jobServed_job, ← hr]
  cases hkind : s.job.kind with
  | clear => exact absurd hkind hk
  | copy => rfl
  | check => rfl

/-- What becomes of the table job at a soft reset: a host's job that runs is abandoned, with the access in service completed or
without one, and any other job stands (R17, R166). -/
theorem abandonJob_cases (s : State) :
    ∃ (u : State) (p : Nat),
      (u = s ∨ (s.job.state = .running ∧ s.job.kind ≠ .clear) ∧ s.accessFree = true ∧ u = completeAccess s) ∧
      abandonJob s = { s with
        table := u.table
        job := if s.job.state = .running ∧ s.job.kind ≠ .clear then { u.job with state := .idle } else s.job
        picks := p } := by
  by_cases hab : s.job.state = .running ∧ s.job.kind ≠ .clear
  · have hcond : (decide (s.job.state = .running) && decide (s.job.kind ≠ .clear)) = true := by simpa using hab
    simp only [abandonJob, if_pos hab, hcond, if_true]
    by_cases hacc : (s.accessFree && decide (Config.pick s.picks % 2 ≠ 0)) = true
    · refine ⟨completeAccess s, s.picks + 1, .inr ⟨hab, (Bool.and_eq_true_iff.mp hacc).1, rfl⟩, ?_⟩
      rw [if_pos hacc, completeAccess_eq hab.1 hab.2]
      rfl
    · refine ⟨s, s.picks + 1, .inl rfl, ?_⟩
      rw [if_neg hacc]
      rfl
  · have hcond : ¬ (decide (s.job.state = .running) && decide (s.job.kind ≠ .clear)) = true := by simpa using hab
    exact ⟨s, s.picks, .inl rfl, by rw [abandonJob, if_neg hcond, if_neg hab]⟩

/-! ## The setting of a latch while every lane is IDLE (R155) -/

/-- A forcing that finds its lane IDLE changes nothing but the setting, which no longer waits for the lane (R27, R147). -/
theorem reachForcing_of_fresh (h : s.AllFresh ds) (n : SourceId) (k : LaneId) :
    reachForcing n k s = s.withSettings (noteForcing n k false s.settings) := by
  have hfree : (s.lane k).free = true := by simp [Lane.free, h.entry_none k, h.kept_nil k]
  have hforce : (s.lane k).force = s.lane k := by simp [Lane.force, LaneState.forcible, h.state_idle k]
  rw [reachForcing, if_pos hfree, forceLane, State.onLane, hforce, State.setLane_lane_self]
  simp [LaneState.forcible, h.state_idle k]

/-- The lanes for which a setting still waits when lane k has taken its forcing. -/
def withoutLane (left : LaneMask) (k : LaneId) : LaneMask := if left.getLsbD k then left &&& ~~~(1#8 <<< k.val) else left

theorem noteForcing_single (n : SourceId) (k : LaneId) (left : LaneMask) :
    noteForcing n k false [⟨n, left, 0⟩] = [⟨n, withoutLane left k, 0⟩] := by
  simp only [noteForcing, withoutLane, decide_true, Bool.true_and, Bool.false_eq_true, if_false]
  split <;> rfl

/-- When every lane in scope has taken the forcing none is left. -/
theorem withoutLane_all (scope : LaneMask) :
    allLanes.foldl (fun left (k : LaneId) => if scope.getLsbD k then withoutLane left k else left) scope = 0 := by
  revert scope
  decide +kernel

/-- The lanes in scope take the forcing of the one setting, one after another. -/
theorem reachForcing_foldl (n : SourceId) (scope : LaneMask) (ks : List LaneId) :
    ∀ (s : State) (left : LaneMask), s.AllFresh ds → s.settings = [⟨n, left, 0⟩] →
      ks.foldl (fun s (k : LaneId) => if scope.getLsbD k then reachForcing n k s else s) s =
        s.withSettings
          [⟨n, ks.foldl (fun left (k : LaneId) => if scope.getLsbD k then withoutLane left k else left) left, 0⟩] := by
  induction ks with
  | nil =>
    intro s left _ hset
    rw [List.foldl_nil, List.foldl_nil, ← hset]
    rfl
  | cons k ks ih =>
    intro s left h hset
    rw [List.foldl_cons, List.foldl_cons]
    split
    · rw [reachForcing_of_fresh h, hset, noteForcing_single]
      exact ih (s.withSettings [⟨n, withoutLane left k, 0⟩]) (withoutLane left k) (h.congr fun _ => rfl) rfl
    · exact ih s left h hset

/-- A latch that sets while every lane is IDLE moves none of them, and its TRIP notice is stored at once (R147, R155). -/
theorem setLatch_of_fresh (h : s.AllFresh ds) (hset : s.settings = []) (hlate : s.late = []) (n : SourceId) :
    setLatch n s = { s with
      trips := s.trips.set n.val { s.trips[n.val] with latch := true }
      queue := Queue.arrive s.queue (.trip n 0) s.timebase.counter } := by
  have hfold := reachForcing_foldl n s.trips[n.val].scope allLanes
    ((s.onTrip n fun t => { t with latch := true }).withSettings [⟨n, s.trips[n.val].scope, 0⟩]) s.trips[n.val].scope
    (h.congr fun _ => rfl) rfl
  rw [withoutLane_all] at hfold
  simp only [setLatch, hset, List.nil_append]
  rw [hfold, raiseTrips_eq]
  have hlate' : ∀ l : List Setting, ((s.onTrip n fun t => { t with latch := true }).withSettings l).late = [] := fun _ => hlate
  show State.raiseTripNotices ((s.onTrip n fun t => { t with latch := true }).withSettings []) [.trip n 0] = _
  rw [State.raiseTripNotices_of_late_nil (hlate' []), State.raiseApart_single, State.raiseFrom,
    State.arriveFrom_of_nil (State.lateOf_eq_nil_of_late_nil (hlate' []))]
  cases s
  simp only at hset hlate
  subst hset hlate
  rfl

/-! ## The latches that set again, in a free order (R148, R155) -/

/-- The trip sources with the latches of these ones set. -/
def State.latching (s : State) (sources : List SourceId) : Vector TripSource 5 :=
  Vector.ofFn fun n : SourceId => { s.trips[n.val] with latch := s.trips[n.val].latch || decide (n ∈ sources) }

theorem State.latching_nil (s : State) : s.latching [] = s.trips := by
  ext n hn : 1
  simp [State.latching]

/-- The latch of one of the sources, and then those of the others. -/
theorem State.latching_of_set (s t : State) {sources : List SourceId} {n : SourceId} (hn : n ∈ sources)
    (ht : t.trips = s.trips.set n.val { s.trips[n.val] with latch := true }) :
    t.latching (sources.erase n) = s.latching sources := by
  refine Vector.ext fun m hm => ?_
  simp only [State.latching, ht, Vector.getElem_ofFn]
  by_cases e : n.val = m
  · subst e
    simp [hn]
  · have hne : (⟨m, hm⟩ : SourceId) ≠ n := fun h => e (congrArg Fin.val h).symm
    simp only [Vector.getElem_set_ne _ _ e, List.mem_erase_of_ne hne]

/-- A free choice is of one of the things there are, and changes the number of choices made at most. -/
theorem choose_eq {α : Type} (first : α) (rest : List α) (s : State) :
    ∃ y ∈ first :: rest, ∃ q, choose first rest s = (y, { s with picks := q }) := by
  obtain ⟨hmem, hs⟩ := choose_spec first rest s
  refine ⟨_, hmem, (choose first rest s).2.picks, Prod.ext rfl ?_⟩
  rcases hs with e | e
  · rw [e]
  · rw [e]
    rfl

/-- Latches that set together while every lane is IDLE: their TRIP notices are stored in one of the orders of the sources (R148,
R155). -/
theorem setLatches_of_fresh (n : Nat) :
    ∀ (sources : List SourceId) (s : State), sources.length = n → s.AllFresh ds → s.settings = [] → s.late = [] →
      ∃ (order : List SourceId) (p : Nat), order.Perm sources ∧
        setLatches n sources s = { s with
          trips := s.latching sources
          queue := Queue.arriveAll s.queue (order.map fun n => .trip n 0) s.timebase.counter
          picks := p } := by
  induction n with
  | zero =>
    intro sources s hlen _ _ _
    rw [List.length_eq_zero_iff.mp hlen, State.latching_nil]
    exact ⟨[], s.picks, .refl _, rfl⟩
  | succ n ih =>
    intro sources s hlen h hset hlate
    obtain ⟨x, rest, rfl⟩ := List.exists_cons_of_length_eq_add_one hlen
    obtain ⟨y, hy, q, hc⟩ := choose_eq x rest s
    simp only [setLatches, hc]
    have hl := setLatch_of_fresh (s := { s with picks := q }) (h.congr fun _ => rfl) hset hlate y
    rw [hl]
    obtain ⟨order, p, hperm, heq⟩ := ih ((x :: rest).erase y)
      { s with
        trips := s.trips.set y.val { s.trips[y.val] with latch := true }
        queue := Queue.arrive s.queue (.trip y 0) s.timebase.counter
        picks := q }
      (by rw [List.length_erase_of_mem hy, hlen]; rfl) (h.congr fun _ => rfl) hset hlate
    refine ⟨y :: order, p, (hperm.cons y).trans (List.perm_cons_erase hy).symm, heq.trans ?_⟩
    rw [State.latching_of_set s _ hy rfl]
    rfl

/-- The pin sources whose latches a soft reset sets again: enabled, with the level that it accepts active (R155). -/
theorem resetBlocks_activeSources (s : State) :
    (resetBlocks s).activeSources =
      (List.finRange 5).filter fun n : SourceId => n ≠ 4 && s.trips[n.val].enable && s.trips[n.val].presented := by
  have hpins : pinSources = (List.finRange 5).filter fun n : SourceId => n ≠ 4 := rfl
  rw [State.activeSources, hpins, List.filter_filter]
  refine List.filter_congr fun n _ => ?_
  simp only [resetBlocks, Vector.getElem_ofFn, TripSource.softReset]
  rw [Bool.and_comm, ← Bool.and_assoc]

/-! ## The whole reset -/

/-- A pin source sets its latch again at a soft reset: it is enabled, and the level that it takes afresh is active (R155). -/
def State.relatched (s : State) (n : SourceId) : Bool := n ≠ 4 && s.trips[n.val].enable && s.trips[n.val].presented

/-- The trip sources when a soft reset is complete (R155). -/
def State.resetTrips (s : State) : Vector TripSource 5 := Vector.ofFn fun n : SourceId =>
  { s.trips[n.val] with latch := s.relatched n, active := s.trips[n.val].presented, acceptance := none }

theorem resetBlocks_latching (s : State) :
    (resetBlocks s).latching ((List.finRange 5).filter s.relatched) = s.resetTrips := by
  refine Vector.ext fun n hn => ?_
  simp only [State.latching, State.resetTrips, resetBlocks, TripSource.softReset, Vector.getElem_ofFn, Bool.false_or,
    List.mem_filter, List.mem_finRange, true_and, Bool.decide_eq_true]

/-- All blocks but the table job take the reset in one act, and the latches that set again with it (R155, R183). -/
theorem relatch_resetBlocks (s : State) :
    ∃ (order : List SourceId) (p : Nat), order.Perm ((List.finRange 5).filter s.relatched) ∧
      relatch (resetBlocks s) = { resetBlocks s with
        trips := s.resetTrips
        queue := Queue.arriveAll [] (order.map fun n => .trip n 0) s.timebase.counter
        picks := p } := by
  have hactive : (resetBlocks s).activeSources = (List.finRange 5).filter s.relatched := resetBlocks_activeSources s
  obtain ⟨order, p, hperm, heq⟩ :=
    setLatches_of_fresh _ (resetBlocks s).activeSources (resetBlocks s) rfl (resetBlocks_allFresh s) rfl rfl
  rw [hactive] at hperm
  refine ⟨order, p, hperm, heq.trans ?_⟩
  rw [hactive, resetBlocks_latching]
  rfl

theorem takeIdly_withNotices (s : State) (queue : List Notice) (late : List (Sender × NoticeBody)) :
    (takeIdly s).withNotices queue late = { s with
      lanes := Vector.ofFn fun k => { s.lane k with coming := [] }, queue := queue, late := late } := rfl

theorem discarding_discards (s : State) : s.Discards (discarding s) :=
  ⟨interlude 0 s, interlude_goesOn 0 s, takeIdly_withNotices (interlude 0 s) s.queue s.late⟩

/-- The access that a copy or a check serves is the job's (R162, R163). -/
theorem access_eq_serveAccess {t : State} (hs : s.resetLow = false) (hr : s.job.state = .running) (hfree : s.accessFree = true)
    (ht : s.job.kind = .copy ∧ exec .copyMove s = .next t ∨ s.job.kind = .check ∧ exec .checkRead s = .next t) :
    t = serveAccess s := by
  rcases ht with ⟨hk, ht⟩ | ⟨hk, ht⟩
  · have hc : exec .copyMove s = .next (copyMove s) := rfl
    rw [← Host.Outcome.next.inj (hc.symm.trans ht), copyMove, jobRuns_eq hs hk hr, if_pos hfree]
  · have hc : exec .checkRead s = .next (checkRead s) := rfl
    rw [← Host.Outcome.next.inj (hc.symm.trans ht), checkRead, jobRuns_eq hs hk hr, if_pos hfree]

/-- Settles O17: the blocks' act and the latches that set again are `relatch_resetBlocks`, and what else happens is before the
abandoning of the job or is discarded. -/
theorem softResetClearsTheWalks : Obligations.SoftResetClearsTheWalks := by
  unfold Obligations.SoftResetClearsTheWalks
  intro s hs
  refine ⟨fun t ht ⟨hr, hk⟩ hfree => ?_, ?_⟩
  · rw [access_eq_serveAccess hs hr hfree ht]
    exact completeAccess_eq hr hk
  · have hreset : softReset s = discarding (relatch (resetBlocks (abandonJob (interlude 0 s)))) := by
      rw [softReset, if_neg (by simp [hs])]
    have hgoes := interlude_goesOn 0 s
    generalize interlude 0 s = r at hreset hgoes
    obtain ⟨u, q, hu, hjob⟩ := abandonJob_cases r
    rw [hjob] at hreset
    obtain ⟨order, p, hperm, hact⟩ := relatch_resetBlocks { r with
      table := u.table
      job := if r.job.state = .running ∧ r.job.kind ≠ .clear then { u.job with state := .idle } else r.job
      picks := q }
    refine ⟨r, u, softReset s, p, order, hgoes, hu, hperm, fun k => ?_, ?_, rfl⟩
    · rw [hreset, discarding_lane (relatch_allFresh (resetBlocks_allFresh _)) k]
      rfl
    · rw [hreset, hact]
      exact discarding_discards _

end
end Sys2Proof.Machine

/-! Properties that speak of the lanes, the owners of the lines and the staging descriptor: what has to keep one of them so that
every command and the block on its own do. -/

namespace Sys2Proof.Machine

/-! ## What such a property does not see -/

/-- The lanes differ in nothing but the last result, the events that wait for the lane, and what an entry in progress remembers
beside the step that is entered. -/
def Lane.SameWalk (l l' : Lane) : Prop :=
  ∃ f : Entry → Entry, l' =
    { l with lastResult := l'.lastResult, entry := l.entry.map f, kept := l'.kept, coming := l'.coming }

theorem Lane.SameWalk.refl (l : Lane) : l.SameWalk l := ⟨id, by simp⟩

theorem Lane.SameWalk.of_eq {l l' : Lane} (h : l' = l) : l.SameWalk l' := h ▸ .refl l

/-- Other events wait for the lane, or its last result is another. -/
theorem Lane.SameWalk.withEvents (l : Lane) (r : Result) (kept coming : List Event) :
    l.SameWalk { l with lastResult := r, kept := kept, coming := coming } := ⟨id, by simp⟩

theorem Lane.SameWalk.withComing (l : Lane) (es : List Event) : l.SameWalk (l.withComing es) :=
  .withEvents l l.lastResult l.kept es

theorem Lane.SameWalk.mapEntry (l : Lane) (f : Entry → Entry) : l.SameWalk { l with entry := l.entry.map f } := ⟨f, rfl⟩

/-- The judgements by which the lanes named take or refuse a lane command (R29). -/
inductive LaneJudge : (LaneId → State → Judgement) → Prop
  | start : LaneJudge judgeStart
  | stop : LaneJudge judgeStop
  | hold : LaneJudge judgeHold
  | release : LaneJudge judgeRelease
  | reset : LaneJudge judgeReset
  | resume : LaneJudge judgeResume
  | step : LaneJudge judgeStep
  | jump (offset : Nat) : LaneJudge (judgeJump offset)
  | load : LaneJudge judgeLoad
  | swap : LaneJudge judgeSwap
  | cancelSwap : LaneJudge judgeCancelSwap

/-- A lane that has completed what it is in the middle of is not in the middle of an entry (R28). -/
theorem completeLane_settled (k : LaneId) (s : State) : ((completeLane k s).lane k).settled :=
  List.foldlRecOn (motive := fun t : State => (t.lane k).settled) _ _ (serveInTurn_settled k s) fun _ _ _ _ =>
    serveInTurn_settled k _

/-- A property of the lanes, the owners of the lines and the staging descriptor that whatever changes these keeps, but for the
register writes that store the staging descriptor and the power-on reset. -/
structure LaneInvariant (P : State → Prop) : Prop where
  /-- The property does not see the rest of the state, nor what `Lane.SameWalk` leaves open. -/
  congr : ∀ {s t : State}, P s → (∀ k, (s.lane k).SameWalk (t.lane k)) → t.owners = s.owners → t.staging = s.staging → P t
  /-- The completion of an entry keeps it. -/
  serveFetch : ∀ {s : State} (k : LaneId), P s → P (serveFetch k s)
  /-- The taking of an event by a lane that is not in the middle of an entry keeps it. -/
  takeEvent : ∀ {s : State} {k : LaneId} (e : Event), (s.lane k).settled → P s → P (takeEvent k e s)
  /-- The taking of a lane command by a lane that is not in the middle of an entry keeps it. -/
  judge : ∀ {judge : LaneId → State → Judgement} {k : LaneId} {s t : State}, LaneJudge judge → (s.lane k).settled →
    judge k s = .ok t → P s → P t
  /-- A line whose owner is IDLE, or which has none, may change its owner. -/
  withOwner : ∀ {s : State} (n : Fin 32) (o : Option LaneId), s.ownerBusy n = false → P s →
    P { s with owners := s.owners.set n.val o }
  /-- The act of a soft reset keeps it. -/
  resetBlocks : ∀ {s : State}, P s → P (resetBlocks s)

section
variable {P : State → Prop} {s t : State} (h : LaneInvariant P)
include h

/-- A change outside the lanes, the owners and the staging descriptor. -/
theorem LaneInvariant.outside (hs : P s) (hl : t.lanes = s.lanes) (ho : t.owners = s.owners)
    (hg : t.staging = s.staging) : P t :=
  h.congr hs (fun k => .of_eq (by simp [State.lane, hl])) ho hg

theorem LaneInvariant.onLane {k : LaneId} {f : Lane → Lane} (hf : (s.lane k).SameWalk (f (s.lane k))) (hs : P s) :
    P (s.onLane k f) := by
  refine h.congr hs (fun j => ?_) rfl rfl
  rw [State.lane_onLane]
  split
  · rename_i hj
    rw [hj]
    exact hf
  · exact .refl _

theorem LaneInvariant.onLanes {f : LaneId → Lane → Lane} (hf : ∀ k, (s.lane k).SameWalk (f k (s.lane k))) (hs : P s) :
    P (s.onLanes f) := h.congr hs (fun k => by rw [State.lane_onLanes]; exact hf k) rfl rfl

/-! ## What the lanes take, and settling -/

theorem LaneInvariant.handToAll (e : Event) (hs : P s) : P (handToAll e s) :=
  h.onLanes (fun k => by
    split
    · exact .refl _
    · exact .withComing _ _) hs

theorem LaneInvariant.handOut (hs : P s) : P (handOut s) :=
  List.foldlRecOn _ _ (h.outside hs rfl rfl rfl) fun _ hs _ _ => h.handToAll _ hs

theorem LaneInvariant.dropKept (k : LaneId) (hs : P s) : P (s.onLane k Lane.dropKept) :=
  h.onLane (.withEvents _ _ _ _) hs

theorem LaneInvariant.withComing (k : LaneId) (f : Lane → List Event) (hs : P s) :
    P (s.onLane k fun l => l.withComing (f l)) := h.onLane (.withComing _ _) hs

theorem LaneInvariant.reach (k : LaneId) (e : Event) (hs : P s) : P (reach k e s) := by
  unfold Machine.reach
  split
  · rename_i hf
    simp only [Lane.free, Bool.and_eq_true, Option.isNone_iff_eq_none] at hf
    exact h.takeEvent e hf.1 hs
  · exact h.onLane (.withEvents _ _ _ _) hs

theorem LaneInvariant.takeNext (k : LaneId) (e : Event) (hs : P s) : P (takeNext k e s) := by
  simp only [Machine.takeNext]
  split
  · rename_i he _
    split
    · exact h.takeEvent e (by simpa [Lane.settled, Lane.dropKept] using he) (h.dropKept k hs)
    · exact hs
  · split
    · exact h.reach k e (h.withComing k (fun l => l.coming.erase e) hs)
    · exact hs

theorem LaneInvariant.deliver (k : LaneId) (e : Event) (hs : P s) : P (deliver k e s) := h.handOut (h.takeNext k e hs)

theorem LaneInvariant.withheld {act : State → State} (ha : ∀ s, P s → P (act s)) (hs : P s) : P (withheld act s).1 :=
  h.outside (ha _ (h.outside (t := s.withNotices [] []) hs rfl rfl rfl)) rfl rfl rfl

theorem LaneInvariant.takeTickApart (k : LaneId) (hs : P s) : P (takeTickApart k s) := by
  have ht := h.withheld (fun _ hs => h.takeNext k .tick hs) hs
  unfold Machine.takeTickApart
  rw [State.raiseApart_frame]
  exact h.outside ht rfl rfl rfl

theorem LaneInvariant.serveFetchApart (k : LaneId) (hs : P s) : P (serveFetchApart k s) :=
  h.outside (h.withheld (fun _ hs => h.serveFetch k hs) hs) rfl rfl rfl

theorem LaneInvariant.doWork (w : Work) (hs : P s) : P (doWork s w) := by
  unfold Machine.doWork
  split
  · exact h.serveFetch _ hs
  · exact h.takeTickApart _ hs
  · exact h.takeNext _ _ hs
  · rw [State.arriveNext_frame]
    exact h.outside hs rfl rfl rfl

theorem LaneInvariant.drain (hs : P s) : P (drain s) :=
  settle_induct (P := P) false (fun _ hs => h.outside hs rfl rfl rfl) (fun _ _ w _ hs => h.handOut (h.doWork w hs)) _ _ s hs

theorem LaneInvariant.completeLane (k : LaneId) (hs : P s) : P (completeLane k s) :=
  completeLane_induct (P := P) (fun _ j hs => h.serveFetch j hs)
    (fun _ e he hs => h.takeEvent e (by simpa [Lane.settled, Lane.dropKept] using he) (h.dropKept k hs)) hs

theorem LaneInvariant.completeLanes (mask : LaneMask) (hs : P s) : P (completeLanes mask s) :=
  List.foldlRecOn allLanes _ hs fun _ hs k _ => by
    split
    · exact h.completeLane k hs
    · exact hs

/-! ## The core clock, the pins and the trip latches -/

theorem LaneInvariant.reachForcing (n : SourceId) (k : LaneId) (hs : P s) : P (reachForcing n k s) := by
  unfold Machine.reachForcing
  split
  · rename_i hf
    simp only [Lane.free, Bool.and_eq_true, Option.isNone_iff_eq_none] at hf
    have ht := SameBlocks.staging (sansWalk_takeEvent s k (.forcing n))
    have ho := SameBlocks.owners (sansWalk_takeEvent s k (.forcing n))
    exact h.congr (h.takeEvent (.forcing n) hf.1 hs) (fun j => .of_eq (lane_raiseTrips _ _ j).symm) ho.symm ht.symm
  · exact h.onLane (.withEvents _ _ _ _) hs

theorem LaneInvariant.raiseTrips (l : List Setting) (hs : P s) : P (raiseTrips l s) :=
  h.outside hs (State.lanes_ext _ fun k => lane_raiseTrips _ _ k) (SameBlocks.owners (sansWalk_raiseTrips _ _))
    (SameBlocks.staging (sansWalk_raiseTrips _ _))

theorem LaneInvariant.setLatch (n : SourceId) (hs : P s) : P (setLatch n s) := by
  simp only [Machine.setLatch]
  refine h.raiseTrips _ (List.foldlRecOn allLanes _ (h.outside hs rfl rfl rfl) fun _ hs k _ => ?_)
  split
  · exact h.reachForcing n k hs
  · exact hs

/-- An event of the core clock keeps the property when its act does. -/
theorem LaneInvariant.clockEvent (lacking : Option Nat) {act : State → State} (ha : ∀ s, P s → P (act s)) (hs : P s) :
    P (clockEvent lacking act s) := by
  rcases clockEvent_spec lacking act s with ⟨he, -⟩ | ⟨d, -, -, -, he⟩
  · rwa [he]
  · rw [he]
    refine ha _ ?_
    unfold goOnTo
    split
    · exact hs
    · exact h.outside (h.drain hs) rfl rfl rfl

theorem LaneInvariant.tick (takers : LaneMask) (hs : P s) : P (tick takers s) :=
  h.clockEvent _ (fun s hs => by
    refine h.handOut (List.foldlRecOn allLanes _ (h.outside hs rfl rfl rfl) fun _ hs k _ => ?_)
    unfold handTick
    split
    · exact h.reach k .tick hs
    · exact h.withComing k (fun l => l.coming ++ [.tick]) hs) hs

theorem LaneInvariant.inputAcceptedChange (n : InputId) (hs : P s) : P (inputAcceptedChange n s) :=
  h.clockEvent _ (fun _ hs => List.foldlRecOn _ _ (h.outside hs rfl rfl rfl) fun _ hs _ _ => h.handToAll _ hs) hs

theorem LaneInvariant.quadratureChange (u : UnitId) (c : Channel) (hs : P s) : P (quadratureChange u c s) :=
  h.clockEvent _ (fun s hs => by
    simp only [acceptQuadrature]
    split
    · split <;> exact h.outside hs rfl rfl rfl
    · exact h.handToAll _ (h.outside hs rfl rfl rfl)) hs

theorem LaneInvariant.tripAcceptedChange (n : Fin 4) (hs : P s) : P (tripAcceptedChange n s) :=
  h.clockEvent _ (fun s hs => by
    simp only [acceptTrip]
    split
    · exact h.setLatch _ (h.outside hs rfl rfl rfl)
    · exact h.outside hs rfl rfl rfl) hs

theorem LaneInvariant.acceptedChange (pin : FilteredPin) (hs : P s) : P (acceptedChange pin s) := by
  cases pin with
  | input n => exact h.inputAcceptedChange n hs
  | quadrature u c => exact h.quadratureChange u c hs
  | trip n => exact h.tripAcceptedChange n hs

theorem LaneInvariant.takeLevel (pin : FilteredPin) (level : Bool) (hs : P s) : P (takeLevel pin level s) := by
  have hmove : ∀ {u : State}, P u → P (movePin pin level u) := fun hu => by cases pin <;> exact h.outside hu rfl rfl rfl
  unfold Machine.takeLevel
  split
  · exact hs
  · refine hmove ?_
    split
    · exact h.acceptedChange pin hs
    · exact hs

theorem LaneInvariant.presentedLevelChange (pin : FilteredPin) (level : Bool) (hs : P s) :
    P (presentedLevelChange pin level s) := by
  unfold Machine.presentedLevelChange
  split
  · exact h.takeLevel pin level hs
  · split
    · exact h.outside hs rfl rfl rfl
    · exact h.takeLevel pin level hs

/-! ## Host writes of several parts -/

theorem LaneInvariant.serveAccess (hs : P s) : P (serveAccess s) :=
  h.congr hs (fun k => by rw [serveAccess_lane]; exact .mapEntry _ _) (by rw [serveAccess_frame]) (by rw [serveAccess_frame])

theorem LaneInvariant.aside {act : State → State} (ha : ∀ s, P s → P (act s)) (hs : P s) : P (aside act s) :=
  h.outside (ha _ (h.outside (t := s.withOutbox []) hs rfl rfl rfl)) rfl rfl rfl

theorem LaneInvariant.happen (x : Happening) (hs : P s) : P (happen s x) := by
  cases x with
  | work w => exact h.aside (fun _ hs => h.handOut (h.doWork w hs)) hs
  | access => exact h.serveAccess hs
  | acceptance pin => exact h.aside (fun _ hs => h.acceptedChange pin hs) hs
  | tick => exact h.aside (fun _ hs => h.tick 0 hs) hs
  | move pin level => exact h.aside (fun _ hs => h.takeLevel pin level hs) (h.outside hs rfl rfl rfl)
  | period => exact h.outside hs rfl rfl rfl

theorem LaneInvariant.interlude (but : LaneMask) (hs : P s) : P (interlude but s) :=
  (interlude_goesOn but s).induct (fun _ _ hs => h.outside hs rfl rfl rfl) (fun _ x _ hs => h.happen x hs) hs

theorem LaneInvariant.followUp (hs : P s) : P (followUp s) :=
  followUp_induct (P := P) (fun _ _ hs => h.outside hs rfl rfl rfl) (fun _ hs => h.handOut hs) (fun _ x _ hs => h.happen x hs)
    (fun _ w hs => h.doWork w hs) hs

theorem LaneInvariant.judgeLane {judge : LaneId → State → Judgement} (hj : LaneJudge judge) (k : LaneId) (hs : P s) :
    P (judgeLane judge k s) := by
  have hv := h.completeLane k hs
  simp only [Machine.judgeLane]
  have he := completeLane_settled k s
  generalize Machine.completeLane k s = v at hv he
  split
  · rename_i t ht
    exact h.onLane (.withEvents _ _ _ _) (h.judge hj he ht hv)
  · exact h.outside (h.onLane (f := fun l => { l with lastResult := _ }) (.withEvents _ _ _ _) hv) rfl rfl rfl

omit h in
theorem hostAccess_keeps {act : State → State} (ha : P s → P (act s)) (hs : P s) : P (hostAccess act s) := by
  unfold Machine.hostAccess
  split
  · exact hs
  · exact ha hs

theorem LaneInvariant.laneCommand {judge : LaneId → State → Judgement} (hj : LaneJudge judge) (mask : LaneMask) (hs : P s) :
    P (laneCommand judge mask s) :=
  hostAccess_keeps (fun hs => h.followUp (commandLanes_induct (P := P) (fun _ _ hs => h.outside hs rfl rfl rfl)
    (fun _ but hs => h.interlude but hs) (fun _ k hs => h.judgeLane hj k hs) (fun _ k hs => h.serveFetchApart k hs)
    (fun _ _ hs => h.outside hs rfl rfl rfl) mask (h.outside hs rfl rfl rfl))) hs

/-! ## The other host commands -/

/-- A host access that leaves the lanes, the owners and the staging descriptor as they are. -/
theorem LaneInvariant.plainAccess {act : State → State} (hl : (act s).lanes = s.lanes) (ho : (act s).owners = s.owners)
    (hg : (act s).staging = s.staging) (hs : P s) : P (Machine.hostAccess act s) :=
  hostAccess_keeps (fun hs => h.outside hs hl ho hg) hs

/-- A record transfer changes the buffer or the table, and CMD_RESULT (R10, R11). -/
theorem LaneInvariant.recordRequest (index : Word) {transfer : State → State} (ht : P s → P (transfer s)) (hs : P s) :
    P (recordRequest index transfer s) :=
  hostAccess_keeps (fun hs => by
    split
    · exact h.outside hs rfl rfl rfl
    · split
      · exact h.outside hs rfl rfl rfl
      · exact h.outside (ht hs) rfl rfl rfl) hs

theorem LaneInvariant.recordRead (v : Word) (hs : P s) : P (recordRead v s) :=
  h.recordRequest v (fun hs => h.outside hs rfl rfl rfl) hs

theorem LaneInvariant.recordWrite (v : Word) (hs : P s) : P (recordWrite v s) :=
  h.recordRequest v (fun hs => h.outside hs rfl rfl rfl) hs

theorem LaneInvariant.lineAssign (v : Word) (hs : P s) : P (lineAssign v s) :=
  hostAccess_keeps (fun hs => by
    split
    · exact h.outside hs rfl rfl rfl
    · rename_i hb
      split
      · exact h.outside hs rfl rfl rfl
      · exact h.outside (h.withOwner (lineOf v) (some (laneAt v 8)) (by simpa using hb) hs) rfl rfl rfl) hs

theorem LaneInvariant.lineFree (v : Word) (hs : P s) : P (lineFree v s) :=
  hostAccess_keeps (fun hs => by
    split
    · exact h.outside hs rfl rfl rfl
    · rename_i hb
      exact h.outside (h.withOwner (lineOf v) none (by simpa using hb) hs) rfl rfl rfl) hs

theorem LaneInvariant.tbDivPreWrite (setting : TimebaseSetting) (v : Word) (hs : P s) : P (tbDivPreWrite setting v s) :=
  hostAccess_keeps (fun hs => by cases setting <;> exact h.outside hs rfl rfl rfl) hs

theorem LaneInvariant.triggerEmit (v : Word) (hs : P s) : P (triggerEmit v s) :=
  hostAccess_keeps (fun hs => h.followUp (h.outside hs rfl rfl rfl)) hs

theorem LaneInvariant.noticePop (v : Word) (hs : P s) : P (noticePop v s) :=
  hostAccess_keeps (fun hs => by
    have hu := h.interlude 0 hs
    generalize Machine.interlude 0 s = u at hu
    unfold popOldest
    split <;> exact h.outside hu rfl rfl rfl) hs

theorem LaneInvariant.controlWrite (drive run irq : Bool) (hs : P s) : P (controlWrite drive run irq s) := by
  unfold Machine.controlWrite State.setDrive
  split
  · exact h.outside (h.onLanes (f := fun _ => Lane.bridge none) (fun _ => .mapEntry _ _) hs) rfl rfl rfl
  · exact h.outside hs rfl rfl rfl

/-- A job command changes the job context alone (R159, R160). -/
theorem LaneInvariant.jobRequest (valid : State → Bool) (job : State → Job) (hs : P s) : P (jobRequest valid job s) :=
  hostAccess_keeps (fun hs => by
    split
    · exact h.outside hs rfl rfl rfl
    · split <;> exact h.outside hs rfl rfl rfl) hs

theorem LaneInvariant.raiseJob (o : JobOutcome) (hs : P s) : P (raiseJob o s) := by
  unfold Machine.raiseJob
  split
  · exact hs
  · exact h.outside hs rfl rfl rfl

theorem LaneInvariant.jobAbort (v : Word) (hs : P s) : P (jobAbort v s) :=
  hostAccess_keeps (fun hs => by
    split
    · split
      · exact h.outside hs rfl rfl rfl
      · exact h.raiseJob _ (h.outside hs rfl rfl rfl)
    · exact h.outside hs rfl rfl rfl) hs

/-! ## The Trip Unit and the resets -/

theorem LaneInvariant.setLatchNow (n : SourceId) (hs : P s) : P (setLatchNow n s) :=
  h.followUp (h.outside (h.completeLanes _ (h.interlude 0 (h.setLatch n hs))) rfl rfl rfl)

theorem LaneInvariant.configureTrip (n : SourceId) (hs : P s) : P (configureTrip n s) := by
  simp only [Machine.configureTrip]
  split
  · exact h.outside hs rfl rfl rfl
  · split
    · exact h.setLatchNow n (h.outside hs rfl rfl rfl)
    · exact h.outside hs rfl rfl rfl

theorem LaneInvariant.tripConfig (v : Word) (hs : P s) : P (tripConfig v s) :=
  hostAccess_keeps (fun hs => by
    dsimp only
    split
    · split
      · exact h.outside hs rfl rfl rfl
      · exact h.configureTrip _ (h.outside hs rfl rfl rfl)
    · exact h.outside hs rfl rfl rfl) hs

theorem LaneInvariant.tripAssert (v : Word) (hs : P s) : P (tripAssert v s) :=
  hostAccess_keeps (fun hs => by
    dsimp only
    split
    · exact h.outside hs rfl rfl rfl
    · split
      · exact h.outside hs rfl rfl rfl
      · exact h.setLatchNow _ (h.outside hs rfl rfl rfl)) hs

theorem LaneInvariant.choose {α : Type} (x : α) (rest : List α) (hs : P s) : P (choose x rest s).2 := by
  rcases (choose_spec x rest s).2 with he | he <;> rw [he]
  · exact hs
  · exact h.outside hs rfl rfl rfl

theorem LaneInvariant.setLatches (n : Nat) : ∀ (sources : List SourceId) {s : State}, P s → P (setLatches n sources s) := by
  induction n with
  | zero => exact fun _ _ hs => hs
  | succ n ih =>
    intro sources s hs
    cases sources with
    | nil => exact hs
    | cons x rest =>
      simp only [Machine.setLatches]
      exact ih _ (h.setLatch _ (h.choose x rest hs))

theorem LaneInvariant.abandonJob (hs : P s) : P (abandonJob s) := by
  have hc := completeAccess_lanes s
  have hg : (Machine.completeAccess s).staging = s.staging := by
    simp only [completeAccess]
    split <;> rfl
  simp only [Machine.abandonJob]
  split
  · split
    · exact h.outside hs hc.1 hc.2 hg
    · exact h.outside hs rfl rfl rfl
  · exact hs

theorem LaneInvariant.discarding (hs : P s) : P (discarding s) := by
  have hu := h.interlude 0 hs
  unfold Machine.discarding
  generalize Machine.interlude 0 s = u at hu
  exact h.outside (h.onLanes (f := fun _ l => l.withComing []) (fun _ => .withComing _ _) hu) rfl rfl rfl

theorem LaneInvariant.softReset (hs : P s) : P (softReset s) := by
  unfold Machine.softReset
  split
  · exact hs
  · exact h.discarding (h.setLatches _ _ (h.resetBlocks (h.abandonJob (h.interlude 0 hs))))

/-! ## Every step -/

theorem LaneInvariant.entryFetch (k : LaneId) (hs : P s) : P (entryFetch k s) := by
  unfold Machine.entryFetch
  split
  · exact hs
  · exact h.handOut (h.serveFetch k hs)

/-- The row of a lane's taking of an event, which does nothing while RESET# is low. -/
theorem LaneInvariant.taking (k : LaneId) (e : Event) (hs : P s) : P (if s.resetLow then s else Machine.deliver k e s) := by
  split
  · exact hs
  · exact h.deliver k e hs

theorem LaneInvariant.takeTickWhen (named : Lane → Bool) (k : LaneId) (hs : P s) : P (takeTickWhen named k s) := by
  simp only [Machine.takeTickWhen]
  split
  · exact h.deliver k .tick hs
  · exact hs

/-- The row of an access of a table job. -/
theorem LaneInvariant.access (kind : JobKind) (hs : P s) : P (if s.jobRuns kind then Machine.serveAccess s else s) := by
  split
  · exact h.serveAccess hs
  · exact hs

theorem LaneInvariant.controlRegisterWrite (v : Word) (hs : P s) : P (controlRegisterWrite v s) := by
  unfold Machine.controlRegisterWrite
  split
  · exact h.softReset hs
  · exact hostAccess_keeps (h.controlWrite _ _ _) hs

/-- A write through the window keeps the property, or stores a plain register (R178). -/
theorem LaneInvariant.busWrite (n : Nat) (v : Word) (hs : P s) : P (busWrite n v s) ∨ busWrite n v s = plainWrite n v s := by
  unfold Machine.busWrite
  split
  case h_35 =>
    split
    · exact .inl (h.plainAccess rfl rfl rfl hs)
    · unfold Machine.hostAccess
      split
      · exact .inl hs
      · exact .inr rfl
  all_goals left
  · exact h.controlRegisterWrite v hs
  · exact h.tbDivPreWrite .div v hs
  · exact h.tbDivPreWrite .pre v hs
  · exact h.plainAccess rfl rfl rfl hs
  · exact h.recordRead v hs
  · exact h.recordWrite v hs
  · exact h.laneCommand .start _ hs
  · exact h.laneCommand .stop _ hs
  · exact h.laneCommand .hold _ hs
  · exact h.laneCommand .release _ hs
  · exact h.laneCommand .reset _ hs
  · exact h.laneCommand .resume _ hs
  · exact h.laneCommand .step _ hs
  · exact h.laneCommand (.jump _) _ hs
  · exact h.laneCommand .load _ hs
  · exact h.laneCommand .swap _ hs
  · exact h.laneCommand .cancelSwap _ hs
  · exact h.plainAccess rfl rfl rfl hs
  · exact h.plainAccess rfl rfl rfl hs
  · exact h.lineAssign v hs
  · exact h.lineFree v hs
  · exact h.plainAccess rfl rfl rfl hs
  · exact h.plainAccess rfl rfl rfl hs
  · exact h.plainAccess rfl rfl rfl hs
  · exact h.plainAccess rfl rfl rfl hs
  · exact h.plainAccess rfl rfl rfl hs
  · exact h.triggerEmit v hs
  · exact h.tripConfig v hs
  · exact h.tripAssert v hs
  · exact h.plainAccess rfl rfl rfl hs
  · exact h.jobRequest _ _ hs
  · exact h.jobRequest _ _ hs
  · exact h.jobAbort v hs
  · exact h.noticePop v hs

/-- What else a command can come to: a plain register stored, or a power-on reset. -/
def State.Restarts (s t : State) : Prop := (∃ n v, t = plainWrite n v s) ∨ s.resetLow = true ∧ t = powerOn s

omit h in
theorem resetRelease_keeps (hs : P s) : P (resetRelease s) ∨ s.Restarts (resetRelease s) := by
  unfold Machine.resetRelease
  split
  · rename_i hr
    exact .inr (.inr ⟨hr, rfl⟩)
  · exact .inl hs

/-- Every command keeps the property, stores a plain register, or is the power-on reset. -/
theorem LaneInvariant.exec (c : Instr) (ht : exec c s = .next t) (hs : P s) : P t ∨ s.Restarts t := by
  cases c <;> cases ht
  case plainRegisterWrite a v => exact (h.busWrite a.toNat v hs).imp_right fun he => .inl ⟨_, _, he⟩
  case resetRelease => exact resetRelease_keeps hs
  all_goals left
  case recordRead v => exact h.recordRead v hs
  case recordWrite v => exact h.recordWrite v hs
  case laneStart v => exact h.laneCommand .start _ hs
  case laneStop v => exact h.laneCommand .stop _ hs
  case laneHold v => exact h.laneCommand .hold _ hs
  case laneRelease v => exact h.laneCommand .release _ hs
  case laneReset v => exact h.laneCommand .reset _ hs
  case laneResume v => exact h.laneCommand .resume _ hs
  case laneStep v => exact h.laneCommand .step _ hs
  case laneJump v => exact h.laneCommand (.jump _) _ hs
  case laneLoad v => exact h.laneCommand .load _ hs
  case laneSwap v => exact h.laneCommand .swap _ hs
  case laneCancelSwap v => exact h.laneCommand .cancelSwap _ hs
  case lineAssign v => exact h.lineAssign v hs
  case lineFree v => exact h.lineFree v hs
  case posLoad v => exact h.plainAccess rfl rfl rfl hs
  case posClear v => exact h.plainAccess rfl rfl rfl hs
  case triggerEmit v => exact h.triggerEmit v hs
  case tripConfig v => exact h.tripConfig v hs
  case tripAssert v => exact h.tripAssert v hs
  case tripClear v => exact h.plainAccess rfl rfl rfl hs
  case jobCopy v => exact h.jobRequest _ _ hs
  case jobCheck v => exact h.jobRequest _ _ hs
  case jobAbort v => exact h.jobAbort v hs
  case noticePop v => exact h.noticePop v hs
  case driveEn on => exact hostAccess_keeps (h.controlWrite _ _ _) hs
  case tbRun on => exact hostAccess_keeps (h.controlWrite _ _ _) hs
  case noticeIrqEn on => exact hostAccess_keeps (h.controlWrite _ _ _) hs
  case softReset => exact h.softReset hs
  case safeLevelWrite half v => exact h.plainAccess rfl rfl rfl hs
  case inputSettingWrite setting v => exact h.plainAccess rfl rfl rfl hs
  case posFiltWrite u v => exact h.plainAccess rfl rfl rfl hs
  case tbDivPreWrite setting v => exact h.tbDivPreWrite setting v hs
  case tbCountWrite v => exact h.plainAccess rfl rfl rfl hs
  case resetAssert => exact h.outside hs rfl rfl rfl
  case clearWrite => exact h.access .clear hs
  case copyMove => exact h.access .copy hs
  case checkRead => exact h.access .check hs
  case entryFetch k => exact h.entryFetch k hs
  case tick takers => exact h.tick takers hs
  case dwellExpiry k => exact h.takeTickWhen _ k hs
  case limitExpiry k => exact h.takeTickWhen _ k hs
  case pulseEnd k => exact h.takeTickWhen _ k hs
  case inputAcceptedChange n => exact h.inputAcceptedChange n hs
  case edgeEvent k n e => exact h.taking k _ hs
  case quadratureChange u c => exact h.quadratureChange u c hs
  case arrival k u v d => exact h.taking k _ hs
  case emission k line => exact h.taking k _ hs
  case tripAcceptedChange n => exact h.tripAcceptedChange n hs
  case tripForcing k n => exact h.taking k _ hs
  case presentedLevelChange pin level => exact h.presentedLevelChange pin level hs

theorem LaneInvariant.doDue (d : Due) (hs : P s) : P (doDue s d) := by
  cases d with
  | fetch k => exact h.entryFetch k hs
  | access kind =>
    cases kind
    · exact h.access .clear hs
    · exact h.access .copy hs
    · exact h.access .check hs
  | input n => exact h.inputAcceptedChange n hs
  | quadrature u c => exact h.quadratureChange u c hs
  | trip n => exact h.tripAcceptedChange n hs
  | tick => exact h.tick 0 hs
  | period => exact h.outside hs rfl rfl rfl

theorem LaneInvariant.idle (hs : P s) : P (idle s) := by
  unfold Machine.idle
  split
  · exact hs
  · split
    · exact h.drain hs
    · split
      · exact hs
      · exact h.doDue _ (h.choose _ _ hs)

/-- Every step keeps the property, stores a plain register, or is the power-on reset. -/
theorem LaneInvariant.step (ht : step s = .next t) (hs : P s) :
    P t ∨ ∃ rest, ({ s with pending := rest } : State).Restarts t := by
  unfold Machine.step at ht
  split at ht
  · cases ht
    exact .inl (h.idle hs)
  · rename_i c rest _
    exact (h.exec c ht (h.outside hs rfl rfl rfl)).imp_right fun hr => ⟨rest, hr⟩

end

/-! ## The lanes are within their ranges (R19, R22, R76, R77, R89, R112) -/

theorem LaneJudge.good {judge : LaneId → State → Judgement} (hj : LaneJudge judge) : JudgeGood judge := by
  cases hj with
  | start => exact judgeStart_good
  | stop => exact judgeStop_good
  | hold => exact judgeHold_good
  | release => exact judgeRelease_good
  | reset => exact judgeReset_good
  | resume => exact judgeResume_good
  | step => exact judgeStep_good
  | jump offset => exact judgeJump_good offset
  | load => exact judgeLoad_good
  | swap => exact judgeSwap_good
  | cancelSwap => exact judgeCancelSwap_good

theorem LaneGood.sameWalk {ow : Vector (Option LaneId) 32} {k : LaneId} {l l' : Lane} (h : LaneGood ow k l)
    (hw : l.SameWalk l') : LaneGood ow k l' := by
  obtain ⟨f, he⟩ := hw
  exact LaneGood.sameContext (h.mapEntry f) he

theorem lanesOk_invariant : LaneInvariant State.LanesOk where
  congr hs hl ho _ := .of_good fun k => ho ▸ (hs.good k).sameWalk (hl k)
  serveFetch k hs := hs.serveFetch k
  takeEvent e he hs := hs.takeEvent he e
  judge hj _ ht hs := hs.onlyLane (hj.good.only ht) (hj.good.keeps (hs.good _) ht)
  withOwner n o hb hs := hs.withOwner n o hb
  resetBlocks hs := hs.resetBlocks

theorem Descriptor.ok_powerOn : Descriptor.powerOn.Ok := ⟨by decide, by decide, by decide⟩

/-- The lanes after a power-on reset (R42). -/
theorem powerOn_lanesOk (s : State) : (powerOn s).LanesOk :=
  .of_good fun k => by
    have hl : (powerOn s).lane k = .fresh .powerOn := by simp [State.lane, powerOn, State.reset]
    rw [hl]
    exact LaneGood.fresh Descriptor.ok_powerOn

/-- Settles O57: `State.LanesOk` is kept by whatever changes a lane or an owner; a plain register changes neither, and the
power-on reset puts every lane in its ranges. -/
theorem stepKeepsLanesInRange : Obligations.StepKeepsLanesInRange := by
  intro s t hs ht
  rcases lanesOk_invariant.step ht hs with h | ⟨rest, ⟨n, v, rfl⟩ | ⟨-, rfl⟩⟩
  · exact h
  · rw [plainWrite_frame]
    exact hs.congr rfl rfl
  · exact powerOn_lanesOk _

end Sys2Proof.Machine

/-! What every act of a lane makes of the events that wait for the lane, and that a descriptor in force changes only whole: to the
pending swap, or to the staging image (R19, R28, R95). -/

namespace Sys2Proof.Machine

/-! ## What an act can do to the descriptor, the swap and the events that wait -/

/-- The lane is not in the middle of an entry, and is neither RUNNING nor ARMED, so that no event leads it to an entry. -/
def Lane.Rests (l : Lane) : Prop := l.entry = none ∧ l.state ≠ .armed ∧ l.state ≠ .running

/-- What an act of lane l that is not in the middle of an entry can do: the descriptor and the swap stay, or the swap is put in
force (R95); the events kept stay; those on their way stay, or the lane comes to rest and forgets those that no lane remembers
(R26). -/
structure Act.Follows (a : Act) (l : Lane) : Prop where
  whole : a.lane.descriptor = l.descriptor ∧ a.lane.swap = l.swap ∨ l.swap = some a.lane.descriptor ∧ a.lane.swap = none
  kept : a.lane.kept = l.kept
  coming : a.lane.coming = l.coming ∨ a.lane.coming = (l.coming.filter fun e => !e.passing) ∧ a.lane.Rests

section
variable {k : LaneId} {l : Lane}

/-- What an act can do does not depend on the rest of the lane. -/
theorem Act.Follows.congr {a : Act} {l' : Lane} (h : a.Follows l') (hd : l'.descriptor = l.descriptor) (hs : l'.swap = l.swap)
    (hk : l'.kept = l.kept) (hc : l'.coming = l.coming) : a.Follows l :=
  ⟨hd ▸ hs ▸ h.whole, hk ▸ h.kept, hc ▸ h.coming⟩

/-- Nor on the notices and the emission, nor on what an entry that the act requests remembers. -/
theorem Act.Follows.mapEntry {a b : Act} (h : a.Follows l) (f : Entry → Entry)
    (hb : b.lane = { a.lane with entry := a.lane.entry.map f }) : b.Follows l := by
  refine ⟨hb ▸ h.whole, hb ▸ h.kept, hb ▸ h.coming.imp_right fun ⟨hc, he, hst⟩ => ⟨hc, ?_, hst⟩⟩
  simp only [he, Option.map_none]

theorem Act.Follows.following {a : Act} (h : a.Follows l) (e : Event) (turn : Nat) : (a.following e turn).Follows l :=
  h.mapEntry _ rfl

/-- Only the lane of the act matters. -/
theorem Act.Follows.congr_lane {a b : Act} (h : a.Follows l) (hb : b.lane = a.lane) : b.Follows l :=
  ⟨hb ▸ h.whole, hb ▸ h.kept, hb ▸ h.coming⟩

theorem Act.Follows.after {a : Act} (h : a.Follows l) (b : NoticeBody) : (a.after b).Follows l := h.congr_lane rfl

theorem Act.silent_follows (l : Lane) : (Act.silent l).Follows l := ⟨.inl ⟨rfl, rfl⟩, rfl, .inl rfl⟩

theorem Lane.faults_follows (h : l.entry = none) (c : FaultCause) : (l.faults k c).Follows l :=
  ⟨.inl ⟨rfl, rfl⟩, rfl, .inr ⟨rfl, h, nofun, nofun⟩⟩

theorem Lane.requests_follows (full : Bool) (o : Nat) (c : EntryCause) : (l.requests full o c).Follows l :=
  ⟨.inl ⟨rfl, rfl⟩, rfl, .inl rfl⟩

theorem Lane.applies_follows {d : Descriptor} (h : l.swap = some d) (o : SwapOccasion) : (l.applies k d o).Follows l :=
  ⟨.inr ⟨h, rfl⟩, rfl, .inl rfl⟩

theorem Lane.enters_follows (full : Bool) (o : Nat) (c : EntryCause) : (l.enters k full o c).Follows l := by
  unfold Lane.enters
  split
  · exact Lane.requests_follows _ _ _
  · rename_i d hd
    split
    · exact Lane.applies_follows hd _
    · exact Lane.requests_follows _ _ _

theorem Lane.starts_follows : (l.starts k).Follows l := by
  unfold Lane.starts
  split
  · exact Lane.requests_follows _ _ _
  · rename_i d hd
    exact Lane.applies_follows hd _

theorem Lane.ends_follows (h : l.entry = none) (b : Bool) : (l.ends k b).Follows l := by
  simp only [Lane.ends]
  split
  · rename_i d hd
    exact Lane.applies_follows hd _
  · split
    · exact Lane.faults_follows h _
    · split
      · exact ⟨.inl ⟨rfl, rfl⟩, rfl, .inr ⟨rfl, h, nofun, nofun⟩⟩
      · exact ⟨.inl ⟨rfl, rfl⟩, rfl, .inl rfl⟩

theorem Lane.goesOn_follows (h : l.entry = none) (b : Bool) : (l.goesOn k b).Follows l := by
  unfold Lane.goesOn
  split
  · exact Lane.enters_follows _ _ _
  · exact Lane.ends_follows h b

theorem Lane.leaves_follows (h : l.entry = none) (b : Bool) : (l.leaves k b).Follows l := by
  simp only [Lane.leaves]
  split
  · exact Act.silent_follows l
  · split
    · exact Lane.goesOn_follows h b
    · exact Lane.goesOn_follows h b
    · exact Lane.faults_follows h _
    · rename_i top below _ _ _
      split
      · exact (Lane.goesOn_follows (l := { l with stack := below }) h b).congr rfl rfl rfl rfl
      · exact (Lane.enters_follows (l := { l with stack := ⟨top.head, top.passes - 1⟩ :: below }) _ _ _).congr rfl rfl rfl rfl

theorem Lane.actsOnFault_follows (h : l.entry = none) : (l.actsOnFault k).Follows l := by
  unfold Lane.actsOnFault
  split
  · exact Act.silent_follows l
  · split
    · exact (Lane.leaves_follows h true).after _
    · refine Act.Follows.after ?_ _
      exact Act.Follows.congr (l' := { l with stack := [] }) (Lane.enters_follows _ _ _) rfl rfl rfl rfl
    · exact Lane.faults_follows h _

theorem Lane.judges_follows (h : l.entry = none) (accepted : BitVec 16) : (l.judges k accepted).Follows l := by
  unfold Lane.judges
  split
  · exact Lane.leaves_follows h _
  · exact Act.silent_follows l

theorem Lane.ticks_follows (h : l.entry = none) (accepted : BitVec 16) : (l.ticks k accepted).Follows l := by
  unfold Lane.ticks
  split
  · refine Act.Follows.mapEntry ?_ _ rfl
    split
    · exact (Lane.leaves_follows (l := l.counted) h _).congr rfl rfl rfl rfl
    · split
      · exact (Lane.actsOnFault_follows (l := l.counted) h).congr rfl rfl rfl rfl
      · exact (Act.silent_follows l.counted).congr rfl rfl rfl rfl
  · exact ⟨.inl ⟨rfl, rfl⟩, rfl, .inl rfl⟩
  · exact Act.silent_follows l

theorem Lane.takesEdge_follows (h : l.entry = none) (n : InputId) (e : Sense) (accepted : BitVec 16) (turn : Nat) :
    (l.takesEdge k n e accepted turn).Follows l := by
  unfold Lane.takesEdge
  split
  · split
    · exact (Lane.starts_follows (l := l)).following _ _
    · exact Act.silent_follows l
  · split
    · exact Lane.judges_follows h _
    · split
      · exact Act.Follows.congr (Lane.judges_follows (by exact h) _) rfl rfl rfl rfl
      · exact Act.silent_follows l

theorem Lane.takesArrival_follows (h : l.entry = none) (u : UnitId) (v : Word) (d : Direction) (accepted : BitVec 16) :
    (l.takesArrival k u v d accepted).Follows l := by
  unfold Lane.takesArrival
  split
  · exact (Lane.judges_follows (l := { l with latch := true }) h _).congr rfl rfl rfl rfl
  · exact Act.silent_follows l

theorem Lane.takesEmission_follows (h : l.entry = none) (line : LaneId) (accepted : BitVec 16) (turn : Nat) :
    (l.takesEmission k line accepted turn).Follows l := by
  unfold Lane.takesEmission
  split
  · split
    · exact (Lane.starts_follows (l := l)).following _ _
    · exact Act.silent_follows l
  · split
    · refine Act.Follows.following ?_ _ _
      exact Act.Follows.congr (l' := { l with latch := true }) (Lane.judges_follows (by exact h) _) rfl rfl rfl rfl
    · exact Act.silent_follows l

theorem Lane.completes_follows (e : Entry) (r : Record) (owners : Vector (Option LaneId) 32) :
    (l.completes k e r owners).Follows l := by
  unfold Lane.completes
  split
  · exact ⟨.inl ⟨rfl, rfl⟩, rfl, .inr ⟨rfl, rfl, nofun, nofun⟩⟩
  · split
    · exact ⟨.inl ⟨rfl, rfl⟩, rfl, .inr ⟨rfl, rfl, nofun, nofun⟩⟩
    · exact ⟨.inl ⟨rfl, rfl⟩, rfl, .inl rfl⟩

/-- A forcing keeps the descriptor, the swap and what the lane has kept, and brings the lane to rest in TRIPPED, or changes
nothing (R27). -/
theorem Lane.force_follows (h : l.entry = none) : (Act.silent l.force).Follows l := by
  unfold Lane.force
  split
  · exact Act.silent_follows l
  · exact ⟨.inl ⟨rfl, rfl⟩, rfl, .inr ⟨rfl, h, nofun, nofun⟩⟩

end

/-! ## The lane that acts -/

section
variable {k : LaneId} {s t : State}

/-- What the completion of an entry makes of the lane. -/
theorem serveFetch_follows (k : LaneId) (s : State) : (Act.silent ((serveFetch k s).lane k)).Follows (s.lane k) := by
  cases he : (s.lane k).entry with
  | none =>
    rw [serveFetch_of_settled he]
    exact Act.silent_follows _
  | some e =>
    rw [serveFetch_eq he, State.lane_withAct_self]
    exact (Lane.completes_follows _ _ _).congr_lane rfl

/-- What the taking of an event makes of the lane. -/
theorem takeEvent_follows (hs : (s.lane k).settled) (e : Event) :
    (Act.silent ((takeEvent k e s).lane k)).Follows (s.lane k) := by
  have act {a : Act} (ha : a.Follows (s.lane k)) : (Act.silent ((s.withAct k a).lane k)).Follows (s.lane k) := by
    rw [State.lane_withAct_self]
    exact ha.congr_lane rfl
  cases e with
  | tick =>
    rw [takeEvent, takeTick_eq]
    exact act (Lane.ticks_follows hs _)
  | edge n e =>
    rw [takeEvent, takeEdge_eq hs]
    exact act (Lane.takesEdge_follows hs _ _ _ _)
  | arrival u v d =>
    rw [takeEvent, takeArrival_eq]
    exact act (Lane.takesArrival_follows hs _ _ _ _)
  | emission line =>
    rw [takeEvent, takeEmission_eq hs]
    exact act (Lane.takesEmission_follows hs _ _ _)
  | forcing n =>
    rw [takeEvent, lane_takeForcing]
    exact Lane.force_follows hs

/-! ## Descriptors change whole (R19) -/

/-- From l to l' the descriptor in force has changed to nothing but the pending swap or this image, and the swap to nothing but
the image or none. -/
structure Lane.Whole (image : Option Descriptor) (l l' : Lane) : Prop where
  descriptor : l'.descriptor = l.descriptor ∨ l.swap = some l'.descriptor ∨ image = some l'.descriptor
  swap : ∀ d, l'.swap = some d → l.swap = some d ∨ image = some d

variable {image : Option Descriptor} {l l' l'' : Lane}

theorem Lane.Whole.refl (l : Lane) : l.Whole image l := ⟨.inl rfl, fun _ => .inl⟩

theorem Lane.Whole.trans (h : l.Whole image l') (h' : l'.Whole image l'') : l.Whole image l'' := by
  refine ⟨?_, fun d hd => (h'.swap d hd).elim (h.swap d) .inr⟩
  rcases h'.descriptor with he | hs | hi
  · exact he ▸ h.descriptor
  · exact .inr (h.swap _ hs)
  · exact .inr (.inr hi)

/-- The descriptor stays, and so does the swap or none is left. -/
theorem Lane.Whole.keeps (hd : l'.descriptor = l.descriptor) (hs : l'.swap = l.swap ∨ l'.swap = none) : l.Whole image l' := by
  refine ⟨.inl hd, fun d he => .inl ?_⟩
  rcases hs with hs | hs
  · exact hs ▸ he
  · rw [hs] at he
    cases he

theorem Act.Follows.lane_whole {a : Act} (h : a.Follows l) : l.Whole image a.lane := by
  rcases h.whole with ⟨hd, hs⟩ | ⟨hd, hs⟩
  · exact .keeps hd (.inl hs)
  · exact ⟨.inr (.inl hd), fun d he => by rw [hs] at he; cases he⟩

/-- What a lane makes of a lane command that it takes: the descriptor and the swap change whole, and of the events that wait none
is taken. -/
structure Lane.Obeys (image : Option Descriptor) (l l' : Lane) : Prop where
  whole : l.Whole image l'
  kept : l'.kept = l.kept
  coming : l'.coming.Sublist l.coming

theorem Act.Follows.lane_obeys {a : Act} (h : a.Follows l) : l.Obeys image a.lane := by
  refine ⟨h.lane_whole, h.kept, ?_⟩
  rcases h.coming with hc | ⟨hc, -⟩
  · exact hc ▸ .refl _
  · exact hc ▸ List.filter_sublist

/-- A lane that changes itself before an act is as if the act had changed it, where the change leaves the descriptor, the swap and
the events that wait as they are. -/
theorem Act.Follows.onLane_obeys {f : Lane → Lane} {a : Act} (h : a.Follows (f (s.lane k)))
    (hf : (Act.silent (f (s.lane k))).Follows (s.lane k)) : (s.lane k).Obeys image ((s.withAct k a).lane k) := by
  rw [State.lane_withAct_self]
  have hl := hf.lane_obeys (image := image)
  have ha := h.lane_obeys (image := image)
  exact ⟨hl.whole.trans ha.whole, ha.kept.trans hl.kept, ha.coming.trans hl.coming⟩

/-- The lane changes nothing that an act has to follow. -/
theorem Act.Follows.of_same {l' : Lane} (hd : l'.descriptor = l.descriptor) (hs : l'.swap = l.swap) (hk : l'.kept = l.kept)
    (hc : l'.coming = l.coming) : (Act.silent l').Follows l := ⟨.inl ⟨hd, hs⟩, hk, .inl hc⟩

/-- What a lane that takes a lane command makes of its descriptor, its swap and the events that wait: only LANE_LOAD and LANE_SWAP
take the staging image (R41, R90). -/
theorem LaneJudge.obeys {judge : LaneId → State → Judgement} (hj : LaneJudge judge) (hs : (s.lane k).settled)
    (ht : judge k s = .ok t) : (s.lane k).Obeys s.staging.image (t.lane k) := by
  have changes {f : Lane → Lane} (hw : (s.lane k).Whole s.staging.image (f (s.lane k)))
      (hk : (f (s.lane k)).kept = (s.lane k).kept) (hc : (f (s.lane k)).coming.Sublist (s.lane k).coming) :
      (s.lane k).Obeys s.staging.image ((s.onLane k f).lane k) := by
    rw [State.lane_onLane_self]
    exact ⟨hw, hk, hc⟩
  have judged {f : Lane → Lane} (he : (f (s.lane k)).entry = none)
      (hf : (Act.silent (f (s.lane k))).Follows (s.lane k)) :
      (s.lane k).Obeys s.staging.image ((advanceIfMet k (s.onLane k f)).lane k) := by
    rw [advanceIfMet_onLane]
    exact (Lane.judges_follows he _).onLane_obeys hf
  have resumed {f : Lane → Lane} (hf : (Act.silent (f (s.lane k))).Follows (s.lane k)) :
      (s.lane k).Obeys s.staging.image ((resumeEntry k (s.onLane k f)).lane k) := by
    rw [resumeEntry_onLane]
    exact (Lane.enters_follows _ _ _).onLane_obeys hf
  have entered (full : Bool) (o : Nat) (c : EntryCause) :
      (s.lane k).Obeys s.staging.image ((enter k full o c s).lane k) := by
    rw [enter_eq, State.lane_withAct_self]
    exact (Lane.enters_follows _ _ _).lane_obeys
  cases hj with
  | start =>
    simp only [judgeStart] at ht
    split at ht; · cases ht
    split at ht
    · split at ht; · cases ht
      split at ht <;> cases ht
      · rw [requestEntry_onLane]
        exact (Lane.requests_follows _ _ _).onLane_obeys (f := fun l => { l with cycles := 0, faultCause := none })
          (.of_same rfl rfl rfl rfl)
      · exact changes (.keeps rfl (.inl rfl)) rfl (.refl _)
    · cases ht
  | stop =>
    simp only [judgeStop] at ht
    split at ht; · cases ht
    split at ht <;> cases ht
    · rename_i d hd
      rw [State.lane_onLane_self]
      simp only [installSwap, State.raiseFrom_lane, State.lane_onLane_self]
      exact ⟨⟨.inr (.inl hd), nofun⟩, rfl, List.filter_sublist⟩
    · exact changes (.keeps rfl (.inl rfl)) rfl List.filter_sublist
  | hold =>
    simp only [judgeHold] at ht
    split at ht <;> cases ht
    exact changes (.keeps rfl (.inl rfl)) rfl (.refl _)
  | release =>
    simp only [judgeRelease] at ht
    split at ht
    · split at ht <;> cases ht
      · exact judged hs (.of_same rfl rfl rfl rfl)
      · exact entered _ _ _
    · cases ht
  | reset =>
    cases ht
    exact changes (.keeps rfl (.inr rfl)) rfl List.filter_sublist
  | resume =>
    simp only [judgeResume] at ht
    split at ht
    · split at ht <;> cases ht
      exact resumed (.of_same rfl rfl rfl rfl)
    · split at ht; · cases ht
      split at ht <;> cases ht
      · exact changes (.keeps rfl (.inl rfl)) rfl (.refl _)
      · exact changes (.keeps rfl (.inl rfl)) rfl (.refl _)
      · exact changes (.keeps rfl (.inl rfl)) rfl (.refl _)
      · exact resumed (.of_same rfl rfl rfl rfl)
      · exact resumed (.of_same rfl rfl rfl rfl)
    all_goals cases ht
  | step =>
    simp only [judgeStep] at ht
    split at ht <;> cases ht
    exact judged hs (.of_same rfl rfl rfl rfl)
  | jump offset =>
    simp only [judgeJump] at ht
    split at ht
    · split at ht <;> cases ht
      exact changes (.keeps rfl (.inl rfl)) rfl List.filter_sublist
    · cases ht
  | load =>
    simp only [judgeLoad] at ht
    split at ht; · cases ht
    split at ht; · cases ht
    rename_i d hd
    split at ht <;> cases ht
    all_goals exact changes ⟨.inr (.inr hd), nofun⟩ rfl List.filter_sublist
  | swap =>
    simp only [judgeSwap] at ht
    split at ht; · cases ht
    rename_i d hd
    split at ht; · cases ht
    split at ht <;> cases ht
    exact changes ⟨.inl rfl, fun d' hd' => .inr (hd.trans hd')⟩ rfl (.refl _)
  | cancelSwap =>
    simp only [judgeCancelSwap] at ht
    split at ht <;> cases ht
    exact changes (.keeps rfl (.inr rfl)) rfl (.refl _)

/-! ## Every step -/

/-- Since s0 every descriptor in force has changed whole, and the staging image is that of s0. -/
structure State.WholeSince (s0 s : State) : Prop where
  image : s.staging.image = s0.staging.image
  lanes : ∀ k, (s0.lane k).Whole s0.staging.image (s.lane k)

theorem State.WholeSince.onlyLane {s0 : State} (h : State.WholeSince s0 s) (ho : OnlyLane k t s)
    (hk : (s.lane k).Whole s0.staging.image (t.lane k)) : State.WholeSince s0 t := by
  refine ⟨by rw [SameBlocks.staging ho.blocks, h.image], fun j => ?_⟩
  by_cases hj : j = k
  · subst hj
    exact (h.lanes j).trans hk
  · rw [ho.others j hj]
    exact h.lanes j

theorem wholeSince_invariant (s0 : State) : LaneInvariant (State.WholeSince s0) where
  congr h hl _ hg := by
    refine ⟨by rw [hg, h.image], fun k => (h.lanes k).trans ?_⟩
    obtain ⟨f, he⟩ := hl k
    rw [he]
    exact .keeps rfl (.inl rfl)
  serveFetch k h := h.onlyLane OnlyLane.rfl.serveFetch (serveFetch_follows k _).lane_whole
  takeEvent e he h := h.onlyLane (OnlyLane.rfl.takeEvent e) (takeEvent_follows he e).lane_whole
  judge hj he ht h := h.onlyLane (hj.good.only ht) (h.image ▸ (hj.obeys he ht).whole)
  withOwner _ _ _ h := ⟨h.image, h.lanes⟩
  resetBlocks {s} h := by
    refine ⟨h.image, fun k => (h.lanes k).trans ?_⟩
    have hl : (resetBlocks s).lane k = .fresh (s.lane k).descriptor := by simp [State.lane, resetBlocks]
    rw [hl]
    exact .keeps rfl (.inr rfl)

/-- Settles O30: whatever changes a lane changes its descriptor whole (`State.WholeSince`), and the writes that store the staging
descriptor change no lane. -/
theorem descriptorChangesOnlyWhole : Obligations.DescriptorChangesOnlyWhole := by
  intro s t k ht hr hne
  rcases (wholeSince_invariant s).step ht ⟨rfl, fun _ => .refl _⟩ with h | ⟨rest, ⟨n, v, rfl⟩ | ⟨hlow, -⟩⟩
  · exact (h.lanes k).descriptor.resolve_left hne
  · rw [plainWrite_frame] at hne
    exact absurd rfl hne
  · rw [hr] at hlow
    cases hlow

end
end Sys2Proof.Machine

/-! The staging descriptor by its fields, the power-on values, and two rows of the step table: TRIP_FORCING, and the events that
reach a lane in the middle of an entry (R20, R21, R27, R28, R42, R147). -/

namespace Sys2Proof.Machine

/-! ## The check of the staging descriptor (R21) -/

theorem Staging.rangeValid_iff (g : Staging) :
    g.rangeValid = true ↔ g.base.toNat < 512 ∧ 0 < g.length.toNat ∧ g.length.toNat ≤ 512 ∧
      g.base.toNat + g.length.toNat ≤ 512 ∧ g.preset.toNat < g.length.toNat := by
  simp only [Staging.rangeValid, Bool.and_eq_true, decide_eq_true_eq, and_assoc]

/-- START_SOURCE by the code of its kind (R20). -/
theorem Staging.startSource_eq (g : Staging) :
    let number := (g.mode.extractLsb' 10 5).toNat
    g.startSource = ([some .command,
      if number < 8 then some (.trigger (Fin.ofNat 8 number)) else none,
      if number < 16 then some (.edge (Fin.ofNat 16 number) .rising) else none,
      if number < 16 then some (.edge (Fin.ofNat 16 number) .falling) else none] : List _).getD
        (g.mode.extractLsb' 8 2).toNat none := by
  have hlt := (g.mode.extractLsb' 8 2).isLt
  simp only [Staging.startSource, wordField_eq]
  match (g.mode.extractLsb' 8 2).toNat, hlt with
  | 0, _ | 1, _ | 2, _ | 3, _ => rfl

theorem Staging.startSource_eq_none (g : Staging) :
    g.startSource = none ↔
      (g.mode.extractLsb' 8 2).toNat = 1 ∧ 8 ≤ (g.mode.extractLsb' 10 5).toNat ∨
        2 ≤ (g.mode.extractLsb' 8 2).toNat ∧ 16 ≤ (g.mode.extractLsb' 10 5).toNat := by
  have hlt := (g.mode.extractLsb' 8 2).isLt
  rw [g.startSource_eq]
  match (g.mode.extractLsb' 8 2).toNat, hlt with
  | 0, _ | 1, _ | 2, _ | 3, _ => simp

/-- A start source stands in the fields of STG_MODE. -/
def Staging.Encodes (g : Staging) (source : StartSource) : Prop :=
  let kind := (g.mode.extractLsb' 8 2).toNat
  let number := (g.mode.extractLsb' 10 5).toNat
  (source = .command ↔ kind = 0) ∧
  (∀ line : LaneId, source = .trigger line ↔ kind = 1 ∧ number = line.val) ∧
  (∀ n : InputId, source = .edge n .rising ↔ kind = 2 ∧ number = n.val) ∧
  (∀ n : InputId, source = .edge n .falling ↔ kind = 3 ∧ number = n.val)

/-- A number within the range names the one with this value. -/
theorem ofNat_eq_iff {m x : Nat} [NeZero m] (h : x < m) (n : Fin m) : Fin.ofNat m x = n ↔ x = n.val := by
  rw [Fin.ext_iff, Fin.val_ofNat, Nat.mod_eq_of_lt h]

theorem Staging.encodes_of_startSource {g : Staging} {source : StartSource} (h : g.startSource = some source) :
    g.Encodes source := by
  have hlt := (g.mode.extractLsb' 8 2).isLt
  rw [g.startSource_eq] at h
  unfold Staging.Encodes
  generalize (g.mode.extractLsb' 10 5).toNat = number at h
  match (g.mode.extractLsb' 8 2).toNat, hlt, h with
  | 0, _, h =>
    cases h
    simp
  | 1, _, h =>
    obtain ⟨hn, rfl⟩ : number < 8 ∧ StartSource.trigger (Fin.ofNat 8 number) = source := by simpa using h
    exact ⟨by simp, fun line => by simpa using ofNat_eq_iff hn line, by simp, by simp⟩
  | 2, _, h =>
    obtain ⟨hn, rfl⟩ : number < 16 ∧ StartSource.edge (Fin.ofNat 16 number) .rising = source := by simpa using h
    exact ⟨by simp, by simp, fun n => by simpa using ofNat_eq_iff hn n, by simp⟩
  | 3, _, h =>
    obtain ⟨hn, rfl⟩ : number < 16 ∧ StartSource.edge (Fin.ofNat 16 number) .falling = source := by simpa using h
    exact ⟨by simp, by simp, by simp, fun n => by simpa using ofNat_eq_iff hn n⟩

theorem Staging.image_eq_none (g : Staging) : g.image = none ↔ ¬ g.rangeValid = true ∨ g.startSource = none := by
  unfold Staging.image
  split
  · rename_i h
    simp [h]
  · rename_i h
    simp [h]

/-- Settles O9: the range part and the start source of the check each fail in their listed cases, and the image is read off. -/
theorem stagingCheckRefusesExactlyTheInvalid : Obligations.StagingCheckRefusesExactlyTheInvalid := by
  intro g
  refine ⟨?_, fun d hd => ?_⟩
  · rw [g.image_eq_none, g.rangeValid_iff, g.startSource_eq_none]
    omega
  · unfold Staging.image at hd
    split at hd
    · obtain ⟨source, hsource, rfl⟩ := Option.map_eq_some_iff.mp hd
      obtain ⟨hcommand, htrigger, hrising, hfalling⟩ := Staging.encodes_of_startSource hsource
      refine ⟨rfl, rfl, rfl, rfl, ?_, ?_, ?_, ?_, ?_, hcommand, htrigger, hrising, hfalling⟩
      all_goals simp
    · cases hd

/-! ## The state after reset -/

theorem reset_lane (k : LaneId) : State.reset.lane k = .fresh .powerOn := by simp [State.lane, State.reset]

theorem reset_trip (n : SourceId) : State.reset.trips[n.val] = ⟨false, 0, false, false, 0, false, false, none⟩ := by
  simp [State.reset]

theorem reset_lanesOk : State.reset.LanesOk :=
  .of_good fun k => reset_lane k ▸ LaneGood.fresh Descriptor.ok_powerOn

theorem reset_latchesOk : State.reset.LatchesOk where
  enabled n h := by simp [reset_trip] at h
  active_latched n _ h := by simp [reset_trip] at h

/-- No acceptance is in progress (R117). -/
theorem reset_filtersOk : State.reset.FiltersOk where
  inputs _ n c h := by simp [State.reset] at h
  units _ u c p h := by cases c <;> simp [State.reset, PositionUnit.channel] at h
  trips _ n c h := by simp [reset_trip] at h

/-- Settles O56, part by part: nothing is set, kept or on its way. -/
theorem resetMeetsTheInvariants : Obligations.ResetMeetsTheInvariants :=
  ⟨reset_lanesOk, fun n k h => by simp [reset_trip] at h, fun _ _ => Nat.zero_le _, reset_latchesOk, .nil, nofun,
    Job.ok_powerOnClear, Memory.wf_reset, ⟨by decide, nofun⟩, reset_filtersOk, List.prefix_rfl,
    ⟨rfl, rfl, rfl, fun k => by rw [reset_lane]; exact ⟨rfl, rfl, rfl⟩⟩⟩

section
variable {k : LaneId} {s : State} {e : Event}

/-! ## Events that reach a lane in the middle of an entry (R28) -/

/-- A lane in the middle of an entry keeps the next event of its source. -/
theorem takeNext_of_entry (he : (s.lane k).entry.isSome = true) (hn : (s.lane k).nextOfSource e = true) :
    takeNext k e s = s.setLane k
      { s.lane k with coming := (s.lane k).coming.erase e, kept := (s.lane k).kept ++ [e] } := by
  obtain ⟨y, hy⟩ := Option.isSome_iff_exists.mp he
  simp only [takeNext, hy, hn, if_true, reach]
  rw [if_neg (by simp [Lane.free, Lane.withComing, hy])]
  simp only [State.onLane, State.lane_setLane_self, State.setLane_setLane]
  simp only [Lane.withComing, hy]

/-- An event that is not the next for the lane changes nothing (log 6). -/
theorem takeNext_of_not_ready (ht : (s.lane k).taking e = none)
    (hn : (s.lane k).entry = none ∨ (s.lane k).nextOfSource e = false) : takeNext k e s = s := by
  unfold Lane.taking at ht
  simp only [takeNext]
  split
  · rename_i x rest he hk
    simp only [he, hk] at ht
    split at ht
    · cases ht
    · rename_i hx
      exact if_neg fun h => hx h.symm
  · rename_i hready
    refine if_neg fun hnext => ?_
    cases he : (s.lane k).entry with
    | some y => simp [he, hnext] at hn
    | none =>
      cases hk : (s.lane k).kept with
      | cons x rest => exact hready x rest he hk
      | nil => simp [he, hk, hnext] at ht

/-- The rows of the edge event, the arrival and the emission hand their event to the lane while RESET# is high. -/
theorem exec_of_event {c : Instr} (hs : s.resetLow = false)
    (h : (∃ n d, e = .edge n d ∧ c = .edgeEvent k n d) ∨ (∃ u v d, e = .arrival u v d ∧ c = .arrival k u v d) ∨
      ∃ line, e = .emission line ∧ c = .emission k line) : exec c s = .next (deliver k e s) := by
  have hrow : exec c s = .next (if s.resetLow then s else deliver k e s) := by
    rcases h with ⟨n, d, rfl, rfl⟩ | ⟨u, v, d, rfl, rfl⟩ | ⟨line, rfl, rfl⟩ <;> rfl
  rw [hrow, hs]
  rfl

/-- Settles O25: with nothing emitted the step is the taking of the event, which keeps it or changes nothing. -/
theorem eventsWaitDuringAnEntry : Obligations.EventsWaitDuringAnEntry := by
  intro k e c s hs ho hc
  rw [exec_of_event hs hc, deliver]
  refine ⟨fun he hn => ?_, fun ht hn => ?_⟩
  · rw [takeNext_of_entry he hn]
    exact congrArg _ (handOut_of_outbox_nil ho)
  · rw [takeNext_of_not_ready ht hn, handOut_of_outbox_nil ho]

/-! ## TRIP_FORCING (R27, R147) -/

theorem exec_tripForcing (hs : s.resetLow = false) (n : SourceId) :
    exec (.tripForcing k n) s = .next (deliver k (.forcing n) s) := by
  have hrow : exec (.tripForcing k n) s = .next (if s.resetLow then s else deliver k (.forcing n) s) := rfl
  rw [hrow, hs]
  rfl

theorem LaneState.forcible_isSome (x : LaneState) : x.forcible.isSome = decide (x ≠ .idle ∧ x ≠ .tripped) := by
  cases x <;> rfl

/-- The event that a lane takes is removed from those that wait, and nothing else changes. -/
theorem Lane.taking_state {l l' : Lane} (h : l.taking e = some l') : l'.state = l.state := by
  unfold Lane.taking at h
  split at h
  · split at h <;> cases h
    rfl
  · split at h <;> cases h
    rfl
  · cases h

/-- The taking of a forcing: the lane is forced, the setting notes it, and the notices of the complete settings are raised. -/
theorem takeForcing_eq (k : LaneId) (n : SourceId) (s : State) :
    takeForcing k n s =
      let settings := noteForcing n k (s.lane k).state.forcible.isSome s.settings
      ((s.setLane k (s.lane k).force).withSettings (settings.dropWhile fun x => x.left == 0)).raiseTripNotices
        ((settings.takeWhile fun x => x.left == 0).map fun x => .trip x.source x.moved) := rfl

/-- A lane in IDLE or TRIPPED is not forced. -/
theorem Lane.force_of_unmoved {l : Lane} (h : ¬ (l.state ≠ .idle ∧ l.state ≠ .tripped)) : l.force = l := by
  have hf : l.state.forcible = none := by
    rw [← Option.not_isSome_iff_eq_none, LaneState.forcible_isSome, decide_eq_true_eq]
    exact h
  simp only [Lane.force, hf]

/-- The trip prior state is the state from which the lane is forced. -/
theorem Lane.force_of_moved {l : Lane} (h : l.state ≠ .idle ∧ l.state ≠ .tripped) :
    l.force = { l.forget with
      state := .tripped
      prior := [none, some .armed, some .running, some .held, some .done, some .faulted].getD l.state.code none
      pulse := none } := by
  unfold Lane.force
  cases hst : l.state with
  | idle => exact absurd hst h.1
  | tripped => exact absurd hst h.2
  | armed | running | held | done | faulted => rfl

/-- Settles O24: the step is the taking of the forcing, `takeForcing_eq`. -/
theorem tripForcingMovesTheLane : Obligations.TripForcingMovesTheLane := by
  intro k n s l hs ho hl
  have hst : l.state = (s.lane k).state := Lane.taking_state hl
  have hstep : exec (.tripForcing k n) s = .next (takeForcing k n (s.setLane k l)) := by
    rw [exec_tripForcing hs, deliver_of_taking hl, handOut_of_outbox_nil]
    · rfl
    · rw [takeEvent, takeForcing_eq, State.raiseTripNotices_outbox]
      exact ho
  have hlane : (takeForcing k n (s.setLane k l)).lane k = l.force := by rw [lane_takeForcing, State.lane_setLane_self]
  refine ⟨_, hstep, ?_, fun hun => ?_, fun hmoved => ?_⟩
  · rw [hlane, takeForcing_eq, State.lane_setLane_self, hst, LaneState.forcible_isSome, State.setLane_setLane]
    rfl
  · rw [hlane]
    exact Lane.force_of_unmoved (hst ▸ hun)
  · rw [hlane, Lane.force_of_moved (hst.symm ▸ hmoved)]
    exact ⟨rfl, rfl, rfl, rfl, rfl⟩

end
end Sys2Proof.Machine

/-! The lane commands that set a lane aside: LANE_HOLD, LANE_RESET, LANE_CANCEL_SWAP, LANE_LOAD, LANE_SWAP, LANE_JUMP and LANE_STOP
(R33, R36, R39, R40, R41, R90, R91, R98). -/

namespace Sys2Proof.Machine

section
variable {k : LaneId} {s t : State} {judged judged' : State → LaneId → Except Result Act}

/-! ## What a lane has completed when it judges a command -/

theorem serveFetch_kept (j : LaneId) (s : State) : ((serveFetch j s).lane k).kept = (s.lane k).kept := by
  by_cases h : k = j
  · subst h
    exact (serveFetch_follows k s).kept
  · rw [(OnlyLane.rfl.serveFetch (k := j)).others k h]

theorem serveInTurn_kept (s : State) : ((serveInTurn k s).lane k).kept = (s.lane k).kept :=
  serveInTurn_induct (P := fun t => (t.lane k).kept = (s.lane k).kept)
    (fun _ j h => (serveFetch_kept j _).trans h) rfl

/-- The events that a lane has kept are taken one after another until none is left (R28). -/
theorem completeLane_kept (k : LaneId) (s : State) : ((completeLane k s).lane k).kept = [] := by
  have key : ∀ (es : List Event) (t : State), (t.lane k).settled → (t.lane k).kept = es →
      ((es.foldl (fun t e => serveInTurn k (takeEvent k e (t.onLane k Lane.dropKept))) t).lane k).kept = [] := by
    intro es
    induction es with
    | nil => exact fun _ _ h => h
    | cons e es ih =>
      intro t ht hk
      rw [List.foldl_cons]
      refine ih _ (serveInTurn_settled k _) ?_
      have hset : ((t.onLane k Lane.dropKept).lane k).settled := by simpa [Lane.settled, Lane.dropKept] using ht
      rw [serveInTurn_kept]
      exact (takeEvent_follows hset e).kept.trans (by simp [Lane.dropKept, hk])
  exact key _ _ (serveInTurn_settled k s) rfl

/-- A lane has completed what it was in the middle of: no entry is in progress and no event is kept. -/
def Lane.Complete (l : Lane) : Prop := l.entry = none ∧ l.kept = []

theorem completeLane_complete (k : LaneId) (s : State) : ((completeLane k s).lane k).Complete :=
  ⟨completeLane_settled k s, completeLane_kept k s⟩

/-! ## The same command by acts that agree on a lane that has completed -/

/-- The act by which a lane takes a command, with the last result that it reports (R29). -/
def Act.reported (a : Act) : Act := { a with lane := { a.lane with lastResult := .taken } }

/-- Two accounts of a command agree: on a lane that has completed they refuse alike, and give acts that differ at most in the last
result. -/
def Agree (judged judged' : State → LaneId → Except Result Act) : Prop :=
  ∀ (u : State) (k : LaneId), (u.lane k).Complete → (judged u k).map Act.reported = (judged' u k).map Act.reported

theorem State.Judged.congr (ha : Agree judged judged') (h : State.Judged judged k s t) : State.Judged judged' k s t := by
  have hk := ha _ k (completeLane_complete k s)
  unfold State.Judged at h ⊢
  dsimp only at h ⊢
  cases hj : judged (completeLane k s) k <;> cases hj' : judged' (completeLane k s) k <;>
    simp only [hj, hj', Except.map, Except.error.injEq, Except.ok.injEq, reduceCtorEq] at h hk ⊢
  · rw [h, hk]
  · exact h.trans (congrArg _ hk)

theorem State.Parts.congr (ha : Agree judged judged') {left waiting held stored : List LaneId}
    (h : State.Parts judged left waiting held stored s t) : State.Parts judged' left waiting held stored s t := by
  induction h with
  | done => exact .done _
  | goOn hgo hkeep _ ih => exact .goOn hgo hkeep ih
  | judge hk hj hkeep _ ih => exact .judge hk (hj.congr ha) hkeep ih
  | fetch hk hf _ ih => exact .fetch hk hf ih
  | store hk _ ih => exact .store hk ih

theorem State.Commands.congr (ha : Agree judged judged') {c : Instr} {mask : LaneMask} (h : s.Commands c mask judged) :
    s.Commands c mask judged' := by
  obtain ⟨t, stored, hparts, hsorted, hnext⟩ := h
  exact ⟨t, stored, hparts.congr ha, hsorted, hnext⟩

/-- A lane that has completed and is cleared is as after reset but for its pattern and what is on its way to it (R36, R40). -/
theorem Lane.goIdle_reported {l : Lane} (h : l.Complete) :
    { l.goIdle with lastResult := .taken } = { Lane.fresh l.descriptor with
      pattern := l.pattern, faultCause := l.faultCause, prior := l.prior, cycles := l.cycles, swap := l.swap
      coming := l.coming.filter fun e => !e.passing } := by
  obtain ⟨he, hk⟩ := h
  simp only [Lane.goIdle, Lane.forget, Lane.unenter, Lane.fresh, he, hk]

theorem Lane.clear_reported {l : Lane} (h : l.Complete) :
    { l.clear with lastResult := .taken } = { Lane.fresh l.descriptor with
      pattern := l.pattern, coming := l.coming.filter fun e => !e.passing } := by
  obtain ⟨he, hk⟩ := h
  simp only [Lane.clear, Lane.goIdle, Lane.forget, Lane.unenter, Lane.fresh, he, hk]

/-! ## LANE_HOLD, LANE_RESET and LANE_CANCEL_SWAP -/

theorem laneHold_commands (v : Word) (hs : s.resetLow = false) :
    s.Commands (.laneHold v) (maskOf v) fun u k =>
      if (u.lane k).state = .running then .ok (.silent { u.lane k with state := .held }) else .error .state :=
  State.commands_of (judge := judgeHold) rfl hs fun k t _ => by
    dsimp only [judgeHold]
    split <;> rfl

theorem laneReset_commands (v : Word) (hs : s.resetLow = false) :
    s.Commands (.laneReset v) (maskOf v) fun u k =>
      .ok (.silent { Lane.fresh (u.lane k).descriptor with
        pattern := (u.lane k).pattern, coming := (u.lane k).coming.filter fun e => !e.passing }) :=
  (State.commands_of (judge := judgeReset) (judged := fun u k => .ok (.silent (u.lane k).clear)) rfl hs
    fun _ _ _ => rfl).congr fun u k h => by
      simp only [Except.map, Act.reported, Act.silent, Lane.clear_reported h]
      rfl

theorem laneCancelSwap_commands (v : Word) (hs : s.resetLow = false) :
    s.Commands (.laneCancelSwap v) (maskOf v) fun u k =>
      if (u.lane k).swap.isSome then .ok (.silent { u.lane k with swap := none }) else .error .state :=
  State.commands_of (judge := judgeCancelSwap) rfl hs fun k t _ => by
    dsimp only [judgeCancelSwap]
    split <;> rfl

/-- Settles O10. -/
theorem laneHoldResetAndCancelSwap : Obligations.LaneHoldResetAndCancelSwap := fun v _ hs =>
  ⟨laneHold_commands v hs, laneReset_commands v hs, laneCancelSwap_commands v hs⟩

/-! ## LANE_LOAD and LANE_SWAP -/

/-- Nothing beside a lane command changes the staging descriptor. -/
theorem staging_of_sansCommand (h : t.sansCommand = s.sansCommand) : t.staging = s.staging := by
  have := congrArg State.staging h
  exact this

/-- LANE_LOAD by the state of the lane (R41). -/
def loaded (image : Option Descriptor) (u : State) (k : LaneId) : Except Result Act :=
  if u.clearRunning then .error .busy
  else
    match image with
    | none => .error .range
    | some d =>
      if (u.lane k).state = .armed ∨ (u.lane k).state = .running ∨ (u.lane k).state = .held then .error .state
      else .ok (.silent (Lane.clear { u.lane k with descriptor := d }))

theorem judgeLoad_judgesBy : JudgesBy judgeLoad s (loaded s.staging.image) := by
  intro k t ht
  simp only [judgeLoad, loaded, staging_of_sansCommand ht]
  split
  · rfl
  · cases s.staging.image with
    | none => rfl
    | some d =>
      dsimp only
      split
      all_goals
        rename_i hst
        simp only [hst, reduceCtorEq, or_self, or_true, true_or, if_true, if_false]
        rfl

/-- Settles O11: each lane's judgement is one of the refusals, or takes the image. -/
theorem laneLoadAndSwapTakeTheStagingImage : Obligations.LaneLoadAndSwapTakeTheStagingImage := by
  refine fun v s hs => ⟨(State.commands_of (judge := judgeLoad) rfl hs judgeLoad_judgesBy).congr fun u k h => ?_,
    State.commands_of (judge := judgeSwap) rfl hs fun k t ht => ?_⟩
  · dsimp only [loaded]
    split
    · rfl
    · cases s.staging.image with
      | none => rfl
      | some d =>
        dsimp only
        split
        · rfl
        · simp only [Except.map, Act.reported, Act.silent, Lane.clear_reported (l := { u.lane k with descriptor := d }) h]
          rfl
  · dsimp only [judgeSwap]
    rw [staging_of_sansCommand ht]
    cases s.staging.image with
    | none => rfl
    | some d =>
      simp only [Lane.refusesSwap, Bool.or_eq_true, Bool.and_eq_true, decide_eq_true_eq, or_assoc]
      split
      · rfl
      · split <;> rfl

/-! ## LANE_JUMP -/

/-- LANE_JUMP names the lane in bits 12 to 14, and carries the offset in bits 0 to 8 (R39). -/
theorem exec_laneJump (v : Word) (hk : k.val = (v.extractLsb' 12 3).toNat) :
    exec (.laneJump v) s =
      .next (laneCommand (judgeJump (v.extractLsb' 0 9).toNat) (1#8 <<< k.val) s) := by
  have hlane : laneAt v 12 = k := by
    rw [laneAt, wordField_eq, ← hk]
    exact Fin.ofNat_val_eq_self k
  have hoffset : jumpOffset v = (v.extractLsb' 0 9).toNat := wordField_eq _ _ _
  have hrow : exec (.laneJump v) s = .next (laneCommand (judgeJump (jumpOffset v)) (1#8 <<< (laneAt v 12).val) s) := rfl
  rw [hrow, hlane, hoffset]

/-- Settles O12. -/
theorem laneJumpMovesAHeldOrFaultedLane : Obligations.LaneJumpMovesAHeldOrFaultedLane := by
  intro v k s hk hs
  refine State.commands_of (exec_laneJump v hk) hs fun j t _ => ?_
  dsimp only [judgeJump]
  by_cases hst : (t.lane j).state = .held ∨ (t.lane j).state = .faulted
  · have hin : ¬ ((t.lane j).state ≠ .held ∧ (t.lane j).state ≠ .faulted) := by tauto
    rw [if_pos (by simpa using hst), if_neg hin]
    split <;> rfl
  · rw [if_neg (by simpa using hst), if_pos (by tauto)]
    rfl

/-! ## LANE_STOP -/

/-- A swap put in force by a lane that then changes itself is an act with its SWAP notice (R94, R98). -/
theorem installSwap_onLane (k : LaneId) (d : Descriptor) (o : SwapOccasion) (f : Lane → Lane) (s : State) :
    (installSwap k d o s).onLane k f = s.withAct k
      { lane := f { s.lane k with descriptor := d, swap := none, stack := [], cycles := 0 }
        notices := [.swap k (s.lane k).active d.swapBoundary o]
        emits := false } := by
  rw [installSwap, State.onLane_eq_withAct, State.withAct_raise, State.withAct_onLane]
  simp only [State.raiseFrom_lane, State.lane_onLane_self]
  rfl

/-- LANE_STOP by the state of the lane (R36, R98). -/
def stopped (u : State) (k : LaneId) : Except Result Act :=
  if (u.lane k).state = .idle ∨ (u.lane k).state = .tripped then .error .state
  else
    match (u.lane k).swap with
    | some d => .ok {
        lane := Lane.goIdle { u.lane k with descriptor := d, swap := none, stack := [], cycles := 0 }
        notices := [.swap k (u.lane k).active d.swapBoundary .stop]
        emits := false }
    | none => .ok (.silent (u.lane k).goIdle)

theorem judgeStop_judgesBy : JudgesBy judgeStop s stopped := by
  intro k t _
  simp only [judgeStop, stopped, Bool.or_eq_true, decide_eq_true_eq]
  split
  · rfl
  · cases (t.lane k).swap with
    | none => rfl
    | some d => exact congrArg Except.ok (installSwap_onLane k d .stop Lane.goIdle t)

/-- Settles O13: a pending swap is put in force first, and the lane that has completed returns to IDLE. -/
theorem laneStopReturnsToIdle : Obligations.LaneStopReturnsToIdle := by
  refine fun v s hs => (State.commands_of (judge := judgeStop) rfl hs judgeStop_judgesBy).congr fun u k h => ?_
  dsimp only [stopped]
  split
  · rfl
  · cases hd : (u.lane k).swap with
    | none =>
      simp only [Except.map, Act.reported, Act.silent, hd, Lane.goIdle_reported h]
      rfl
    | some d =>
      simp only [Except.map, Act.reported,
        Lane.goIdle_reported (l := { u.lane k with descriptor := d, swap := none, stack := [], cycles := 0 }) h]
      rfl

end
end Sys2Proof.Machine

/-! Calm states, in which nothing can happen beside a host write: no lane has anything to complete or to take, and no notice is on
its way (R28, R136, R172, R177). -/

namespace Sys2Proof.Machine

section
variable {s : State} {k j : LaneId}

/-! ## The fetch that is served first (R136) -/

theorem State.precedes_spec (h : s.precedes j k = true) :
    (s.lane j).entry.isSome = true ∧ (s.lane j).turn < (s.lane k).turn := by
  simp only [State.precedes, Bool.and_eq_true, decide_eq_true_eq] at h
  obtain ⟨⟨hat, -⟩, hturn⟩ := h
  refine ⟨?_, hturn⟩
  rw [Lane.enteredAt, Option.isSome_bind] at hat
  exact Option.isSome_of_any hat

theorem State.precedes_trans {i : LaneId} (h : s.precedes i j = true) (h' : s.precedes j k = true) : s.precedes i k = true := by
  simp only [State.precedes, Bool.and_eq_true, beq_iff_eq, decide_eq_true_eq] at h h' ⊢
  obtain ⟨⟨hsome, hat⟩, hlt⟩ := h
  obtain ⟨⟨-, hat'⟩, hlt'⟩ := h'
  exact ⟨⟨hsome, hat.trans hat'⟩, hlt.trans hlt'⟩

/-- A lane in the middle of an entry has a fetch in its turn: its own, or one that it waits for (R136). -/
theorem State.exists_leader (h : (s.lane k).entry.isSome = true) :
    ∃ j, (s.lane j).entry.isSome = true ∧ s.inTurn j = true ∧ (j = k ∨ s.precedes j k = true) := by
  generalize hn : (s.lane k).turn = n
  induction n using Nat.strong_induction_on generalizing k with
  | _ n ih =>
    by_cases ht : s.inTurn k = true
    · exact ⟨k, h, ht, .inl rfl⟩
    · obtain ⟨i, hi⟩ : ∃ i, s.precedes i k = true := by simpa [State.inTurn] using ht
      obtain ⟨hentry, hlt⟩ := State.precedes_spec hi
      obtain ⟨j, hj, hjt, rfl | hji⟩ := ih _ (hn ▸ hlt) hentry rfl
      · exact ⟨j, hj, hjt, .inr hi⟩
      · exact ⟨j, hj, hjt, .inr (State.precedes_trans hji hi)⟩

/-! ## What a lane has to do -/

theorem Event.sameSource_self (e : Event) : e.sameSource e = true := by cases e <;> simp [Event.sameSource]

theorem Lane.nextOfSource_head {l : Lane} {e : Event} {es : List Event} (h : l.coming = e :: es) :
    l.nextOfSource e = true := by
  simp [Lane.nextOfSource, h, Event.sameSource_self]

/-- A lane with no event ready has none on its way, and has kept none but from an entry in progress. -/
theorem Lane.of_ready_nil {l : Lane} (h : l.ready = []) : l.coming = [] ∧ (l.entry = none → l.kept = []) := by
  have hkept : l.entry = none → l.kept = [] := fun he => by
    cases hk : l.kept with
    | nil => rfl
    | cons e es => simp [Lane.ready, he, hk] at h
  refine ⟨?_, hkept⟩
  have hready : l.ready = l.coming.filter l.nextOfSource := by
    unfold Lane.ready
    split
    · rename_i e es he hk
      rw [hkept he] at hk
      cases hk
    · rfl
  rw [hready, List.filter_eq_nil_iff] at h
  cases hc : l.coming with
  | nil => rfl
  | cons e es => exact absurd (Lane.nextOfSource_head hc) (h e (by simp [hc]))

theorem Lane.work_eq_nil {l : Lane} {serve : Bool} (h : l.work k serve = []) :
    (serve = true → l.entry = none) ∧ l.ready = [] := by
  simp only [Lane.work, List.append_eq_nil_iff, List.map_eq_nil_iff] at h
  refine ⟨fun hserve => ?_, h.2⟩
  cases he : l.entry with
  | none => rfl
  | some e => simp [hserve, he] at h

/-! ## No notice can arrive -/

theorem State.late_nil_of_arrivals (h : s.arrivals = []) : s.late = [] := by
  have hno (x : Sender) : s.canArrive x = false := by
    have hx : x ∈ senders := by
      cases x with
      | lane k => exact List.mem_append_left _ (List.mem_map_of_mem (List.mem_finRange k))
      | tripUnit => exact List.mem_append_right _ (List.mem_singleton_self _)
    rw [State.arrivals, List.map_eq_nil_iff, List.filter_eq_nil_iff] at h
    simpa using h x hx
  have hlanes (k : LaneId) : s.lateOf (.lane k) = [] := by simpa [State.canArrive] using hno (.lane k)
  refine State.late_nil_of_lateOf fun x => ?_
  cases x with
  | lane k => exact hlanes k
  | tripUnit =>
    have htrip := hno .tripUnit
    cases hl : s.lateOf .tripUnit with
    | nil => rfl
    | cons b bs => simp [State.canArrive, hl, State.tripWaits_of_lanes hlanes] at htrip

/-! ## Nothing can happen -/

/-- What a state in which nothing happens beside a write lacks, kind by kind. -/
theorem State.calm_parts (h : s.happenings 0 = []) :
    (∀ k, (s.lane k).work k (s.inTurn k) = []) ∧ s.arrivals = [] ∧ s.accessWaits = false ∧
      (∀ pin ∈ filteredPins, s.comesNext (s.pinLacking pin) = false) ∧ s.comesNext s.timebase.lacking = false ∧
      s.movesAhead = [] := by
  simp only [State.happenings, List.append_eq_nil_iff, List.flatMap_eq_nil_iff, List.map_eq_nil_iff,
    List.filter_eq_nil_iff] at h
  obtain ⟨⟨⟨⟨⟨hlanes, harrivals⟩, haccess⟩, hpins⟩, htick⟩, hmoves⟩ := h
  refine ⟨fun k => ?_, harrivals, ?_, fun pin hpin => by simpa using hpins pin hpin, ?_, ?_⟩
  · simpa [State.lanesWork] using hlanes k (List.mem_finRange k)
  · simpa using haccess
  · simpa using htick
  · unfold State.machineSide at hmoves
    split at hmoves
    · assumption
    · cases hmoves

/-- In a calm state no lane is in the middle of an entry, has kept an event or has one on its way. -/
theorem State.quiet_of_calm (h : s.happenings 0 = []) (k : LaneId) : (s.lane k).quiet := by
  obtain ⟨hwork, -⟩ := State.calm_parts h
  have hentry : (s.lane k).entry = none := by
    by_contra he
    obtain ⟨j, hj, ht, -⟩ := State.exists_leader (Option.isSome_iff_ne_none.mpr he)
    simp [(Lane.work_eq_nil (hwork j)).1 ht] at hj
  obtain ⟨hcoming, hkept⟩ := Lane.of_ready_nil (Lane.work_eq_nil (hwork k)).2
  exact ⟨hentry, hkept hentry, hcoming⟩

theorem State.late_nil_of_calm (h : s.happenings 0 = []) : s.late = [] :=
  State.late_nil_of_arrivals (State.calm_parts h).2.1

end
end Sys2Proof.Machine

/-! The setting of a latch as one act of the Trip Unit, and the commands that set one: TRIP_CONFIG and TRIP_ASSERT (R27, R143, R146,
R147). -/

namespace Sys2Proof.Machine

/-! ## One lane in a mask of lanes -/

theorem getLsbD_single (k j : LaneId) : (1#8 <<< k.val).getLsbD j.val = decide (j = k) := by
  revert k j
  decide

/-- Two masks with the same lanes are the same. -/
theorem LaneMask.ext {m m' : LaneMask} (h : ∀ j : LaneId, m.getLsbD j.val = m'.getLsbD j.val) : m = m' :=
  BitVec.eq_of_getLsbD_eq fun i hi => h ⟨i, hi⟩

theorem getLsbD_ofLanes (f : LaneId → Bool) (j : LaneId) : (BitVec.ofFnLE f).getLsbD j.val = f j := by
  rw [BitVec.getLsbD_ofFnLE, dif_pos j.isLt]

theorem getLsbD_without (m : LaneMask) (k j : LaneId) :
    (m &&& ~~~(1#8 <<< k.val)).getLsbD j.val = (m.getLsbD j.val && !decide (j = k)) := by
  rw [BitVec.getLsbD_and, BitVec.getLsbD_not, getLsbD_single, decide_eq_true j.isLt, Bool.true_and]

theorem getLsbD_with (m : LaneMask) (k j : LaneId) :
    (m ||| 1#8 <<< k.val).getLsbD j.val = (m.getLsbD j.val || decide (j = k)) := by
  rw [BitVec.getLsbD_or, getLsbD_single]

section
variable {s : State} {n : SourceId} {k : LaneId} {taken : LaneId → Bool}

/-! ## A setting that some of the lanes have taken -/

/-- The setting of source n's latch when the lanes of `taken` have its forcing (R27, R28, R147). -/
def State.settingOf (s : State) (n : SourceId) (taken : LaneId → Bool) : Setting where
  source := n
  left := BitVec.ofFnLE fun k : LaneId => s.trips[n.val].scope.getLsbD k && !(taken k && (s.lane k).free)
  moved := BitVec.ofFnLE fun k : LaneId =>
    s.trips[n.val].scope.getLsbD k && (taken k && ((s.lane k).free && (s.lane k).state.forcible.isSome))

/-- What a lane in scope makes of the forcing of source n (R27, R28). -/
def Lane.reached (l : Lane) (n : SourceId) : Lane :=
  if l.free then l.force else { l with kept := l.kept ++ [.forcing n] }

/-- The state within the setting of source n's latch, when the forcing has reached the lanes of `taken`. -/
def State.reachedBy (s : State) (n : SourceId) (taken : LaneId → Bool) : State :=
  { s with
    trips := s.trips.set n.val { s.trips[n.val] with latch := true }
    lanes := Vector.ofFn fun k : LaneId =>
      if s.trips[n.val].scope.getLsbD k && taken k then (s.lane k).reached n else s.lane k
    settings := s.settings ++ [s.settingOf n taken] }

theorem State.lane_reachedBy (s : State) (n : SourceId) (taken : LaneId → Bool) (k : LaneId) :
    (s.reachedBy n taken).lane k =
      if s.trips[n.val].scope.getLsbD k && taken k then (s.lane k).reached n else s.lane k := by
  simp [State.lane, State.reachedBy]

/-- Nothing is noted by the settings that do not wait for the lane's forcing. -/
theorem noteForcing_append {l : List Setting} (h : ∀ x ∈ l, ¬ (x.source = n ∧ x.left.getLsbD k = true)) (moved : Bool)
    (x : Setting) : noteForcing n k moved (l ++ [x]) = l ++ noteForcing n k moved [x] := by
  induction l with
  | nil => rfl
  | cons y l ih =>
    have hy : ¬ (decide (y.source = n) && y.left.getLsbD k) = true := by
      simpa using h y List.mem_cons_self
    simp only [List.cons_append, noteForcing, if_neg hy]
    exact congrArg _ (ih fun z hz => h z (List.mem_cons_of_mem y hz))

/-- A lane that is free has kept no forcing, so that no earlier setting of the source waits for it (R147). -/
theorem State.SettingsWait.not_waiting (h : s.SettingsWait) (hk : (s.lane k).free = true) :
    ∀ x ∈ s.settings, ¬ (x.source = n ∧ x.left.getLsbD k = true) := by
  intro x hx ⟨hsource, hleft⟩
  have hkept : (s.lane k).kept = [] := by
    simp only [Lane.free, Bool.and_eq_true, List.isEmpty_iff] at hk
    exact hk.2
  have hlen := h n k
  rw [hkept, List.filter_nil, List.length_nil, Nat.le_zero, List.length_eq_zero_iff, List.filter_eq_nil_iff] at hlen
  exact hlen x hx (by simp [hsource, hleft])

/-- The new setting notes that a free lane in scope has taken its forcing. -/
theorem noteForcing_settingOf (hscope : s.trips[n.val].scope.getLsbD k = true) (hk : (s.lane k).free = true)
    (ht : taken k = false) :
    noteForcing n k (s.lane k).state.forcible.isSome [s.settingOf n taken] =
      [s.settingOf n fun j => taken j || decide (j = k)] := by
  have hleft : (s.settingOf n taken).left.getLsbD k.val = true := by
    rw [State.settingOf, getLsbD_ofLanes, hscope, ht]
    rfl
  simp only [noteForcing, hleft, Bool.and_true, if_pos (decide_eq_true (show (s.settingOf n taken).source = n from rfl))]
  refine congrArg (fun x => [x]) ?_
  rw [Setting.mk.injEq]
  refine ⟨rfl, LaneMask.ext fun j => ?_, ?_⟩
  · rw [getLsbD_without]
    simp only [State.settingOf, getLsbD_ofLanes]
    by_cases hj : j = k
    · subst hj
      simp [hk]
    · simp [hj]
  · refine LaneMask.ext fun j => ?_
    by_cases hm : (s.lane k).state.forcible.isSome = true
    · rw [if_pos hm, getLsbD_with]
      simp only [State.settingOf, getLsbD_ofLanes]
      by_cases hj : j = k
      · subst hj
        rw [hscope, hk, hm]
        simp
      · simp [hj]
    · rw [if_neg hm]
      simp only [State.settingOf, getLsbD_ofLanes]
      by_cases hj : j = k
      · subst hj
        simp [hm]
      · simp [hj]

/-- The setting goes on waiting for a lane that keeps its forcing, and for one that is not in scope it never did. -/
theorem State.settingOf_of_waiting (h : s.trips[n.val].scope.getLsbD k = true → (s.lane k).free = false) :
    (s.settingOf n fun j => taken j || decide (j = k)) = s.settingOf n taken := by
  have hbit (j : LaneId) (hj : j = k) : s.trips[n.val].scope.getLsbD j = true → (s.lane j).free = false := hj ▸ h
  unfold State.settingOf
  congr 2 with j
  · by_cases hj : j = k
    · cases hs : s.trips[n.val].scope.getLsbD j <;> simp_all
    · simp [hj]
  · by_cases hj : j = k
    · cases hs : s.trips[n.val].scope.getLsbD j <;> simp_all
    · simp [hj]

/-- One more lane in scope has the forcing. -/
theorem State.reachedBy_insert (hscope : s.trips[n.val].scope.getLsbD k = true) :
    (s.reachedBy n fun j => taken j || decide (j = k)) =
      ((s.reachedBy n taken).setLane k ((s.lane k).reached n)).withSettings
        (s.settings ++ [s.settingOf n fun j => taken j || decide (j = k)]) := by
  unfold State.reachedBy State.setLane State.withSettings
  congr 1
  refine Vector.ext fun i hi => ?_
  rw [Vector.getElem_set, Vector.getElem_ofFn, Vector.getElem_ofFn]
  by_cases hj : k.val = i
  · subst hj
    simp only [hscope, decide_true, Bool.or_true, Bool.and_self, if_true]
  · have hne : (⟨i, hi⟩ : LaneId) ≠ k := fun h => hj (congrArg Fin.val h).symm
    simp only [if_neg hj, hne, decide_false, Bool.or_false]

/-- Whether the forcing has reached a lane that is not in scope does not matter. -/
theorem State.reachedBy_of_not_scope (hscope : s.trips[n.val].scope.getLsbD k = false) :
    (s.reachedBy n fun j => taken j || decide (j = k)) = s.reachedBy n taken := by
  have key (j : LaneId) : (s.trips[n.val].scope.getLsbD j && (taken j || decide (j = k))) =
      (s.trips[n.val].scope.getLsbD j && taken j) := by
    by_cases hj : j = k
    · rw [hj, hscope]
      rfl
    · simp [hj]
  simp only [State.reachedBy, key, State.settingOf_of_waiting (fun h => absurd h (by rw [hscope]; decide))]

/-- The forcing reaches one more lane. -/
theorem reachForcing_reachedBy (h : s.SettingsWait) (ht : taken k = false) :
    (if s.trips[n.val].scope.getLsbD k then reachForcing n k (s.reachedBy n taken) else s.reachedBy n taken) =
      s.reachedBy n fun j => taken j || decide (j = k) := by
  have hlane : (s.reachedBy n taken).lane k = s.lane k := by simp [State.lane_reachedBy, ht]
  by_cases hscope : s.trips[n.val].scope.getLsbD k = true
  · rw [if_pos hscope, reachForcing, hlane, State.reachedBy_insert hscope, Lane.reached]
    by_cases hk : (s.lane k).free = true
    · have hnote : noteForcing n k (s.lane k).state.forcible.isSome (s.reachedBy n taken).settings =
          s.settings ++ [s.settingOf n fun j => taken j || decide (j = k)] := by
        rw [← noteForcing_settingOf hscope hk ht]
        exact noteForcing_append (h.not_waiting hk) _ _
      rw [if_pos hk, if_pos hk, forceLane, State.onLane, hlane, hnote]
    · rw [if_neg hk, if_neg hk, State.onLane, hlane,
        State.settingOf_of_waiting fun _ => Bool.eq_false_iff.mpr hk]
      rfl
  · rw [if_neg hscope, State.reachedBy_of_not_scope (by simpa using hscope)]

/-- The forcing reaches these lanes, one after another. -/
theorem reachForcing_foldl_reachedBy (h : s.SettingsWait) (n : SourceId) (ks : List LaneId) :
    ∀ taken : LaneId → Bool, ks.Nodup → (∀ k ∈ ks, taken k = false) →
      ks.foldl (fun t (k : LaneId) => if s.trips[n.val].scope.getLsbD k then reachForcing n k t else t) (s.reachedBy n taken) =
        s.reachedBy n fun j => taken j || decide (j ∈ ks) := by
  induction ks with
  | nil => intro taken _ _; simp
  | cons k ks ih =>
    intro taken hnodup htaken
    obtain ⟨hk, hks⟩ := List.nodup_cons.mp hnodup
    rw [List.foldl_cons, reachForcing_reachedBy h (htaken k List.mem_cons_self), ih _ hks]
    · simp only [Bool.or_assoc, List.mem_cons, Bool.decide_or]
    · intro j hj
      have hne : j ≠ k := fun e => hk (e ▸ hj)
      simp [htaken j (List.mem_cons_of_mem k hj), hne]

theorem State.reachedBy_none (s : State) (n : SourceId) :
    s.reachedBy n (fun _ => false) =
      (s.onTrip n fun t => { t with latch := true }).withSettings (s.settings ++ [⟨n, s.trips[n.val].scope, 0⟩]) := by
  have hset : s.settingOf n (fun _ => false) = ⟨n, s.trips[n.val].scope, 0⟩ := by
    rw [State.settingOf, Setting.mk.injEq]
    refine ⟨rfl, LaneMask.ext fun j => ?_, LaneMask.ext fun j => ?_⟩
    · rw [getLsbD_ofLanes]
      simp
    · rw [getLsbD_ofLanes]
      simp
  have hlanes : (Vector.ofFn fun k : LaneId =>
      if s.trips[n.val].scope.getLsbD k && false then (s.lane k).reached n else s.lane k) = s.lanes := by
    refine Vector.ext fun i hi => ?_
    rw [Vector.getElem_ofFn, Bool.and_false]
    rfl
  rw [State.reachedBy, hset, hlanes]
  rfl

/-- The setting of a latch is the act of the statements, where every setting that waits does so for forcings that are kept. -/
theorem setLatch_eq_latched (h : s.SettingsWait) (n : SourceId) : setLatch n s = s.latched n := by
  have hall := reachForcing_foldl_reachedBy h n allLanes (fun _ => false) (List.nodup_finRange 8) fun _ _ => rfl
  have hmem (j : LaneId) : (false || decide (j ∈ allLanes)) = true := by simp [allLanes]
  simp only [hmem, State.reachedBy_none] at hall
  have hmoved (k : LaneId) :
      (s.trips[n.val].scope.getLsbD k && ((s.lane k).free && (s.lane k).state.forcible.isSome)) =
      (s.trips[n.val].scope.getLsbD k && (s.lane k).free && decide ((s.lane k).state ≠ .idle) &&
        decide ((s.lane k).state ≠ .tripped)) := by
    rw [LaneState.forcible_isSome, Bool.decide_and]
    simp only [Bool.and_assoc]
  have hreached (k : LaneId) : (if s.trips[n.val].scope.getLsbD k && true then (s.lane k).reached n else s.lane k) =
      if s.trips[n.val].scope.getLsbD k && (s.lane k).free then (s.lane k).force
      else if s.trips[n.val].scope.getLsbD k then { s.lane k with kept := (s.lane k).kept ++ [.forcing n] }
      else s.lane k := by
    unfold Lane.reached
    cases s.trips[n.val].scope.getLsbD k <;> cases (s.lane k).free <;> rfl
  simp only [setLatch]
  rw [hall, raiseTrips_eq]
  simp only [State.latched, State.reachedBy, State.settingOf, hmoved, hreached, Bool.true_and]
  rfl

/-! ## The setting of a latch by a host command -/

/-- A latch set by a host command: things may happen first, and then every lane that keeps a forcing completes (R143, R146). -/
theorem setLatchNow_spec (h : s.SettingsWait) (n : SourceId) :
    ∃ t, (s.latched n).GoesOn 0 t ∧
      setLatchNow n s = followUp ((completeLanes (waitingLanes t.settings) t).arriveFrom .tripUnit) := by
  refine ⟨interlude 0 (s.latched n), interlude_goesOn 0 _, ?_⟩
  rw [setLatchNow, setLatch_eq_latched h]
  rfl

/-- Where nothing can happen beside the write the latch is set, and that is all. -/
theorem setLatchNow_of_calm (h : s.SettingsWait) (hc : (s.latched n).happenings 0 = []) (ho : (s.latched n).outbox = []) :
    setLatchNow n s = s.latched n := by
  have hlate := State.late_nil_of_calm hc
  rw [setLatchNow, setLatch_eq_latched h, interlude_of_calm hc, completeSettings, completeLanes_of_settled,
    State.arriveFrom_of_nil (State.lateOf_eq_nil_of_late_nil hlate), followUp_of_outbox_nil ho]
  intro k
  obtain ⟨hentry, hkept, -⟩ := State.quiet_of_calm hc k
  exact ⟨hentry, hkept⟩

theorem State.latched_outbox (s : State) (n : SourceId) : (s.latched n).outbox = s.outbox := by
  simp only [State.latched, State.raiseTripNotices_outbox]

/-! ## TRIP_ASSERT -/

theorem exec_tripAssert (hs : s.resetLow = false) (v : Word) :
    exec (.tripAssert v) s = .next (
      if s.trips[4].enable = false then s.report .state
      else if s.trips[4].latch = true then s.report .taken
      else setLatchNow 4 (s.report .taken)) := by
  have hrow : exec (.tripAssert v) s = .next (tripAssert v s) := rfl
  rw [hrow, tripAssert, hostAccess_of_resetHigh hs]
  simp only [Bool.not_eq_true']
  rfl

/-- Settles O40: the setting of the latch is `setLatch_eq_latched`, which does not see the result reported. -/
theorem tripAssertSetsTheSoftwareLatch : Obligations.TripAssertSetsTheSoftwareLatch := by
  intro v s hs hw
  have hw' : (s.report .taken).SettingsWait := hw
  dsimp only
  rw [exec_tripAssert hs]
  refine ⟨fun he => by rw [if_pos he]; rfl, fun he hl => by rw [if_neg (by simp [he]), if_pos hl]; rfl, fun he hl => ?_⟩
  rw [if_neg (by simp [he]), if_neg (by simp [hl])]
  refine ⟨?_, fun hc ho => ?_⟩
  · obtain ⟨t, hgo, heq⟩ := setLatchNow_spec hw' 4
    exact ⟨t, hgo, congrArg _ heq⟩
  · exact congrArg _ (setLatchNow_of_calm hw' hc ((State.latched_outbox _ _).trans ho))

/-! ## TRIP_CONFIG -/

theorem exec_tripConfig (hs : s.resetLow = false) (v : Word) :
    exec (.tripConfig v) s = .next (
      if h : (v.extractLsb' 0 3).toNat < 5 then
        if s.trips[(v.extractLsb' 0 3).toNat].latch then s.report .state
        else configureTrip ⟨(v.extractLsb' 0 3).toNat, h⟩ (s.report .taken)
      else s.report .range) := by
  have hrow : exec (.tripConfig v) s = .next (tripConfig v s) := rfl
  rw [hrow, tripConfig, hostAccess_of_resetHigh hs]
  simp only [wordField_eq]

/-- The configuration of a pin source, field by field (R143). -/
theorem TripSource.configurePin_eq (t : TripSource) (arg0 arg1 : Word) :
    t.configurePin arg0 arg1 = { t with
      enable := arg0[0]
      scope := arg1.setWidth 8
      activeLow := arg0[1]
      filter := arg0.extractLsb' 8 8
      active := if arg0[1] = t.activeLow then t.active else t.pin ^^ arg0[1]
      acceptance := if arg0[1] = t.activeLow ∧ arg0.extractLsb' 8 8 = t.filter then t.acceptance else none } := by
  have henable : arg0.getLsbD 0 = arg0[0] := rfl
  have hlow : arg0.getLsbD 1 = arg0[1] := rfl
  simp only [TripSource.configurePin, TripSource.presented, henable, hlow, maskOf]
  by_cases ha : arg0[1] = t.activeLow
  · rw [if_neg (not_not_intro ha.symm)]
    by_cases hf : arg0.extractLsb' 8 8 = t.filter
    · rw [if_neg (not_not_intro hf.symm)]
      simp only [ha, hf, and_self, if_true]
    · rw [if_pos (Ne.symm hf)]
      simp only [ha, hf, and_false, if_true, if_false]
  · rw [if_pos (Ne.symm ha)]
    simp only [ha, false_and, if_false]

/-- What a taken TRIP_CONFIG of source n stores, before the latch that it may set (R143). -/
def State.configured (s : State) (n : SourceId) : State :=
  if n = swSource then s.onTrip n fun t => t.configureSw s.tripArg0 s.tripArg1
  else
    (s.onTrip n fun t => t.configurePin s.tripArg0 s.tripArg1).restart fun
      | .trip m => m.castSucc = n && s.trips[n.val].refilters (s.trips[n.val].configurePin s.tripArg0 s.tripArg1)
      | .input _ | .quadrature _ _ => false

/-- A taken TRIP_CONFIG stores the configuration, and sets the latch of a pin source that is then enabled and active (R143,
R145). -/
theorem configureTrip_eq (s : State) (n : SourceId) :
    configureTrip n s =
      if n ≠ swSource ∧ (s.trips[n.val].configurePin s.tripArg0 s.tripArg1).enable = true ∧
          (s.trips[n.val].configurePin s.tripArg0 s.tripArg1).active = true then
        setLatchNow n (s.configured n)
      else s.configured n := by
  have htrip : (s.onTrip n fun t => t.configurePin s.tripArg0 s.tripArg1).trips[n.val] =
      s.trips[n.val].configurePin s.tripArg0 s.tripArg1 := by simp [State.onTrip]
  unfold configureTrip State.configured
  by_cases hn : n = swSource
  · rw [if_pos hn, if_pos hn, if_neg fun h => h.1 hn]
  · simp only [if_neg hn, htrip, Bool.and_eq_true]
    exact if_congr (by simp [hn]) rfl rfl

/-- A pin begins its filter afresh when the polarity or the filter count changes (R143). -/
theorem TripSource.refilters_configurePin (t : TripSource) (arg0 arg1 : Word) :
    t.refilters (t.configurePin arg0 arg1) = decide (arg0[1] ≠ t.activeLow ∨ arg0.extractLsb' 8 8 ≠ t.filter) := by
  rw [TripSource.configurePin_eq, TripSource.refilters, Bool.eq_iff_iff]
  simp only [Bool.or_eq_true, bne_iff_ne, decide_eq_true_eq]
  exact or_congr ne_comm ne_comm

theorem State.configured_pin (s : State) {n : Nat} (h : n < 5) (hn : n ≠ 4) :
    (s.report .taken).configured ⟨n, h⟩ =
      ({ s with trips := s.trips.set n (s.trips[n].configurePin s.tripArg0 s.tripArg1), cmdResult := .taken } : State).restart
        fun
        | .trip m => decide (m.val = n ∧
            (s.tripArg0[1] ≠ s.trips[n].activeLow ∨ s.tripArg0.extractLsb' 8 8 ≠ s.trips[n].filter))
        | .input _ | .quadrature _ _ => false := by
  have hsw : (⟨n, h⟩ : SourceId) ≠ swSource := fun e => hn (congrArg Fin.val e)
  rw [State.configured, if_neg hsw]
  refine congrArg (State.restart _) (funext fun pin => ?_)
  cases pin with
  | trip m =>
    have hm : m.castSucc = (⟨n, h⟩ : SourceId) ↔ m.val = n := Fin.ext_iff
    have hr := TripSource.refilters_configurePin s.trips[n] s.tripArg0 s.tripArg1
    simp only [Bool.decide_and, ← hr, hm]
    rfl
  | input _ => rfl
  | quadrature _ _ => rfl

/-- The configuration of a source changes no lane and no setting. -/
theorem State.SettingsWait.configured (h : s.SettingsWait) (n : SourceId) : (s.configured n).SettingsWait := by
  unfold State.configured
  split <;> exact h

theorem State.configured_sw (s : State) (h : 4 < 5) :
    (s.report .taken).configured ⟨4, h⟩ = { s with
      trips := s.trips.set 4 { s.trips[4] with enable := s.tripArg0[0], scope := s.tripArg1.setWidth 8 }
      cmdResult := .taken } := rfl

/-- Settles O39: `configureTrip_eq`, with the fields of the configuration and the setting of the latch spelled out. -/
theorem tripConfigReplacesTheConfiguration : Obligations.TripConfigReplacesTheConfiguration := by
  intro v s hs hw
  dsimp only
  rw [exec_tripConfig hs]
  generalize (v.extractLsb' 0 3).toNat = n
  refine ⟨fun h => by rw [dif_neg (Nat.not_lt.mpr h)]; rfl, fun h => ?_⟩
  rw [dif_pos h]
  have hsw : (⟨n, h⟩ : SourceId) ≠ swSource ↔ n ≠ 4 := not_congr Fin.ext_iff
  refine ⟨fun hl => by rw [if_pos hl]; rfl, fun hl hset => ?_, fun hl hset => ?_⟩
  · have hn := hset.1
    simp only [if_neg hn, ← TripSource.configurePin_eq] at hset ⊢
    have hw' : (s.report .taken).SettingsWait := hw
    obtain ⟨t, hgo, heq⟩ := setLatchNow_spec (hw'.configured ⟨n, h⟩) ⟨n, h⟩
    rw [if_neg (by simp [hl]), configureTrip_eq, if_pos ⟨hsw.mpr hn, hset.2⟩, heq]
    rw [State.configured_pin s h hn] at hgo
    exact ⟨t, hgo, rfl⟩
  · by_cases hn : n = 4
    · subst hn
      rw [if_neg (by simp [hl]), configureTrip_eq, if_neg fun hset => hsw.mp hset.1 rfl]
      exact congrArg _ (State.configured_sw s h)
    · simp only [if_neg hn, ← TripSource.configurePin_eq] at hset ⊢
      rw [if_neg (by simp [hl]), configureTrip_eq, if_neg fun hnow => hset ⟨hn, hnow.2⟩]
      exact congrArg _ (State.configured_pin s h hn)

end
end Sys2Proof.Machine

/-! Every chain ends (R141): each piece of work that the lanes can do leaves less to be done, counted so that the count is never
above `workBound`. -/

namespace Sys2Proof.Machine

/-! ## What a lane may still do -/

/-- What an event that the lane has kept may still lead to: one piece of work to take it, and for a tick an entry with what it
emits, or what leaving the step emits, and a notice on its way. -/
def Event.effort : Event → Nat
  | .tick => 35
  | .edge _ _ | .arrival _ _ _ | .emission _ | .forcing _ => 1

/-- What the lane may do before it takes another tick: the fetch of an entry in progress and the emission of its commit, or what
leads to one entry (R55, R139). An emission counts as the two pieces of work that each of eight lanes may do with it. -/
def Lane.reserve (l : Lane) : Nat :=
  if l.entry.isSome then 17 else if l.state = .armed ∨ l.state = .running ∧ l.dwell = 0 then 33 else 0

/-- What the lane may still do with what has been handed to it. -/
def Lane.effort (l : Lane) : Nat :=
  l.reserve + (l.kept.map Event.effort).sum + (l.coming.map fun e => e.effort + 1).sum

/-- What an act leaves to be done, and makes the other lanes do. -/
def Act.effort (a : Act) : Nat := a.lane.reserve + if a.emits then 16 else 0

/-- What the lanes may still do, and the notices that may still arrive. -/
def State.effort (s : State) : Nat :=
  (∑ k : LaneId, (s.lane k).effort) + s.settings.length + s.late.length + 16 * s.outbox.length

section
variable {k : LaneId} {l : Lane}

theorem Lane.reserve_le (l : Lane) : l.reserve ≤ 33 := by
  unfold Lane.reserve
  split
  · decide
  · split <;> decide

theorem Lane.reserve_of_entry (h : l.entry.isSome = true) : l.reserve = 17 := by rw [Lane.reserve, if_pos h]

/-- A lane that is not in the middle of an entry and is neither ARMED nor RUNNING with its time passed has nothing to do. -/
theorem Lane.reserve_eq_zero (h : l.entry = none) (ha : l.state ≠ .armed) (hr : l.state = .running → l.dwell ≠ 0) :
    l.reserve = 0 := by
  rw [Lane.reserve, if_neg (by simp [h]), if_neg]
  rintro (h' | ⟨h', hd⟩)
  · exact ha h'
  · exact hr h' hd

/-! ## What each act leaves to be done -/

theorem Act.effort_le {a : Act} {n : Nat} (h : a.lane.reserve ≤ n) : a.effort ≤ n + 16 := by
  unfold Act.effort
  split <;> omega

theorem Act.after_effort (a : Act) (b : NoticeBody) : (a.after b).effort = a.effort := rfl

/-- What an entry remembers does not matter. -/
theorem Act.effort_mapEntry (a : Act) (f : Entry → Entry) :
    ({ a with lane := { a.lane with entry := a.lane.entry.map f } } : Act).effort = a.effort := by
  simp [Act.effort, Lane.reserve]

theorem Act.following_effort (a : Act) (e : Event) (turn : Nat) : (a.following e turn).effort = a.effort :=
  a.effort_mapEntry _

theorem Act.bridge_effort (a : Act) (line : Option (Fin 32)) : (a.bridge line).effort = a.effort :=
  a.effort_mapEntry _

theorem Lane.faults_effort (h : l.entry = none) (c : FaultCause) : (l.faults k c).effort ≤ 16 :=
  Act.effort_le (Lane.reserve_eq_zero (l := (l.faults k c).lane) h nofun nofun).le

theorem Lane.applies_effort (d : Descriptor) (o : SwapOccasion) : (l.applies k d o).effort = 17 := rfl

theorem Lane.enters_effort (full : Bool) (o : Nat) (c : EntryCause) : (l.enters k full o c).effort = 17 := by
  unfold Lane.enters
  split
  · rfl
  · split <;> rfl

theorem Lane.starts_effort : (l.starts k).effort = 17 := by
  unfold Lane.starts
  split <;> rfl

theorem Lane.ends_effort (h : l.entry = none) (b : Bool) : (l.ends k b).effort ≤ 33 := by
  simp only [Lane.ends]
  split
  · exact (Lane.applies_effort _ _).trans_le (by decide)
  · split
    · exact (Lane.faults_effort h _).trans (by decide)
    · split
      · refine (Act.effort_le (n := 0) (Lane.reserve_eq_zero ?_ ?_ ?_).le).trans (by decide)
        · exact h
        · exact nofun
        · exact nofun
      · exact Act.effort_le (Lane.reserve_of_entry rfl).le

theorem Lane.goesOn_effort (h : l.entry = none) (b : Bool) : (l.goesOn k b).effort ≤ 33 := by
  unfold Lane.goesOn
  split
  · exact (Lane.enters_effort _ _ _).trans_le (by decide)
  · exact Lane.ends_effort h b

theorem Lane.leaves_effort (h : l.entry = none) (b : Bool) : (l.leaves k b).effort ≤ 33 := by
  simp only [Lane.leaves]
  split
  · exact l.reserve_le
  · split
    · exact Lane.goesOn_effort h b
    · exact Lane.goesOn_effort h b
    · exact (Lane.faults_effort h _).trans (by decide)
    · split
      · exact Lane.goesOn_effort (by exact h) b
      · exact (Lane.enters_effort _ _ _).trans_le (by decide)

theorem Lane.actsOnFault_effort (h : l.entry = none) : (l.actsOnFault k).effort ≤ 33 := by
  unfold Lane.actsOnFault
  split
  · exact l.reserve_le
  · split
    · exact Lane.leaves_effort h true
    · rw [Act.after_effort, Lane.enters_effort]
      decide
    · exact (Lane.faults_effort h _).trans (by decide)

/-- A lane judges its condition only with its time passed, and uses up what it may do (R55). -/
theorem Lane.judges_effort (h : l.entry = none) (accepted : BitVec 16) : (l.judges k accepted).effort ≤ l.reserve := by
  unfold Lane.judges
  split
  · rename_i hl
    obtain ⟨hrun, hdwell, -⟩ := hl
    have hres : l.reserve = 33 := by rw [Lane.reserve, if_neg (by simp [h]), if_pos (.inr ⟨hrun, hdwell⟩)]
    rw [hres]
    exact Lane.leaves_effort h _
  · exact le_rfl

theorem Lane.ticks_effort (h : l.entry = none) (accepted : BitVec 16) : (l.ticks k accepted).effort ≤ 33 := by
  unfold Lane.ticks
  split
  · rw [Act.bridge_effort]
    split
    · exact Lane.leaves_effort (by exact h) _
    · split
      · exact Lane.actsOnFault_effort (by exact h)
      · exact Lane.reserve_le _
  · exact Lane.reserve_le _
  · exact Lane.reserve_le _

/-- An ARMED lane is started at most once (R139). -/
theorem Lane.starts_effort_le (h : l.entry = none) (ha : l.state = .armed) : (l.starts k).effort ≤ l.reserve := by
  rw [Lane.starts_effort, Lane.reserve, if_neg (by simp [h]), if_pos (.inl ha)]
  decide

theorem Lane.takesEdge_effort (h : l.entry = none) (n : InputId) (e : Sense) (accepted : BitVec 16) (turn : Nat) :
    (l.takesEdge k n e accepted turn).effort ≤ l.reserve := by
  unfold Lane.takesEdge
  split
  · rename_i ha
    split
    · rw [Act.following_effort]
      exact Lane.starts_effort_le h ha
    · exact le_rfl
  · split
    · exact Lane.judges_effort h _
    · split
      · exact Lane.judges_effort (by exact h) _
      · exact le_rfl

theorem Lane.takesArrival_effort (h : l.entry = none) (u : UnitId) (v : Word) (d : Direction) (accepted : BitVec 16) :
    (l.takesArrival k u v d accepted).effort ≤ l.reserve := by
  unfold Lane.takesArrival
  split
  · exact Lane.judges_effort (l := { l with latch := true }) h _
  · exact le_rfl

theorem Lane.takesEmission_effort (h : l.entry = none) (line : LaneId) (accepted : BitVec 16) (turn : Nat) :
    (l.takesEmission k line accepted turn).effort ≤ l.reserve := by
  unfold Lane.takesEmission
  split
  · rename_i ha
    split
    · rw [Act.following_effort]
      exact Lane.starts_effort_le h ha
    · exact le_rfl
  · split
    · rw [Act.following_effort]
      exact Lane.judges_effort (l := { l with latch := true }) h _
    · exact le_rfl

theorem Lane.failsEntry_effort (h : l.entry = none) (c : FaultCause) : (l.failsEntry k c).effort ≤ 16 :=
  Lane.faults_effort (by exact h) c

/-- A lane that has completed its entry waits for its time, in RUNNING with a time of at least 1, or is FAULTED (R4, R49). -/
theorem Lane.completes_effort (e : Entry) (r : Record) (owners : Vector (Option LaneId) 32) :
    (l.completes k e r owners).effort ≤ 16 := by
  unfold Lane.completes
  split
  · exact Lane.failsEntry_effort rfl _
  · split
    · exact Lane.failsEntry_effort rfl _
    · refine Act.effort_le (n := 0) (Lane.reserve_eq_zero rfl ?_ fun _ => ?_).le
      · exact nofun
      · exact Nat.ne_of_gt (Nat.le_max_left 1 _)

theorem Lane.force_reserve (h : l.entry = none) : l.force.reserve ≤ l.reserve := by
  unfold Lane.force
  split
  · exact le_rfl
  · refine (Lane.reserve_eq_zero ?_ ?_ ?_).trans_le (Nat.zero_le _)
    · exact h
    · exact nofun
    · exact nofun

/-! ## What an act makes of all that may still be done -/

/-- Events that are forgotten leave less to do. -/
theorem Act.Follows.coming_effort {a : Act} (h : a.Follows l) :
    (a.lane.coming.map fun e => e.effort + 1).sum ≤ (l.coming.map fun e => e.effort + 1).sum := by
  rcases h.coming with hc | ⟨hc, -⟩
  · rw [hc]
  · rw [hc]
    exact (List.filter_sublist.map _).sum_le_sum fun _ _ => Nat.zero_le _

end

section
variable {k : LaneId} {s t : State}

/-- A change of one lane. -/
theorem sum_lanes_effort (h : ∀ j, j ≠ k → t.lane j = s.lane j) :
    (∑ j, (t.lane j).effort) + (s.lane k).effort = (∑ j, (s.lane j).effort) + (t.lane k).effort := by
  have hrest : ∑ j ∈ Finset.univ.erase k, (t.lane j).effort = ∑ j ∈ Finset.univ.erase k, (s.lane j).effort :=
    Finset.sum_congr rfl fun j hj => by rw [h j (Finset.ne_of_mem_erase hj)]
  rw [← Finset.add_sum_erase _ _ (Finset.mem_univ k), ← Finset.add_sum_erase _ (fun j => (s.lane j).effort) (Finset.mem_univ k),
    hrest]
  omega

theorem State.raiseAll_late_length (x : Sender) (bs : List NoticeBody) : (s.raiseAll x bs).late.length ≤ s.late.length := by
  cases bs with
  | nil => exact le_rfl
  | cons b bs =>
    rw [State.raiseAll_eq (List.cons_ne_nil b bs)]
    exact List.length_filter_le _ _

/-- An act of a lane: what it leaves to be done takes the place of what the lane could do. -/
theorem State.withAct_effort {a : Act} (h : a.Follows (s.lane k)) :
    (s.withAct k a).effort + (s.lane k).reserve ≤ s.effort + a.effort := by
  have hlanes := sum_lanes_effort (s := s) (t := s.withAct k a) (k := k) fun j hj => State.lane_withAct_ne hj a
  have hlate := State.raiseAll_late_length (s := s) (.lane k) a.notices
  have hcoming := h.coming_effort
  rw [State.lane_withAct_self] at hlanes
  have hset : (s.withAct k a).settings = s.settings := by
    rw [State.withAct_frame]
    rfl
  have hnotices : (s.withAct k a).late = (s.raiseAll (.lane k) a.notices).late := by rw [State.withAct_frame]
  have hout : (s.withAct k a).outbox = if a.emits then s.outbox ++ [k] else s.outbox := rfl
  simp only [Lane.effort, h.kept] at hlanes
  simp only [State.effort, Act.effort, Lane.effort, hset, hnotices, hout]
  split
  · rw [List.length_append, List.length_singleton]
    omega
  · omega

/-! ## What each piece of work leaves to be done -/

/-- A lane that takes an event next has it no longer waiting. -/
theorem Lane.taking_effort {l l' : Lane} {e : Event} (h : l.taking e = some l') : l'.effort + e.effort ≤ l.effort := by
  unfold Lane.taking at h
  split at h
  · rename_i x rest _ hk
    split at h <;> cases h
    rename_i hx
    subst hx
    simp only [Lane.effort, hk, List.map_cons, List.sum_cons]
    have : ({ l with kept := rest } : Lane).reserve = l.reserve := rfl
    omega
  · split at h <;> cases h
    rename_i hn
    simp only [Lane.nextOfSource, beq_iff_eq] at hn
    have hsum := List.sum_map_erase (fun e : Event => e.effort + 1) (List.mem_of_find?_eq_some hn)
    simp only [Lane.effort, ← hsum]
    have : ({ l with coming := l.coming.erase e } : Lane).reserve = l.reserve := rfl
    omega
  · cases h

theorem Lane.taking_settled {l l' : Lane} {e : Event} (h : l.taking e = some l') : l'.entry = none := by
  unfold Lane.taking at h
  split at h
  · rename_i he _
    split at h <;> cases h
    exact he
  · rename_i he _
    split at h <;> cases h
    exact he
  · cases h

theorem State.setLane_effort (s : State) (k : LaneId) (l : Lane) :
    (s.setLane k l).effort + (s.lane k).effort = s.effort + l.effort := by
  have hlanes := sum_lanes_effort (s := s) (t := s.setLane k l) (k := k) fun j hj => State.lane_setLane_ne s hj l
  rw [State.lane_setLane_self] at hlanes
  simp only [State.effort, State.setLane_settings, State.setLane_late, State.setLane_outbox]
  omega

theorem noteForcing_length (n : SourceId) (k : LaneId) (moved : Bool) (l : List Setting) :
    (noteForcing n k moved l).length = l.length := by
  induction l with
  | nil => rfl
  | cons x l ih =>
    unfold noteForcing
    split
    · rfl
    · rw [List.length_cons, List.length_cons, ih]

theorem State.raiseTripNotices_late_length (bs : List NoticeBody) :
    (s.raiseTripNotices bs).late.length ≤ s.late.length + bs.length := by
  unfold State.raiseTripNotices
  split
  · simp [State.send, State.withNotices]
  · cases bs with
    | nil => exact le_rfl
    | cons b bs =>
      have := List.length_filter_le (fun n => decide (n.1 ≠ Sender.tripUnit)) s.late
      rw [State.raiseApart_eq, List.length_append, List.length_map, List.length_cons]
      omega

theorem State.raiseTripNotices_effort (bs : List NoticeBody) : (s.raiseTripNotices bs).effort ≤ s.effort + bs.length := by
  have hlate := State.raiseTripNotices_late_length (s := s) bs
  have hlane (k : LaneId) : (s.raiseTripNotices bs).lane k = s.lane k := by
    rw [State.raiseTripNotices_frame]
    rfl
  have hset : (s.raiseTripNotices bs).settings = s.settings := by rw [State.raiseTripNotices_frame]
  simp only [State.effort, hlane, hset, State.raiseTripNotices_outbox]
  omega

theorem State.withSettings_effort (s : State) (l : List Setting) :
    (s.withSettings l).effort + s.settings.length = s.effort + l.length := by
  have hlanes : ∑ k, ((s.withSettings l).lane k).effort = ∑ k, (s.lane k).effort := rfl
  have hset : (s.withSettings l).settings = l := rfl
  simp only [State.effort, hlanes, hset, State.withSettings_late, State.withSettings_outbox]
  omega

/-- A lane that is forced loses its reserve, and no event becomes one that waits. -/
theorem Lane.force_effort {l : Lane} (h : l.entry = none) : l.force.effort ≤ l.effort := by
  have hreserve := Lane.force_reserve h
  have hcoming := (Lane.force_follows h).coming_effort
  have hkept : l.force.kept = l.kept := (Lane.force_follows h).kept
  simp only [Act.silent] at hcoming
  simp only [Lane.effort, hkept]
  omega

/-- The notices of the settings that are complete take the place of these settings. -/
theorem takeForcing_effort (hs : (s.lane k).settled) (n : SourceId) : (takeForcing k n s).effort ≤ s.effort := by
  have hlane := Lane.force_effort hs
  have hset := s.setLane_effort k (s.lane k).force
  have hlen := noteForcing_length n k (s.lane k).state.forcible.isSome s.settings
  rw [takeForcing_eq]
  dsimp only
  generalize noteForcing n k (s.lane k).state.forcible.isSome s.settings = settings at hlen
  have hsplit := congrArg List.length (List.takeWhile_append_dropWhile (p := fun x : Setting => x.left == 0) (l := settings))
  have hwith := (s.setLane k (s.lane k).force).withSettings_effort (settings.dropWhile fun x => x.left == 0)
  refine State.raiseTripNotices_effort _ |>.trans ?_
  rw [List.length_append] at hsplit
  rw [State.setLane_settings] at hwith
  rw [List.length_map]
  omega

/-- A lane takes an event other than a tick, and does no more than it had in reserve. -/
theorem takeEvent_effort {e : Event} (hs : (s.lane k).settled) (he : e ≠ .tick) : (takeEvent k e s).effort ≤ s.effort := by
  have act {a : Act} (hf : a.Follows (s.lane k)) (ha : a.effort ≤ (s.lane k).reserve) : (s.withAct k a).effort ≤ s.effort := by
    have := State.withAct_effort hf
    omega
  cases e with
  | tick => exact absurd rfl he
  | edge n e =>
    rw [takeEvent, takeEdge_eq hs]
    exact act (Lane.takesEdge_follows hs _ _ _ _) (Lane.takesEdge_effort hs _ _ _ _)
  | arrival u v d =>
    rw [takeEvent, takeArrival_eq]
    exact act (Lane.takesArrival_follows hs _ _ _ _) (Lane.takesArrival_effort hs _ _ _ _)
  | emission line =>
    rw [takeEvent, takeEmission_eq hs]
    exact act (Lane.takesEmission_follows hs _ _ _) (Lane.takesEmission_effort hs _ _ _)
  | forcing n => exact takeForcing_effort hs n

theorem serveFetch_effort (h : (s.lane k).entry.isSome = true) : (serveFetch k s).effort < s.effort := by
  obtain ⟨e, he⟩ := Option.isSome_iff_exists.mp h
  have hact := State.withAct_effort (s := s) (k := k) (Lane.completes_follows (k := k) e (s.fetched k) s.owners)
  have hcost := Lane.completes_effort (k := k) (l := s.lane k) e (s.fetched k) s.owners
  rw [Lane.reserve_of_entry h] at hact
  rw [serveFetch_eq he]
  omega

/-- An event that is ready is taken next, or is the next of its source to be kept in the middle of an entry (R28). -/
theorem Lane.of_mem_ready {l : Lane} {e : Event} (h : e ∈ l.ready) :
    (∃ l', l.taking e = some l') ∨ l.entry.isSome = true ∧ l.nextOfSource e = true := by
  unfold Lane.ready at h
  unfold Lane.taking
  split at h
  · rename_i x rest he hk
    obtain rfl : e = x := by simpa using h
    exact .inl ⟨_, by simp only [he, hk, if_true]; rfl⟩
  · rename_i hready
    have hnext := List.of_mem_filter h
    cases he : l.entry with
    | some y => exact .inr ⟨rfl, hnext⟩
    | none =>
      cases hk : l.kept with
      | cons x rest => exact absurd hk (hready x rest he)
      | nil => exact .inl ⟨_, if_pos hnext⟩

/-- The lane keeps an event that was on its way (R28). -/
def Lane.keeping (l : Lane) (e : Event) : Lane := { l with coming := l.coming.erase e, kept := l.kept ++ [e] }

/-- An event that the lane keeps is one piece of work nearer to being taken. -/
theorem Lane.keeping_effort {l : Lane} {e : Event} (h : l.nextOfSource e = true) : (l.keeping e).effort < l.effort := by
  simp only [Lane.nextOfSource, beq_iff_eq] at h
  have hsum := List.sum_map_erase (fun e : Event => e.effort + 1) (List.mem_of_find?_eq_some h)
  have hreserve : (l.keeping e).reserve = l.reserve := rfl
  have hkept : ((l.keeping e).kept.map Event.effort).sum = (l.kept.map Event.effort).sum + e.effort := by
    simp [Lane.keeping]
  have hcoming : (l.keeping e).coming = l.coming.erase e := rfl
  simp only [Lane.effort, ← hsum, hreserve, hkept, hcoming]
  omega

theorem State.keeping_effort {e : Event} (h : (s.lane k).nextOfSource e = true) :
    (s.setLane k ((s.lane k).keeping e)).effort < s.effort := by
  have := s.setLane_effort k ((s.lane k).keeping e)
  have := Lane.keeping_effort h
  omega

theorem Event.effort_pos (e : Event) : 0 < e.effort := by cases e <;> simp [Event.effort]

/-- A lane that takes an event that is ready for it, or keeps it. -/
theorem takeNext_effort {e : Event} (h : e ∈ (s.lane k).ready) (he : e ≠ .tick) : (takeNext k e s).effort < s.effort := by
  rcases Lane.of_mem_ready h with ⟨l, hl⟩ | ⟨hentry, hnext⟩
  · have hset := s.setLane_effort k l
    have htaking := Lane.taking_effort hl
    have hpos := e.effort_pos
    have htake := takeEvent_effort (s := s.setLane k l) (k := k) (e := e)
      (by rw [State.lane_setLane_self]; exact Lane.taking_settled hl) he
    rw [takeNext_of_taking hl]
    omega
  · rw [takeNext_of_entry hentry hnext]
    exact State.keeping_effort hnext

theorem State.raiseApart_effort (x : Sender) (bs : List NoticeBody) :
    (s.raiseApart x bs).effort ≤ s.effort + (bs.length - 1) := by
  cases bs with
  | nil => exact le_rfl
  | cons b bs =>
    have hlate := List.length_filter_le (fun n => decide (n.1 ≠ x)) s.late
    have hlane (k : LaneId) : (s.raiseApart x (b :: bs)).lane k = s.lane k := rfl
    have hset : (s.raiseApart x (b :: bs)).settings = s.settings := rfl
    have hout : (s.raiseApart x (b :: bs)).outbox = s.outbox := rfl
    have hl : (s.raiseApart x (b :: bs)).late = (s.late.filter fun n => n.1 ≠ x) ++ bs.map fun body => (x, body) := by
      rw [State.raiseApart_eq]
    simp only [State.effort, hlane, hset, hout, hl, List.length_append, List.length_map, List.length_cons]
    omega

/-- The act with its notices withheld. -/
def Act.withoutNotices (a : Act) : Act := { a with notices := [] }

/-- A lane that takes or keeps a tick, the second of its notices being on its way. -/
theorem takeTickApart_effort (h : Event.tick ∈ (s.lane k).ready) : (takeTickApart k s).effort < s.effort := by
  rcases Lane.of_mem_ready h with ⟨l, hl⟩ | ⟨hentry, hnext⟩
  · have hsettled := Lane.taking_settled hl
    have hset := s.setLane_effort k l
    have htaking := Lane.taking_effort hl
    have hfollows : (l.ticks k s.inputs.accepted).withoutNotices.Follows ((s.setLane k l).lane k) := by
      rw [State.lane_setLane_self]
      exact (Lane.ticks_follows hsettled _).congr_lane rfl
    have hact := State.withAct_effort hfollows
    have hcost : (l.ticks k s.inputs.accepted).withoutNotices.effort ≤ 33 := Lane.ticks_effort hsettled _
    have hnotices := Lane.ticks_notices (k := k) l s.inputs.accepted
    have hwith : (s.setLane k l).withAct k (l.ticks k s.inputs.accepted).withoutNotices =
        s.withAct k (l.ticks k s.inputs.accepted).withoutNotices := State.withAct_onLane (fun _ => l) _
    have hticks : takeTickApart k s = (s.withAct k (l.ticks k s.inputs.accepted).withoutNotices).raiseApart (.lane k)
        (l.ticks k s.inputs.accepted).notices := takeTickApart_of_taking hl
    have hcostTick : Event.tick.effort = 35 := rfl
    rw [hwith] at hact
    rw [hticks]
    refine (State.raiseApart_effort _ _).trans_lt ?_
    omega
  · have hkept : takeNext k .tick (s.withNotices [] []) =
        (s.withNotices [] []).withAct k (.silent ((s.lane k).keeping .tick)) :=
      takeNext_of_entry (s := s.withNotices [] []) hentry hnext
    rw [takeTickApart, withheld_of_act hkept (Nat.zero_le 2)]
    exact State.keeping_effort hnext

/-- A notice on its way arrives. -/
theorem State.arriveNext_effort {x : Sender} (h : s.canArrive x = true) : (s.arriveNext x).effort < s.effort := by
  have hlate : s.lateOf x ≠ [] := by
    intro hnil
    cases x <;> simp [State.canArrive, hnil] at h
  obtain ⟨n, hn⟩ : ∃ n, s.late.find? (fun n => n.1 = x) = some n := by
    rw [← Option.isSome_iff_exists, List.find?_isSome]
    obtain ⟨b, hb⟩ := List.exists_mem_of_ne_nil _ hlate
    obtain ⟨n, hn, -⟩ := List.mem_map.mp hb
    obtain ⟨hmem, hx⟩ := List.mem_filter.mp hn
    exact ⟨n, hmem, hx⟩
  have hmem := List.mem_of_find?_eq_some hn
  have hlen := List.length_erase_of_mem hmem
  have hpos := List.length_pos_of_mem hmem
  have harrive : s.arriveNext x = ({ s with late := s.late.erase n } : State).raise n.2 := by simp only [State.arriveNext, hn]
  have hlane (k : LaneId) : (s.arriveNext x).lane k = s.lane k := by rw [harrive]; rfl
  have hset : (s.arriveNext x).settings = s.settings := by rw [harrive]; rfl
  have hout : (s.arriveNext x).outbox = s.outbox := by rw [harrive]; rfl
  have hl : (s.arriveNext x).late = s.late.erase n := by rw [harrive]; rfl
  simp only [State.effort, hlane, hset, hout, hl]
  omega

/-- What can be done next, kind by kind. -/
theorem State.of_mem_work {lanes : LaneMask} {w : Work} (h : w ∈ s.work lanes) :
    (∃ k, w = .fetch k ∧ s.serves lanes k = true ∧ (s.lane k).entry.isSome = true) ∨
      (∃ k, ∃ e ∈ (s.lane k).ready, w = .deliver k e) ∨ ∃ x, w = .notice x ∧ s.canArrive x = true := by
  simp only [State.work, List.mem_append, List.mem_flatMap, Lane.work, State.arrivals, List.mem_map, List.mem_filter] at h
  rcases h with ⟨k, -, hfetch | ⟨e, he, rfl⟩⟩ | ⟨x, ⟨-, hx⟩, rfl⟩
  · split at hfetch
    · rename_i hserve
      rw [Bool.and_eq_true] at hserve
      exact .inl ⟨k, by simpa using hfetch, hserve⟩
    · cases hfetch
  · exact .inr (.inl ⟨k, e, he, rfl⟩)
  · exact .inr (.inr ⟨x, rfl, hx⟩)

/-- Each piece of work leaves less to be done. -/
theorem doWork_effort {lanes : LaneMask} {w : Work} (h : w ∈ s.work lanes) : (doWork s w).effort < s.effort := by
  rcases State.of_mem_work h with ⟨k, rfl, -, hentry⟩ | ⟨k, e, he, rfl⟩ | ⟨x, rfl, hx⟩
  · exact serveFetch_effort hentry
  · cases e with
    | tick => exact takeTickApart_effort he
    | edge _ _ | arrival _ _ _ | emission _ | forcing _ => exact takeNext_effort he nofun
  · exact State.arriveNext_effort hx

/-! ## Handing out, and the bound -/

theorem handToAll_effort (line : LaneId) (s : State) : (handToAll (.emission line) s).effort ≤ s.effort + 16 := by
  have hlane (k : LaneId) : ((handToAll (.emission line) s).lane k).effort ≤ (s.lane k).effort + 2 := by
    rw [lane_handToAll]
    split
    · omega
    · simp only [Lane.effort, Lane.withComing, List.map_append, List.sum_append, List.map_cons, List.map_nil, List.sum_cons,
        List.sum_nil]
      have hreserve : (Lane.withComing (s.lane k) ((s.lane k).coming ++ [.emission line])).reserve = (s.lane k).reserve := rfl
      simp only [Lane.withComing] at hreserve
      have hcost : (Event.emission line).effort = 1 := rfl
      omega
  have hsum : ∑ k, ((handToAll (.emission line) s).lane k).effort ≤ (∑ k, (s.lane k).effort) + 16 := by
    refine (Finset.sum_le_sum fun k _ => hlane k).trans ?_
    rw [Finset.sum_add_distrib]
    simp
  have hset : (handToAll (.emission line) s).settings = s.settings := rfl
  have hlate : (handToAll (.emission line) s).late = s.late := rfl
  have hout : (handToAll (.emission line) s).outbox = s.outbox := rfl
  simp only [State.effort, hset, hlate, hout]
  omega

theorem handLines_effort (lines : List LaneId) : ∀ s, (handLines lines s).effort ≤ s.effort + 16 * lines.length := by
  induction lines with
  | nil => exact fun s => le_rfl
  | cons line lines ih =>
    intro s
    have hfirst := handToAll_effort line s
    have hrest := ih (handToAll (.emission line) s)
    rw [List.length_cons]
    exact hrest.trans (by omega)

/-- An emission in the outbox counts as what the lanes may do with it. -/
theorem handOut_effort (s : State) : (handOut s).effort ≤ s.effort := by
  have hlines := handLines_effort s.outbox (s.withOutbox [])
  have hout : (s.withOutbox []).effort + 16 * s.outbox.length = s.effort := rfl
  exact hlines.trans hout.le

/-- The model's bound is above what the lanes may still do (log 21). -/
theorem effort_le_workBound (ho : s.outbox = []) : s.effort ≤ workBound s := by
  have hcost (e : Event) : e.effort + 1 ≤ 40 := by cases e <;> simp [Event.effort]
  have hcoming (l : List Event) : (l.map fun e => e.effort + 1).sum ≤ l.length * 40 := by
    have := List.sum_le_card_nsmul (l.map fun e => e.effort + 1) 40 (by simpa using fun e _ => hcost e)
    simpa using this
  have hkept (l : List Event) : (l.map Event.effort).sum ≤ l.length * 40 := by
    have := List.sum_le_card_nsmul (l.map Event.effort) 40 (by simpa using fun e _ => Nat.le_of_succ_le (hcost e))
    simpa using this
  have hlane (k : LaneId) : (s.lane k).effort ≤ 33 + ((s.lane k).kept.length + (s.lane k).coming.length) * 40 := by
    have := (s.lane k).reserve_le
    have := hkept (s.lane k).kept
    have := hcoming (s.lane k).coming
    unfold Lane.effort
    omega
  have hsum : ∑ k, (s.lane k).effort ≤ 264 + (∑ k, ((s.lane k).kept.length + (s.lane k).coming.length)) * 40 := by
    refine (Finset.sum_le_sum fun k _ => hlane k).trans ?_
    rw [Finset.sum_add_distrib, Finset.sum_mul]
    simp
  have hbound : (allLanes.map fun k => (s.lane k).kept.length + (s.lane k).coming.length).sum =
      ∑ k, ((s.lane k).kept.length + (s.lane k).coming.length) := (Fin.sum_univ_def _).symm
  simp only [workBound, hbound, State.effort, ho, List.length_nil]
  omega

end
end Sys2Proof.Machine

/-! What follows from a host write: it is made of things that can happen, and it goes on until the chain of the write is complete
(R135, R141, R177). -/

namespace Sys2Proof.Machine

section
variable {k j : LaneId} {s t : State} {c : Chain}

/-! ## A piece of work is one of the things that can happen -/

theorem State.inTurn_of_serves {lanes : LaneMask} (h : s.serves lanes k = true) : s.inTurn k = true :=
  (Bool.and_eq_true_iff.mp h).1

theorem State.mem_happenings_of_work {lanes : LaneMask} {w : Work} (h : w ∈ s.work lanes) :
    Happening.work w ∈ s.happenings 0 := by
  have lane {k : LaneId} (hk : w ∈ (s.lane k).work k (s.inTurn k)) : Happening.work w ∈ s.happenings 0 := by
    simp only [State.happenings, List.mem_append]
    refine .inl (.inl (.inl (.inl (.inl (List.mem_flatMap.mpr ⟨k, List.mem_finRange k, ?_⟩)))))
    exact List.mem_map_of_mem (by simpa using hk)
  rcases State.of_mem_work h with ⟨k, rfl, hserve, hentry⟩ | ⟨k, e, he, rfl⟩ | ⟨x, rfl, hx⟩
  · refine lane (k := k) (List.mem_append_left _ ?_)
    rw [State.inTurn_of_serves hserve, hentry]
    exact List.mem_singleton_self _
  · exact lane (k := k) (List.mem_append_right _ (List.mem_map_of_mem he))
  · have harrival : Work.notice x ∈ s.arrivals := by
      rw [State.work, List.mem_append] at h
      refine h.resolve_left fun hlanes => ?_
      obtain ⟨k, -, hk⟩ := List.mem_flatMap.mp hlanes
      simp only [Lane.work, List.mem_append, List.mem_map] at hk
      rcases hk with hk | ⟨e, -, hk⟩
      · split at hk <;> simp at hk
      · cases hk
    simp only [State.happenings, List.mem_append]
    exact .inl (.inl (.inl (.inl (.inr (List.mem_map_of_mem harrival)))))

theorem State.withOutbox_of_nil (ho : s.outbox = []) : s.withOutbox [] = s := by
  cases s
  cases ho
  rfl

/-- With nothing emitted before, what happens hands out what it leads to. -/
theorem aside_of_outbox_nil (ho : s.outbox = []) (act : State → State) : aside act s = (act s).withOutbox [] := by
  rw [aside, State.withOutbox_of_nil ho, ho]

theorem happen_work (ho : s.outbox = []) (w : Work) : happen s (.work w) = handOut (doWork s w) := by
  rw [happen, aside_of_outbox_nil ho]
  exact State.withOutbox_of_nil (handOut_outbox _)

theorem happen_outbox (ho : s.outbox = []) (x : Happening) : (happen s x).outbox = [] := by
  cases x with
  | work w => rw [happen_work ho, handOut_outbox]
  | access =>
    simp only [happen]
    rw [serveAccess_frame]
    exact ho
  | acceptance pin =>
    simp only [happen]
    rw [aside_of_outbox_nil ho]
    rfl
  | tick =>
    simp only [happen]
    rw [aside_of_outbox_nil ho]
    rfl
  | move pin level =>
    simp only [happen]
    rw [aside_of_outbox_nil (s := s.withEarly (s.early ++ [(pin, level)])) ho]
    rfl
  | period => exact ho

/-! ## What a complete chain has left -/

theorem Chain.of_finished (h : c.unfinished s = false) {w : Work} (hw : w ∈ (s.lane k).work k (s.serves c.lanes k)) :
    c.needs (s.lane k) (c.lanes.getLsbD k) w = false := by
  simp only [Chain.unfinished, List.any_eq_false, Bool.not_eq_true] at h
  exact h k (List.mem_finRange k) w hw

/-- A lane that has kept events, with its entry complete, has taken them when the chain needs the first of them or what is behind
them. -/
theorem Chain.kept_of_finished (h : c.unfinished s = false) (he : (s.lane k).entry = none)
    (hneed : (∃ e ∈ (s.lane k).kept.head?, c.holds e = true) ∨ (s.lane k).coming.any c.holds = true) :
    (s.lane k).kept = [] := by
  cases hk : (s.lane k).kept with
  | nil => rfl
  | cons e es =>
    have hw : Work.deliver k e ∈ (s.lane k).work k (s.serves c.lanes k) :=
      List.mem_append_right _ (by simp [Lane.ready, he, hk])
    have := Chain.of_finished h hw
    simp only [Chain.needs, he, hk] at this
    rcases hneed with ⟨x, hx, hheld⟩ | hcoming
    · rw [hk] at hx
      obtain rfl : e = x := by simpa using hx
      simp [hheld] at this
    · simp [hcoming] at this

/-- No emission of a complete chain is on its way. -/
theorem Chain.coming_of_finished (h : c.unfinished s = false) {e : Event} (he : c.holds e = true) : e ∉ (s.lane k).coming := by
  intro hmem
  have hany : (s.lane k).coming.any c.holds = true := List.any_eq_true.mpr ⟨e, hmem, he⟩
  have hnext : (s.lane k).nextOfSource e = true := by
    cases e with
    | emission line =>
      have hsame : (fun x : Event => x.sameSource (.emission line)) = fun x => x == .emission line := by
        funext x
        cases x <;> rfl
      rw [Lane.nextOfSource, hsame]
      cases hf : (s.lane k).coming.find? fun x => x == .emission line with
      | none =>
        rw [List.find?_eq_none] at hf
        simpa using hf _ hmem
      | some x =>
        have := List.find?_some hf
        simpa using this
    | tick | edge _ _ | arrival _ _ _ | forcing _ => cases he
  have hready : e ∈ (s.lane k).ready := by
    unfold Lane.ready
    split
    · rename_i x rest hentry hkept
      rw [Chain.kept_of_finished h hentry (.inr hany)] at hkept
      cases hkept
    · exact List.mem_filter.mpr ⟨hmem, hnext⟩
  have := Chain.of_finished h (List.mem_append_right _ (List.mem_map_of_mem hready))
  simp [Chain.needs, he] at this

/-- A complete chain waits for no lane in the middle of an entry. -/
theorem Chain.entry_of_finished (h : c.unfinished s = false) (hk : c.lanes.getLsbD k = true) : (s.lane k).entry = none := by
  by_contra hne
  obtain ⟨j, hentry, hturn, hjk⟩ := State.exists_leader (Option.isSome_iff_ne_none.mpr hne)
  have hserve : s.serves c.lanes j = true := by
    rw [State.serves, hturn, Bool.true_and, Bool.or_eq_true]
    rcases hjk with rfl | hjk
    · exact .inl hk
    · exact .inr (List.any_eq_true.mpr ⟨k, List.mem_finRange k, by simp [hk, hjk]⟩)
  have hw : Work.fetch j ∈ (s.lane j).work j (s.serves c.lanes j) :=
    List.mem_append_left _ (by rw [hserve, hentry]; exact List.mem_singleton_self _)
  have := Chain.of_finished h hw
  simp [Chain.needs] at this

/-! ## What is kept until the chain is complete -/

/-- A property of the chain of a write and the state that every free choice and everything that can happen keep. -/
structure ChainInvariant (P : Chain → State → Prop) : Prop where
  pick : ∀ {c : Chain} {s : State} (p : Nat), P c s → P c { s with picks := p }
  happen : ∀ {c : Chain} {s : State} {x : Happening}, s.outbox = [] → x ∈ s.happenings 0 → P c s →
    P (c.afterHappening s x) (happen s x)

variable {P : Chain → State → Prop}

theorem ChainInvariant.choose {α : Type} (h : ChainInvariant P) (x : α) (xs : List α) (hs : P c s) :
    P c (choose x xs s).2 := by
  rcases (choose_spec x xs s).2 with he | he <;> rw [he]
  · exact hs
  · exact h.pick _ hs

theorem choose_happenings {α : Type} (x : α) (xs : List α) (s : State) (lanes : LaneMask) :
    (choose x xs s).2.outbox = s.outbox ∧ (choose x xs s).2.happenings lanes = s.happenings lanes ∧
      (choose x xs s).2.work lanes = s.work lanes ∧ (choose x xs s).2.effort = s.effort := by
  rcases (choose_spec x xs s).2 with he | he <;> rw [he] <;> exact ⟨rfl, rfl, rfl, rfl⟩

theorem ChainInvariant.goOn (h : ChainInvariant P) (n : Nat) :
    ∀ (c : Chain) (s : State), s.outbox = [] → P c s →
      P (goOn 0 n c s).1 (goOn 0 n c s).2 ∧ (goOn 0 n c s).2.outbox = [] := by
  induction n with
  | zero => exact fun _ _ ho hs => ⟨hs, ho⟩
  | succ n ih =>
    intro c s ho hs
    rw [Machine.goOn]
    split
    · exact ⟨hs, ho⟩
    · rename_i x xs hx
      have hpick := h.choose x xs hs
      obtain ⟨hout, hhap, -⟩ := choose_happenings x xs s 0
      have hmem := (choose_spec x xs s).1
      rw [← hx, ← hhap] at hmem
      exact ih _ _ (happen_outbox (hout.trans ho) _) (h.happen (hout.trans ho) hmem hpick)

theorem Chain.finished_of_work_nil (h : s.work c.lanes = []) : c.unfinished s = false := by
  rw [State.work, List.append_eq_nil_iff, List.flatMap_eq_nil_iff] at h
  refine List.any_eq_false.mpr fun k hk => ?_
  rw [h.1 k hk, List.any_nil]
  exact Bool.false_ne_true

/-- Within a write settling ends with the chain complete, when it may do as many pieces of work as there can be. -/
theorem ChainInvariant.settle (h : ChainInvariant P) (n : Nat) :
    ∀ (c : Chain) (s : State), s.effort ≤ n → s.outbox = [] → P c s →
      ∃ c', P c' (settle true n c s) ∧ c'.unfinished (settle true n c s) = false := by
  induction n with
  | zero =>
    intro c s hn _ hs
    rw [Machine.settle]
    refine ⟨c, hs, Chain.finished_of_work_nil (List.eq_nil_iff_forall_not_mem.mpr fun w hw => ?_)⟩
    have := doWork_effort hw
    omega
  | succ n ih =>
    intro c s hn ho hs
    rw [Machine.settle]
    split
    · rename_i hfin
      exact ⟨c, hs, by simpa using hfin⟩
    · split
      · rename_i hwork
        exact ⟨c, hs, Chain.finished_of_work_nil hwork⟩
      · rename_i w ws hw
        have hpick := h.choose w ws hs
        obtain ⟨hout, -, hworks, heffort⟩ := choose_happenings w ws s c.lanes
        have hmem := (choose_spec w ws s).1
        rw [← hw, ← hworks] at hmem
        generalize Machine.choose w ws s = y at hpick hout heffort hmem
        have hless := doWork_effort hmem
        have hhanded := handOut_effort (doWork y.2 y.1)
        have hkeep := h.happen (hout.trans ho) (State.mem_happenings_of_work hmem) hpick
        rw [happen_work (hout.trans ho)] at hkeep
        exact ih _ _ (by omega) (handOut_outbox _) hkeep

/-- What follows from a write that has emitted something ends with its chain complete. -/
theorem ChainInvariant.followUp (h : ChainInvariant P) (ho : s.outbox ≠ []) (hs : P ⟨maskOfLines s.outbox, 0⟩ (handOut s)) :
    ∃ c', P c' (followUp s) ∧ c'.unfinished (followUp s) = false := by
  rw [Machine.followUp, if_neg ho]
  dsimp only
  split
  · exact h.settle _ _ _ (effort_le_workBound (handOut_outbox s)) (handOut_outbox s) hs
  · obtain ⟨hgo, hout⟩ := h.goOn (Config.pick s.picks) ⟨maskOfLines s.outbox, 0⟩ (handOut s).pickDone (handOut_outbox s)
      (h.pick _ hs)
    exact h.settle _ _ _ (effort_le_workBound hout) hout hgo

theorem followUp_outbox (s : State) : (followUp s).outbox = [] := by
  by_cases ho : s.outbox = []
  · rw [followUp_of_outbox_nil ho, ho]
  · have hkeep : ChainInvariant fun _ t => t.outbox = [] := ⟨fun _ h => h, fun h _ _ => happen_outbox h _⟩
    obtain ⟨-, hout, -⟩ := hkeep.followUp ho (handOut_outbox s)
    exact hout

theorem goesOn_chainInvariant (s : State) : ChainInvariant fun _ t => s.GoesOn 0 t :=
  ⟨fun _ h => h.tail (.inl ⟨_, rfl⟩), fun _ hx h => h.tail (.inr ⟨_, hx, rfl⟩)⟩

theorem followUp_goesOn (ho : s.outbox ≠ []) : (handOut s).GoesOn 0 (followUp s) := by
  obtain ⟨-, hgo, -⟩ := (goesOn_chainInvariant (handOut s)).followUp ho (.refl _)
  exact hgo

end
end Sys2Proof.Machine

/-! The emissions of a host write: none of them is on its way to a lane any more, or kept by one in the middle of an entry, when the
chain of the write is complete (R28, R135, R136, R177). -/

namespace Sys2Proof.Machine

section
variable {k : LaneId} {l l' l'' : Lane}

/-! ## Lanes at rest -/

theorem Lane.judges_of_rests (h : l.Rests) (accepted : BitVec 16) : l.judges k accepted = .silent l := by
  obtain ⟨-, -, hrun⟩ := h
  rw [Lane.judges, if_neg fun hj => hrun hj.1]

/-- A lane at rest stays at rest when it takes a tick. -/
theorem Lane.ticks_rests (h : l.Rests) (accepted : BitVec 16) : (l.ticks k accepted).lane.Rests := by
  have hrun := h.2.2
  unfold Lane.ticks
  split
  · rename_i hst
    exact absurd hst hrun
  · exact h
  · exact h

theorem Lane.takesEdge_rests (h : l.Rests) (n : InputId) (e : Sense) (accepted : BitVec 16) (turn : Nat) :
    (l.takesEdge k n e accepted turn).lane.Rests := by
  rw [Lane.takesEdge, if_neg h.2.1, Lane.judges_of_rests h]
  split
  · exact h
  · split
    · rw [Lane.judges_of_rests (by exact h)]
      exact h
    · exact h

theorem Lane.takesArrival_rests (h : l.Rests) (u : UnitId) (v : Word) (d : Direction) (accepted : BitVec 16) :
    (l.takesArrival k u v d accepted).lane.Rests := by
  unfold Lane.takesArrival
  split
  · rw [Lane.judges_of_rests (by exact h)]
    exact h
  · exact h

theorem Lane.takesEmission_rests (h : l.Rests) (line : LaneId) (accepted : BitVec 16) (turn : Nat) :
    (l.takesEmission k line accepted turn).lane.Rests := by
  rw [Lane.takesEmission, if_neg h.2.1]
  split
  · rw [Lane.judges_of_rests (by exact h)]
    exact ⟨by simp [Act.following, Act.silent, h.1], h.2⟩
  · exact h

theorem Lane.force_rests (h : l.Rests) : l.force.Rests := by
  unfold Lane.force
  split
  · exact h
  · exact ⟨h.1, nofun, nofun⟩

/-- A lane that ignores the events handed out is at rest (log 7). -/
theorem Lane.rests_of_ignores (h : l.ignores = true) : l.Rests := by
  simp only [Lane.ignores, Bool.and_eq_true, Option.isNone_iff_eq_none] at h
  obtain ⟨he, hst⟩ := h
  refine ⟨he, fun ha => ?_, fun hr => ?_⟩
  · simp [ha] at hst
  · simp [hr] at hst

end

section
variable {k : LaneId} {s : State}

theorem takeEvent_rests (h : (s.lane k).Rests) (e : Event) : ((takeEvent k e s).lane k).Rests := by
  have hs : (s.lane k).settled := h.1
  cases e with
  | tick =>
    rw [takeEvent, takeTick_eq, State.lane_withAct_self]
    exact Lane.ticks_rests h _
  | edge n e =>
    rw [takeEvent, takeEdge_eq hs, State.lane_withAct_self]
    exact Lane.takesEdge_rests h _ _ _ _
  | arrival u v d =>
    rw [takeEvent, takeArrival_eq, State.lane_withAct_self]
    exact Lane.takesArrival_rests h _ _ _ _
  | emission line =>
    rw [takeEvent, takeEmission_eq hs, State.lane_withAct_self]
    exact Lane.takesEmission_rests h _ _ _
  | forcing n =>
    rw [takeEvent, lane_takeForcing]
    exact Lane.force_rests h

/-! ## What a piece of work makes of its lane -/

/-- What becomes of a lane for which an event is ready: it takes the event, or keeps it in the middle of an entry (R28). -/
inductive Lane.Delivered (e : Event) (l l' : Lane) : Prop
  | taken {l0 : Lane} : l.taking e = some l0 → (Act.silent l').Follows l0 → (l0.Rests → l'.Rests) → Delivered e l l'
  | kept : l.entry.isSome = true → l.nextOfSource e = true → l' = l.keeping e → Delivered e l l'

theorem takeNext_delivered {e : Event} (h : e ∈ (s.lane k).ready) :
    (s.lane k).Delivered e ((takeNext k e s).lane k) := by
  rcases Lane.of_mem_ready h with ⟨l, hl⟩ | ⟨hentry, hnext⟩
  · have hlane : (s.setLane k l).lane k = l := State.lane_setLane_self s k l
    rw [takeNext_of_taking hl]
    refine .taken hl ?_ fun hr => takeEvent_rests (by rwa [hlane]) e
    have := takeEvent_follows (s := s.setLane k l) (k := k) (by rw [hlane]; exact Lane.taking_settled hl) e
    rwa [hlane] at this
  · rw [takeNext_of_entry hentry hnext, State.lane_setLane_self]
    exact .kept hentry hnext rfl

theorem doWork_delivered {e : Event} (h : e ∈ (s.lane k).ready) :
    (s.lane k).Delivered e ((doWork s (.deliver k e)).lane k) := by
  cases e with
  | tick =>
    have := takeNext_delivered (s := s.withNotices [] []) (k := k) h
    simp only [doWork, takeTickApart]
    rw [State.raiseApart_frame]
    exact this
  | edge _ _ | arrival _ _ _ | emission _ | forcing _ => exact takeNext_delivered h

theorem OnlyLane.takeNext {t : State} (h : OnlyLane k t s) (e : Event) : OnlyLane k (takeNext k e t) s := by
  simp only [Machine.takeNext]
  split
  · split
    · exact (h.onLane _).takeEvent e
    · exact h
  · split
    · exact (h.onLane _).reach e
    · exact h

/-- A piece of a lane's work changes no other lane. -/
theorem doWork_deliver_others {j : LaneId} (e : Event) (hj : j ≠ k) : (doWork s (.deliver k e)).lane j = s.lane j := by
  have htake (s : State) (e : Event) : (takeNext k e s).lane j = s.lane j := (OnlyLane.rfl.takeNext e).others j hj
  cases e with
  | tick =>
    have := htake (s.withNotices [] []) .tick
    simp only [doWork, takeTickApart]
    rw [State.raiseApart_frame]
    exact this
  | edge _ _ | arrival _ _ _ | emission _ | forcing _ => exact htake s _

theorem doWork_fetch_others {j : LaneId} (hj : j ≠ k) : (doWork s (.fetch k)).lane j = s.lane j :=
  (OnlyLane.rfl.serveFetch (k := k)).others j hj

end

/-! ## What can happen beside a write -/

/-- From l to l' no emission has been kept, and those on their way still are, or the lane has come to rest; a lane at rest still
is. -/
structure Lane.Tracks (l l' : Lane) : Prop where
  kept : ∀ n : LaneId, Event.emission n ∈ l'.kept → Event.emission n ∈ l.kept
  coming : ∀ n : LaneId, Event.emission n ∈ l.coming → Event.emission n ∈ l'.coming ∨ l'.Rests
  rests : l.Rests → l'.Rests

theorem Lane.Tracks.refl (l : Lane) : l.Tracks l := ⟨fun _ => id, fun _ => .inl, id⟩

theorem Lane.Tracks.trans {l l' l'' : Lane} (h : l.Tracks l') (h' : l'.Tracks l'') : l.Tracks l'' := by
  refine ⟨fun n hn => h.kept n (h'.kept n hn), fun n hn => ?_, fun hr => h'.rests (h.rests hr)⟩
  rcases h.coming n hn with hc | hr
  · exact h'.coming n hc
  · exact .inr (h'.rests hr)

/-- More events are on their way to the lane. -/
theorem Lane.Tracks.withComing (l : Lane) (es : List Event) : l.Tracks (l.withComing (l.coming ++ es)) :=
  ⟨fun _ => id, fun _ hn => .inl (List.mem_append_left es hn), id⟩

theorem Lane.Tracks.mapEntry (l : Lane) (f : Entry → Entry) : l.Tracks { l with entry := l.entry.map f } :=
  ⟨fun _ => id, fun _ => .inl, fun hr => ⟨by simp [hr.1], hr.2⟩⟩

theorem Lane.Tracks.force {l : Lane} (h : l.entry = none) : l.Tracks l.force := by
  have hf := Lane.force_follows h
  refine ⟨fun n hn => ?_, fun n hn => ?_, Lane.force_rests⟩
  · have hkept : l.force.kept = l.kept := hf.kept
    rwa [hkept] at hn
  · rcases hf.coming with hc | ⟨-, hr⟩
    · exact .inl (by rw [show l.force.coming = l.coming from hc]; exact hn)
    · exact .inr hr

/-- A forcing is kept. -/
theorem Lane.Tracks.keepForcing (l : Lane) (n : SourceId) : l.Tracks { l with kept := l.kept ++ [.forcing n] } :=
  ⟨fun m hm => by simpa using hm, fun _ => .inl, id⟩

/-- Every lane has gone on in this way. -/
def State.Tracks (s t : State) : Prop := ∀ k, (s.lane k).Tracks (t.lane k)

section
variable {s t u : State} {k : LaneId}

theorem State.Tracks.refl (s : State) : s.Tracks s := fun _ => .refl _

theorem State.Tracks.of_lanes (h : s.Tracks t) (hu : u.lanes = t.lanes) : s.Tracks u := fun k => by
  have : u.lane k = t.lane k := by simp [State.lane, hu]
  rw [this]
  exact h k

theorem State.Tracks.onLane (h : s.Tracks t) {f : Lane → Lane} (hf : (t.lane k).Tracks (f (t.lane k))) :
    s.Tracks (t.onLane k f) := fun j => by
  rw [State.lane_onLane]
  split
  · rename_i hj
    subst hj
    exact (h _).trans hf
  · exact h j

theorem State.Tracks.handToAll (h : s.Tracks t) (e : Event) : s.Tracks (handToAll e t) := fun k => by
  rw [lane_handToAll]
  split
  · exact h k
  · exact (h k).trans (.withComing _ _)

theorem handLines_tracks (lines : List LaneId) : ∀ u : State, u.Tracks (handLines lines u) := by
  induction lines with
  | nil => exact fun u => .refl u
  | cons line lines ih => exact fun u k => (((State.Tracks.refl u).handToAll _) k).trans (ih _ k)

theorem State.Tracks.handOut (h : s.Tracks t) : s.Tracks (handOut t) := fun k =>
  (h k).trans (handLines_tracks t.outbox (t.withOutbox []) k)

theorem State.Tracks.setLatch (h : s.Tracks t) (n : SourceId) : s.Tracks (setLatch n t) := by
  simp only [Machine.setLatch]
  have hfold : s.Tracks (allLanes.foldl
      (fun u (k : LaneId) => if t.trips[n.val].scope.getLsbD k then reachForcing n k u else u)
      ((t.onTrip n fun t => { t with latch := true }).withSettings (t.settings ++ [⟨n, t.trips[n.val].scope, 0⟩]))) := by
    refine List.foldlRecOn allLanes _ (h.of_lanes rfl) fun u hu k _ => ?_
    split
    · unfold reachForcing
      split
      · rename_i hf
        simp only [Lane.free, Bool.and_eq_true, Option.isNone_iff_eq_none] at hf
        exact (hu.onLane (k := k) (f := Lane.force) (.force hf.1)).of_lanes rfl
      · exact hu.onLane (.keepForcing _ n)
    · exact hu
  intro k
  rw [lane_raiseTrips]
  exact hfold k

/-- An event of the core clock falls due with no period going by, or while no lane has an event to take. -/
theorem State.Tracks.clockEvent {lacking : Option Nat} {act : State → State}
    (hdue : ∀ d, lacking = some d → d = 0 ∨ s.work 0 = []) (ha : ∀ t, s.Tracks t → s.Tracks (act t)) :
    s.Tracks (clockEvent lacking act s) := by
  rcases clockEvent_spec lacking act s with ⟨he, -⟩ | ⟨d, hd, -, -, he⟩
  · rw [he]
    exact .refl s
  · rw [he]
    refine ha _ ?_
    unfold goOnTo
    split
    · exact .refl s
    · rename_i hne
      rw [drain_of_work_nil ((hdue d hd).resolve_left hne)]
      exact (State.Tracks.refl s).of_lanes rfl

theorem State.Tracks.acceptedChange {pin : FilteredPin} (hdue : ∀ d, s.pinLacking pin = some d → d = 0 ∨ s.work 0 = []) :
    s.Tracks (acceptedChange pin s) := by
  cases pin with
  | input n =>
    exact .clockEvent hdue fun t ht => List.foldlRecOn _ _ (ht.of_lanes rfl) fun u hu _ _ => hu.handToAll _
  | quadrature unit c =>
    refine .clockEvent hdue fun t ht => ?_
    simp only [acceptQuadrature]
    split
    · split <;> exact ht.of_lanes rfl
    · exact State.Tracks.handToAll (ht.of_lanes rfl) _
  | trip n =>
    refine .clockEvent hdue fun t ht => ?_
    simp only [acceptTrip]
    split
    · exact State.Tracks.setLatch (ht.of_lanes (by rfl)) _
    · exact ht.of_lanes rfl

theorem State.Tracks.tick (hdue : ∀ d, s.timebase.lacking = some d → d = 0 ∨ s.work 0 = []) : s.Tracks (tick 0 s) :=
  .clockEvent hdue fun t ht => by
    refine State.Tracks.handOut (List.foldlRecOn allLanes _ (ht.of_lanes rfl) fun u hu k _ => ?_)
    unfold handTick
    rw [if_neg (by simp)]
    exact hu.onLane (.withComing _ _)

theorem State.Tracks.takeLevel (pin : FilteredPin) (level : Bool) : s.Tracks (takeLevel pin level s) := by
  unfold Machine.takeLevel
  split
  · exact .refl s
  · have hmove (u : State) : (movePin pin level u).lanes = u.lanes := by cases pin <;> rfl
    refine State.Tracks.of_lanes (t := if s.pinLacking pin = some 0 then _ else s) ?_ (hmove _)
    split
    · rename_i hdue
      exact .acceptedChange fun d hd => .inl (Option.some.inj (hd.symm.trans hdue))
    · exact .refl s

/-- An event of the core clock that comes next. -/
theorem State.due_of_comesNext {lacking : Option Nat} (h : s.comesNext lacking = true) :
    ∀ d, lacking = some d → d = 0 ∨ s.work 0 = [] := by
  rintro d rfl
  simp only [State.comesNext, Bool.and_eq_true, Bool.or_eq_true, beq_iff_eq, List.isEmpty_iff] at h
  exact h.2

/-- The work that can happen, kind by kind. -/
theorem State.of_work_mem_happenings {but : LaneMask} {w : Work} (h : Happening.work w ∈ s.happenings but) :
    (∃ k, w = .fetch k ∧ but.getLsbD k = false ∧ (s.lane k).entry.isSome = true) ∨
      (∃ k, ∃ e ∈ (s.lane k).ready, w = .deliver k e) ∨ ∃ x, w = .notice x ∧ s.canArrive x = true := by
  simp only [State.happenings, List.mem_append, List.mem_map, List.mem_filter, List.mem_flatMap, State.lanesWork] at h
  rcases h with ((((⟨k, -, w', hw, heq⟩ | ⟨w', hw, heq⟩) | haccess) | ⟨pin, -, heq⟩) | htick) | hside
  · cases heq
    simp only [Lane.work, List.mem_append, List.mem_map] at hw
    rcases hw with hfetch | ⟨e, he, rfl⟩
    · split at hfetch
      · rename_i hserve
        simp only [Bool.and_eq_true, Bool.not_eq_true'] at hserve
        exact .inl ⟨k, by simpa using hfetch, hserve.1.2, hserve.2⟩
      · cases hfetch
    · exact .inr (.inl ⟨k, e, he, rfl⟩)
  · cases heq
    simp only [State.arrivals, List.mem_map, List.mem_filter] at hw
    obtain ⟨x, ⟨-, hx⟩, rfl⟩ := hw
    exact .inr (.inr ⟨x, rfl, hx⟩)
  · split at haccess <;> simp at haccess
  · cases heq
  · split at htick <;> simp at htick
  · unfold State.machineSide at hside
    split at hside
    · cases hside
    · split at hside <;> simp at hside

/-- The arrival of a notice changes no lane. -/
theorem doWork_notice_lanes (x : Sender) : (doWork s (.notice x)).lanes = s.lanes := by
  rw [doWork, State.arriveNext_frame]

/-- What can happen beside the work of the lanes. -/
theorem happen_tracks (ho : s.outbox = []) {x : Happening} (hx : x ∈ s.happenings 0) (hw : ∀ w, x ≠ .work w) :
    s.Tracks (happen s x) := by
  simp only [State.happenings, List.mem_append, List.mem_map, List.mem_filter, List.mem_flatMap, State.lanesWork] at hx
  rcases hx with ((((⟨k, -, w, -, rfl⟩ | ⟨w, -, rfl⟩) | haccess) | ⟨pin, ⟨-, hnext⟩, rfl⟩) | htick) | hside
  · exact absurd rfl (hw w)
  · exact absurd rfl (hw w)
  · obtain rfl : x = .access := by
      split at haccess
      · simpa using haccess
      · cases haccess
    intro k
    rw [happen, serveAccess_lane]
    exact .mapEntry _ _
  · rw [happen, aside_of_outbox_nil ho]
    exact (State.Tracks.acceptedChange (State.due_of_comesNext hnext)).of_lanes rfl
  · split at htick
    · rename_i hnext
      obtain rfl : x = .tick := by simpa using htick
      rw [happen, aside_of_outbox_nil ho]
      exact (State.Tracks.tick (State.due_of_comesNext hnext)).of_lanes rfl
    · cases htick
  · unfold State.machineSide at hside
    split at hside
    · cases hside
    · rename_i pin level _ _
      rcases List.mem_cons.mp hside with rfl | hperiod
      · rw [happen, aside_of_outbox_nil (s := s.withEarly (s.early ++ [(pin, level)])) ho]
        exact State.Tracks.of_lanes (State.Tracks.takeLevel (s := s.withEarly (s.early ++ [(pin, level)])) pin level) rfl
      · obtain rfl : x = .period := by
          split at hperiod
          · simpa using hperiod
          · cases hperiod
        exact (State.Tracks.refl s).of_lanes rfl

/-! ## The emissions of the write -/

/-- The chain of a write holds its own emissions, those on these lines, and it waits for every lane that has kept one of them and
could go on, unless the emission is on its way to that lane once more. -/
structure Chain.Covers (own : List LaneId) (c : Chain) (s : State) : Prop where
  lines : ∀ n ∈ own, c.lines.getLsbD n.val = true
  kept : ∀ n ∈ own, ∀ k, Event.emission n ∈ (s.lane k).kept →
    c.lanes.getLsbD k.val = true ∨ Event.emission n ∈ (s.lane k).coming ∨ (s.lane k).Rests

variable {own : List LaneId} {c : Chain}

theorem Chain.Covers.tracks (h : c.Covers own s) (ht : s.Tracks t) : c.Covers own t := by
  refine ⟨h.lines, fun n hn k hk => ?_⟩
  rcases h.kept n hn k ((ht k).kept n hk) with hlane | hcoming | hrests
  · exact .inl hlane
  · exact .inr ((ht k).coming n hcoming)
  · exact .inr (.inr ((ht k).rests hrests))

theorem Chain.joined_lines (c : Chain) (k : LaneId) (t : State) (n : LaneId) :
    (c.joined k t).lines.getLsbD n.val = (c.lines.getLsbD n.val || decide (n = k)) := getLsbD_with _ _ _

theorem Chain.joined_lanes_ne (c : Chain) (t : State) {j : LaneId} (hj : j ≠ k) :
    (c.joined k t).lanes.getLsbD j.val = c.lanes.getLsbD j.val := by
  simp only [Chain.joined]
  split
  · rw [getLsbD_with]
    simp [hj]
  · rw [getLsbD_without]
    simp [hj]

theorem Chain.joined_lanes_self (c : Chain) (k : LaneId) (t : State) :
    (c.joined k t).lanes.getLsbD k.val = ((t.lane k).entry.isSome || (t.lane k).kept.any c.holds) := by
  simp only [Chain.joined]
  split
  · rename_i h
    rw [getLsbD_with, h]
    simp
  · rename_i h
    rw [getLsbD_without, Bool.eq_false_iff.mpr h]
    simp

/-- The chain takes up what a lane of its own has come to. -/
theorem Chain.Covers.joined (h : c.Covers own s) (ho : ∀ j, j ≠ k → t.lane j = s.lane j) : (c.joined k t).Covers own t := by
  refine ⟨fun n hn => ?_, fun n hn j hj => ?_⟩
  · rw [Chain.joined_lines, h.lines n hn]
    rfl
  · by_cases hjk : j = k
    · subst hjk
      refine .inl ?_
      rw [Chain.joined_lanes_self, Bool.or_eq_true]
      exact .inr (List.any_eq_true.mpr ⟨_, hj, h.lines n hn⟩)
    · rw [Chain.joined_lanes_ne c t hjk, ho j hjk]
      rw [ho j hjk] at hj
      exact h.kept n hn j hj

/-- A lane that is not the chain's completes an entry, or takes or keeps an event that is not the chain's. -/
theorem Chain.Covers.others (h : c.Covers own s) (hk : c.lanes.getLsbD k.val ≠ true)
    (ho : ∀ j, j ≠ k → t.lane j = s.lane j) (hkept : ∀ n ∈ own, Event.emission n ∈ (t.lane k).kept →
      Event.emission n ∈ (s.lane k).kept)
    (hgo : ∀ n ∈ own, Event.emission n ∈ (s.lane k).coming ∨ (s.lane k).Rests →
      Event.emission n ∈ (t.lane k).coming ∨ (t.lane k).Rests) : c.Covers own t := by
  refine ⟨h.lines, fun n hn j hj => ?_⟩
  by_cases hjk : j = k
  · subst hjk
    exact .inr (hgo n hn ((h.kept n hn j (hkept n hn hj)).resolve_left hk))
  · rw [ho j hjk] at hj ⊢
    exact h.kept n hn j hj

theorem Chain.after_fetch (c : Chain) (t : State) (k : LaneId) :
    c.after t (.fetch k) = if c.lanes.getLsbD k then c.joined k t else c := rfl

theorem Chain.after_deliver (c : Chain) (t : State) (k : LaneId) (e : Event) :
    c.after t (.deliver k e) = if c.lanes.getLsbD k || c.holds e then c.joined k t else c := rfl

theorem Chain.Covers.fetch (h : c.Covers own s) (he : (s.lane k).entry.isSome = true) :
    (c.after (doWork s (.fetch k)) (.fetch k)).Covers own (doWork s (.fetch k)) := by
  have ho : ∀ j, j ≠ k → (doWork s (.fetch k)).lane j = s.lane j := fun j => doWork_fetch_others
  have hf := serveFetch_follows k s
  rw [Chain.after_fetch]
  split
  · exact h.joined ho
  · rename_i hk
    refine h.others hk ho (fun n _ hn => ?_) fun n _ hn => ?_
    · rwa [show ((doWork s (.fetch k)).lane k).kept = _ from hf.kept] at hn
    · rcases hn with hn | hr
      · rcases hf.coming with hc | ⟨-, hr⟩
        · exact .inl (by rw [show ((doWork s (.fetch k)).lane k).coming = _ from hc]; exact hn)
        · exact .inr hr
      · rw [hr.1] at he
        cases he

/-- A lane that takes an event next keeps no other, and the others on their way go on. -/
theorem Lane.taking_spec {l l' : Lane} {e : Event} (h : l.taking e = some l') :
    l'.kept ⊆ l.kept ∧ l'.coming ⊆ l.coming ∧ (∀ x ∈ l.coming, x ≠ e → x ∈ l'.coming) ∧ (l.Rests → l'.Rests) := by
  unfold Lane.taking at h
  split at h
  · rename_i x rest _ hk
    split at h <;> cases h
    exact ⟨fun x hx => by rw [hk]; exact List.mem_cons_of_mem _ hx, List.Subset.refl _, fun _ hx _ => hx, id⟩
  · split at h <;> cases h
    exact ⟨List.Subset.refl _, fun _ => List.mem_of_mem_erase, fun x hx hne => (List.mem_erase_of_ne hne).mpr hx, id⟩
  · cases h

theorem Chain.Covers.deliver (h : c.Covers own s) {e : Event} (he : e ∈ (s.lane k).ready) :
    (c.after (doWork s (.deliver k e)) (.deliver k e)).Covers own (doWork s (.deliver k e)) := by
  have ho : ∀ j, j ≠ k → (doWork s (.deliver k e)).lane j = s.lane j := fun j => doWork_deliver_others e
  have hd := doWork_delivered he
  generalize doWork s (.deliver k e) = t at ho hd
  rw [Chain.after_deliver]
  split
  · exact h.joined ho
  · rename_i hnot
    rw [Bool.or_eq_true, not_or] at hnot
    have hne (n : LaneId) (hn : n ∈ own) : Event.emission n ≠ e := fun heq => hnot.2 (heq ▸ h.lines n hn)
    cases hd with
    | taken hl hf hr =>
      obtain ⟨hkept, -, hcoming, hrests⟩ := Lane.taking_spec hl
      refine h.others hnot.1 ho (fun n _ hn => hkept (hf.kept ▸ hn)) fun n hn hgo => ?_
      rcases hgo with hgo | hgo
      · rcases hf.coming with hc | ⟨-, hrest⟩
        · exact .inl (by rw [show (t.lane k).coming = _ from hc]; exact hcoming _ hgo (hne n hn))
        · exact .inr hrest
      · exact .inr (hr (hrests hgo))
    | kept hentry hnext hl =>
      refine h.others hnot.1 ho (fun n hn hmem => ?_) fun n hn hgo => ?_
      · rw [hl] at hmem
        exact (List.mem_append.mp hmem).resolve_right fun hx => hne n hn (List.mem_singleton.mp hx)
      · rcases hgo with hgo | hgo
        · exact .inl (by rw [hl]; exact (List.mem_erase_of_ne (hne n hn)).mpr hgo)
        · rw [hgo.1] at hentry
          cases hentry

/-- The chain goes on covering the emissions of the write whatever happens. -/
theorem covers_chainInvariant (own : List LaneId) : ChainInvariant (Chain.Covers own) where
  pick _ h := ⟨h.lines, h.kept⟩
  happen {c s x} ho hx h := by
    cases x with
    | work w =>
      rw [happen_work ho]
      refine Chain.Covers.tracks (s := doWork s w) ?_ (State.Tracks.refl _).handOut
      rcases State.of_work_mem_happenings hx with ⟨k, rfl, -, he⟩ | ⟨k, e, he, rfl⟩ | ⟨x, rfl, -⟩
      · exact h.fetch he
      · exact h.deliver he
      · exact h.tracks (State.Tracks.of_lanes (.refl s) (doWork_notice_lanes x))
    | access | acceptance _ | tick | move _ _ | period => exact h.tracks (happen_tracks ho hx nofun)

/-- An emission handed out is on its way to every lane that is not at rest. -/
theorem handLines_coming (lines : List LaneId) {n : LaneId} (hn : n ∈ lines) (k : LaneId) :
    ∀ s : State, Event.emission n ∈ ((handLines lines s).lane k).coming ∨ ((handLines lines s).lane k).Rests := by
  induction lines with
  | nil => cases hn
  | cons line lines ih =>
    intro s
    rcases List.mem_cons.mp hn with rfl | hn
    · have htracks := handLines_tracks lines (handToAll (.emission n) s) k
      have hfirst := lane_handToAll (s := s) (e := .emission n) k
      split at hfirst
      · rename_i hi
        exact .inr (htracks.rests (hfirst ▸ Lane.rests_of_ignores hi))
      · exact htracks.coming n (by rw [hfirst]; exact List.mem_append_right _ (List.mem_singleton_self _))
    · exact ih hn _

theorem getLsbD_maskOfLines (lines : List LaneId) (n : LaneId) : (maskOfLines lines).getLsbD n.val = decide (n ∈ lines) := by
  have key : ∀ (lines : List LaneId) (m : LaneMask),
      (lines.foldl (fun m line => m ||| 1#8 <<< line.val) m).getLsbD n.val = (m.getLsbD n.val || decide (n ∈ lines)) := by
    intro lines
    induction lines with
    | nil => simp
    | cons line lines ih =>
      intro m
      rw [List.foldl_cons, ih, getLsbD_with, Bool.or_assoc, ← Bool.decide_or]
      simp only [List.mem_cons]
  rw [maskOfLines, key]
  simp

/-- The chain of a write covers its emissions from their handing out. -/
theorem covers_first (s : State) : Chain.Covers s.outbox ⟨maskOfLines s.outbox, 0⟩ (handOut s) where
  lines n hn := (getLsbD_maskOfLines _ n).trans (decide_eq_true hn)
  kept _ hn k _ := .inr (handLines_coming s.outbox hn k (s.withOutbox []))

/-- What follows from a write leaves none of its emissions on its way, or kept in the middle of an entry. -/
theorem followUp_taken {n : LaneId} (hn : n ∈ s.outbox) (k : LaneId) :
    Event.emission n ∉ ((followUp s).lane k).coming ∧
      (((followUp s).lane k).entry.isSome = true → Event.emission n ∉ ((followUp s).lane k).kept) := by
  obtain ⟨c, hcovers, hfinished⟩ := (covers_chainInvariant s.outbox).followUp (List.ne_nil_of_mem hn) (covers_first s)
  have hcoming : Event.emission n ∉ ((followUp s).lane k).coming :=
    Chain.coming_of_finished hfinished (hcovers.lines n hn)
  refine ⟨hcoming, fun hentry hkept => ?_⟩
  have hnone : ((followUp s).lane k).entry = none := by
    rcases hcovers.kept n hn k hkept with hlane | hc | hrests
    · exact Chain.entry_of_finished hfinished hlane
    · exact absurd hc hcoming
    · exact hrests.1
  rw [hnone] at hentry
  cases hentry

/-! ## Where nothing is under way -/

/-- What can happen does not depend on the free choices made. -/
theorem State.goesOn_of_calm {but : LaneMask} (h : s.happenings but = []) (hgo : s.GoesOn but t) :
    t = { s with picks := t.picks } := by
  refine State.GoesOn.induct (P := fun t => t = { s with picks := t.picks }) hgo (fun u p hu => ?_) (fun u x hx hu => ?_) rfl
  · rw [hu]
  · rw [hu] at hx
    have hsame : ({ s with picks := u.picks } : State).happenings but = s.happenings but := rfl
    rw [hsame, h] at hx
    cases hx

end
end Sys2Proof.Machine

/-! Writes where nothing is under way: nothing happens beside them but the arrival of notices that they raise, and they complete
whatever they cause (R135, R177). -/

namespace Sys2Proof.Machine

section
variable {s t u : State} {k : LaneId} {but : LaneMask}

/-! ## Nothing but the lanes goes on -/

/-- Nothing falls due on the core clock, no access of the table job waits, and no pin moves. -/
structure State.Still (s : State) : Prop where
  pins : ∀ pin, s.pinLacking pin = none
  tick : s.timebase.lacking = none
  access : ¬ (s.job.kind ≠ .clear ∧ s.job.state = .running ∧ s.job.progress < s.job.count)
  moves : s.movesAhead = []

/-- What is still to come on the core clock is that of a pin or of the Timebase. -/
theorem State.mem_lackings {d : Nat} :
    d ∈ s.lackings ↔ (∃ pin, s.pinLacking pin = some d) ∨ s.timebase.lacking = some d := by
  simp only [State.lackings, List.mem_append, List.mem_filterMap, List.mem_flatMap, List.mem_finRange, true_and,
    Option.mem_toList, List.mem_cons, List.not_mem_nil, or_false]
  refine or_congr ⟨?_, ?_⟩ Iff.rfl
  · rintro ((⟨n, h⟩ | ⟨u, c, -, h⟩) | ⟨n, h⟩)
    · exact ⟨.input n, h⟩
    · exact ⟨.quadrature u c, h⟩
    · exact ⟨.trip n, h⟩
  · rintro ⟨pin | ⟨u, c⟩ | n, h⟩
    · exact .inl (.inl ⟨pin, h⟩)
    · exact .inl (.inr ⟨u, c, by cases c <;> simp, h⟩)
    · exact .inr ⟨n, h⟩

theorem mem_filteredPins (pin : FilteredPin) : pin ∈ filteredPins := by
  simp only [filteredPins, List.mem_append, List.mem_map, List.mem_flatMap, List.mem_finRange, true_and]
  cases pin with
  | input n => exact .inl (.inl ⟨n, rfl⟩)
  | quadrature u c => exact .inl (.inr ⟨u, by cases c <;> simp⟩)
  | trip n => exact .inr ⟨n, rfl⟩

/-- With nothing for the lanes to do, what is due first would come next. -/
theorem State.lackings_of_calm (h : s.happenings 0 = []) : s.lackings = [] := by
  obtain ⟨-, -, -, hpins, htick, -⟩ := State.calm_parts h
  have hwork : s.work 0 = [] := State.work_of_quiet (State.quiet_of_calm h) (State.late_nil_of_calm h) 0
  by_contra hne
  obtain ⟨d, hd, hmin⟩ : ∃ d ∈ s.lackings, ∀ x ∈ s.lackings, d ≤ x :=
    ⟨s.lackings.min hne, List.min_mem hne, fun x hx => List.min_le_of_mem hx⟩
  have hnext : s.comesNext (some d) = true := by
    simp only [State.comesNext, State.nothingBefore, hwork, List.isEmpty_nil, Bool.or_true, Bool.and_true, List.all_eq_true,
      decide_eq_true_eq]
    exact hmin
  rcases State.mem_lackings.mp hd with ⟨pin, hpin⟩ | hperiod
  · rw [← hpin, hpins pin (mem_filteredPins pin)] at hnext
    cases hnext
  · rw [← hperiod, htick] at hnext
    cases hnext

theorem State.still_of_calm (h : s.happenings 0 = []) : s.Still := by
  have hno := State.lackings_of_calm h
  obtain ⟨-, -, haccess, -, -, hmoves⟩ := State.calm_parts h
  have hfree : s.accessFree = true := by simp [State.accessFree, (State.quiet_of_calm h _).1]
  refine ⟨fun pin => ?_, ?_, by simpa [State.accessWaits, hfree] using haccess, hmoves⟩
  · cases hpin : s.pinLacking pin with
    | none => rfl
    | some d =>
      have := State.mem_lackings.mpr (.inl ⟨pin, hpin⟩)
      rw [hno] at this
      cases this
  · cases hperiod : s.timebase.lacking with
    | none => rfl
    | some d =>
      have := State.mem_lackings.mpr (.inr hperiod)
      rw [hno] at this
      cases this

/-- What `State.Still` speaks of. -/
def State.clockSide (s : State) :=
  (s.inputs, s.units, s.trips, s.timebase, s.job, s.pending, s.early)

theorem State.Still.congr (h : s.Still) (ht : t.clockSide = s.clockSide) : t.Still := by
  simp only [State.clockSide, Prod.mk.injEq] at ht
  obtain ⟨hinputs, hunits, htrips, htimebase, hjob, hpending, hearly⟩ := ht
  refine ⟨fun pin => ?_, ?_, ?_, ?_⟩
  · have hpin := h.pins pin
    cases pin <;> simpa only [State.pinLacking, hinputs, hunits, htrips] using hpin
  · rw [htimebase]
    exact h.tick
  · rw [hjob]
    exact h.access
  · rw [State.movesAhead, hpending, hearly]
    exact h.moves

/-- What the lanes do changes nothing of this. -/
theorem clockSide_of_blocks (h : SameBlocks t s) : t.clockSide = s.clockSide := by
  have := congrArg State.clockSide h
  exact this

theorem State.Still.blocks (h : s.Still) (ht : SameBlocks t s) : t.Still := h.congr (clockSide_of_blocks ht)

/-- While nothing but the lanes goes on, only their work happens, and the arrival of notices. -/
theorem State.Still.happening {x : Happening} (h : s.Still) (hx : x ∈ s.happenings but) : ∃ w, x = .work w := by
  have hnext (lacking : Option Nat) (hl : lacking = none) : s.comesNext lacking = false := by rw [hl]; rfl
  have haccess : s.accessWaits = false := by
    have := h.access
    rw [State.accessWaits, Bool.and_eq_false_iff]
    exact .inl (by simpa [and_assoc] using this)
  simp only [State.happenings, haccess, hnext _ h.tick, State.machineSide, h.moves, hnext _ (h.pins _), Bool.false_eq_true,
    if_false, List.filter_false, List.map_nil, List.append_nil, List.mem_append, List.mem_map, List.mem_flatMap,
    State.lanesWork] at hx
  rcases hx with ⟨k, -, w, -, rfl⟩ | ⟨w, -, rfl⟩ <;> exact ⟨w, rfl⟩

/-! ## What an act emits and hands out -/

theorem State.mem_withAct_outbox {a : Act} {n : LaneId} (h : n ∈ (s.withAct k a).outbox) : n ∈ s.outbox ∨ n = k := by
  have hout : (s.withAct k a).outbox = if a.emits then s.outbox ++ [k] else s.outbox := rfl
  rw [hout] at h
  split at h
  · simpa using h
  · exact .inl h

theorem serveFetch_outbox (k : LaneId) (s : State) : ∀ n ∈ (serveFetch k s).outbox, n ∈ s.outbox ∨ n = k := by
  intro n hn
  cases he : (s.lane k).entry with
  | none =>
    rw [serveFetch_of_settled he] at hn
    exact .inl hn
  | some e =>
    rw [serveFetch_eq he] at hn
    exact State.mem_withAct_outbox hn

theorem takeEvent_outbox (hs : (s.lane k).settled) (e : Event) :
    ∀ n ∈ (takeEvent k e s).outbox, n ∈ s.outbox ∨ n = k := by
  intro n hn
  cases e with
  | tick =>
    rw [takeEvent, takeTick_eq] at hn
    exact State.mem_withAct_outbox hn
  | edge m e =>
    rw [takeEvent, takeEdge_eq hs] at hn
    exact State.mem_withAct_outbox hn
  | arrival u v d =>
    rw [takeEvent, takeArrival_eq] at hn
    exact State.mem_withAct_outbox hn
  | emission line =>
    rw [takeEvent, takeEmission_eq hs] at hn
    exact State.mem_withAct_outbox hn
  | forcing m =>
    rw [takeEvent, takeForcing_eq, State.raiseTripNotices_outbox] at hn
    exact .inl hn

theorem takeNext_outbox {e : Event} (h : e ∈ (s.lane k).ready) : ∀ n ∈ (takeNext k e s).outbox, n ∈ s.outbox ∨ n = k := by
  rcases Lane.of_mem_ready h with ⟨l, hl⟩ | ⟨hentry, hnext⟩
  · rw [takeNext_of_taking hl]
    exact takeEvent_outbox (s := s.setLane k l) (by rw [State.lane_setLane_self]; exact Lane.taking_settled hl) e
  · rw [takeNext_of_entry hentry hnext]
    exact fun n hn => .inl hn

/-- What a lane emits by a piece of its work is on its own line. -/
theorem doWork_deliver_outbox {e : Event} (h : e ∈ (s.lane k).ready) :
    ∀ n ∈ (doWork s (.deliver k e)).outbox, n ∈ s.outbox ∨ n = k := by
  cases e with
  | tick =>
    have := takeNext_outbox (s := s.withNotices [] []) (k := k) h
    simp only [doWork, takeTickApart]
    rw [State.raiseApart_frame]
    exact this
  | edge _ _ | arrival _ _ _ | emission _ | forcing _ => exact takeNext_outbox h

theorem doWork_notice_outbox (x : Sender) : (doWork s (.notice x)).outbox = s.outbox := by
  rw [doWork, State.arriveNext_frame]

/-- What is handed out reaches a lane behind what was on its way. -/
theorem mem_handLines_coming (lines : List LaneId) {e : Event} :
    ∀ s : State, e ∈ ((handLines lines s).lane k).coming → e ∈ (s.lane k).coming ∨ ∃ n ∈ lines, e = .emission n := by
  induction lines with
  | nil => exact fun s h => .inl h
  | cons line lines ih =>
    intro s h
    rcases ih (handToAll (.emission line) s) h with hc | ⟨n, hn, rfl⟩
    · rw [lane_handToAll] at hc
      split at hc
      · exact .inl hc
      · rcases List.mem_append.mp hc with hc | hc
        · exact .inl hc
        · exact .inr ⟨line, List.mem_cons_self, List.mem_singleton.mp hc⟩
    · exact .inr ⟨n, List.mem_cons_of_mem _ hn, rfl⟩

theorem handOut_entry_kept (s : State) (k : LaneId) :
    ((handOut s).lane k).entry = (s.lane k).entry ∧ ((handOut s).lane k).kept = (s.lane k).kept := by
  obtain ⟨es, h⟩ := handOut_lane s k
  rw [h]
  exact ⟨rfl, rfl⟩

/-! ## Everything belongs to the write -/

/-- All that the lanes have to do belongs to the chain of the write. -/
structure Chain.Owns (c : Chain) (s : State) : Prop where
  still : s.Still
  entry : ∀ k, (s.lane k).entry.isSome = true → c.lanes.getLsbD k.val = true
  kept : ∀ k, ∀ e ∈ (s.lane k).kept, c.holds e = true
  coming : ∀ k, ∀ e ∈ (s.lane k).coming, c.holds e = true

variable {c : Chain}

theorem Chain.joined_holds (c : Chain) (k : LaneId) (t : State) {e : Event} (h : c.holds e = true) :
    (c.joined k t).holds e = true := by
  cases e with
  | emission line => exact (c.joined_lines k t line).trans (by rw [show c.lines.getLsbD line.val = true from h]; rfl)
  | tick | edge _ _ | arrival _ _ _ | forcing _ => cases h

/-- What the write's own lane leads to belongs to the chain when what it emits is handed out. -/
theorem Chain.Owns.joined (h : c.Owns s) (ht : OnlyLane k t s) (hkept : ∀ e ∈ (t.lane k).kept, c.holds e = true)
    (hcoming : ∀ e ∈ (t.lane k).coming, c.holds e = true) (hout : ∀ n ∈ t.outbox, n = k) :
    (c.joined k t).Owns (handOut t) := by
  refine ⟨(h.still.blocks ht.blocks).blocks (sansWalk_handOut t), fun j hj => ?_, fun j e he => ?_, fun j e he => ?_⟩
  · rw [(handOut_entry_kept t j).1] at hj
    by_cases hjk : j = k
    · subst hjk
      rw [Chain.joined_lanes_self, hj, Bool.true_or]
    · rw [Chain.joined_lanes_ne c t hjk]
      exact h.entry j (ht.others j hjk ▸ hj)
  · rw [(handOut_entry_kept t j).2] at he
    refine c.joined_holds k t ?_
    by_cases hjk : j = k
    · subst hjk
      exact hkept e he
    · exact h.kept j e (ht.others j hjk ▸ he)
  · rcases mem_handLines_coming t.outbox (t.withOutbox []) he with hc | ⟨n, hn, rfl⟩
    · refine c.joined_holds k t ?_
      by_cases hjk : j = k
      · subst hjk
        exact hcoming e hc
      · exact h.coming j e (ht.others j hjk ▸ hc)
    · obtain rfl := hout n hn
      exact (c.joined_lines n t n).trans (by simp)

theorem Chain.Owns.ready (h : c.Owns s) {e : Event} (he : e ∈ (s.lane k).ready) : c.holds e = true := by
  unfold Lane.ready at he
  split at he
  · rename_i x rest _ hk
    obtain rfl : e = x := by simpa using he
    exact h.kept k e (by rw [hk]; exact List.mem_cons_self)
  · exact h.coming k e (List.mem_of_mem_filter he)

theorem Chain.Owns.fetch (h : c.Owns s) (ho : s.outbox = []) (he : (s.lane k).entry.isSome = true) :
    (c.after (doWork s (.fetch k)) (.fetch k)).Owns (handOut (doWork s (.fetch k))) := by
  have hf := serveFetch_follows k s
  have hout (n : LaneId) (hn : n ∈ (doWork s (.fetch k)).outbox) : n = k := by
    simpa [ho] using serveFetch_outbox k s n hn
  rw [Chain.after_fetch, if_pos (h.entry k he)]
  refine h.joined OnlyLane.rfl.serveFetch (fun e hk => h.kept k e ?_) (fun e hc => h.coming k e ?_) hout
  · exact (show _ = (s.lane k).kept from hf.kept) ▸ hk
  · exact hf.lane_obeys (image := none) |>.coming.subset hc

theorem Chain.Owns.deliver (h : c.Owns s) (ho : s.outbox = []) {e : Event} (he : e ∈ (s.lane k).ready) :
    (c.after (doWork s (.deliver k e)) (.deliver k e)).Owns (handOut (doWork s (.deliver k e))) := by
  have hheld := h.ready he
  have hd := doWork_delivered he
  have hout (n : LaneId) (hn : n ∈ (doWork s (.deliver k e)).outbox) : n = k := by
    simpa [ho] using doWork_deliver_outbox he n hn
  have honly : OnlyLane k (doWork s (.deliver k e)) s := ⟨sansWalk_doWork s _, fun j => doWork_deliver_others e⟩
  rw [Chain.after_deliver, hheld, Bool.or_true, if_pos rfl]
  generalize doWork s (.deliver k e) = t at hd hout honly
  cases hd with
  | taken hl hf hr =>
    obtain ⟨hkept, hcoming, -⟩ := Lane.taking_spec hl
    refine h.joined honly (fun x hx => h.kept k x (hkept ?_)) (fun x hx => h.coming k x (hcoming ?_)) hout
    · exact hf.kept ▸ hx
    · exact (hf.lane_obeys (image := none)).coming.subset hx
  | kept hentry hnext hl =>
    refine h.joined honly (fun x hx => ?_) (fun x hx => h.coming k x ?_) hout
    · rw [hl] at hx
      rcases List.mem_append.mp hx with hx | hx
      · exact h.kept k x hx
      · rw [List.mem_singleton.mp hx]
        exact hheld
    · rw [hl] at hx
      exact List.mem_of_mem_erase hx

theorem owns_chainInvariant : ChainInvariant Chain.Owns where
  pick _ h := ⟨h.still.blocks rfl, h.entry, h.kept, h.coming⟩
  happen {c s x} ho hx h := by
    obtain ⟨w, rfl⟩ := h.still.happening hx
    rw [happen_work ho]
    rcases State.of_work_mem_happenings hx with ⟨k, rfl, -, he⟩ | ⟨k, e, he, rfl⟩ | ⟨x, rfl, -⟩
    · exact h.fetch ho he
    · exact h.deliver ho he
    · have hlane (k : LaneId) : (doWork s (.notice x)).lane k = s.lane k := by simp [State.lane, doWork_notice_lanes]
      rw [handOut_of_outbox_nil ((doWork_notice_outbox x).trans ho)]
      exact ⟨h.still.blocks (sansWalk_doWork s _), fun k => by rw [hlane]; exact h.entry k,
        fun k => by rw [hlane]; exact h.kept k, fun k => by rw [hlane]; exact h.coming k⟩

/-- What a write has emitted while no lane had anything to do is completed with all that follows (R135, R177). -/
theorem followUp_completed (h : s.Still) (hq : ∀ k, (s.lane k).quiet) : (followUp s).Completed := by
  by_cases ho : s.outbox = []
  · rw [followUp_of_outbox_nil ho]
    refine ⟨ho, fun k line => ?_, fun k => (hq k).1, fun k => (hq k).2.1⟩
    rw [(hq k).2.2]
    exact List.not_mem_nil
  · have hfirst : Chain.Owns ⟨maskOfLines s.outbox, 0⟩ (handOut s) := by
      refine ⟨h.blocks (sansWalk_handOut s), fun k hk => ?_, fun k e he => ?_, fun k e he => ?_⟩
      · rw [(handOut_entry_kept s k).1, (hq k).1] at hk
        cases hk
      · rw [(handOut_entry_kept s k).2, (hq k).2.1] at he
        cases he
      · rcases mem_handLines_coming s.outbox (s.withOutbox []) he with hc | ⟨n, hn, rfl⟩
        · rw [show ((s.withOutbox []).lane k).coming = [] from (hq k).2.2] at hc
          cases hc
        · exact (getLsbD_maskOfLines _ n).trans (decide_eq_true hn)
    obtain ⟨c, howns, hfinished⟩ := owns_chainInvariant.followUp ho hfirst
    have hentry (k : LaneId) : ((followUp s).lane k).entry = none := by
      cases he : ((followUp s).lane k).entry with
      | none => rfl
      | some e => exact he.symm.trans (Chain.entry_of_finished hfinished (howns.entry k (by rw [he]; rfl)))
    have hcoming (k line : LaneId) : Event.emission line ∉ ((followUp s).lane k).coming := fun hc =>
      Chain.coming_of_finished hfinished (howns.coming k _ hc) hc
    refine ⟨followUp_outbox s, hcoming, hentry, fun k => ?_⟩
    cases hk : ((followUp s).lane k).kept with
    | nil => rfl
    | cons e es =>
      have := Chain.kept_of_finished hfinished (hentry k)
        (.inl ⟨e, by rw [hk]; rfl, howns.kept k e (by rw [hk]; exact List.mem_cons_self)⟩)
      rw [hk] at this
      cases this

end
end Sys2Proof.Machine

/-! Every write completes what it causes, where nothing else is under way (R135, R177). -/

namespace Sys2Proof.Machine

section
variable {s t : State} {k : LaneId} {waiting : List LaneId} {judge : LaneId → State → Judgement}

/-! ## A lane command, part by part -/

/-- The lanes have nothing to do but to complete the entries of the lanes that wait for their fetches. -/
structure State.OnlyEnters (waiting : List LaneId) (s : State) : Prop where
  still : s.Still
  kept : ∀ k, (s.lane k).kept = []
  coming : ∀ k, (s.lane k).coming = []
  entry : ∀ k, (s.lane k).entry.isSome = true → k ∈ waiting

theorem State.OnlyEnters.congr (h : s.OnlyEnters waiting) (hc : t.clockSide = s.clockSide) (hl : t.lanes = s.lanes) :
    t.OnlyEnters waiting := by
  have hlane (k : LaneId) : t.lane k = s.lane k := by simp [State.lane, hl]
  exact ⟨h.still.congr hc, fun k => hlane k ▸ h.kept k, fun k => hlane k ▸ h.coming k, fun k => hlane k ▸ h.entry k⟩

theorem State.OnlyEnters.quiet (h : s.OnlyEnters []) (k : LaneId) : (s.lane k).quiet := by
  refine ⟨?_, h.kept k, h.coming k⟩
  rw [← Option.not_isSome_iff_eq_none]
  exact fun he => List.not_mem_nil (h.entry k he)

/-- One lane goes on by itself. -/
theorem State.OnlyEnters.onlyLane {waiting' : List LaneId} (h : s.OnlyEnters waiting) (ht : OnlyLane k t s)
    (hl : ∃ image, (s.lane k).Obeys image (t.lane k)) (hk : (t.lane k).entry.isSome = true → k ∈ waiting')
    (hw : ∀ j, j ≠ k → j ∈ waiting → j ∈ waiting') : t.OnlyEnters waiting' := by
  obtain ⟨image, hobeys⟩ := hl
  refine ⟨h.still.blocks ht.blocks, fun j => ?_, fun j => ?_, fun j => ?_⟩
  all_goals by_cases hj : j = k
  · subst hj
    exact hobeys.kept.trans (h.kept j)
  · rw [ht.others j hj]
    exact h.kept j
  · subst hj
    exact List.sublist_nil.mp (h.coming j ▸ hobeys.coming)
  · rw [ht.others j hj]
    exact h.coming j
  · subst hj
    exact hk
  · rw [ht.others j hj]
    exact fun he => hw j hj (h.entry j he)

/-- A fetch that is served leaves its lane without an entry. -/
theorem State.OnlyEnters.serveFetch (h : s.OnlyEnters waiting) (k : LaneId) : (serveFetch k s).OnlyEnters (waiting.erase k) :=
  h.onlyLane OnlyLane.rfl.serveFetch ⟨none, (serveFetch_follows k s).lane_obeys⟩
    (fun he => by rw [show ((Machine.serveFetch k s).lane k).entry = none from serveFetch_settled k s] at he; cases he)
    fun _ hj hmem => (List.mem_erase_of_ne hj).mpr hmem

theorem State.OnlyEnters.mono {waiting' : List LaneId} (h : s.OnlyEnters waiting) (hw : waiting ⊆ waiting') :
    s.OnlyEnters waiting' := ⟨h.still, h.kept, h.coming, fun k hk => hw (h.entry k hk)⟩

theorem State.OnlyEnters.serveFetchApart (h : s.OnlyEnters waiting) (k : LaneId) :
    (serveFetchApart k s).OnlyEnters (waiting.erase k) :=
  State.OnlyEnters.congr (s := Machine.serveFetch k (s.withNotices [] []))
    (State.OnlyEnters.serveFetch (s := s.withNotices [] []) (h.congr rfl rfl) k) rfl rfl

/-- Only the arrival of notices happens beside the parts of the command. -/
theorem State.OnlyEnters.goesOn (h : s.OnlyEnters waiting) (hgo : s.GoesOn (maskOfLines waiting) t) : t.OnlyEnters waiting := by
  refine hgo.induct (fun _ _ h => h.congr rfl rfl) (fun s x hx h => ?_) h
  obtain ⟨w, rfl⟩ := h.still.happening hx
  rcases State.of_work_mem_happenings hx with ⟨k, rfl, hbut, he⟩ | ⟨k, e, he, rfl⟩ | ⟨x, rfl, -⟩
  · rw [getLsbD_maskOfLines, decide_eq_false_iff_not] at hbut
    exact absurd (h.entry k he) hbut
  · unfold Lane.ready at he
    split at he
    · rename_i hk
      rw [h.kept k] at hk
      cases hk
    · rw [h.coming k] at he
      cases he
  · have hout : (doWork (s.withOutbox []) (.notice x)).outbox = [] := doWork_notice_outbox x
    have hhappen : happen s (.work (.notice x)) = (doWork (s.withOutbox []) (.notice x)).withOutbox s.outbox := by
      rw [happen, aside, handOut_of_outbox_nil hout]
    rw [hhappen]
    exact h.congr (clockSide_of_blocks (sansWalk_doWork (s.withOutbox []) _)) (doWork_notice_lanes x)

/-- A lane named takes the command, or refuses it. -/
theorem judgeLane_cases (judge : LaneId → State → Judgement) (k : LaneId) (s : State) :
    (∃ t, judge k (completeLane k s) = .ok t ∧ judgeLane judge k s = t.onLane k fun l => { l with lastResult := .taken }) ∨
      ∃ r, judgeLane judge k s = refuseLane k r (completeLane k s) := by
  simp only [Machine.judgeLane]
  cases judge k (completeLane k s) with
  | ok t => exact .inl ⟨t, rfl, rfl⟩
  | error r => exact .inr ⟨r, rfl⟩

theorem State.OnlyEnters.completeLane (h : s.OnlyEnters waiting) (k : LaneId) : (completeLane k s).OnlyEnters waiting := by
  have hkept : ((serveInTurn k s).lane k).kept = [] := (serveInTurn_kept s).trans (h.kept k)
  rw [Machine.completeLane, hkept, List.foldl_nil]
  exact serveInTurn_induct (P := State.OnlyEnters waiting) (fun _ j h => (h.serveFetch j).mono List.erase_subset) h

/-- The last result of a lane is reported. -/
theorem State.OnlyEnters.report (h : s.OnlyEnters waiting) (k : LaneId) (r : Result) :
    (s.onLane k fun l => { l with lastResult := r }).OnlyEnters waiting := by
  refine h.onlyLane (OnlyLane.rfl.onLane _) ⟨none, ?_⟩ (fun he => ?_) fun _ _ => id
  · rw [State.lane_onLane_self]
    exact ⟨.keeps rfl (.inl rfl), rfl, .refl _⟩
  · rw [State.lane_onLane_self] at he
    exact h.entry k he

theorem refuseLane_lanes (k : LaneId) (r : Result) (s : State) :
    (refuseLane k r s).lanes = (s.onLane k fun l => { l with lastResult := r }).lanes := rfl

theorem refuseLane_clockSide (k : LaneId) (r : Result) (s : State) :
    (refuseLane k r s).clockSide = (s.onLane k fun l => { l with lastResult := r }).clockSide := rfl

theorem refuseLane_entry (k : LaneId) (r : Result) (s : State) : ((refuseLane k r s).lane k).entry = (s.lane k).entry := by
  have hlane : (refuseLane k r s).lane k = (s.onLane k fun l => { l with lastResult := r }).lane k := rfl
  rw [hlane, State.lane_onLane_self]

/-- A lane named completes its entry, and then may request another (R28). -/
theorem State.OnlyEnters.judgeLane (h : s.OnlyEnters waiting) (hj : LaneJudge judge) (k : LaneId) :
    (judgeLane judge k s).OnlyEnters
      (if ((judgeLane judge k s).lane k).entry.isSome then waiting ++ [k] else waiting) := by
  have hv := h.completeLane k
  rcases judgeLane_cases judge k s with ⟨t, ht, heq⟩ | ⟨r, heq⟩
  · have hentry : ((Machine.judgeLane judge k s).lane k).entry = (t.lane k).entry := by rw [heq, State.lane_onLane_self]
    rw [hentry, heq]
    have hobeys := hj.obeys (completeLane_settled k s) ht
    refine State.OnlyEnters.report (hv.onlyLane (hj.good.only ht) ⟨_, hobeys⟩ (fun he => ?_) ?_) k _
    · rw [if_pos he]
      exact List.mem_append_right _ (List.mem_singleton_self k)
    · intro j _ hmem
      split
      · exact List.mem_append_left _ hmem
      · exact hmem
  · rw [heq, refuseLane_entry, completeLane_settled k s]
    exact (hv.report k r).congr (refuseLane_clockSide k r _) (refuseLane_lanes k r _)

/-- What a part of the command leaves to be entered. -/
theorem State.OnlyEnters.doPart (hj : LaneJudge judge) {x : Todo} {p : Part} (h : s.OnlyEnters x.waiting) :
    (doPart judge s p).OnlyEnters (x.after s (doPart judge s p) p).waiting := by
  cases p with
  | judge k => exact h.judgeLane hj k
  | fetch k => exact h.serveFetchApart k
  | store k => exact h.congr rfl rfl

/-- When all parts of the command are done no lane is in the middle of an entry. -/
theorem State.OnlyEnters.doParts (hj : LaneJudge judge) (free : Bool) (n : Nat) :
    ∀ (x : Todo) (s : State), x.size ≤ n → s.OnlyEnters x.waiting → (doParts free judge n x s).2.OnlyEnters [] := by
  induction n with
  | zero =>
    intro x s hn h
    have hx : x = .done := by
      by_contra hx
      have := Todo.size_pos hx
      omega
    subst hx
    exact h
  | succ n ih =>
    intro x s hn h
    rw [Machine.doParts]
    split
    · rename_i hx
      subst hx
      exact h
    · rename_i hx
      have hu := h.goesOn (x.between_spec s).1
      generalize x.between s = u at hu
      dsimp only
      split
      · rename_i he
        exact absurd he (Todo.parts_ne_nil hx u)
      · rename_i p ps hps
        have hm := hps ▸ nextPart_mem free p ps u
        generalize nextPart free p ps u = c at hm
        have hsize := Todo.size_after (Machine.doPart judge u c.1) hm
        exact ih _ _ (by omega) ((hu.doPart (p := c.1) hj).congr rfl rfl)

theorem State.OnlyEnters.commandLanes (hj : LaneJudge judge) (mask : LaneMask) (h : s.OnlyEnters []) :
    (commandLanes judge mask s).OnlyEnters [] := by
  simp only [Machine.commandLanes]
  split
  · exact State.OnlyEnters.doParts hj true 24 (.first mask) s (Todo.size_first mask) h
  · exact State.OnlyEnters.doParts hj false 24 (.first mask) s (Todo.size_first mask) h

/-- A lane command completes what it causes. -/
theorem laneCommand_completed (hj : LaneJudge judge) (mask : LaneMask) (hs : s.resetLow = false) (h : s.OnlyEnters []) :
    (laneCommand judge mask s).Completed := by
  have ht : (commandLanes judge mask { s with cmdRefused := 0 }).OnlyEnters [] :=
    State.OnlyEnters.commandLanes hj mask (h.congr rfl rfl)
  rw [laneCommand, hostAccess_of_resetHigh hs]
  exact followUp_completed ht.still ht.quiet

end
end Sys2Proof.Machine

/-! The writes that set a latch or reset the block, and the other writes, where nothing is under way; and with them what a host
write completes (R135, R141, R143, R146, R177, R183). -/

namespace Sys2Proof.Machine

section
variable {s t : State} {k : LaneId}

/-! ## Nothing left to complete -/

theorem State.completed_of_quiet (ho : s.outbox = []) (hq : ∀ k, (s.lane k).quiet) : s.Completed := by
  refine ⟨ho, fun k line => ?_, fun k => (hq k).1, fun k => (hq k).2.1⟩
  rw [(hq k).2.2]
  exact List.not_mem_nil

theorem State.Completed.congr (h : s.Completed) (hl : t.lanes = s.lanes) (ho : t.outbox = s.outbox) : t.Completed := by
  have hlane (k : LaneId) : t.lane k = s.lane k := by simp [State.lane, hl]
  exact ⟨ho.trans h.outbox_nil, fun k => hlane k ▸ h.emissions_taken k, fun k => hlane k ▸ h.settled k,
    fun k => hlane k ▸ h.kept_nil k⟩

theorem State.onlyEnters_of_calm (h : s.happenings 0 = []) : s.OnlyEnters [] where
  still := State.still_of_calm h
  kept k := (State.quiet_of_calm h k).2.1
  coming k := (State.quiet_of_calm h k).2.2
  entry k he := by
    rw [(State.quiet_of_calm h k).1] at he
    cases he

/-! ## The Trip Unit -/

/-- Nothing falls due on a trip pin whose level is the accepted one (R117, R144). -/
theorem TripSource.lacking_eq_none (t : TripSource) : t.lacking = none ↔ t.differs = false := by
  unfold TripSource.lacking lackingPeriods
  cases t.differs with
  | false => simp
  | true => cases t.acceptance <;> simp

theorem State.Still.onTrip (h : s.Still) {n : SourceId} {f : TripSource → TripSource}
    (hf : n ≠ swSource → (f s.trips[n.val]).differs = s.trips[n.val].differs ∨ (f s.trips[n.val]).differs = false) :
    (s.onTrip n f).Still := by
  refine ⟨fun pin => ?_, h.tick, h.access, h.moves⟩
  cases pin with
  | input m => exact h.pins (.input m)
  | quadrature u c => exact h.pins (.quadrature u c)
  | trip m =>
    have hm : s.trips[m.val].lacking = none := h.pins (.trip m)
    have htrip : (s.onTrip n f).pinLacking (.trip m) = (s.trips.set n.val (f s.trips[n.val]))[m.val].lacking := rfl
    rw [htrip, Vector.getElem_set]
    split
    · rename_i hnm
      have hn : n ≠ swSource := by
        rintro rfl
        have : (4 : Nat) = m.val := hnm
        omega
      simp only [← hnm] at hm
      rw [TripSource.lacking_eq_none] at hm ⊢
      rcases hf hn with he | he
      · rw [he, hm]
      · exact he
    · exact hm

/-- A change of a trip source changes no lane. -/
theorem State.OnlyEnters.onTrip (h : s.OnlyEnters []) {n : SourceId} {f : TripSource → TripSource}
    (hf : n ≠ swSource → (f s.trips[n.val]).differs = s.trips[n.val].differs ∨ (f s.trips[n.val]).differs = false) :
    (s.onTrip n f).OnlyEnters [] := ⟨h.still.onTrip hf, h.kept, h.coming, h.entry⟩

theorem Lane.force_entry (l : Lane) : l.force.entry = l.entry := by
  unfold Lane.force
  split <;> rfl

theorem State.OnlyEnters.raiseTrips (h : s.OnlyEnters []) (l : List Setting) : (raiseTrips l s).OnlyEnters [] :=
  h.congr (clockSide_of_blocks (sansWalk_raiseTrips _ _)) (State.lanes_ext _ fun k => lane_raiseTrips _ _ k)

theorem State.OnlyEnters.reachForcing (h : s.OnlyEnters []) (n : SourceId) (k : LaneId) :
    (reachForcing n k s).OnlyEnters [] := by
  have hsettled : (s.lane k).entry = none := (h.quiet k).1
  have hfree : (s.lane k).free = true := by simp [Lane.free, hsettled, h.kept k]
  have hlane : (Machine.reachForcing n k s).lane k = (s.lane k).force := by
    rw [Machine.reachForcing, if_pos hfree]
    exact State.lane_onLane_self ..
  refine h.onlyLane (OnlyLane.rfl.reachForcing n) ⟨none, ?_⟩ (fun he => ?_) fun _ _ => id
  · rw [hlane]
    exact (Lane.force_follows hsettled).lane_obeys
  · rw [hlane, Lane.force_entry, hsettled] at he
    cases he

theorem State.OnlyEnters.setLatch (h : s.OnlyEnters []) (n : SourceId) : (setLatch n s).OnlyEnters [] := by
  simp only [Machine.setLatch]
  have hset : ((s.onTrip n fun t => { t with latch := true }).withSettings
      (s.settings ++ [⟨n, s.trips[n.val].scope, 0⟩])).OnlyEnters [] :=
    State.OnlyEnters.congr (h.onTrip (n := n) (f := fun t => { t with latch := true }) fun _ => .inl rfl) rfl rfl
  refine State.OnlyEnters.raiseTrips (List.foldlRecOn (motive := State.OnlyEnters []) allLanes _ hset fun t ht k _ => ?_) _
  split
  · exact ht.reachForcing n k
  · exact ht

theorem State.OnlyEnters.interlude (h : s.OnlyEnters []) : (interlude 0 s).OnlyEnters [] := by
  have hgo := interlude_goesOn 0 s
  generalize Machine.interlude 0 s = u at hgo
  exact h.goesOn hgo

/-- A latch set by a host command forces every lane at once, since none is in the middle of an entry. -/
theorem setLatchNow_completed (h : s.OnlyEnters []) (n : SourceId) : (setLatchNow n s).Completed := by
  have hgo := (h.setLatch n).interlude
  rw [setLatchNow]
  generalize interlude 0 (setLatch n s) = u at hgo
  have harrive : (u.arriveFrom .tripUnit).OnlyEnters [] := hgo.congr rfl rfl
  rw [completeSettings, completeLanes_of_settled _ fun k => ⟨(hgo.quiet k).1, hgo.kept k⟩]
  exact followUp_completed harrive.still harrive.quiet

/-- A new polarity takes the accepted level afresh, and a new filter count leaves it (R143). -/
theorem TripSource.configurePin_differs (t : TripSource) (arg0 arg1 : Word) :
    (t.configurePin arg0 arg1).differs = t.differs ∨ (t.configurePin arg0 arg1).differs = false := by
  rw [TripSource.configurePin_eq]
  simp only [TripSource.differs, TripSource.presented]
  by_cases ha : arg0[1] = t.activeLow
  · exact .inl (by rw [if_pos ha, ha])
  · exact .inr (by rw [if_neg ha, bne_self_eq_false])

theorem State.OnlyEnters.configured (h : s.OnlyEnters []) (n : SourceId) : (s.configured n).OnlyEnters [] := by
  unfold State.configured
  split
  · rename_i hn
    exact h.onTrip fun hne => absurd hn hne
  · have hpin := h.onTrip (n := n) (f := fun t => t.configurePin s.tripArg0 s.tripArg1) fun _ =>
      TripSource.configurePin_differs _ _ _
    exact hpin.congr rfl rfl

theorem tripConfig_completed (h : s.OnlyEnters []) (ho : s.outbox = []) (hs : s.resetLow = false) (v : Word) :
    (tripConfig v s).Completed := by
  have hreport (r : Result) : (s.report r).Completed := State.completed_of_quiet ho h.quiet
  have hrep : (s.report .taken).OnlyEnters [] := h.congr rfl rfl
  have hconf (n : SourceId) : ((s.report .taken).configured n).outbox = [] := by
    unfold State.configured
    split <;> exact ho
  rw [tripConfig, hostAccess_of_resetHigh hs]
  dsimp only
  split
  · split
    · exact hreport _
    · rw [configureTrip_eq]
      split
      · exact setLatchNow_completed (hrep.configured _) _
      · exact State.completed_of_quiet (hconf _) (hrep.configured _).quiet
  · exact hreport _

theorem tripAssert_completed (h : s.OnlyEnters []) (ho : s.outbox = []) (hs : s.resetLow = false) (v : Word) :
    (tripAssert v s).Completed := by
  have hreport (r : Result) : (s.report r).Completed := State.completed_of_quiet ho h.quiet
  have hrep : (s.report .taken).OnlyEnters [] := h.congr rfl rfl
  rw [tripAssert, hostAccess_of_resetHigh hs]
  dsimp only
  split
  · exact hreport _
  · split
    · exact hreport _
    · exact setLatchNow_completed hrep _

/-! ## The reset and the emissions of the host -/

theorem setLatch_outbox (n : SourceId) (s : State) : (setLatch n s).outbox = s.outbox := by
  simp only [setLatch]
  rw [raiseTrips_eq, State.raiseTripNotices_outbox]
  refine List.foldlRecOn (motive := fun t : State => t.outbox = s.outbox) allLanes _ rfl fun t ht k _ => ?_
  split
  · unfold reachForcing
    split <;> exact ht
  · exact ht

theorem setLatches_outbox (n : Nat) : ∀ (sources : List SourceId) (s : State), (setLatches n sources s).outbox = s.outbox := by
  induction n with
  | zero => exact fun _ _ => rfl
  | succ n ih =>
    intro sources s
    cases sources with
    | nil => rfl
    | cons x rest =>
      simp only [setLatches]
      rw [ih, setLatch_outbox, (choose_happenings x rest s 0).1]

theorem goesOn_outbox {but : LaneMask} (ho : s.outbox = []) (h : s.GoesOn but t) : t.outbox = [] :=
  h.induct (P := fun t => t.outbox = []) (fun _ _ h => h) (fun _ x _ h => happen_outbox h x) ho

theorem relatch_outbox (s : State) : (relatch s).outbox = s.outbox := setLatches_outbox _ _ _

theorem resetBlocks_outbox (s : State) : (resetBlocks s).outbox = [] := rfl

theorem discarding_outbox (ho : s.outbox = []) : (discarding s).outbox = [] := by
  have hgo := goesOn_outbox ho (interlude_goesOn 0 s)
  unfold discarding
  generalize interlude 0 s = u at hgo
  exact hgo

theorem softReset_completed (hs : s.resetLow = false) : (softReset s).Completed := by
  have hlane (k : LaneId) : ((softReset s).lane k).quiet := by
    obtain ⟨d, hd⟩ := softReset_lane hs k
    rw [hd]
    exact ⟨rfl, rfl, rfl⟩
  refine State.completed_of_quiet ?_ hlane
  rw [softReset, if_neg (by simp [hs])]
  exact discarding_outbox ((relatch_outbox _).trans (resetBlocks_outbox _))

theorem triggerEmit_completed (h : s.OnlyEnters []) (hs : s.resetLow = false) (v : Word) : (triggerEmit v s).Completed := by
  have ht : ((s.withOutbox (s.outbox ++ lanesOf (maskOf v))).report .taken).OnlyEnters [] := h.congr rfl rfl
  rw [triggerEmit, hostAccess_of_resetHigh hs]
  exact followUp_completed ht.still ht.quiet

/-! ## The other writes -/

theorem plainAccess_completed {act : State → State} (h : s.Completed) (hs : s.resetLow = false) (hl : (act s).lanes = s.lanes)
    (ho : (act s).outbox = s.outbox) : (hostAccess act s).Completed := by
  rw [hostAccess_of_resetHigh hs]
  exact h.congr hl ho

theorem recordRequest_completed (h : s.Completed) (hs : s.resetLow = false) (index : Word) {transfer : State → State}
    (hl : (transfer s).lanes = s.lanes) (ho : (transfer s).outbox = s.outbox) : (recordRequest index transfer s).Completed := by
  rw [recordRequest_eq hs]
  split
  · exact h.congr rfl rfl
  · split
    · exact h.congr rfl rfl
    · exact h.congr hl ho

theorem jobRequest_completed (h : s.Completed) (hs : s.resetLow = false) (valid : State → Bool) (job : State → Job) :
    (jobRequest valid job s).Completed := by
  rw [jobRequest, hostAccess_of_resetHigh hs]
  split
  · exact h.congr rfl rfl
  · split <;> exact h.congr rfl rfl

theorem jobAbort_completed (h : s.Completed) (hs : s.resetLow = false) (v : Word) : (jobAbort v s).Completed := by
  rw [jobAbort, hostAccess_of_resetHigh hs]
  split
  · split
    · exact h.congr rfl rfl
    · unfold raiseJob
      split <;> exact h.congr rfl rfl
  · exact h.congr rfl rfl

theorem lineAssign_completed (h : s.Completed) (hs : s.resetLow = false) (v : Word) : (lineAssign v s).Completed := by
  rw [lineAssign, hostAccess_of_resetHigh hs]
  split
  · exact h.congr rfl rfl
  · split <;> exact h.congr rfl rfl

theorem lineFree_completed (h : s.Completed) (hs : s.resetLow = false) (v : Word) : (lineFree v s).Completed := by
  rw [lineFree, hostAccess_of_resetHigh hs]
  split <;> exact h.congr rfl rfl

theorem noticePop_completed (h : s.Completed) (hc : s.happenings 0 = []) (hs : s.resetLow = false) (v : Word) :
    (noticePop v s).Completed := by
  rw [noticePop, hostAccess_of_resetHigh hs, interlude_of_calm hc]
  unfold popOldest
  split <;> exact h.congr rfl rfl

theorem tbDivPreWrite_completed (h : s.Completed) (hs : s.resetLow = false) (setting : TimebaseSetting) (v : Word) :
    (tbDivPreWrite setting v s).Completed := by
  rw [tbDivPreWrite, hostAccess_of_resetHigh hs]
  cases setting <;> exact h.congr rfl rfl

/-- Driven lines bridge no pulse where no lane is in the middle of an entry. -/
theorem controlWrite_completed (ho : s.outbox = []) (hq : ∀ k, (s.lane k).quiet) (drive run irq : Bool) :
    (controlWrite drive run irq s).Completed := by
  unfold controlWrite State.setDrive
  split
  · refine State.completed_of_quiet ho fun k => ?_
    have hlane : (s.onLanes fun _ => Lane.bridge none).lane k = (s.lane k).bridge none := State.lane_onLanes _ _ k
    have hbridge : ((s.lane k).bridge none).quiet := ⟨by simp [Lane.bridge, (hq k).1], (hq k).2⟩
    exact hlane ▸ hbridge
  · exact State.completed_of_quiet ho hq

theorem controlRegisterWrite_completed (ho : s.outbox = []) (hq : ∀ k, (s.lane k).quiet) (hs : s.resetLow = false) (v : Word) :
    (controlRegisterWrite v s).Completed := by
  unfold controlRegisterWrite
  split
  · exact softReset_completed hs
  · rw [hostAccess_of_resetHigh hs]
    exact controlWrite_completed ho hq _ _ _

/-- A write through the window completes what it causes, where nothing else is under way. -/
theorem busWrite_completed (hs : s.resetLow = false) (ho : s.outbox = []) (hc : s.happenings 0 = []) (n : Nat) (v : Word) :
    (busWrite n v s).Completed := by
  have he := State.onlyEnters_of_calm hc
  have h : s.Completed := State.completed_of_quiet ho he.quiet
  unfold busWrite
  split
  case h_35 =>
    split
    · exact plainAccess_completed h hs rfl rfl
    · exact plainAccess_completed h hs (by rw [plainWrite_frame]) (by rw [plainWrite_frame])
  · exact controlRegisterWrite_completed ho he.quiet hs v
  · exact tbDivPreWrite_completed h hs .div v
  · exact tbDivPreWrite_completed h hs .pre v
  · exact plainAccess_completed h hs rfl rfl
  · exact recordRequest_completed h hs v rfl rfl
  · exact recordRequest_completed h hs v rfl rfl
  · exact laneCommand_completed .start _ hs he
  · exact laneCommand_completed .stop _ hs he
  · exact laneCommand_completed .hold _ hs he
  · exact laneCommand_completed .release _ hs he
  · exact laneCommand_completed .reset _ hs he
  · exact laneCommand_completed .resume _ hs he
  · exact laneCommand_completed .step _ hs he
  · exact laneCommand_completed (.jump _) _ hs he
  · exact laneCommand_completed .load _ hs he
  · exact laneCommand_completed .swap _ hs he
  · exact laneCommand_completed .cancelSwap _ hs he
  · exact plainAccess_completed h hs rfl rfl
  · exact plainAccess_completed h hs rfl rfl
  · exact lineAssign_completed h hs v
  · exact lineFree_completed h hs v
  · exact plainAccess_completed h hs rfl rfl
  · exact plainAccess_completed h hs rfl rfl
  · exact plainAccess_completed h hs rfl rfl
  · exact plainAccess_completed h hs rfl rfl
  · exact plainAccess_completed h hs rfl rfl
  · exact triggerEmit_completed he hs v
  · exact tripConfig_completed he ho hs v
  · exact tripAssert_completed he ho hs v
  · exact plainAccess_completed h hs rfl rfl
  · exact jobRequest_completed h hs _ _
  · exact jobRequest_completed h hs _ _
  · exact jobAbort_completed h hs v
  · exact noticePop_completed h hc hs v

/-- Settles O38: a write where nothing is under way is `busWrite_completed`; what follows from emissions ends with the chain
complete (`ChainInvariant.followUp`), which leaves none of them. -/
theorem hostCommandCompletesWhatFollows : Obligations.HostCommandCompletesWhatFollows :=
  ⟨fun a v s hs ho hc => ⟨busWrite a.toNat v s, rfl, busWrite_completed hs ho hc _ v⟩,
    fun s => ⟨followUp_outbox s, followUp_of_outbox_nil, followUp_goesOn, fun _ hn k => followUp_taken hn k⟩,
    fun _ _ _ h hgo => State.goesOn_of_calm h hgo⟩

end
end Sys2Proof.Machine

/-! Ticks and the leaving of a step: TICK, DWELL_EXPIRY, LIMIT_EXPIRY and PULSE_END (R53, R54, R55, R57, R63, R64, R111, R185). -/

namespace Sys2Proof.Machine

section
variable {k : LaneId} {s : State} {l : Lane} {accepted : BitVec 16}

/-! ## The acts of several lanes, one after another -/

/-- The state after these lanes' acts, their notices stored lane by lane and their emissions not yet handed out. -/
def State.withActs (s : State) (act : LaneId → Act) (ks : List LaneId) : State :=
  { ks.foldl (fun t k => t.raiseAll (.lane k) (act k).notices) s with
    lanes := Vector.ofFn fun k => if k ∈ ks then (act k).lane else s.lane k
    outbox := s.outbox ++ ks.filter fun k => (act k).emits }

/-- The notices of several lanes depend neither on the lanes nor on the emissions that wait. -/
theorem State.foldl_raiseAll_congr (notices : LaneId → List NoticeBody) (lanes : Vector Lane 8) (outbox : List LaneId)
    (ks : List LaneId) : ∀ s : State,
    ks.foldl (fun t k => t.raiseAll (.lane k) (notices k)) { s with lanes := lanes, outbox := outbox } =
      { ks.foldl (fun t k => t.raiseAll (.lane k) (notices k)) s with lanes := lanes, outbox := outbox } := by
  induction ks with
  | nil => exact fun _ => rfl
  | cons k ks ih =>
    intro s
    have hone : ({ s with lanes := lanes, outbox := outbox } : State).raiseAll (.lane k) (notices k) =
        { s.raiseAll (.lane k) (notices k) with lanes := lanes, outbox := outbox } := by
      cases notices k with
      | nil => rfl
      | cons b bs => rw [State.raiseAll_eq (List.cons_ne_nil b bs), State.raiseAll_eq (List.cons_ne_nil b bs)]; rfl
    rw [List.foldl_cons, List.foldl_cons, hone, ih]

/-- One act after another, each of a lane of its own. -/
theorem foldl_withAct (act : LaneId → Act) (ks : List LaneId) :
    ∀ s : State, ks.Nodup → ks.foldl (fun t k => t.withAct k (act k)) s = s.withActs act ks := by
  induction ks with
  | nil =>
    intro s _
    have hlanes : (Vector.ofFn fun k => s.lane k) = s.lanes := Vector.ext fun i hi => Vector.getElem_ofFn hi
    simp [State.withActs, hlanes]
  | cons k ks ih =>
    intro s hnodup
    obtain ⟨hk, hks⟩ := List.nodup_cons.mp hnodup
    have hact : s.withAct k (act k) = { s.raiseAll (.lane k) (act k).notices with
        lanes := s.lanes.set k.val (act k).lane
        outbox := if (act k).emits then s.outbox ++ [k] else s.outbox } := by
      rw [State.withAct, State.raiseAll_frame]
      rfl
    have hlanes (j : LaneId) : (if j ∈ ks then (act j).lane else (s.withAct k (act k)).lane j) =
        if j ∈ k :: ks then (act j).lane else s.lane j := by
      by_cases hj : j = k
      · subst hj
        simp [hk]
      · simp [hj, State.lane_withAct_ne hj]
    have houtbox : (s.withAct k (act k)).outbox ++ ks.filter (fun k => (act k).emits) =
        s.outbox ++ (k :: ks).filter fun k => (act k).emits := by
      rw [hact]
      cases h : (act k).emits <;> simp [h]
    rw [List.foldl_cons, ih _ hks]
    simp only [State.withActs, hlanes, houtbox]
    rw [hact, State.foldl_raiseAll_congr]
    rfl

/-- With nothing to hand out before, the lanes' emissions are handed to every lane in the order of the acts. -/
theorem handOut_withActs (ho : s.outbox = []) (act : LaneId → Act) :
    handOut (s.withActs act allLanes) =
      (allLanes.filter fun k => (act k).emits).foldl (fun t k => handToAll (.emission k) t)
        (allLanes.foldl (fun t k => t.raiseAll (.lane k) (act k).notices)
          { s with lanes := Vector.ofFn fun k => (act k).lane }) := by
  have hmem (k : LaneId) : k ∈ allLanes := List.mem_finRange k
  have hbase : ({ s with lanes := Vector.ofFn fun k => (act k).lane } : State) =
      { s with lanes := Vector.ofFn fun k => (act k).lane, outbox := [] } := by rw [← ho]
  rw [hbase, State.foldl_raiseAll_congr (fun k => (act k).notices)]
  simp only [handOut, handLines, State.withActs, hmem, if_true, ho, List.nil_append]
  rfl

/-! ## TICK (R185) -/

/-- The act of a lane that a tick reaches: a taker takes it, or keeps it during an entry, and to any other lane it is on its
way. -/
def Lane.meetsTick (l : Lane) (k : LaneId) (taker : Bool) (accepted : BitVec 16) : Act :=
  if taker = false then .silent { l with coming := l.coming ++ [.tick] }
  else if l.free then l.ticks k accepted
  else .silent { l with kept := l.kept ++ [.tick] }

theorem handTick_eq (takers : LaneMask) (s : State) (k : LaneId) :
    handTick takers s k = s.withAct k ((s.lane k).meetsTick k (takers.getLsbD k) s.inputs.accepted) := by
  unfold handTick Lane.meetsTick
  cases takers.getLsbD k with
  | false => rfl
  | true =>
    simp only [if_true, Bool.true_eq_false, if_false, reach]
    split
    · exact takeTick_eq
    · rfl

/-- The tick reaches these lanes one after another, each of them as it was before. -/
theorem foldl_handTick (takers : LaneMask) (accepted : BitVec 16) (lane : LaneId → Lane) (ks : List LaneId) :
    ∀ s : State, ks.Nodup → s.inputs.accepted = accepted → (∀ k ∈ ks, s.lane k = lane k) →
    ks.foldl (handTick takers) s =
      ks.foldl (fun t k => t.withAct k ((lane k).meetsTick k (takers.getLsbD k) accepted)) s := by
  induction ks with
  | nil => exact fun _ _ _ _ => rfl
  | cons k ks ih =>
    intro s hnodup haccepted hlane
    obtain ⟨hk, hks⟩ := List.nodup_cons.mp hnodup
    rw [List.foldl_cons, List.foldl_cons, handTick_eq, haccepted, hlane k List.mem_cons_self]
    refine ih _ hks ?_ fun j hj => ?_
    · rw [State.withAct_frame]
      exact haccepted
    · have hne : j ≠ k := fun h => hk (h ▸ hj)
      rw [State.lane_withAct_ne hne, hlane j (List.mem_cons_of_mem k hj)]

/-- What a period's end comes to, with nothing to hand out before: the tick counter is raised and the next period begins, the tick
reaches every lane, and the emissions that its taking leads to are handed out. -/
theorem handOut_foldl_handTick (takers : LaneMask) (ho : s.outbox = []) :
    let act (k : LaneId) := (s.lane k).meetsTick k (takers.getLsbD k) s.inputs.accepted
    handOut (allLanes.foldl (handTick takers) { s with timebase := s.timebase.issue }) =
      (allLanes.filter fun k => (act k).emits).foldl (fun t k => handToAll (.emission k) t)
        (allLanes.foldl (fun t k => t.raiseAll (.lane k) (act k).notices)
          { s with timebase := s.timebase.issue, lanes := Vector.ofFn fun k => (act k).lane }) := by
  intro act
  have hnodup := List.nodup_finRange 8
  rw [foldl_handTick takers s.inputs.accepted s.lane allLanes { s with timebase := s.timebase.issue } hnodup rfl fun _ _ => rfl,
    foldl_withAct _ _ _ hnodup]
  exact handOut_withActs (s := { s with timebase := s.timebase.issue }) ho act

/-- The prescale by its code (R179). -/
theorem prescaleOf_eq (code : BitVec 2) : prescaleOf code = [1, 16, 256, 4096].getD code.toNat 1 := by
  unfold prescaleOf
  match code.toNat, code.isLt with
  | 0, _ | 1, _ | 2, _ | 3, _ => rfl

/-- The end of a period, with the next one spelled out (R185). -/
theorem Timebase.issue_eq (t : Timebase) :
    t.issue = { t with
      counter := t.counter + 1
      period := some ⟨(t.div.toNat + 1) * [1, 16, 256, 4096].getD t.pre.toNat 1, 0⟩ } := by
  rw [← prescaleOf_eq]
  rfl

/-- Core clock periods that go by count in the period in progress alone, which a tick replaces. -/
theorem elapse_issue (d : Nat) (s : State) : (elapse d s).timebase.issue = s.timebase.issue := by
  have htimebase : (elapse d s).timebase = s.timebase.pass d := rfl
  rw [htimebase]
  rfl

/-- On its way to the end of a period the block leaves the Timebase's settings and counter as they are, and the period in
progress is replaced by the next. -/
theorem goOnTo_issue (d : Nat) (s : State) : (goOnTo d s).timebase.issue = s.timebase.issue := by
  obtain ⟨t, ht, h | h⟩ := goOnTo_same d s
  · rw [h, ht.timebase]
  · rw [h, elapse_issue, ht.timebase]

theorem goOnTo_accepted (d : Nat) (s : State) : (goOnTo d s).inputs.accepted = s.inputs.accepted := by
  obtain ⟨t, ht, h | h⟩ := goOnTo_same d s
  · rw [h, ht.inputs]
  · rw [h, elapse_accepted, ht.inputs]

theorem goOnTo_outbox (ho : s.outbox = []) (d : Nat) : (goOnTo d s).outbox = [] := by
  unfold goOnTo
  split
  · exact ho
  · rw [elapse_outbox, drain, settle_outbox _ _ _ ho]

theorem exec_tick (takers : LaneMask) (s : State) : exec (.tick takers) s = .next (tick takers s) := rfl

/-- A tick is the next event of the core clock where nothing falls due before the end of the period in progress (log 2). -/
theorem tick_of_period {p : Period} (hs : s.resetLow = false) (hr : s.timebase.running = true)
    (hp : s.timebase.period = some p) (takers : LaneMask) :
    tick takers s =
      let d := goOnTo (p.length - p.elapsed) s
      if s.nothingBefore (p.length - p.elapsed) = false then s
      else handOut (allLanes.foldl (handTick takers) { d with timebase := d.timebase.issue }) := by
  have hlacking : s.timebase.lacking = some (p.length - p.elapsed) := by simp [Timebase.lacking, hr, hp]
  rw [tick, hlacking, clockEvent]
  cases s.nothingBefore (p.length - p.elapsed) with
  | false => simp
  | true => simp [hs]

/-- Settles O19: the block goes on to the end of the period (`tick_of_period`), and the tick reaches the lanes one after another
(`handOut_foldl_handTick`). -/
theorem tickReachesEveryLane : Obligations.TickReachesEveryLane := by
  intro takers s hs ho
  refine ⟨fun hr => ?_, fun p hr hp => ?_⟩
  · have hnone : s.timebase.lacking = none := by simp [Timebase.lacking, hr]
    rw [exec_tick, tick, hnone]
    rfl
  · rw [exec_tick, tick_of_period hs hr hp]
    dsimp only
    rw [handOut_foldl_handTick takers (goOnTo_outbox ho _), goOnTo_issue, Timebase.issue_eq, goOnTo_accepted]
    rfl

/-! ## Acts that raise nothing -/

theorem State.withAct_silent (l : Lane) : s.withAct k (.silent l) = s.setLane k l := rfl

theorem State.afterAct_silent (l : Lane) : s.afterAct k (.silent l) = s.setLane k l := rfl

/-- Without an entry in progress there is none that keeps a line inverted. -/
theorem Lane.bridge_of_settled (h : l.entry = none) (line : Option (Fin 32)) : l.bridge line = l := by
  cases l
  cases h
  rfl

/-- After its act a lane is what the act makes of it, but that its own emission may be on its way to it too. -/
theorem State.lane_afterAct (a : Act) : ∃ es, (s.afterAct k a).lane k = a.lane.withComing es := by
  have hset : ((s.raiseAll (.lane k) a.notices).setLane k a.lane).lane k = a.lane := State.lane_setLane_self _ _ _
  simp only [State.afterAct]
  split
  · rw [lane_handToAll, hset]
    split
    · exact ⟨_, rfl⟩
    · exact ⟨_, rfl⟩
  · exact ⟨_, hset⟩

/-! ## The rows of the expiries -/

/-- The lane without the event that it takes next differs from the lane in the events that wait for it. -/
theorem Lane.taking_eq {l' : Lane} {e : Event} (h : l.taking e = some l') :
    ∃ kept coming, l = { l' with kept := kept, coming := coming } := by
  unfold Lane.taking at h
  split at h
  · split at h <;> cases h
    exact ⟨_, _, rfl⟩
  · split at h <;> cases h
    exact ⟨_, _, rfl⟩
  · cases h

/-- The event that a lane takes next is ready for it. -/
theorem Lane.ready_of_taking {l' : Lane} {e : Event} (h : l.taking e = some l') : e ∈ l.ready := by
  unfold Lane.taking at h
  split at h
  · rename_i x rest he hk
    split at h
    · rename_i hx
      simp [Lane.ready, he, hk, hx]
    · cases h
  · rename_i he hk
    split at h
    · rename_i hn
      have hmem : e ∈ l.coming := List.mem_of_find?_eq_some (by simpa [Lane.nextOfSource] using hn)
      simp [Lane.ready, he, hk, hn, hmem]
    · cases h
  · cases h

theorem Lane.tickReady_of_taking {l' : Lane} (h : l.taking .tick = some l') : l.tickReady = true := by
  have hsettled := Lane.taking_settled h
  have hentry : l.entry = none := by
    obtain ⟨kept, coming, hl⟩ := Lane.taking_eq h
    rw [hl]
    exact hsettled
  simp [Lane.tickReady, hentry, Lane.ready_of_taking h]

/-- A row that names the tick on its way to the lane makes the lane take it, whole (log 9). -/
theorem takeTickWhen_of_taking {named : Lane → Bool} (hs : s.resetLow = false) (ho : s.outbox = [])
    (hl : (s.lane k).taking .tick = some l) (hn : named (s.lane k) = true) :
    takeTickWhen named k s = s.afterAct k (l.ticks k s.inputs.accepted) := by
  have hact : takeEvent k .tick (s.setLane k l) = (s.setLane k l).withAct k (l.ticks k s.inputs.accepted) := by
    rw [takeEvent, takeTick_eq, State.lane_setLane_self, State.setLane_inputs]
  simp only [takeTickWhen, hs, Lane.tickReady_of_taking hl, hn]
  exact deliver_eq_afterAct hl ho hact

/-! ## The taking of a tick -/

theorem Lane.ticks_of_running (h : l.state = .running) : l.ticks k accepted = Act.bridge
    (if l.dwell = 1 ∧ l.meets accepted = true then l.counted.leaves k false
      else if l.limit = some 1 then l.counted.actsOnFault k
      else .silent l.counted)
    (endingLine l.pulse) := by
  simp only [Lane.ticks, h]

theorem Lane.ticks_of_done (h : l.state = .done) : l.ticks k accepted = .silent { l with pulse := l.counted.pulse } := by
  simp only [Lane.ticks, h]

/-- The pulse's last tick ends it. -/
theorem Lane.counted_pulse_of_last {line : Fin 32} (h : l.pulse = some ⟨line, 1⟩) : l.counted.pulse = none := by
  simp only [Lane.counted, h]

/-! ## An act starts no pulse -/

/-- The act leaves a lane without a pulse without one. -/
abbrev Act.Pulseless (a : Act) : Prop := a.lane.pulse = none

theorem Lane.enters_pulseless (h : l.pulse = none) (full : Bool) (o : Nat) (c : EntryCause) :
    (l.enters k full o c).Pulseless := by
  unfold Lane.enters
  split
  · exact h
  · split
    · exact h
    · exact h

theorem Lane.ends_pulseless (h : l.pulse = none) (b : Bool) : (l.ends k b).Pulseless := by
  simp only [Lane.ends]
  split
  · exact h
  · split
    · rfl
    · split
      · exact h
      · exact h

theorem Lane.goesOn_pulseless (h : l.pulse = none) (b : Bool) : (l.goesOn k b).Pulseless := by
  unfold Lane.goesOn
  split
  · exact Lane.enters_pulseless h _ _ _
  · exact Lane.ends_pulseless h b

theorem Lane.leaves_pulseless (h : l.pulse = none) (b : Bool) : (l.leaves k b).Pulseless := by
  simp only [Lane.leaves]
  split
  · exact h
  · split
    · exact Lane.goesOn_pulseless h b
    · exact Lane.goesOn_pulseless h b
    · rfl
    · split
      · exact Lane.goesOn_pulseless (by exact h) b
      · exact Lane.enters_pulseless (by exact h) _ _ _

theorem Lane.actsOnFault_pulseless (h : l.pulse = none) : (l.actsOnFault k).Pulseless := by
  unfold Lane.actsOnFault
  split
  · exact h
  · split
    · exact Lane.leaves_pulseless h true
    · exact Lane.enters_pulseless (by exact h) _ _ _
    · rfl

/-- The pulse's last tick leaves a RUNNING lane without a pulse. -/
theorem Lane.ticks_pulseless {line : Fin 32} (hr : l.state = .running) (h : l.pulse = some ⟨line, 1⟩) :
    (l.ticks k accepted).Pulseless := by
  have hnone := Lane.counted_pulse_of_last h
  rw [Lane.ticks_of_running hr]
  show Act.Pulseless (ite _ _ _)
  split
  · exact Lane.leaves_pulseless hnone _
  · split
    · exact Lane.actsOnFault_pulseless hnone
    · exact hnone

/-- Any entry that a RUNNING lane's tick leads to goes on showing the pulse that the tick ends (R108, R113; log 30). -/
theorem Lane.ticks_bridged {e : Entry} (hr : l.state = .running) (h : (l.ticks k accepted).lane.entry = some e) :
    e.bridged = endingLine l.pulse := by
  rw [Lane.ticks_of_running hr] at h
  obtain ⟨x, -, rfl⟩ := Option.map_eq_some_iff.mp h
  rfl

/-! ## DWELL_EXPIRY, LIMIT_EXPIRY and PULSE_END -/

theorem exec_dwellExpiry (k : LaneId) (s : State) : exec (.dwellExpiry k) s = .next (dwellExpiry k s) := rfl
theorem exec_limitExpiry (k : LaneId) (s : State) : exec (.limitExpiry k) s = .next (limitExpiry k s) := rfl
theorem exec_pulseEnd (k : LaneId) (s : State) : exec (.pulseEnd k) s = .next (pulseEnd k s) := rfl

/-- Settles O20: each row makes the lane take the tick (`takeTickWhen_of_taking`), and the rows of R64 are read off the act. -/
theorem expiringTicksAreTaken : Obligations.ExpiringTicksAreTaken := by
  intro k s l hs ho hl
  obtain ⟨kept, coming, hlane⟩ := Lane.taking_eq hl
  refine ⟨fun hr hd => ?_, fun hr hm => ?_, fun line hp => ⟨fun hr => ?_, fun hr => ?_⟩⟩
  · rw [exec_dwellExpiry, dwellExpiry, takeTickWhen_of_taking hs ho hl (by simp [hlane, hr, hd]),
      Lane.ticks_of_running hr]
    simp only [hd, true_and]
  · rw [exec_limitExpiry, limitExpiry, takeTickWhen_of_taking hs ho hl (by simp [hlane, hr, hm]),
      Lane.ticks_of_running hr, if_pos hm]
  · refine ⟨_, ?_, rfl, ?_⟩
    · rw [exec_pulseEnd, pulseEnd, takeTickWhen_of_taking hs ho hl (by simp [hlane, hr, hp])]
    · obtain ⟨es, hes⟩ := State.lane_afterAct (s := s) (k := k) (l.ticks k s.inputs.accepted)
      rw [hes]
      refine ⟨Lane.ticks_pulseless hr hp, fun e he => ?_⟩
      rw [Lane.ticks_bridged hr he, hp]
      rfl
  · rw [exec_pulseEnd, pulseEnd, takeTickWhen_of_taking hs ho hl (by simp [hlane, hr, hp]),
      Lane.ticks_of_done hr, Lane.counted_pulse_of_last hp, State.afterAct_silent]

/-! ## A TIME step (R57) -/

/-- A tick that leaves dwell remaining in a step without a limit is counted, and that is all. -/
theorem Lane.ticks_of_dwell {n : Nat} (he : l.entry = none) (hr : l.state = .running) (hl : l.limit = none)
    (hd : l.dwell = n + 2) : l.ticks k accepted = .silent { l with dwell := n + 1, pulse := l.counted.pulse } := by
  have hcounted : l.counted = { l with dwell := n + 1, pulse := l.counted.pulse } := by
    simp only [Lane.counted, hd, hl]
    rfl
  have hbridge : (Act.silent l.counted).bridge (endingLine l.pulse) = .silent l.counted :=
    congrArg Act.silent (Lane.bridge_of_settled (l := l.counted) he _)
  rw [Lane.ticks_of_running hr, if_neg (by omega), if_neg (by simp [hl]), hbridge, ← hcounted]

/-- The last tick of the dwell makes a lane leave its TIME step, whatever the accepted levels are. -/
theorem Lane.ticks_of_last_dwell {r : Record} (hr : l.state = .running) (hc : l.copy = some r) (hk : r.kind = some .time)
    (hd : l.dwell = 1) : l.ticks k accepted = (l.counted.leaves k false).bridge (endingLine l.pulse) := by
  have hmeets : l.meets accepted = true := by simp only [Lane.meets, hc, hk]
  rw [Lane.ticks_of_running hr, if_pos ⟨hd, hmeets⟩]

/-- Ticks that leave dwell remaining in a step without a limit count down its dwell and its pulse, and do nothing else. -/
theorem iterate_takeTick_of_dwell (n : Nat) : ∀ s : State, (s.lane k).entry = none → (s.lane k).state = .running →
    (s.lane k).limit = none → (s.lane k).dwell = n + 1 →
    ∃ p, (takeEvent k .tick)^[n] s = s.setLane k { s.lane k with dwell := 1, pulse := p } := by
  induction n with
  | zero =>
    intro s _ _ _ hd
    refine ⟨(s.lane k).pulse, ?_⟩
    have hone : (s.lane k).dwell = 1 := hd
    have hlane : { s.lane k with dwell := 1, pulse := (s.lane k).pulse } = s.lane k := by rw [← hone]
    rw [Function.iterate_zero_apply, hlane, State.setLane_lane_self]
  | succ n ih =>
    intro s he hr hl hd
    have hstep : takeEvent k .tick s =
        s.setLane k { s.lane k with dwell := n + 1, pulse := (s.lane k).counted.pulse } := by
      rw [takeEvent, takeTick_eq, Lane.ticks_of_dwell he hr hl hd, State.withAct_silent]
    obtain ⟨p, hp⟩ := ih (s.setLane k { s.lane k with dwell := n + 1, pulse := (s.lane k).counted.pulse })
      (by simpa using he) (by simpa using hr) (by simpa using hl) (by simp)
    refine ⟨p, ?_⟩
    rw [Function.iterate_succ_apply, hstep, hp, State.lane_setLane_self, State.setLane_setLane]

/-- Settles O21, by induction over the ticks before the last (`iterate_takeTick_of_dwell`). -/
theorem timeStepLastsItsDwell : Obligations.TimeStepLastsItsDwell := by
  intro k s r n l he hr hc hk hl hd t
  obtain ⟨p, hp⟩ := iterate_takeTick_of_dwell n s he hr hl hd
  have ht : t = s.setLane k { l with dwell := 1, pulse := p } := hp
  have hlane : t.lane k = { l with dwell := 1, pulse := p } := by rw [ht, State.lane_setLane_self]
  refine ⟨by rw [hlane]; exact ht, ?_⟩
  rw [takeEvent, takeTick_eq, Lane.ticks_of_last_dwell (r := r)]
  · rw [hlane]; exact hr
  · rw [hlane]; exact hc
  · exact hk
  · rw [hlane]

/-! ## No leaving while the dwell remains (R55, R63) -/

/-- A lane whose dwell remains does not leave its step when it judges it. -/
theorem Lane.judges_of_dwell (h : 1 ≤ l.dwell) : l.judges k accepted = .silent l := by
  rw [Lane.judges, if_neg (by omega)]

/-- The act raises nothing, and changes nothing of the lane but its latch and its edge count. -/
def Act.Stays (a : Act) (l : Lane) : Prop := ∃ latch edges, a = .silent { l with latch := latch, edges := edges }

theorem Act.stays_silent (l : Lane) : (Act.silent l).Stays l := ⟨l.latch, l.edges, rfl⟩

/-- A RUNNING lane is not ARMED, so that it takes an edge as its step's condition (R122). -/
theorem Lane.takesEdge_stays (hr : l.state = .running) (hd : 1 ≤ l.dwell) (n : InputId) (e : Sense) (turn : Nat) :
    (l.takesEdge k n e accepted turn).Stays l := by
  unfold Lane.takesEdge
  rw [if_neg (by simp [hr])]
  split
  · rw [Lane.judges_of_dwell hd]
    exact Act.stays_silent l
  · split
    · rw [Lane.judges_of_dwell (by exact hd)]
      exact ⟨_, _, rfl⟩
    · exact Act.stays_silent l

theorem Lane.takesArrival_stays (hd : 1 ≤ l.dwell) (u : UnitId) (value : Word) (d : Direction) :
    (l.takesArrival k u value d accepted).Stays l := by
  unfold Lane.takesArrival
  split
  · rw [Lane.judges_of_dwell (by exact hd)]
    exact ⟨_, _, rfl⟩
  · exact Act.stays_silent l

/-- A lane that stays in its step has no entry to place behind those of other lanes. -/
theorem Act.following_silent (h : l.entry = none) (e : Event) (turn : Nat) :
    (Act.silent l).following e turn = .silent l := by
  cases l
  cases h
  rfl

theorem Lane.takesEmission_stays (he : l.entry = none) (hr : l.state = .running) (hd : 1 ≤ l.dwell) (line : LaneId)
    (turn : Nat) : (l.takesEmission k line accepted turn).Stays l := by
  unfold Lane.takesEmission
  rw [if_neg (by simp [hr])]
  split
  · rw [Lane.judges_of_dwell (by exact hd), Act.following_silent (by exact he)]
    exact ⟨_, _, rfl⟩
  · exact Act.stays_silent l

/-- A RUNNING lane whose dwell remains stays in its step, whatever edge, arrival or emission it takes. -/
theorem takeEvent_stays {e : Event} (hr : (s.lane k).state = .running) (he : (s.lane k).entry = none)
    (hd : 1 ≤ (s.lane k).dwell) (hf : ∀ n, e ≠ .forcing n) (ht : e ≠ .tick) :
    ∃ a : Act, takeEvent k e s = s.withAct k a ∧ a.Stays (s.lane k) := by
  cases e with
  | tick => exact absurd rfl ht
  | forcing n => exact absurd rfl (hf n)
  | edge n d => exact ⟨_, takeEdge_eq he n d, Lane.takesEdge_stays hr hd n d _⟩
  | arrival u v d => exact ⟨_, takeArrival_eq u v d, Lane.takesArrival_stays hd u v d⟩
  | emission line => exact ⟨_, takeEmission_eq he line, Lane.takesEmission_stays he hr hd line _⟩

/-- Settles O22: the act of the event is silent, and leaves all but the latch and the edge count (`takeEvent_stays`). -/
theorem noLeavingWhileTheDwellRemains : Obligations.NoLeavingWhileTheDwellRemains := by
  intro k s e _ ho hr he hd hf ht
  obtain ⟨a, hact, latch, edges, rfl⟩ := takeEvent_stays hr he hd hf ht
  dsimp only
  rw [hact, State.withAct_silent, State.lane_setLane_self]
  exact ⟨rfl, rfl, ho, rfl⟩

end
end Sys2Proof.Machine

/-! The output lines: LINE_ASSIGN, LINE_FREE, the level of every line, and SAFE_LEVEL_WRITE (R102, R104, R105, R107, R109). -/

namespace Sys2Proof.Machine

section
variable {s t : State} {n : Fin 32} {l : Lane}

/-! ## LINE_ASSIGN and LINE_FREE (R104, R105) -/

theorem lineOf_val (v : Word) : (lineOf v).val = (v.extractLsb' 0 5).toNat := by
  rw [lineOf, wordField_eq]
  exact Nat.mod_eq_of_lt (v.extractLsb' 0 5).isLt

theorem laneAt_val (v : Word) (low : Nat) : (laneAt v low).val = (v.extractLsb' low 3).toNat := by
  rw [laneAt, wordField_eq]
  exact Nat.mod_eq_of_lt (v.extractLsb' low 3).isLt

theorem State.ownerBusy_eq_false : s.ownerBusy n = false ↔ ∀ k, s.owners[n.val] = some k → (s.lane k).state = .idle := by
  simp [State.ownerBusy, Option.any_eq_false]

/-- What LINE_ASSIGN and LINE_FREE can make of s: a result code alone, or another owner, or none, for line n, where the old owner
and the new one are IDLE (R104, R105). -/
def State.AssignsLine (n : Fin 32) (s t : State) : Prop :=
  (∃ r, t = s.report r) ∨ ∃ o, s.ownerBusy n = false ∧ (∀ k, o = some k → (s.lane k).state = .idle) ∧
    t = ({ s with owners := s.owners.set n.val o } : State).report .taken

theorem lineAssign_assignsLine (v : Word) (s : State) : s.AssignsLine (lineOf v) (lineAssign v s) := by
  unfold lineAssign hostAccess
  split
  · exact .inl ⟨s.cmdResult, rfl⟩
  · dsimp only
    split
    · exact .inl ⟨_, rfl⟩
    · rename_i hbusy
      split
      · exact .inl ⟨_, rfl⟩
      · rename_i hlane
        refine .inr ⟨_, by simpa using hbusy, fun k hk => ?_, rfl⟩
        obtain rfl := Option.some.inj hk
        exact not_not.mp hlane

theorem lineFree_assignsLine (v : Word) (s : State) : s.AssignsLine (lineOf v) (lineFree v s) := by
  unfold lineFree hostAccess
  split
  · exact .inl ⟨s.cmdResult, rfl⟩
  · dsimp only
    split
    · exact .inl ⟨_, rfl⟩
    · rename_i hbusy
      exact .inr ⟨none, by simpa using hbusy, nofun, rfl⟩

/-- An IDLE owner leaves its line at the safe level, as if the line had none (R107). -/
theorem State.outLevel_of_idle_owner (hs : s.resetLow = false) (h : s.ownerBusy n = false) :
    s.outLevel n = s.safeLevels.getLsbD n := by
  rw [State.ownerBusy_eq_false] at h
  simp only [State.outLevel, hs]
  cases ho : s.owners[n.val] with
  | none => simp
  | some k => simp [Lane.shows, h k ho]

/-- The owner of a line that a line command has assigned is IDLE. -/
theorem State.ownerBusy_assigned {o : Option LaneId} (ho : ∀ k, o = some k → (s.lane k).state = .idle) (r : Result) :
    (({ s with owners := s.owners.set n.val o } : State).report r).ownerBusy n = false := by
  refine State.ownerBusy_eq_false.mpr fun k hk => ho k ?_
  simpa using hk

/-- No pin moves at a line command (R104, R105). -/
theorem State.AssignsLine.outLevel (h : s.AssignsLine n t) (m : Fin 32) : t.outLevel m = s.outLevel m := by
  obtain ⟨r, rfl⟩ | ⟨o, hb, ho, rfl⟩ := h
  · rfl
  · by_cases hm : n = m ∧ s.resetLow = false
    · obtain ⟨rfl, hs⟩ := hm
      rw [State.outLevel_of_idle_owner hs hb]
      exact State.outLevel_of_idle_owner hs (State.ownerBusy_assigned ho _)
    · by_cases hs : s.resetLow = true
      · simp [State.outLevel, hs]
      · have hne : n.val ≠ m.val := fun h => hm ⟨Fin.ext h, by simpa using hs⟩
        simp [State.outLevel, hs, hne, State.lane]

/-- Settles O26: the two commands are their model's branches, and what they can make of the state moves no pin
(`State.AssignsLine.outLevel`). -/
theorem lineCommandsNeedIdleOwners : Obligations.LineCommandsNeedIdleOwners := by
  intro v n k s hs hn hk busy assigned freed
  obtain rfl : n = lineOf v := Fin.ext (hn.trans (lineOf_val v).symm)
  obtain rfl : k = laneAt v 8 := Fin.ext (hk.trans (laneAt_val v 8).symm)
  have ha : lineAssign v s = assigned := hostAccess_of_resetHigh hs _
  have hf : lineFree v s = freed := hostAccess_of_resetHigh hs _
  refine ⟨congrArg _ ha, congrArg _ hf, fun m => ?_⟩
  rw [← ha, ← hf]
  exact ⟨(lineAssign_assignsLine v s).outLevel m, (lineFree_assignsLine v s).outLevel m⟩

/-! ## The level of a line (R107, R109) -/

theorem State.outLevel_of_resetLow (h : s.resetLow = true) (n : Fin 32) : s.outLevel n = false := by
  simp [State.outLevel, h]

/-- The level of a driven line with an owner is what its owner shows there, or the safe level (R107). -/
theorem State.outLevel_of_owner {k : LaneId} (hs : s.resetLow = false) (hd : s.driveEnable = true) (ho : s.owners[n.val] = some k) :
    s.outLevel n = ((s.lane k).shows n).getD (s.safeLevels.getLsbD n) := by
  simp [State.outLevel, hs, hd, ho]

theorem Lane.shows_of_walking (h : l.state = .running ∨ l.state = .held ∨ l.state = .done) (n : Fin 32) :
    l.shows n = some (if l.inverts n then !l.pattern.getLsbD n else l.pattern.getLsbD n) := by
  obtain h | h | h := h <;> simp [Lane.shows, h]

theorem Lane.inverts_of_pulse {p : Pulse} (h : l.pulse = some p) (hn : p.line = n) : l.inverts n = true := by
  simp [Lane.inverts, h, hn]

theorem Lane.inverts_of_bridged {e : Entry} (h : l.entry = some e) (hn : e.bridged = some n) : l.inverts n = true := by
  simp [Lane.inverts, h, hn]

theorem Lane.inverts_eq_false (hp : ∀ p, l.pulse = some p → p.line ≠ n)
    (he : ∀ e, l.entry = some e → e.bridged ≠ some n) : l.inverts n = false := by
  simpa [Lane.inverts, Option.any_eq_false] using And.intro hp he

/-- Settles O27: the level is what the owner shows (`State.outLevel_of_owner`), state by state. -/
theorem lineLevelFollowsItsOwner : Obligations.LineLevelFollowsItsOwner := by
  intro s n safe
  refine ⟨fun hr => State.outLevel_of_resetLow hr n, fun hs => ⟨fun hd => ?_, fun hd ho => ?_, fun k hd ho => ?_⟩⟩
  · simp [State.outLevel, hs, hd, safe]
  · simp [State.outLevel, hs, ho, safe]
  · intro l
    have hlevel : s.outLevel n = (l.shows n).getD safe := State.outLevel_of_owner hs hd ho
    rw [hlevel]
    refine ⟨fun h => ?_, fun h hp => ?_, fun h hp => ?_, fun h => ?_⟩
    · obtain h | h | h := h <;> simp [Lane.shows, h]
    · simp [Lane.shows, h, hp]
    · simp [Lane.shows, h, hp]
    · rw [Lane.shows_of_walking h, Option.getD_some]
      exact ⟨fun p hp hn => by rw [Lane.inverts_of_pulse hp hn, if_pos rfl],
        fun e he hn => by rw [Lane.inverts_of_bridged he hn, if_pos rfl],
        fun hp he => by rw [Lane.inverts_eq_false hp he, if_neg Bool.false_ne_true]⟩

/-! ## SAFE_LEVEL_WRITE (R102) -/

theorem replaceSafe_getLsbD (half : SafeHalf) (v : Word) (levels : LineField) (n : Fin 32) :
    (replaceSafe half v levels).getLsbD n =
      if (half = .lo ∧ n.val < 16) ∨ (half = .hi ∧ 16 ≤ n.val) then v.getLsbD (n.val % 16) else levels.getLsbD n := by
  have hn := n.isLt
  cases half <;> by_cases hlow : n.val < 16
  · simp only [replaceSafe, BitVec.getLsbD_append, hlow, Nat.mod_eq_of_lt hlow]
    simp
  · have hbit : n.val - 16 < 16 := by omega
    simp only [replaceSafe, BitVec.getLsbD_append, BitVec.getLsbD_extractLsb', hlow, hbit]
    simp [show 16 + (n.val - 16) = n.val by omega]
  · simp only [replaceSafe, BitVec.getLsbD_append, BitVec.getLsbD_extractLsb', hlow]
    simp [show ¬ 16 ≤ n.val by omega]
  · simp only [replaceSafe, BitVec.getLsbD_append, hlow]
    simp [show 16 ≤ n.val by omega, show n.val % 16 = n.val - 16 by omega]

/-- Settles O28. -/
theorem safeLevelWriteReplacesSixteenLevels : Obligations.SafeLevelWriteReplacesSixteenLevels := fun half v s hs =>
  ⟨{ s with safeLevels := replaceSafe half v s.safeLevels }, congrArg _ (hostAccess_of_resetHigh hs _), rfl,
    replaceSafe_getLsbD half v s.safeLevels⟩

end
end Sys2Proof.Machine

/-! The writes of CONTROL, of the Timebase's registers, and of the registers whose writes are rows of their own (R103, R175, R179,
R182, R185, R186), and the part while RESET# is low (R109, R175, R184). -/

namespace Sys2Proof.Machine

section
variable {s : State}

/-! ## CONTROL and the Timebase's registers (R103, R175, R182, R185, R186) -/

theorem Timebase.setRun_eq (b : Timebase) (on : Bool) :
    b.setRun on = { b with
      running := on
      period :=
        if b.running = on then b.period
        else if on then some ⟨(b.div.toNat + 1) * [1, 16, 256, 4096].getD b.pre.toNat 1, 0⟩
        else none } := by
  unfold Timebase.setRun
  rw [← prescaleOf_eq]
  split
  · rename_i h
    subst h
    rfl
  · cases on <;> rfl

theorem Timebase.setRun_same (b : Timebase) : b.setRun b.running = b := if_pos rfl

theorem State.setDrive_eq (s : State) (on : Bool) :
    s.setDrive on = { s with
      driveEnable := on
      lanes :=
        if on = true ∧ s.driveEnable = false then
          Vector.ofFn fun k => { s.lane k with entry := (s.lane k).entry.map fun e => { e with bridged := none } }
        else s.lanes } := by
  cases on <;> cases hd : s.driveEnable <;> simp [State.setDrive, hd, State.onLanes, Lane.bridge]

theorem State.setDrive_same (s : State) : s.setDrive s.driveEnable = s := by simp [State.setDrive]

/-- A write at an address whose write has a row of its own acts as that row (R179; log 13). -/
theorem exec_of_row {v : Word} {x : BitVec 8 × Instr} (h : x ∈ rowsOfWrites v) (s : State) :
    exec (.plainRegisterWrite x.1 v) s = exec x.2 s := by
  revert x
  simp only [rowsOfWrites, List.forall_mem_append, List.forall_mem_cons, List.forall_mem_map, List.not_mem_nil, false_imp_iff,
    implies_true, and_true]
  refine ⟨?_, fun j _ => ?_⟩
  · and_intros
    all_goals rfl
  · match j with
    | 0 | 1 | 2 | 3 | 4 | 5 | 6 | 7 => rfl

/-- Settles O53: the rows are CONTROL writes with the other bits as they stand (`State.setDrive_same`, `Timebase.setRun_same`). -/
theorem controlAndTimebaseWrites : Obligations.ControlAndTimebaseWrites := by
  intro on v s hs run drive
  have hrun : ∀ b, s.timebase.setRun b = run b := s.timebase.setRun_eq
  have hdrive : ∀ b, s.setDrive b = drive b := s.setDrive_eq
  refine ⟨?_, ?_, ?_, congrArg _ (hostAccess_of_resetHigh hs _), congrArg _ (hostAccess_of_resetHigh hs _),
    congrArg _ (hostAccess_of_resetHigh hs _), ?_, fun x hx => exec_of_row hx s⟩
  · have hrow : exec (.driveEn on) s = .next (controlWrite on s.timebase.running s.irqEnable s) :=
      congrArg _ (hostAccess_of_resetHigh hs _)
    rw [hrow, controlWrite, s.timebase.setRun_same, hdrive]
  · have hrow : exec (.noticeIrqEn on) s = .next (controlWrite s.driveEnable s.timebase.running on s) :=
      congrArg _ (hostAccess_of_resetHigh hs _)
    rw [hrow, controlWrite, s.timebase.setRun_same, s.setDrive_same]
  · have hrow : exec (.tbRun on) s = .next (controlWrite s.driveEnable on s.irqEnable s) :=
      congrArg _ (hostAccess_of_resetHigh hs _)
    rw [hrow, controlWrite, s.setDrive_same, hrun]
  · have hwrite : exec (.plainRegisterWrite 0x01#8 v) s = .next (controlRegisterWrite v s) := rfl
    rw [hwrite, controlRegisterWrite]
    change Host.Outcome.next (if v[3] = true then _ else _) = _
    split
    · rfl
    · rw [hostAccess_of_resetHigh hs, controlWrite, hdrive, hrun]
      rfl

/-! ## RESET# low (R109, R175, R184) -/

theorem clockEvent_of_resetLow (h : s.resetLow = true) (lacking : Option Nat) (act : State → State) :
    clockEvent lacking act s = s := by
  unfold clockEvent
  split
  · rfl
  · rw [if_neg (by simp [h])]

theorem takeTickWhen_of_resetLow (h : s.resetLow = true) (named : Lane → Bool) (k : LaneId) : takeTickWhen named k s = s :=
  if_neg (by simp [h])

theorem State.jobRuns_of_resetLow (h : s.resetLow = true) (kind : JobKind) : s.jobRuns kind = false := by
  simp [State.jobRuns, h]

theorem entryFetch_of_resetLow (h : s.resetLow = true) (k : LaneId) : entryFetch k s = s := if_pos (by simp [h])

theorem softReset_of_resetLow (h : s.resetLow = true) : softReset s = s := if_pos h

theorem busWrite_of_resetLow (h : s.resetLow = true) (n : Nat) (v : Word) : busWrite n v s = s := by
  unfold busWrite
  split
  case h_1 =>
    unfold controlRegisterWrite
    split
    · exact softReset_of_resetLow h
    · exact if_pos h
  case h_35 => split <;> exact if_pos h
  all_goals exact if_pos h

/-- While RESET# is low no command but RESET_RELEASE and the move of a pin changes the state (R184; log 14). -/
theorem exec_of_resetLow (h : s.resetLow = true) (c : Instr) (hrelease : c ≠ .resetRelease)
    (hpin : ∀ pin level, c ≠ .presentedLevelChange pin level) : exec c s = .next s := by
  cases c <;> refine congrArg Host.Outcome.next ?_
  case resetRelease => exact absurd rfl hrelease
  case presentedLevelChange pin level => exact absurd rfl (hpin pin level)
  case plainRegisterWrite a v => exact busWrite_of_resetLow h a.toNat v
  case softReset => exact softReset_of_resetLow h
  case resetAssert => rw [resetAssert, ← h]
  case clearWrite => exact if_neg (by simp [State.jobRuns_of_resetLow h])
  case copyMove => exact if_neg (by simp [State.jobRuns_of_resetLow h])
  case checkRead => exact if_neg (by simp [State.jobRuns_of_resetLow h])
  case entryFetch k => exact entryFetch_of_resetLow h k
  case tick | inputAcceptedChange | quadratureChange | tripAcceptedChange => exact clockEvent_of_resetLow h _ _
  case dwellExpiry | limitExpiry | pulseEnd => exact takeTickWhen_of_resetLow h _ _
  case edgeEvent | arrival | emission | tripForcing => exact if_pos h
  all_goals exact if_pos h

/-- Settles O54. -/
theorem resetAssertHoldsThePart : Obligations.ResetAssertHoldsThePart := by
  refine ⟨fun _ => rfl, fun s h => ⟨State.outLevel_of_resetLow h, ?_, fun cs rd wr a held => ?_, exec_of_resetLow h⟩⟩
  · simp [State.irqLine, h]
  · unfold busData
    split
    · exact if_pos h
    · rfl
    · rfl

end
end Sys2Proof.Machine

/-! Nothing but the two line commands changes the owner of a line, and these only while the old and the new owner are IDLE (R101). -/

namespace Sys2Proof.Machine

section
variable {s t : State} {n : Fin 32}

/-! ## What leaves the owners as they are -/

/-- A host access whose act leaves the owners as they are. -/
theorem hostAccess_owners {act : State → State} (h : (act s).owners = s.owners) : (hostAccess act s).owners = s.owners :=
  hostAccess_keeps (P := fun t => t.owners = s.owners) (fun _ => h) rfl

theorem State.GoesOn.owners {but : LaneMask} (h : s.GoesOn but t) : t.owners = s.owners :=
  h.induct (P := fun t => t.owners = s.owners) (fun _ _ h => h)
    (fun t x _ h => (SameOutside.owners (sansChain_happen t x)).trans h) rfl

theorem interlude_owners (but : LaneMask) (s : State) : (interlude but s).owners = s.owners := (interlude_goesOn but s).owners

theorem followUp_owners (s : State) : (followUp s).owners = s.owners := SameOutside.owners (sansChain_followUp s)

theorem recordRequest_owners (index : Word) {transfer : State → State} (h : (transfer s).owners = s.owners) :
    (recordRequest index transfer s).owners = s.owners := by
  refine hostAccess_owners ?_
  split
  · rfl
  · split
    · rfl
    · exact h

theorem judgeLane_owners {judge : LaneId → State → Judgement} (hj : LaneJudge judge) (k : LaneId) (s : State) :
    (judgeLane judge k s).owners = s.owners := by
  have hv : (completeLane k s).owners = s.owners := SameBlocks.owners (sansWalk_completeLane s k)
  simp only [judgeLane]
  generalize completeLane k s = v at hv
  split
  · rename_i t ht
    exact (SameBlocks.owners (hj.good.only ht).blocks).trans hv
  · exact hv

theorem commandLanes_owners {judge : LaneId → State → Judgement} (hj : LaneJudge judge) (mask : LaneMask) (s : State) :
    (commandLanes judge mask s).owners = s.owners :=
  commandLanes_induct (P := fun t => t.owners = s.owners) (fun _ _ h => h) (fun t but h => (interlude_owners but t).trans h)
    (fun t k h => (judgeLane_owners hj k t).trans h)
    (fun t k h => (SameBlocks.owners (sansWalk_withheld t fun u => sansWalk_serveFetch u k)).trans h)
    (fun _ _ h => h) mask rfl

theorem laneCommand_owners {judge : LaneId → State → Judgement} (hj : LaneJudge judge) (mask : LaneMask) (s : State) :
    (laneCommand judge mask s).owners = s.owners := by
  refine hostAccess_owners ?_
  rw [followUp_owners, commandLanes_owners hj]

theorem jobRequest_owners (valid : State → Bool) (job : State → Job) (s : State) :
    (jobRequest valid job s).owners = s.owners := by
  refine hostAccess_owners ?_
  split
  · rfl
  · split <;> rfl

theorem raiseJob_owners (o : JobOutcome) (s : State) : (raiseJob o s).owners = s.owners :=
  SameOutside.owners (sansChain_raiseJob s o)

theorem jobAbort_owners (v : Word) (s : State) : (jobAbort v s).owners = s.owners := by
  refine hostAccess_owners ?_
  split
  · split
    · rfl
    · exact raiseJob_owners _ _
  · rfl

theorem popOldest_owners (s : State) : (popOldest s).owners = s.owners := by
  unfold popOldest
  split <;> rfl

theorem noticePop_owners (v : Word) (s : State) : (noticePop v s).owners = s.owners := by
  refine hostAccess_owners ?_
  rw [popOldest_owners, interlude_owners]

theorem setLatchNow_owners (m : SourceId) (s : State) : (setLatchNow m s).owners = s.owners := by
  have hset : (setLatch m s).owners = s.owners := SameOutside.owners (sansChain_setLatch s m)
  exact (followUp_owners _).trans
    ((SameBlocks.owners (sansWalk_completeLanes _ _)).trans ((interlude_owners 0 _).trans hset))

theorem tripConfig_owners (v : Word) (s : State) : (tripConfig v s).owners = s.owners := by
  refine hostAccess_owners ?_
  simp only [configureTrip]
  repeat' split
  case isTrue.isFalse.isFalse.isTrue => exact setLatchNow_owners _ _
  all_goals rfl

theorem tripAssert_owners (v : Word) (s : State) : (tripAssert v s).owners = s.owners := by
  refine hostAccess_owners ?_
  dsimp only
  split
  · rfl
  · split
    · rfl
    · exact setLatchNow_owners _ _

theorem abandonJob_owners (s : State) : (abandonJob s).owners = s.owners := by
  obtain ⟨u, p, -, h⟩ := abandonJob_cases s
  rw [h]

theorem relatch_owners (s : State) : (relatch (resetBlocks s)).owners = s.owners := by
  obtain ⟨order, p, -, h⟩ := relatch_resetBlocks s
  rw [h]
  rfl

theorem discarding_owners (s : State) : (discarding s).owners = s.owners := by
  obtain ⟨u, hgoes, h⟩ := discarding_discards s
  rw [h]
  exact hgoes.owners

theorem softReset_owners (s : State) : (softReset s).owners = s.owners := by
  unfold softReset
  split
  · rfl
  · rw [discarding_owners, relatch_owners, abandonJob_owners, interlude_owners]

theorem controlWrite_owners (drive run irq : Bool) (s : State) : (controlWrite drive run irq s).owners = s.owners := by
  rw [controlWrite, State.setDrive_eq]

theorem controlRegisterWrite_owners (v : Word) (s : State) : (controlRegisterWrite v s).owners = s.owners := by
  unfold controlRegisterWrite
  split
  · exact softReset_owners s
  · exact hostAccess_owners (controlWrite_owners _ _ _ s)

theorem tbDivPreWrite_owners (setting : TimebaseSetting) (v : Word) (s : State) :
    (tbDivPreWrite setting v s).owners = s.owners := by
  cases setting <;> exact hostAccess_owners rfl

theorem access_owners (kind : JobKind) (s : State) :
    (if s.jobRuns kind then serveAccess s else s).owners = s.owners := by
  split
  · exact SameOutside.owners (sansChain_serveAccess s)
  · rfl

theorem entryFetch_owners (k : LaneId) (s : State) : (entryFetch k s).owners = s.owners := by
  unfold entryFetch
  split
  · rfl
  · exact (SameBlocks.owners (sansWalk_handOut _)).trans (SameBlocks.owners (sansWalk_serveFetch s k))

theorem taking_owners (k : LaneId) (e : Event) (s : State) : (if s.resetLow then s else deliver k e s).owners = s.owners := by
  split
  · rfl
  · exact SameBlocks.owners (sansWalk_deliver s k e)

theorem takeTickWhen_owners (named : Lane → Bool) (k : LaneId) (s : State) : (takeTickWhen named k s).owners = s.owners := by
  simp only [takeTickWhen]
  split
  · exact SameBlocks.owners (sansWalk_deliver s k .tick)
  · rfl

theorem acceptedChange_owners (pin : FilteredPin) (s : State) : (acceptedChange pin s).owners = s.owners :=
  SameOutside.owners (sansChain_acceptedChange s pin)

theorem tick_owners (takers : LaneMask) (s : State) : (tick takers s).owners = s.owners :=
  SameOutside.owners (sansChain_tick s takers)

theorem presentedLevelChange_owners (pin : FilteredPin) (level : Bool) (s : State) :
    (presentedLevelChange pin level s).owners = s.owners := by
  have htake := SameOutside.owners (sansChain_takeLevel s pin level)
  unfold presentedLevelChange
  split
  · exact htake
  · split
    · rfl
    · exact htake

/-! ## Every step -/

/-- While RESET# is high every well-formed command leaves the owners as they are, or is a line command. -/
theorem exec_owners_of_wellFormed {c : Instr} (hc : c.wellFormed = true) (hs : s.resetLow = false)
    (ht : exec c s = .next t) : t.owners = s.owners ∨ ∃ n, s.AssignsLine n t := by
  cases c <;> cases ht
  case lineAssign v => exact .inr ⟨_, lineAssign_assignsLine v s⟩
  case lineFree v => exact .inr ⟨_, lineFree_assignsLine v s⟩
  all_goals left
  case plainRegisterWrite a v =>
    have hrow : a.toNat ∉ rowAddresses := by simpa [Instr.wellFormed] using hc
    change (busWrite a.toNat v s).owners = s.owners
    rw [busWrite_of_no_row hrow]
    exact hostAccess_owners (by rw [plainWrite_frame])
  case resetRelease => exact congrArg State.owners (if_neg (by simp [hs]))
  case recordRead v => exact recordRequest_owners v rfl
  case recordWrite v => exact recordRequest_owners v rfl
  case laneStart v => exact laneCommand_owners .start _ s
  case laneStop v => exact laneCommand_owners .stop _ s
  case laneHold v => exact laneCommand_owners .hold _ s
  case laneRelease v => exact laneCommand_owners .release _ s
  case laneReset v => exact laneCommand_owners .reset _ s
  case laneResume v => exact laneCommand_owners .resume _ s
  case laneStep v => exact laneCommand_owners .step _ s
  case laneJump v => exact laneCommand_owners (.jump _) _ s
  case laneLoad v => exact laneCommand_owners .load _ s
  case laneSwap v => exact laneCommand_owners .swap _ s
  case laneCancelSwap v => exact laneCommand_owners .cancelSwap _ s
  case triggerEmit v => exact hostAccess_owners (followUp_owners _)
  case tripConfig v => exact tripConfig_owners v s
  case tripAssert v => exact tripAssert_owners v s
  case jobCopy v => exact jobRequest_owners _ _ s
  case jobCheck v => exact jobRequest_owners _ _ s
  case jobAbort v => exact jobAbort_owners v s
  case noticePop v => exact noticePop_owners v s
  case driveEn | tbRun | noticeIrqEn => exact hostAccess_owners (controlWrite_owners _ _ _ s)
  case softReset => exact softReset_owners s
  case tbDivPreWrite setting v => exact tbDivPreWrite_owners setting v s
  case resetAssert => rfl
  case clearWrite => exact access_owners .clear s
  case copyMove => exact access_owners .copy s
  case checkRead => exact access_owners .check s
  case entryFetch k => exact entryFetch_owners k s
  case tick takers => exact tick_owners takers s
  case dwellExpiry | limitExpiry | pulseEnd => exact takeTickWhen_owners _ _ s
  case inputAcceptedChange m => exact acceptedChange_owners (.input m) s
  case quadratureChange u c => exact acceptedChange_owners (.quadrature u c) s
  case tripAcceptedChange m => exact acceptedChange_owners (.trip m) s
  case edgeEvent | arrival | emission | tripForcing => exact taking_owners _ _ s
  case presentedLevelChange pin level => exact presentedLevelChange_owners pin level s
  all_goals exact hostAccess_owners rfl

/-- The write of every such address but CONTROL makes one command of the table (R179; log 13). -/
theorem exists_row {a : BitVec 8} (ha : a.toNat ∈ rowAddresses) (hc : a ≠ 0x01#8) (v : Word) :
    ∃ x ∈ rowsOfWrites v, x.1 = a := by
  have hrows : (rowsOfWrites v).map Prod.fst = (rowsOfWrites 0).map Prod.fst := rfl
  have hall : ∀ m ∈ rowAddresses, m = 1 ∨ m ∈ ((rowsOfWrites 0).map Prod.fst).map BitVec.toNat := by decide
  obtain h1 | h := hall _ ha
  · exact absurd (BitVec.eq_of_toNat_eq h1) hc
  · rw [← hrows, List.map_map] at h
    obtain ⟨x, hx, hxa⟩ := List.mem_map.mp h
    exact ⟨x, hx, BitVec.eq_of_toNat_eq hxa⟩

theorem Instr.of_not_wellFormed {c : Instr} (hc : c.wellFormed = false) :
    ∃ a v, c = .plainRegisterWrite a v ∧ a.toNat ∈ rowAddresses := by
  cases c
  case plainRegisterWrite a v => exact (Laws.Row.plainRegisterWrite a v).mp hc
  all_goals exact Bool.noConfusion hc

theorem wellFormed_of_row {v : Word} {x : BitVec 8 × Instr} (h : x ∈ rowsOfWrites v) : x.2.wellFormed = true := by
  revert x
  simp only [rowsOfWrites, List.forall_mem_append, List.forall_mem_cons, List.forall_mem_map, List.not_mem_nil, false_imp_iff,
    implies_true, and_true]
  refine ⟨?_, fun _ _ => rfl⟩
  and_intros
  all_goals rfl

/-- While RESET# is high every command leaves the owners as they are, or is a line command, in its own row or as a register
write. -/
theorem exec_owners {c : Instr} (hs : s.resetLow = false) (ht : exec c s = .next t) :
    t.owners = s.owners ∨ ∃ n, s.AssignsLine n t := by
  cases hc : c.wellFormed with
  | true => exact exec_owners_of_wellFormed hc hs ht
  | false =>
    obtain ⟨a, v, rfl, ha⟩ := Instr.of_not_wellFormed hc
    by_cases h1 : a = 0x01#8
    · subst h1
      cases ht
      exact .inl (controlRegisterWrite_owners v s)
    · obtain ⟨x, hx, rfl⟩ := exists_row ha h1 v
      exact exec_owners_of_wellFormed (wellFormed_of_row hx) hs ((exec_of_row hx s).symm.trans ht)

theorem doDue_owners (s : State) (d : Due) : (doDue s d).owners = s.owners := by
  cases d with
  | fetch k => exact entryFetch_owners k s
  | access kind => cases kind <;> exact access_owners _ s
  | input m => exact acceptedChange_owners (.input m) s
  | quadrature u c => exact acceptedChange_owners (.quadrature u c) s
  | trip m => exact acceptedChange_owners (.trip m) s
  | tick => exact tick_owners 0 s
  | period => rfl

theorem idle_owners (s : State) : (idle s).owners = s.owners := by
  unfold idle
  split
  · rfl
  · split
    · exact SameBlocks.owners (sansWalk_drain s)
    · split
      · rfl
      · exact (doDue_owners _ _).trans (SameBlocks.owners (sansWalk_choose s _ _))

/-- Only a line command changes an owner. -/
theorem step_owners (hs : s.resetLow = false) (ht : step s = .next t) :
    t.owners = s.owners ∨ ∃ m rest, ({ s with pending := rest } : State).AssignsLine m t := by
  unfold step at ht
  split at ht
  · cases ht
    exact .inl (idle_owners s)
  · rename_i c rest _
    have hrest : ({ s with pending := rest } : State).resetLow = false := hs
    exact (exec_owners hrest ht).imp_right fun ⟨m, h⟩ => ⟨m, rest, h⟩

/-- Where a line command changes the owner of a line, it leaves the lanes as they are, and the old and the new owner are IDLE. -/
theorem State.AssignsLine.idle_of_changed {m : Fin 32} (h : s.AssignsLine m t) (hne : t.owners[n.val] ≠ s.owners[n.val]) :
    t.lanes = s.lanes ∧ s.ownerBusy n = false ∧ t.ownerBusy n = false := by
  obtain ⟨r, rfl⟩ | ⟨o, hb, ho, rfl⟩ := h
  · exact absurd rfl hne
  · obtain rfl : m = n := by
      by_contra hm
      exact hne (Vector.getElem_set_ne m.isLt n.isLt fun h => hm (Fin.ext h))
    exact ⟨rfl, hb, State.ownerBusy_assigned ho _⟩

/-- Settles O29: only a line command changes an owner (`step_owners`), and it does so only while the old and the new one are IDLE
and without a change of a lane. -/
theorem ownersChangeOnlyWhileIdle : Obligations.OwnersChangeOnlyWhileIdle := by
  intro s t n ht hs hne
  obtain h | ⟨m, rest, h⟩ := step_owners hs ht
  · exact absurd (by rw [h]) hne
  · obtain ⟨hlanes, hold, hnew⟩ := h.idle_of_changed hne
    refine ⟨fun k hk => ?_, State.ownerBusy_eq_false.mp hnew⟩
    rw [State.lane, hlanes]
    exact State.ownerBusy_eq_false.mp hold k hk

end
end Sys2Proof.Machine

/-! The taking of edges, arrivals and emissions by a lane, POS_LOAD and POS_CLEAR, and the filters of the inputs, the Position Units
and the trip pins: how long an acceptance takes, and what a write of a filter setting discards (R116, R117, R118, R122, R124, R126,
R128, R129, R130, R136). -/

namespace Sys2Proof.Machine

section
variable {s t : State} {k : LaneId} {l : Lane}

/-! ## EDGE_EVENT, ARRIVAL and EMISSION (R122, R126, R136) -/

/-- A lane that takes an event next is not in the middle of an entry, and neither is the lane without that event. -/
theorem State.settled_of_taking {e : Event} (h : (s.lane k).taking e = some l) : ((s.setLane k l).lane k).entry = none := by
  rw [State.lane_setLane_self]
  exact Lane.taking_settled h

/-- Settles O23: each row is the lane's taking of the event, which is the act of the table. -/
theorem eventsAreTakenByState : Obligations.EventsAreTakenByState := by
  intro k s l hs ho accepted turn
  have hself : (s.setLane k l).lane k = l := State.lane_setLane_self s k l
  refine ⟨fun n e h => ?_, fun u value d h => ?_, fun line h => ?_⟩
  · rw [exec_of_event (e := .edge n e) hs (.inl ⟨n, e, rfl, rfl⟩)]
    refine congrArg _ (deliver_eq_afterAct h ho ?_)
    rw [takeEvent, takeEdge_eq (State.settled_of_taking h), hself]
    rfl
  · rw [exec_of_event (e := .arrival u value d) hs (.inr (.inl ⟨u, value, d, rfl, rfl⟩))]
    refine congrArg _ (deliver_eq_afterAct h ho ?_)
    rw [takeEvent, takeArrival_eq, hself]
    rfl
  · rw [exec_of_event (e := .emission line) hs (.inr (.inr ⟨line, rfl, rfl⟩))]
    refine congrArg _ (deliver_eq_afterAct h ho ?_)
    rw [takeEvent, takeEmission_eq (State.settled_of_taking h), hself]
    rfl

/-! ## POS_LOAD and POS_CLEAR (R129, R130) -/

theorem unitOf_val (v : Word) : (unitOf v).val = (v.extractLsb' 0 1).toNat := by
  rw [unitOf, wordField_eq, Fin.val_ofNat]
  exact Nat.mod_eq_of_lt (v.extractLsb' 0 1).isLt

/-- Settles O36. -/
theorem posLoadAndPosClear : Obligations.PosLoadAndPosClear := by
  intro v s hs
  refine ⟨fun u hu => ?_, ?_⟩
  · have hunit : unitOf v = u := Fin.ext ((unitOf_val v).trans hu.symm)
    refine congrArg _ ((hostAccess_of_resetHigh hs _).trans ?_)
    rw [hunit]
    rfl
  · refine congrArg _ ((hostAccess_of_resetHigh hs _).trans ?_)
    have hclear (u : UnitId) : (if v.getLsbD u then { s.units[u.val] with error := false } else s.units[u.val]) =
        { s.units[u.val] with error := s.units[u.val].error && !v.getLsbD u } := by
      cases v.getLsbD u <;> simp
    simp only [hclear]
    rfl

/-! ## How long an acceptance takes (R117) -/

/-- An acceptance that begins at 0 and whose level is held is due after the full count of periods, and not before. -/
theorem lackingPeriods_passAcceptance (d full : Nat) :
    lackingPeriods full true (passAcceptance d full true (some 0)) = some 0 ↔ full ≤ d := by
  have hpass : passAcceptance d full true (some 0) = some (min d full) := by
    cases d <;> simp [passAcceptance]
  simp only [hpass, lackingPeriods, Bool.not_true, Bool.false_eq_true, if_false, Option.some.injEq]
  omega

theorem Inputs.filterCount_eq (i : Inputs) (n : InputId) :
    i.filterCount n = ((if n.val % 2 = 0 then i.filters[n.val / 2]'(by omega) else
      (i.filters[n.val / 2]'(by omega)) >>> 8).setWidth 8).toNat := by
  rw [Inputs.filterCount, wordField]
  obtain h | h := Nat.mod_two_eq_zero_or_one n.val <;> simp [h]

/-- Settles O32: each channel is `lackingPeriods_passAcceptance` for its own filter count. -/
theorem acceptanceTakesTheFilterCount : Obligations.AcceptanceTakesTheFilterCount := by
  intro s d
  refine ⟨fun n hdiff hacc => ?_, fun u c hdiff hacc => ?_, fun n hdiff hacc => ?_⟩
  · have hpass : (elapse d s).inputs.lacking n = lackingPeriods (s.inputs.fullCount n) (s.inputs.differs n)
        (passAcceptance d (s.inputs.fullCount n) (s.inputs.differs n) s.inputs.acceptance[n.val]) := by
      simp only [Inputs.lacking, elapse, Inputs.pass, Vector.getElem_ofFn]
      rfl
    rw [hpass, hdiff, hacc, lackingPeriods_passAcceptance, Inputs.fullCount, Inputs.filterCount_eq]
    rfl
  · have hpass : (elapse d s).units[u.val].lacking c = lackingPeriods s.units[u.val].fullCount
        (s.units[u.val].channel c).differs (passAcceptance d s.units[u.val].fullCount (s.units[u.val].channel c).differs
          (s.units[u.val].channel c).acceptance) := by
      simp only [elapse, Vector.getElem_ofFn]
      cases c <;> rfl
    have hdiff' : (s.units[u.val].channel c).differs = true := bne_iff_ne.mpr hdiff
    rw [hpass, hdiff', hacc, lackingPeriods_passAcceptance, PositionUnit.fullCount, PositionUnit.filterCount, wordField_eq]
    rfl
  · have hpass : (elapse d s).trips[n.val].lacking = lackingPeriods s.trips[n.val].fullCount s.trips[n.val].differs
        (passAcceptance d s.trips[n.val].fullCount s.trips[n.val].differs s.trips[n.val].acceptance) := by
      simp only [elapse, Vector.getElem_ofFn]
      rfl
    have hdiff' : s.trips[n.val].differs = true := bne_iff_ne.mpr hdiff
    rw [hpass, hdiff', hacc, lackingPeriods_passAcceptance, TripSource.fullCount]
    rfl

/-! ## Writes of filter settings (R116, R118, R124, R128) -/

/-- The setting of an input changes when its polarity or its filter count does (R118). -/
theorem Inputs.resets_eq (i i' : Inputs) (n : InputId) :
    i.resets i' n = !decide (i'.polarity.getLsbD n = i.polarity.getLsbD n ∧ i'.filterCount n = i.filterCount n) := by
  rw [Bool.eq_iff_iff]
  simp only [Inputs.resets, Bool.or_eq_true, bne_iff_ne, Bool.not_eq_true', decide_eq_false_iff_not]
  rw [ne_comm, ne_comm (a := i.filterCount n)]
  exact not_and_or.symm

theorem Inputs.store_acceptance (i : Inputs) (setting : InputSetting) (v : Word) :
    (i.store setting v).acceptance = i.acceptance := by
  cases setting <;> rfl

/-- A write of a setting stores the value whole, and moves neither the pins nor the accepted levels (R116, R118). -/
theorem Inputs.write_frame (i : Inputs) (setting : InputSetting) (v : Word) :
    i.write setting v = { i with
      polarity := if setting = .polarity then v else i.polarity
      filters := (i.write setting v).filters
      acceptance := (i.write setting v).acceptance } := by
  cases setting <;> rfl

theorem Inputs.write_filter (i : Inputs) (setting : InputSetting) (v : Word) (j : Fin 8) :
    (i.write setting v).filters[j.val] = if setting = .filter j then v else i.filters[j.val] := by
  have hstore : (i.write setting v).filters = (i.store setting v).filters := rfl
  rw [hstore]
  cases setting with
  | polarity => rfl
  | filter m =>
    simp only [Inputs.store, Vector.getElem_set, InputSetting.filter.injEq]
    exact if_congr Fin.ext_iff.symm rfl rfl

/-- A write of a setting discards the acceptances of the inputs whose setting changes (R118). -/
theorem Inputs.write_acceptance (i : Inputs) (setting : InputSetting) (v : Word) (n : InputId) :
    (i.write setting v).acceptance[n.val] =
      if (i.write setting v).polarity.getLsbD n = i.polarity.getLsbD n ∧ (i.write setting v).filterCount n = i.filterCount n
      then i.acceptance[n.val] else none := by
  have hreset := Inputs.resets_eq i (i.store setting v) n
  simp only [Inputs.write, Inputs.discardWhere, Vector.getElem_ofFn, hreset, Inputs.store_acceptance]
  by_cases h : (i.store setting v).polarity.getLsbD n = i.polarity.getLsbD n ∧ (i.store setting v).filterCount n = i.filterCount n
  · rw [decide_eq_true h]
    exact (if_pos h).symm
  · rw [decide_eq_false h]
    exact (if_neg h).symm

theorem PositionUnit.filterCount_eq (u : PositionUnit) : u.filterCount = (u.filter.setWidth 8).toNat := by
  simp [PositionUnit.filterCount, wordField]

/-- A write of POS_FILTk, field by field (R124, R128). -/
theorem PositionUnit.writeFilter_eq (u : PositionUnit) (v : Word) :
    u.writeFilter v = { u with
      filter := v
      a := { u.a with acceptance := if v.setWidth 8 = u.filter.setWidth 8 then u.a.acceptance else none }
      b := { u.b with acceptance := if v.setWidth 8 = u.filter.setWidth 8 then u.b.acceptance else none } } := by
  have hcount : u.filterCount = { u with filter := v }.filterCount ↔ v.setWidth 8 = u.filter.setWidth 8 := by
    rw [PositionUnit.filterCount_eq, PositionUnit.filterCount_eq, eq_comm]
    exact BitVec.toNat_inj
  simp only [PositionUnit.writeFilter]
  by_cases h : v.setWidth 8 = u.filter.setWidth 8
  · rw [if_pos (hcount.mpr h)]
    simp only [h, if_true]
  · rw [if_neg fun he => h (hcount.mp he)]
    simp only [h, if_false]

theorem exec_inputSettingWrite (hs : s.resetLow = false) (setting : InputSetting) (v : Word) :
    exec (.inputSettingWrite setting v) s = .next ({ s with inputs := s.inputs.write setting v }.restart fun
      | .input n => s.inputs.resets (s.inputs.store setting v) n
      | .quadrature _ _ | .trip _ => false) := congrArg Host.Outcome.next (hostAccess_of_resetHigh hs _)

/-- Settles O34: what is discarded and what is compared next are the channels whose setting changes (`Inputs.resets_eq`). -/
theorem filterSettingWritesRestartWhatChanges : Obligations.FilterSettingWritesRestartWhatChanges := by
  intro v s hs
  refine ⟨fun setting => ?_, fun u => ?_⟩
  · obtain ⟨t, ht, hin, hrest⟩ : ∃ t, exec (.inputSettingWrite setting v) s = .next t ∧ t.inputs = s.inputs.write setting v ∧
        t = { s with inputs := s.inputs.write setting v }.restart fun
          | .input n => s.inputs.resets (s.inputs.write setting v) n
          | .quadrature _ _ | .trip _ => false := ⟨_, exec_inputSettingWrite hs setting v, rfl, rfl⟩
    refine ⟨t, ht, ?_⟩
    rw [hin]
    refine ⟨hrest.trans (congrArg (State.restart _) (funext fun pin => ?_)), ?_, ?_, ?_, s.inputs.write_filter setting v,
      s.inputs.write_acceptance setting v⟩
    · cases pin with
      | input m => exact s.inputs.resets_eq _ m
      | quadrature _ _ => rfl
      | trip _ => rfl
    all_goals rw [Inputs.write_frame]
  · have hchange : (s.units[u.val].filterCount != wordField v 0 8) =
        !decide (v.setWidth 8 = s.units[u.val].filter.setWidth 8) := by
      have hfield : wordField v 0 8 = (v.setWidth 8).toNat := by simp [wordField]
      rw [PositionUnit.filterCount_eq, hfield, Bool.eq_iff_iff, bne_iff_ne, Bool.not_eq_true', decide_eq_false_iff_not]
      exact not_congr (BitVec.toNat_inj.trans eq_comm)
    refine congrArg Host.Outcome.next ((hostAccess_of_resetHigh hs _).trans ?_)
    dsimp only
    rw [State.onUnit, PositionUnit.writeFilter_eq]
    refine congrArg (State.restart _) (funext fun pin => ?_)
    cases pin with
    | input _ => rfl
    | quadrature w _ => simp only [hchange, Bool.decide_and, decide_not]
    | trip _ => rfl

end
end Sys2Proof.Machine

/-! The accepted changes of the inputs and of the quadrature channels, and the moves of the filtered pins (R117, R118, R119, R125,
R126, R127, R128, R144, R184). -/

namespace Sys2Proof.Machine

section
variable {s t : State}

/-! ## What counts core clock periods, and the moves of the pins -/

/-- The pins, their filters, the Timebase and the moves of the pins. -/
def State.clocks (s : State) := (s.inputs, s.units, s.trips, s.timebase, s.resetLow, s.pending, s.early)

/-- The lanes' walk changes none of these. -/
theorem State.clocks_of_blocks (h : SameBlocks t s) : t.clocks = s.clocks := by
  have := congrArg State.clocks h
  exact this

theorem State.pinLacking_congr (h : t.clocks = s.clocks) : t.pinLacking = s.pinLacking := by
  simp only [State.clocks, Prod.mk.injEq] at h
  obtain ⟨hinputs, hunits, htrips, -⟩ := h
  funext pin
  cases pin <;> simp only [State.pinLacking, hinputs, hunits, htrips]

theorem State.pinLevel_congr (h : t.clocks = s.clocks) : t.pinLevel = s.pinLevel := by
  simp only [State.clocks, Prod.mk.injEq] at h
  obtain ⟨hinputs, hunits, htrips, -⟩ := h
  funext pin
  cases pin <;> simp only [State.pinLevel, hinputs, hunits, htrips]

theorem State.early_congr (h : t.clocks = s.clocks) : t.early = s.early := by
  simp only [State.clocks, Prod.mk.injEq] at h
  obtain ⟨-, -, -, -, -, -, hearly⟩ := h
  exact hearly

/-! ## Events of the core clock -/

/-- Nothing is due once the levels agree. -/
theorem lackingPeriods_eq_none {full : Nat} {differs : Bool} {progress : Option Nat} :
    lackingPeriods full differs progress = none ↔ differs = false := by
  unfold lackingPeriods
  cases differs with
  | false => simp
  | true => cases progress <;> simp

theorem differs_of_lacking {full d : Nat} {differs : Bool} {progress : Option Nat}
    (h : lackingPeriods full differs progress = some d) : differs = true := by
  by_contra hno
  rw [lackingPeriods_eq_none.mpr (Bool.eq_false_of_not_eq_true hno)] at h
  cases h

/-- An event that is so many periods away happens when nothing falls due before it. -/
theorem clockEvent_of_some {lacking : Option Nat} {d : Nat} (hs : s.resetLow = false) (h : lacking = some d)
    (act : State → State) :
    clockEvent lacking act s = if s.nothingBefore d = false then s else act (goOnTo d s) := by
  simp only [clockEvent, h, hs]
  cases s.nothingBefore d <;> rfl

/-- An event that is due happens at once. -/
theorem clockEvent_of_due {lacking : Option Nat} (hs : s.resetLow = false) (h : lacking = some 0) (act : State → State) :
    clockEvent lacking act s = act s := by
  rw [clockEvent_of_some hs h, if_neg (by simp [State.nothingBefore])]
  rfl

/-! ## INPUT_ACCEPTED_CHANGE (R117, R119) -/

theorem exec_inputAcceptedChange (n : InputId) (s : State) :
    exec (.inputAcceptedChange n) s = .next (inputAcceptedChange n s) := rfl

theorem Inputs.accept_accepted (i : Inputs) (ns : List InputId) (m : InputId) :
    (i.accept ns).accepted.getLsbD m = (i.accepted.getLsbD m ^^ ns.contains m) := by
  simp [Inputs.accept]

theorem Inputs.accept_acceptance (i : Inputs) (ns : List InputId) (m : InputId) :
    (i.accept ns).acceptance[m.val] = if ns.contains m then none else i.acceptance[m.val] := by
  simp only [Inputs.accept, Vector.getElem_ofFn]

/-- The inputs that are accepted come to agree with their levels, and no other does. -/
theorem Inputs.accept_differs (i : Inputs) (ns : List InputId) (m : InputId) :
    (i.accept ns).differs m = (i.differs m ^^ ns.contains m) := by
  have hpresented : (i.accept ns).presented m = i.presented m := rfl
  rw [Inputs.differs, Inputs.differs, hpresented, Inputs.accept_accepted]
  cases i.presented m <;> cases i.accepted.getLsbD m <;> cases ns.contains m <;> rfl

theorem State.onLanes_onLanes (f g : LaneId → Lane → Lane) (s : State) :
    (s.onLanes f).onLanes g = s.onLanes fun k l => g k (f k l) := by
  simp only [State.onLanes, State.lane, Vector.getElem_ofFn]

theorem State.onLanes_of_same {f : LaneId → Lane → Lane} (h : ∀ k, f k (s.lane k) = s.lane k) : s.onLanes f = s := by
  have hlanes : (s.onLanes f).lanes = s.lanes := State.lanes_ext s fun k => by rw [State.lane_onLanes, h]
  have hframe : s.onLanes f = { s with lanes := (s.onLanes f).lanes } := rfl
  rw [hframe, hlanes]

/-- The edge events of inputs that have these accepted levels are handed to the lanes in order. -/
theorem foldl_handToAll_edges (ms : List InputId) : ∀ (s : State),
    ms.foldl (fun s m => handToAll (.edge m (senseTo (s.inputs.accepted.getLsbD m))) s) s =
      s.onLanes fun _ l => if l.ignores then l
        else l.withComing (l.coming ++ ms.map fun m => .edge m (senseTo (s.inputs.accepted.getLsbD m))) := by
  induction ms with
  | nil => exact fun s => (State.onLanes_of_same fun k => by simp [Lane.withComing]).symm
  | cons m ms ih =>
    intro s
    rw [List.foldl_cons, ih, handToAll, State.onLanes_onLanes]
    refine congrArg s.onLanes (funext fun _ => funext fun l => ?_)
    by_cases h : l.ignores = true
    · simp only [h, if_true]
    · have hcoming : (l.withComing (l.coming ++ [.edge m (senseTo (s.inputs.accepted.getLsbD m))])).ignores = l.ignores := rfl
      simp only [h, hcoming, Bool.false_eq_true, if_false, Lane.withComing_coming, List.map_cons, List.append_assoc,
        List.singleton_append]
      rfl

/-- The inputs that are accepted take their levels, and their edges are handed to every lane that does not ignore them. -/
theorem acceptInputs_eq (changed : List InputId) (s : State) :
    acceptInputs changed s = { s with
      inputs := s.inputs.accept changed
      compared := true
      lanes := Vector.ofFn fun k => if (s.lane k).ignores then s.lane k else { s.lane k with
        coming := (s.lane k).coming ++ changed.map fun m =>
          .edge m (senseTo ((s.inputs.accept changed).accepted.getLsbD m)) } } := by
  unfold acceptInputs
  rw [foldl_handToAll_edges]
  rfl

/-- The inputs accepted together with one that is due after so many periods are those due after as many (R119). -/
theorem Inputs.together_eq {i : Inputs} {n : InputId} {lacks : Nat} (h : i.lacking n = some lacks) :
    i.together n = (List.finRange 16).filter fun m => i.lacking m == some lacks := by
  simp only [Inputs.together, h, Option.isSome_some, Bool.true_and]

/-- Settles O33: the block goes on to the change (`clockEvent_of_some`) and makes it (`acceptInputs_eq`). -/
theorem inputAcceptedChangeHandsOutEdges : Obligations.InputAcceptedChangeHandsOutEdges := by
  intro n s hs
  refine ⟨fun hnone => ?_, fun lacks hlacks => ⟨fun hbefore => ?_, fun hbefore => ?_⟩⟩
  · rw [exec_inputAcceptedChange, inputAcceptedChange, hnone]
    rfl
  · rw [exec_inputAcceptedChange, inputAcceptedChange, clockEvent_of_some hs hlacks, if_pos hbefore]
  · intro changed d edges
    have hstep : exec (.inputAcceptedChange n) s = .next (acceptInputs changed d) := by
      rw [exec_inputAcceptedChange, inputAcceptedChange, clockEvent_of_some hs hlacks, if_neg (by simp [hbefore]),
        Inputs.together_eq hlacks]
    have haccepted : d.inputs.accepted = s.inputs.accepted := goOnTo_accepted lacks s
    have hedges : (changed.map fun m => Event.edge m (senseTo ((d.inputs.accept changed).accepted.getLsbD m))) = edges := by
      refine List.map_congr_left fun m hm => ?_
      rw [Inputs.accept_accepted, List.contains_iff_mem.mpr hm, haccepted]
      cases s.inputs.accepted.getLsbD m <;> rfl
    rw [acceptInputs_eq, hedges] at hstep
    refine ⟨_, hstep, rfl, rfl, fun m => ⟨?_, Inputs.accept_acceptance _ _ m⟩, fun k => ?_⟩
    · rw [← haccepted]
      exact Inputs.accept_accepted _ _ m
    · simp only [State.lane, Vector.getElem_ofFn]

/-! ## QUADRATURE_CHANGE (R125, R126, R127) -/

theorem exec_quadratureChange (u : UnitId) (c : Channel) (s : State) :
    exec (.quadratureChange u c) s = .next (quadratureChange u c s) := rfl

/-- On its way to an event the block counts in the acceptances of a unit and changes nothing else of it. -/
theorem goOnTo_unit (d : Nat) (s : State) (u : UnitId) :
    ∃ x y, (goOnTo d s).units[u.val] = { s.units[u.val] with
      a := { s.units[u.val].a with acceptance := x }, b := { s.units[u.val].b with acceptance := y } } := by
  obtain ⟨t, ht, h | h⟩ := goOnTo_same d s
  · exact ⟨_, _, by rw [h, ht.units]⟩
  · have hpass : (elapse d t).units[u.val] = t.units[u.val].pass d := by simp only [elapse, Vector.getElem_ofFn]
    exact ⟨_, _, by rw [h, hpass, ht.units]; rfl⟩

/-- The place of a pair of levels in the cycle 00, 10, 11, 01 of R125. -/
def quadraturePlace (a b : Bool) : Nat := if a then (if b then 2 else 1) else (if b then 3 else 0)

/-- The direction of R125 is up where the pair comes to the next place of the cycle. -/
theorem quadratureDirection_eq (a b : Bool) (c : Channel) :
    quadratureDirection a b c =
      if quadraturePlace (if c = .a then !a else a) (if c = .b then !b else b) = (quadraturePlace a b + 1) % 4 then .up
      else .down := by
  cases a <;> cases b <;> cases c <;> rfl

theorem countFrom_eq (counter : Word) (d : Direction) : countFrom counter d = if d = .up then counter + 1 else counter - 1 := by
  cases d <;> rfl

theorem otherChannel_lacking (u : PositionUnit) (c : Channel) :
    (u.lacking (otherChannel c) == u.lacking c) = decide (u.lacking .a = u.lacking .b) := by
  rw [Bool.eq_iff_iff, beq_iff_eq, decide_eq_true_eq]
  cases c
  · exact eq_comm
  · exact Iff.rfl

/-- The unit after its accepted changes (R126, R127). -/
def PositionUnit.changes (u : PositionUnit) (c : Channel) (both : Bool) : PositionUnit :=
  if both then u.illegal else u.countChange c

/-- The channel that changes is accepted at its level (R117). -/
theorem PositionUnit.changes_channel (u : PositionUnit) (c : Channel) (both : Bool) :
    (u.changes c both).channel c = (u.channel c).accept := by
  cases both <;> cases c <;> rfl

/-- The accepted changes of a unit change that unit alone among what counts core clock periods. -/
theorem acceptQuadrature_clocks (u : UnitId) (c : Channel) (both : Bool) (s : State) :
    (acceptQuadrature u c both s).clocks = (s.onUnit u fun v => v.changes c both).clocks := by
  cases both with
  | false => rfl
  | true =>
    unfold acceptQuadrature
    simp only [if_true]
    split <;> rfl

/-- Accepted changes of both channels in one period (R127). -/
theorem acceptQuadrature_both (u : UnitId) (c : Channel) (s : State) :
    acceptQuadrature u c true s =
      if s.units[u.val].error then s.markCompared.onUnit u PositionUnit.illegal
      else (s.markCompared.onUnit u PositionUnit.illegal).raise (.position u) := rfl

/-- An accepted change of one channel (R125, R126). -/
theorem acceptQuadrature_single (u : UnitId) (c : Channel) (s : State) :
    acceptQuadrature u c false s =
      let v := s.units[u.val]
      let direction := quadratureDirection v.a.accepted v.b.accepted c
      let value := countFrom v.counter direction
      handToAll (.arrival u value direction) { s.markCompared with units := s.units.set u.val { v with
        a := if c = .a then v.a.accept else v.a
        b := if c = .b then v.b.accept else v.b
        counter := value
        lastDirection := some direction } } := by
  cases c <;> rfl

/-- Settles O35: the direction is that of the cycle (`quadratureDirection_eq`), and on its way to the change the block leaves the
unit's levels, counter and error flag as they are (`goOnTo_unit`). -/
theorem quadratureChangeCountsOrFlags : Obligations.QuadratureChangeCountsOrFlags := by
  intro u c s hs old
  refine ⟨fun hnone => ?_, fun lacks hlacks => ?_⟩
  · rw [exec_quadratureChange, quadratureChange, hnone]
    rfl
  · intro d a' b' place up value direction new
    have hdirection : quadratureDirection old.a.accepted old.b.accepted c = direction := quadratureDirection_eq _ _ c
    have hvalue : countFrom old.counter direction = value := by
      rw [countFrom_eq]
      refine if_congr ?_ rfl rfl
      by_cases h : up <;> simp [direction, h]
    obtain ⟨x, y, hunit⟩ := goOnTo_unit lacks s u
    have hnew : new = { old with a := { old.a with acceptance := x }, b := { old.b with acceptance := y } } := hunit
    have hsame : quadratureDirection new.a.accepted new.b.accepted c = direction := by rw [hnew, hdirection]
    have hcount : countFrom new.counter direction = value := by rw [hnew, hvalue]
    have herror : new.error = old.error := by rw [hnew]
    have hstart : (goOnTo lacks s).units[u.val] = new := rfl
    rw [exec_quadratureChange, quadratureChange, clockEvent_of_some hs hlacks]
    refine congrArg _ (if_congr Iff.rfl rfl ?_)
    have hboth := otherChannel_lacking old c
    split
    · rename_i h
      rw [hboth, decide_eq_true h, acceptQuadrature_both, hstart, herror]
      rfl
    · rename_i h
      rw [hboth, decide_eq_false h, acceptQuadrature_single, hstart]
      dsimp only
      rw [hsame, hcount]
      rfl

/-! ## TRIP_ACCEPTED_CHANGE (R144) -/

/-- The setting of a latch changes its source and what the lanes' walk can change, and nothing else. -/
theorem setLatch_blocks (n : SourceId) (s : State) :
    SameBlocks (setLatch n s) (s.onTrip n fun t => { t with latch := true }) := by
  simp only [SameBlocks, setLatch, sansWalk_raiseTrips]
  rw [sansWalk_foldl]
  · rfl
  · intro t k
    split <;> simp

/-- The accepted change of a trip pin reverses its level and may set its latch (R144, R145). -/
theorem acceptTrip_blocks (n : SourceId) (s : State) :
    ∃ latch, SameBlocks (acceptTrip n s)
      (s.markCompared.onTrip n fun t => { t with active := !t.active, acceptance := none, latch := latch }) := by
  unfold acceptTrip
  dsimp only
  split
  · refine ⟨true, (setLatch_blocks n _).trans ?_⟩
    simp only [State.onTrip, State.sansWalk, Vector.getElem_set_self, Vector.set_set]
  · exact ⟨s.trips[n.val].latch, rfl⟩

/-! ## An acceptance that is due when its pin moves (log 23) -/

theorem acceptedChange_of_resetLow (h : s.resetLow = true) (pin : FilteredPin) : acceptedChange pin s = s := by
  cases pin <;> exact clockEvent_of_resetLow h _ _

/-- Nothing is due on a pin whose acceptance has just been made, and its level stands. -/
theorem acceptedChange_of_due {pin : FilteredPin} (hs : s.resetLow = false) (h : s.pinLacking pin = some 0) :
    (acceptedChange pin s).pinLacking pin = none ∧ (acceptedChange pin s).pinLevel pin = s.pinLevel pin ∧
      (acceptedChange pin s).early = s.early := by
  cases pin with
  | input n =>
    have hacc : acceptedChange (.input n) s = acceptInputs (s.inputs.together n) s := clockEvent_of_due hs h _
    have hmem : (s.inputs.together n).contains n = true := by
      have hlacking : s.inputs.lacking n = some 0 := h
      simp [Inputs.together_eq hlacking, hlacking]
    have hdiff : s.inputs.differs n = true := differs_of_lacking h
    rw [hacc, acceptInputs_eq]
    refine ⟨lackingPeriods_eq_none.mpr ?_, rfl, rfl⟩
    rw [Inputs.accept_differs, hmem, hdiff, Bool.xor_self]
  | quadrature u c =>
    have hacc : acceptedChange (.quadrature u c) s = acceptQuadrature u c _ s := clockEvent_of_due hs h _
    have hclocks := acceptQuadrature_clocks u c (s.units[u.val].lacking (otherChannel c) == s.units[u.val].lacking c) s
    rw [hacc, State.pinLacking_congr hclocks, State.pinLevel_congr hclocks, State.early_congr hclocks]
    generalize (s.units[u.val].lacking (otherChannel c) == s.units[u.val].lacking c) = both
    have hchannel := s.units[u.val].changes_channel c both
    refine ⟨lackingPeriods_eq_none.mpr ?_, ?_, rfl⟩
    · rw [State.onUnit_self, hchannel]
      exact bne_self_eq_false _
    · rw [State.pinLevel, State.onUnit_self, hchannel]
      rfl
  | trip n =>
    have hacc : acceptedChange (.trip n) s = acceptTrip n.castSucc s := clockEvent_of_due hs h _
    have hdiff : s.trips[n.val].differs = true := differs_of_lacking h
    obtain ⟨latch, hblocks⟩ := acceptTrip_blocks n.castSucc s
    have hclocks := State.clocks_of_blocks hblocks
    have htrip := State.onTrip_self s.markCompared n.castSucc fun t =>
      { t with active := !t.active, acceptance := none, latch := latch }
    have hpin := congrArg TripSource.pin htrip
    rw [hacc, State.pinLacking_congr hclocks, State.pinLevel_congr hclocks, State.early_congr hclocks]
    refine ⟨lackingPeriods_eq_none.mpr ?_, hpin, rfl⟩
    refine (congrArg TripSource.differs htrip).trans ?_
    simpa [TripSource.differs, TripSource.presented] using hdiff

/-! ## PRESENTED_LEVEL_CHANGE (R117, R118, R144, R184) -/

theorem exec_presentedLevelChange (pin : FilteredPin) (level : Bool) (s : State) :
    exec (.presentedLevelChange pin level) s = .next (presentedLevelChange pin level s) := rfl

/-- A move that has not fallen within a host write is made (log 37). -/
theorem presentedLevelChange_of_not_fallen {pin : FilteredPin} {level : Bool} (h : ¬ s.early.head? = some (pin, level)) :
    presentedLevelChange pin level s = takeLevel pin level s := by
  unfold presentedLevelChange
  cases he : s.early with
  | nil => rfl
  | cons move rest => exact if_neg fun hm => h (by rw [he, hm]; rfl)

theorem PositionUnit.onChannel_of_same {u : PositionUnit} {c : Channel} {f : QuadChannel → QuadChannel}
    (h : f (u.channel c) = u.channel c) : u.onChannel c f = u := by
  cases c with
  | a => exact congrArg (fun q => { u with a := q }) h
  | b => exact congrArg (fun q => { u with b := q }) h

/-- A pin that is at the level already does not move. -/
theorem movePin_of_level {pin : FilteredPin} {level : Bool} (h : s.pinLevel pin = level) : movePin pin level s = s := by
  cases pin with
  | input n =>
    have hmove (f : Filtering) : s.inputs.movePin n level f = s.inputs := if_pos h
    simp only [movePin, hmove]
  | quadrature u c =>
    have hmove (f : Filtering) : (s.units[u.val].onChannel c fun q => q.movePin level f) = s.units[u.val] :=
      PositionUnit.onChannel_of_same (if_pos h)
    simp only [movePin, hmove, Vector.set_getElem_self]
  | trip n =>
    have hmove (f : Filtering) : s.trips[n.val].movePin level f = s.trips[n.val] := if_pos h
    simp only [movePin, hmove, Vector.set_getElem_self]

/-- Without an accepted change that is due first the pin takes the level, and one that is at it already keeps it. -/
theorem takeLevel_eq_movePin {pin : FilteredPin} {level : Bool}
    (h : s.resetLow = true ∨ s.pinLevel pin = level ∨ s.pinLacking pin ≠ some 0) :
    takeLevel pin level s = movePin pin level s := by
  unfold takeLevel
  split
  · rename_i hl
    exact (movePin_of_level hl).symm
  · rename_i hl
    split
    · rename_i hd
      rcases h with hr | he | hn
      · rw [acceptedChange_of_resetLow hr]
      · exact absurd he hl
      · exact absurd hd hn
    · rfl

/-- An acceptance that begins or is discarded when a pin moves (R117, log 23). -/
theorem acceptanceOnChange_eq (level accepted compared : Bool) (restarted : List FilteredPin) (pin : FilteredPin) :
    acceptanceOnChange (level != accepted) (compared || restarted.contains pin) =
      if level ≠ accepted ∧ compared = false ∧ pin ∉ restarted then some 0 else none := by
  simp [acceptanceOnChange]

theorem getLsbD_inputBit (n m : InputId) : (1#16 <<< n.val).getLsbD m.val = decide (m = n) := by
  revert n m
  decide

theorem Inputs.getLsbD_reversed {i : Inputs} {n : InputId} {level : Bool} (h : i.pins.getLsbD n ≠ level) :
    (i.pins ^^^ 1#16 <<< n.val).getLsbD n = level := by
  rw [BitVec.getLsbD_xor, getLsbD_inputBit, Bool.eq_not.mpr h]
  simp

theorem Inputs.movePin_pins (i : Inputs) (n m : InputId) (level : Bool) (f : Filtering) :
    (i.movePin n level f).pins.getLsbD m = if m = n then level else i.pins.getLsbD m := by
  by_cases h : i.pins.getLsbD n = level
  · rw [Inputs.movePin, if_pos h]
    split
    · rename_i hm
      rw [hm, h]
    · rfl
  · have hpins : (i.movePin n level f).pins = i.pins ^^^ 1#16 <<< n.val := by
      rw [Inputs.movePin, if_neg h]
      dsimp only
      split <;> rfl
    rw [hpins]
    by_cases hm : m = n
    · rw [if_pos hm, hm, Inputs.getLsbD_reversed h]
    · rw [if_neg hm, BitVec.getLsbD_xor, getLsbD_inputBit, decide_eq_false hm, Bool.xor_false]

theorem Inputs.movePin_acceptance (i : Inputs) (n m : InputId) (level : Bool) (f : Filtering) :
    (i.movePin n level f).acceptance[m.val] =
      if m = n ∧ i.pins.getLsbD n ≠ level ∧ f.working = true then
        acceptanceOnChange ((level ^^ i.polarity.getLsbD n) != i.accepted.getLsbD n) f.compared
      else i.acceptance[m.val] := by
  by_cases h : i.pins.getLsbD n = level
  · rw [Inputs.movePin, if_pos h, if_neg fun hc => hc.2.1 h]
  · have hdiffers : ({ i with pins := i.pins ^^^ 1#16 <<< n.val } : Inputs).differs n =
        ((level ^^ i.polarity.getLsbD n) != i.accepted.getLsbD n) := by
      rw [Inputs.differs, Inputs.presented, Inputs.getLsbD_reversed h]
    rw [Inputs.movePin, if_neg h]
    simp only [hdiffers]
    cases f.working with
    | false => simp
    | true =>
      simp only [if_true, Vector.getElem_set, ne_eq, h, not_false_eq_true, and_self, and_true]
      exact if_congr (Fin.ext_iff.symm.trans eq_comm) rfl rfl

theorem Inputs.movePin_frame (i : Inputs) (n : InputId) (level : Bool) (f : Filtering) :
    i.movePin n level f = { i with pins := (i.movePin n level f).pins, acceptance := (i.movePin n level f).acceptance } := by
  simp only [Inputs.movePin]
  split
  · rfl
  · split <;> rfl

theorem QuadChannel.movePin_eq (q : QuadChannel) (level : Bool) (f : Filtering) :
    q.movePin level f = { q with
      pin := level
      acceptance :=
        if q.pin ≠ level ∧ f.working = true then acceptanceOnChange (level != q.accepted) f.compared else q.acceptance } := by
  by_cases h : q.pin = level
  · subst h
    simp [QuadChannel.movePin]
  · cases hw : f.working <;> simp [QuadChannel.movePin, h, hw, QuadChannel.differs]

theorem TripSource.movePin_eq (t : TripSource) (level : Bool) (f : Filtering) :
    t.movePin level f = { t with
      pin := level
      acceptance :=
        if t.pin ≠ level ∧ f.working = true then acceptanceOnChange ((level ^^ t.activeLow) != t.active) f.compared
        else t.acceptance } := by
  by_cases h : t.pin = level
  · subst h
    simp [TripSource.movePin]
  · cases hw : f.working <;> simp [TripSource.movePin, h, hw, TripSource.differs, TripSource.presented]

/-- Settles O31. -/
theorem presentedLevelStartsAnAcceptance : Obligations.PresentedLevelStartsAnAcceptance := by
  intro level s fallen
  refine ⟨fun pin rest he => ?_, fun pin t hf hs hl hd ht => ?_, fun n hf h => ?_, fun u c hf h => ?_, fun n hf h => ?_⟩
  · rw [exec_presentedLevelChange, presentedLevelChange, he]
    exact congrArg _ (if_pos rfl)
  · have hrow : t = acceptedChange pin s := by
      cases pin <;> exact (Host.Outcome.next.inj ht).symm
    obtain ⟨hlacking, hlevel, hearly⟩ := acceptedChange_of_due hs hd
    rw [← hrow] at hlacking hlevel hearly
    have hft : ¬ t.early.head? = some (pin, level) := by rw [hearly]; exact hf
    refine ⟨?_, hlacking, hlevel⟩
    rw [exec_presentedLevelChange, exec_presentedLevelChange, presentedLevelChange_of_not_fallen hf,
      presentedLevelChange_of_not_fallen hft, takeLevel_eq_movePin (s := t) (.inr (.inr (by simp [hlacking]))), takeLevel,
      if_neg hl, if_pos hd, hrow]
  · have hmove (m : InputId) := s.inputs.movePin_acceptance n m level ⟨!s.resetLow, s.compared || s.restarted.contains (.input n)⟩
    simp only [acceptanceOnChange_eq, Bool.not_eq_true'] at hmove
    refine ⟨movePin (.input n) level s, ?_, ?_, fun m => s.inputs.movePin_pins n m level _, hmove⟩
    · rw [exec_presentedLevelChange, presentedLevelChange_of_not_fallen hf, takeLevel_eq_movePin h]
    · simp only [movePin]
      rw [Inputs.movePin_frame]
  · rw [exec_presentedLevelChange, presentedLevelChange_of_not_fallen hf, takeLevel_eq_movePin h]
    simp only [movePin, QuadChannel.movePin_eq, acceptanceOnChange_eq, Bool.not_eq_true']
  · rw [exec_presentedLevelChange, presentedLevelChange_of_not_fallen hf, takeLevel_eq_movePin h]
    simp only [movePin, TripSource.movePin_eq, acceptanceOnChange_eq, Bool.not_eq_true']

end
end Sys2Proof.Machine

/-! What counts core clock periods stays consistent: no acceptance is in progress on a channel at its accepted level or beyond its
filter count, no period beyond its length (R117, R185), and the pin moves that have fallen within a host write are the next in the
queue (log 37). Each block by itself, and what goes on beside a host write. -/

namespace Sys2Proof.Machine

/-! ## One channel, and the Timebase (R117, R185) -/

theorem acceptanceOk_none (full : Nat) (differs : Bool) : acceptanceOk full differs none := nofun

/-- Core clock periods that go by keep an acceptance within its count, and end it where the levels agree. -/
theorem acceptanceOk.pass {full : Nat} {differs : Bool} {progress : Option Nat} (h : acceptanceOk full differs progress)
    (d : Nat) : acceptanceOk full differs (passAcceptance d full differs progress) := by
  intro c hc
  unfold passAcceptance at hc
  cases differs with
  | false => cases hc
  | true =>
    simp only [Bool.not_true, Bool.false_eq_true, if_false] at hc
    split at hc
    · exact h c hc
    · cases hc
      exact ⟨rfl, Nat.min_le_right _ _⟩
    · cases hc
      exact ⟨rfl, Nat.min_le_right _ _⟩

/-- An acceptance that begins or is discarded when a pin moves (R117). -/
theorem acceptanceOk_onChange (full : Nat) (differs compared : Bool) :
    acceptanceOk full differs (acceptanceOnChange differs compared) := by
  intro c hc
  simp only [acceptanceOnChange, Bool.and_eq_true] at hc
  split at hc
  · rename_i h
    cases hc
    exact ⟨h.1, Nat.zero_le _⟩
  · cases hc

/-- The channels of the inputs are consistent. -/
def Inputs.Ok (i : Inputs) : Prop := ∀ n : InputId, acceptanceOk (i.fullCount n) (i.differs n) i.acceptance[n.val]

/-- Both channels of the unit are consistent. -/
def PositionUnit.Ok (u : PositionUnit) : Prop := ∀ c, acceptanceOk u.fullCount (u.channel c).differs (u.channel c).acceptance

/-- The channel of the source is consistent. -/
def TripSource.Ok (t : TripSource) : Prop := acceptanceOk t.fullCount t.differs t.acceptance

/-! ## The inputs -/

section
variable {i : Inputs}

theorem Inputs.Ok.pass (h : i.Ok) (d : Nat) : (i.pass d).Ok := fun n => by
  simp only [Inputs.pass, Vector.getElem_ofFn]
  exact (h n).pass d

theorem Inputs.Ok.accept (h : i.Ok) (ns : List InputId) : (i.accept ns).Ok := fun n => by
  rw [Inputs.accept_acceptance, Inputs.accept_differs]
  split
  · exact acceptanceOk_none _ _
  · rename_i hn
    rw [Bool.eq_false_of_not_eq_true hn, Bool.xor_false]
    exact h n

theorem Inputs.Ok.write (h : i.Ok) (setting : InputSetting) (v : Word) : (i.write setting v).Ok := fun n => by
  rw [Inputs.write_acceptance]
  split
  · rename_i hsame
    have hdiffers : (i.write setting v).differs n = i.differs n := by
      have hpins : (i.write setting v).pins = i.pins := by rw [Inputs.write_frame]
      have haccepted : (i.write setting v).accepted = i.accepted := by rw [Inputs.write_frame]
      rw [Inputs.differs, Inputs.presented, hpins, haccepted, hsame.1]
      rfl
    rw [hdiffers, Inputs.fullCount, hsame.2]
    exact h n
  · exact acceptanceOk_none _ _

theorem Inputs.movePin_differs (i : Inputs) (n m : InputId) (level : Bool) (f : Filtering) :
    (i.movePin n level f).differs m =
      if m = n then (level ^^ i.polarity.getLsbD n) != i.accepted.getLsbD n else i.differs m := by
  have hpolarity : (i.movePin n level f).polarity = i.polarity := by rw [Inputs.movePin_frame]
  have haccepted : (i.movePin n level f).accepted = i.accepted := by rw [Inputs.movePin_frame]
  rw [Inputs.differs, Inputs.presented, hpolarity, haccepted, Inputs.movePin_pins]
  split
  · rename_i hm
    rw [hm]
  · rfl

theorem Inputs.Ok.movePin (h : i.Ok) (n : InputId) (level : Bool) {f : Filtering} (hf : f.working = true) :
    (i.movePin n level f).Ok := fun m => by
  by_cases hl : i.pins.getLsbD n = level
  · rw [Inputs.movePin, if_pos hl]
    exact h m
  · have hcount : (i.movePin n level f).fullCount m = i.fullCount m := by rw [Inputs.movePin_frame]; rfl
    rw [Inputs.movePin_acceptance, Inputs.movePin_differs, hcount]
    by_cases hm : m = n
    · rw [if_pos hm, if_pos ⟨hm, hl, hf⟩]
      exact acceptanceOk_onChange _ _ _
    · rw [if_neg hm, if_neg fun hc => hm hc.1]
      exact h m

theorem Inputs.resample_ok (i : Inputs) : i.resample.Ok := fun n => by
  simp only [Inputs.resample, Vector.getElem_replicate]
  exact acceptanceOk_none _ _

end

/-! ## The Position Units -/

section
variable {u : PositionUnit}

theorem PositionUnit.Ok.pass (h : u.Ok) (d : Nat) : (u.pass d).Ok := fun c => by
  cases c
  · exact (h .a).pass d
  · exact (h .b).pass d

theorem PositionUnit.Ok.changes (h : u.Ok) (c : Channel) (both : Bool) : (u.changes c both).Ok := fun x => by
  cases both with
  | true => cases x <;> exact acceptanceOk_none _ _
  | false =>
    cases c <;> cases x
    · exact acceptanceOk_none _ _
    · exact h .b
    · exact h .a
    · exact acceptanceOk_none _ _

theorem PositionUnit.Ok.writeFilter (h : u.Ok) (v : Word) : (u.writeFilter v).Ok := fun c => by
  rw [PositionUnit.writeFilter_eq]
  by_cases hsame : v.setWidth 8 = u.filter.setWidth 8
  · have hcount : ({ u with filter := v } : PositionUnit).fullCount = u.fullCount := by
      rw [PositionUnit.fullCount, PositionUnit.filterCount_eq, hsame, ← PositionUnit.filterCount_eq]
      rfl
    have hc := h c
    rw [← hcount] at hc
    simp only [hsame, if_true]
    exact hc
  · simp only [hsame, if_false]
    cases c <;> exact acceptanceOk_none _ _

theorem PositionUnit.Ok.movePin (h : u.Ok) (c : Channel) (level : Bool) {f : Filtering} (hf : f.working = true) :
    (u.onChannel c fun q => q.movePin level f).Ok := by
  have hmove : acceptanceOk u.fullCount ((u.channel c).movePin level f).differs ((u.channel c).movePin level f).acceptance := by
    unfold QuadChannel.movePin
    split
    · exact h c
    · exact acceptanceOk_onChange _ _ _
  intro x
  cases c <;> cases x
  · exact hmove
  · exact h .b
  · exact h .a
  · exact hmove

/-- The counter and the error flag of a unit have no part in its filters. -/
theorem PositionUnit.Ok.withCounts (h : u.Ok) (v : Word) (error : Bool) :
    ({ u with counter := v, error := error } : PositionUnit).Ok := fun c => by
  cases c
  · exact h .a
  · exact h .b

theorem PositionUnit.softReset_ok (u : PositionUnit) : u.softReset.Ok := fun c => by
  cases c <;> exact acceptanceOk_none _ _

end

/-! ## The trip sources -/

section
variable {t : TripSource}

theorem TripSource.Ok.pass (h : t.Ok) (d : Nat) : (t.pass d).Ok := acceptanceOk.pass h d

theorem TripSource.Ok.configurePin (h : t.Ok) (arg0 arg1 : Word) : (t.configurePin arg0 arg1).Ok := by
  rw [TripSource.configurePin_eq]
  by_cases hsame : arg0[1] = t.activeLow ∧ arg0.extractLsb' 8 8 = t.filter
  · simp only [hsame.1, hsame.2, and_self, if_true]
    exact h
  · simp only [hsame, if_false]
    exact acceptanceOk_none _ _

theorem TripSource.Ok.movePin (h : t.Ok) (level : Bool) {f : Filtering} (hf : f.working = true) : (t.movePin level f).Ok := by
  unfold TripSource.movePin
  split
  · exact h
  · exact acceptanceOk_onChange _ _ _

end

/-! ## The Timebase -/

section
variable {b : Timebase}

theorem prescaleOf_range (code : BitVec 2) : 1 ≤ prescaleOf code ∧ prescaleOf code ≤ 4096 := by
  revert code
  decide

theorem Timebase.freshPeriod_ok (b : Timebase) :
    1 ≤ b.freshPeriod.length ∧ b.freshPeriod.length ≤ 65536 * 4096 ∧ b.freshPeriod.elapsed ≤ b.freshPeriod.length := by
  obtain ⟨hpos, hle⟩ := prescaleOf_range b.pre
  exact ⟨Nat.mul_pos (Nat.succ_pos _) hpos, Nat.mul_le_mul b.div.isLt hle, Nat.zero_le _⟩

theorem Timebase.Ok.pass (h : b.Ok) (d : Nat) : (b.pass d).Ok where
  running_iff := by rw [Timebase.pass, Option.isSome_map]; exact h.running_iff
  period_ok p hp := by
    obtain ⟨q, hq, rfl⟩ := Option.map_eq_some_iff.mp hp
    obtain ⟨hpos, hle, -⟩ := h.period_ok q hq
    exact ⟨hpos, hle, Nat.min_le_right _ _⟩

theorem Timebase.issue_ok (hr : b.running = true) : b.issue.Ok where
  running_iff := hr
  period_ok p hp := by
    cases hp
    exact b.freshPeriod_ok

theorem Timebase.Ok.setRun (h : b.Ok) (on : Bool) : (b.setRun on).Ok := by
  unfold Timebase.setRun
  split
  · exact h
  · split
    · exact ⟨rfl, fun p hp => by cases hp; exact b.freshPeriod_ok⟩
    · exact ⟨rfl, nofun⟩

end
end Sys2Proof.Machine

/-! What counts core clock periods stays consistent in every step (R117, R133, R185; log 37): what goes on in the block and beside a
host write, every command, and the block on its own. -/

namespace Sys2Proof.Machine

section
variable {s t : State}

/-- The Timebase and the filters are consistent, and the pin moves that have fallen are the next in the queue. -/
structure State.ClocksOk (s : State) : Prop where
  timebase : s.timebase.Ok
  inputs : s.resetLow = false → s.inputs.Ok
  units : s.resetLow = false → ∀ u : UnitId, s.units[u.val].Ok
  trips : s.resetLow = false → ∀ n : SourceId, s.trips[n.val].Ok
  early : s.early <+: frontMoves s.pending

/-! ## Updates of the state -/

theorem State.ClocksOk.congr (h : s.ClocksOk) (hc : t.clocks = s.clocks) : t.ClocksOk := by
  simp only [State.clocks, Prod.mk.injEq] at hc
  obtain ⟨hinputs, hunits, htrips, htimebase, hreset, hpending, hearly⟩ := hc
  exact ⟨htimebase ▸ h.timebase, by rw [hreset, hinputs]; exact h.inputs, by rw [hreset, hunits]; exact h.units,
    by rw [hreset, htrips]; exact h.trips, by rw [hearly, hpending]; exact h.early⟩

/-- The lanes' walk keeps them (`State.clocks_of_blocks`). -/
theorem State.ClocksOk.blocks (h : s.ClocksOk) (hb : SameBlocks t s) : t.ClocksOk := h.congr (State.clocks_of_blocks hb)

theorem State.ClocksOk.withTimebase (h : s.ClocksOk) {b : Timebase} (hb : b.Ok) : ({ s with timebase := b } : State).ClocksOk :=
  ⟨hb, h.inputs, h.units, h.trips, h.early⟩

theorem State.ClocksOk.withInputs (h : s.ClocksOk) {i : Inputs} (hi : s.resetLow = false → i.Ok) :
    ({ s with inputs := i } : State).ClocksOk := ⟨h.timebase, hi, h.units, h.trips, h.early⟩

theorem State.ClocksOk.onUnit (h : s.ClocksOk) (u : UnitId) {f : PositionUnit → PositionUnit}
    (hf : s.resetLow = false → s.units[u.val].Ok → (f s.units[u.val]).Ok) : (s.onUnit u f).ClocksOk := by
  refine ⟨h.timebase, h.inputs, fun hs v => ?_, h.trips, h.early⟩
  simp only [State.onUnit, Vector.getElem_set]
  split
  · exact hf hs (h.units hs u)
  · exact h.units hs v

theorem State.ClocksOk.onTrip (h : s.ClocksOk) (n : SourceId) {f : TripSource → TripSource}
    (hf : s.resetLow = false → s.trips[n.val].Ok → (f s.trips[n.val]).Ok) : (s.onTrip n f).ClocksOk := by
  refine ⟨h.timebase, h.inputs, h.units, fun hs m => ?_, h.early⟩
  simp only [State.onTrip, Vector.getElem_set]
  split
  · exact hf hs (h.trips hs n)
  · exact h.trips hs m

theorem State.ClocksOk.withEarly (h : s.ClocksOk) {moves : List (FilteredPin × Bool)} (hm : moves <+: frontMoves s.pending) :
    (s.withEarly moves).ClocksOk := ⟨h.timebase, h.inputs, h.units, h.trips, hm⟩

/-! ## Events of the core clock -/

theorem State.ClocksOk.elapse (h : s.ClocksOk) (d : Nat) : (elapse d s).ClocksOk where
  timebase := h.timebase.pass d
  inputs hs := (h.inputs (by simpa using hs)).pass d
  units hs u := by
    have hu : (Machine.elapse d s).units[u.val] = s.units[u.val].pass d := by simp only [Machine.elapse, Vector.getElem_ofFn]
    rw [hu]
    exact (h.units (by simpa using hs) u).pass d
  trips hs n := by
    have hn : (Machine.elapse d s).trips[n.val] = s.trips[n.val].pass d := by simp only [Machine.elapse, Vector.getElem_ofFn]
    rw [hn]
    exact (h.trips (by simpa using hs) n).pass d
  early := h.early

theorem State.ClocksOk.goOnTo (h : s.ClocksOk) (d : Nat) : (goOnTo d s).ClocksOk := by
  obtain ⟨u, hu, ht | ht⟩ := goOnTo_same d s <;> rw [ht]
  · exact h.blocks hu
  · exact (h.blocks hu).elapse d

theorem goOnTo_running (d : Nat) (s : State) : (goOnTo d s).timebase.running = s.timebase.running := by
  obtain ⟨u, hu, ht | ht⟩ := goOnTo_same d s <;> rw [ht]
  · rw [hu.timebase]
  · rw [elapse_running, hu.timebase]

/-- An event of the core clock whose act keeps them where the block has gone on to it. -/
theorem State.ClocksOk.clockEvent (h : s.ClocksOk) {lacking : Option Nat} {act : State → State}
    (hact : ∀ d, lacking = some d → (Machine.goOnTo d s).ClocksOk → (act (Machine.goOnTo d s)).ClocksOk) :
    (clockEvent lacking act s).ClocksOk := by
  obtain ⟨heq, -⟩ | ⟨d, hd, -, -, heq⟩ := clockEvent_spec lacking act s <;> rw [heq]
  · exact h
  · exact hact d hd (h.goOnTo d)

theorem State.ClocksOk.acceptInputs (h : s.ClocksOk) (ns : List InputId) : (acceptInputs ns s).ClocksOk := by
  rw [acceptInputs_eq]
  exact (h.withInputs fun hs => (h.inputs hs).accept ns).congr rfl

theorem State.ClocksOk.acceptQuadrature (h : s.ClocksOk) (u : UnitId) (c : Channel) (both : Bool) :
    (acceptQuadrature u c both s).ClocksOk := by
  have hu : (s.onUnit u fun v => v.changes c both).ClocksOk := h.onUnit u fun _ hu => hu.changes c both
  exact hu.congr (acceptQuadrature_clocks u c both s)

theorem State.ClocksOk.setLatch (h : s.ClocksOk) (n : SourceId) : (setLatch n s).ClocksOk := by
  have hn : (s.onTrip n fun t => { t with latch := true }).ClocksOk := h.onTrip n fun _ hn => hn
  exact hn.blocks (setLatch_blocks n s)

theorem State.ClocksOk.acceptTrip (h : s.ClocksOk) (n : SourceId) : (acceptTrip n s).ClocksOk := by
  obtain ⟨latch, hblocks⟩ := acceptTrip_blocks n s
  have hmarked : s.markCompared.ClocksOk := h.congr rfl
  have hn : (s.markCompared.onTrip n fun t => { t with active := !t.active, acceptance := none, latch := latch }).ClocksOk :=
    hmarked.onTrip n fun _ _ _ hc => nomatch hc
  exact hn.blocks hblocks

theorem State.ClocksOk.acceptedChange (h : s.ClocksOk) (pin : FilteredPin) : (acceptedChange pin s).ClocksOk := by
  cases pin with
  | input n => exact h.clockEvent fun _ _ hd => hd.acceptInputs _
  | quadrature u c => exact h.clockEvent fun _ _ hd => hd.acceptQuadrature u c _
  | trip n => exact h.clockEvent fun _ _ hd => hd.acceptTrip n.castSucc

/-- A period that ends was in progress. -/
theorem Timebase.Ok.running_of_lacking {b : Timebase} {d : Nat} (h : b.Ok) (hd : b.lacking = some d) : b.running = true := by
  rw [h.running_iff]
  cases hp : b.period with
  | none => simp [Timebase.lacking, hp] at hd
  | some p => rfl

theorem handTicks_blocks (takers : LaneMask) (s : State) :
    SameBlocks (handOut (allLanes.foldl (handTick takers) s)) s := by
  rw [SameBlocks, sansWalk_handOut]
  refine sansWalk_foldl s _ (fun t k => ?_) _
  unfold handTick
  split
  · exact sansWalk_reach t k .tick
  · rfl

theorem State.ClocksOk.tick (h : s.ClocksOk) (takers : LaneMask) : (tick takers s).ClocksOk := by
  refine h.clockEvent fun d hlacking hd => ?_
  have hrunning : (Machine.goOnTo d s).timebase.running = true :=
    (goOnTo_running d s).trans (h.timebase.running_of_lacking hlacking)
  exact (hd.withTimebase (Timebase.issue_ok hrunning)).blocks (handTicks_blocks takers _)

/-! ## The moves of the pins -/

theorem State.ClocksOk.movePin (h : s.ClocksOk) (pin : FilteredPin) (level : Bool) : (movePin pin level s).ClocksOk := by
  cases pin with
  | input n => exact h.withInputs fun hs => (h.inputs hs).movePin n level (by simp [hs])
  | quadrature u c =>
    have hmove : Machine.movePin (.quadrature u c) level s = s.onUnit u fun v => v.onChannel c fun q =>
        q.movePin level ⟨!s.resetLow, s.compared || s.restarted.contains (.quadrature u c)⟩ := rfl
    rw [hmove]
    exact h.onUnit u fun hs hu => hu.movePin c level (by simp [hs])
  | trip n =>
    have hmove : Machine.movePin (.trip n) level s = s.onTrip n.castSucc fun t =>
        t.movePin level ⟨!s.resetLow, s.compared || s.restarted.contains (.trip n)⟩ := rfl
    rw [hmove]
    exact h.onTrip n.castSucc fun hs hn => hn.movePin level (by simp [hs])

theorem State.ClocksOk.takeLevel (h : s.ClocksOk) (pin : FilteredPin) (level : Bool) : (takeLevel pin level s).ClocksOk := by
  unfold Machine.takeLevel
  split
  · exact h
  · refine State.ClocksOk.movePin ?_ pin level
    split
    · exact h.acceptedChange pin
    · exact h

/-! ## What goes on beside a host write -/

theorem State.ClocksOk.aside (h : s.ClocksOk) {act : State → State} (ha : ∀ t : State, t.ClocksOk → (act t).ClocksOk) :
    (aside act s).ClocksOk := (ha (s.withOutbox []) (h.congr rfl)).congr rfl

/-- The move that can fall next within the write is the next in the queue (log 37). -/
theorem movesAhead_of_move {but : LaneMask} {pin : FilteredPin} {level : Bool}
    (h : Happening.move pin level ∈ s.happenings but) : ∃ rest, s.movesAhead = (pin, level) :: rest := by
  have hm : Happening.move pin level ∈ s.machineSide := by
    by_contra hno
    simp [State.happenings, State.lanesWork, hno] at h
  unfold State.machineSide at hm
  split at hm
  · cases hm
  · rename_i p l rest hahead
    obtain ⟨rfl, rfl⟩ : pin = p ∧ level = l := by simpa using hm
    exact ⟨rest, hahead⟩

theorem early_append_move {pin : FilteredPin} {level : Bool} {rest : List (FilteredPin × Bool)} (h : s.ClocksOk)
    (hm : s.movesAhead = (pin, level) :: rest) : s.early ++ [(pin, level)] <+: frontMoves s.pending := by
  obtain ⟨ahead, heq⟩ := h.early
  rw [State.movesAhead, ← heq, List.drop_left] at hm
  exact ⟨rest, by rw [← heq, hm, List.append_assoc, List.singleton_append]⟩

theorem State.ClocksOk.serveAccess (h : s.ClocksOk) : (serveAccess s).ClocksOk := by
  rw [serveAccess_frame]
  exact h.congr rfl

theorem State.ClocksOk.happen (h : s.ClocksOk) {but : LaneMask} {x : Happening} (hx : x ∈ s.happenings but) :
    (happen s x).ClocksOk := by
  cases x with
  | work w => exact h.aside fun t ht => ht.blocks ((sansWalk_handOut _).trans (sansWalk_doWork t w))
  | access => exact h.serveAccess
  | acceptance pin => exact h.aside fun t ht => ht.acceptedChange pin
  | tick => exact h.aside fun t ht => ht.tick 0
  | move pin level =>
    obtain ⟨rest, hm⟩ := movesAhead_of_move hx
    exact (h.withEarly (early_append_move h hm)).aside fun t ht => ht.takeLevel pin level
  | period => exact h.elapse 1

theorem State.ClocksOk.goesOn {but : LaneMask} (h : s.ClocksOk) (hg : s.GoesOn but t) : t.ClocksOk :=
  hg.induct (fun _ _ h => h.congr rfl) (fun _ _ hx h => h.happen hx) h

theorem State.ClocksOk.interlude (h : s.ClocksOk) (but : LaneMask) : (interlude but s).ClocksOk :=
  h.goesOn (interlude_goesOn but s)

theorem State.ClocksOk.followUp (h : s.ClocksOk) : (followUp s).ClocksOk :=
  followUp_induct (fun _ _ h => h.congr rfl) (fun _ h => h.blocks (sansWalk_handOut _)) (fun _ _ hx h => h.happen hx)
    (fun t w h => h.blocks (sansWalk_doWork t w)) h

theorem State.ClocksOk.setLatchNow (h : s.ClocksOk) (n : SourceId) : (setLatchNow n s).ClocksOk := by
  have hcomplete (t : State) : SameBlocks (completeSettings t) t :=
    (sansWalk_arriveFrom _ _).trans (sansWalk_completeLanes t _)
  exact (((h.setLatch n).interlude 0).blocks (hcomplete _)).followUp

/-! ## The lane commands -/

theorem State.ClocksOk.judgeLane {judge : LaneId → State → Judgement} (h : s.ClocksOk) (hj : LaneJudge judge) (k : LaneId) :
    (judgeLane judge k s).ClocksOk := by
  have hv : (completeLane k s).ClocksOk := h.blocks (sansWalk_completeLane s k)
  simp only [Machine.judgeLane]
  generalize completeLane k s = v at hv
  split
  · rename_i t ht
    have hu : t.ClocksOk := hv.blocks (hj.good.only ht).blocks
    exact hu.blocks (sansWalk_onLane t k _)
  · exact hv.congr rfl

theorem State.ClocksOk.commandLanes {judge : LaneId → State → Judgement} (h : s.ClocksOk) (hj : LaneJudge judge)
    (mask : LaneMask) : (commandLanes judge mask s).ClocksOk := by
  have hfetch (t : State) (k : LaneId) : SameBlocks (serveFetchApart k t) t :=
    sansWalk_withheld t fun u => sansWalk_serveFetch u k
  exact commandLanes_induct (P := State.ClocksOk) (fun _ _ h => h.congr rfl) (fun _ but h => h.interlude but)
    (fun _ k h => h.judgeLane hj k) (fun t k h => h.blocks (hfetch t k)) (fun _ _ h => h.congr rfl) mask h

/-! ## No emission is left over -/

theorem clockEvent_outbox (ho : s.outbox = []) {lacking : Option Nat} {act : State → State}
    (hact : ∀ t : State, t.outbox = [] → (act t).outbox = []) : (clockEvent lacking act s).outbox = [] := by
  obtain ⟨heq, -⟩ | ⟨d, -, -, -, heq⟩ := clockEvent_spec lacking act s <;> rw [heq]
  · exact ho
  · exact hact _ (goOnTo_outbox ho d)

theorem acceptInputs_outbox (ns : List InputId) (s : State) : (acceptInputs ns s).outbox = s.outbox := by
  rw [acceptInputs_eq]

theorem acceptQuadrature_outbox (u : UnitId) (c : Channel) (both : Bool) (s : State) :
    (acceptQuadrature u c both s).outbox = s.outbox := by
  cases both with
  | false => rfl
  | true =>
    rw [acceptQuadrature_both]
    split <;> rfl

theorem acceptTrip_outbox (n : SourceId) (s : State) : (acceptTrip n s).outbox = s.outbox := by
  unfold acceptTrip
  dsimp only
  split
  · rw [setLatch_outbox]
    rfl
  · rfl

theorem acceptedChange_outbox (ho : s.outbox = []) (pin : FilteredPin) : (acceptedChange pin s).outbox = [] := by
  cases pin with
  | input n => exact clockEvent_outbox ho fun t ht => (acceptInputs_outbox _ t).trans ht
  | quadrature u c => exact clockEvent_outbox ho fun t ht => (acceptQuadrature_outbox u c _ t).trans ht
  | trip n => exact clockEvent_outbox ho fun t ht => (acceptTrip_outbox _ t).trans ht

theorem movePin_outbox (pin : FilteredPin) (level : Bool) (s : State) : (movePin pin level s).outbox = s.outbox := by
  cases pin <;> rfl

theorem takeLevel_outbox (ho : s.outbox = []) (pin : FilteredPin) (level : Bool) : (takeLevel pin level s).outbox = [] := by
  unfold takeLevel
  split
  · exact ho
  · rw [movePin_outbox]
    split
    · exact acceptedChange_outbox ho pin
    · exact ho

/-- What every step keeps: the clocks and the filters are consistent, and no emission waits to be handed out. -/
structure State.StepOk (s : State) : Prop where
  clocks : s.ClocksOk
  outbox : s.outbox = []

theorem State.StepOk.congr (h : s.StepOk) (hc : t.clocks = s.clocks) (ho : t.outbox = s.outbox) : t.StepOk :=
  ⟨h.clocks.congr hc, ho.trans h.outbox⟩

theorem State.StepOk.hostAccess (h : s.StepOk) {act : State → State} (ha : (act s).StepOk) : (hostAccess act s).StepOk :=
  hostAccess_keeps (fun _ => ha) h

theorem State.StepOk.report (h : s.StepOk) (r : Result) : (s.report r).StepOk := h.congr rfl rfl

theorem State.ClocksOk.followUp_stepOk (h : s.ClocksOk) : (Machine.followUp s).StepOk := ⟨h.followUp, followUp_outbox s⟩

/-! ## Lanes, records, lines and the output side -/

theorem State.StepOk.laneCommand (h : s.StepOk) {judge : LaneId → State → Judgement} (hj : LaneJudge judge) (mask : LaneMask) :
    (laneCommand judge mask s).StepOk := by
  have hs : State.ClocksOk { s with cmdRefused := 0 } := h.clocks.congr rfl
  exact h.hostAccess (hs.commandLanes hj mask).followUp_stepOk

theorem State.StepOk.recordRequest (h : s.StepOk) (index : Word) {transfer : State → State} (ht : (transfer s).StepOk) :
    (recordRequest index transfer s).StepOk := by
  refine h.hostAccess ?_
  split
  · exact h.report _
  · split
    · exact h.report _
    · exact ht.report _

theorem State.StepOk.lineAssign (h : s.StepOk) (v : Word) : (lineAssign v s).StepOk := by
  refine h.hostAccess ?_
  split
  · exact h.report _
  · split
    · exact h.report _
    · exact h.congr rfl rfl

theorem State.StepOk.lineFree (h : s.StepOk) (v : Word) : (lineFree v s).StepOk := by
  refine h.hostAccess ?_
  split <;> exact h.congr rfl rfl

theorem State.StepOk.triggerEmit (h : s.StepOk) (v : Word) : (triggerEmit v s).StepOk := by
  have hs : ((s.withOutbox (s.outbox ++ lanesOf (maskOf v))).report .taken).ClocksOk := h.clocks.congr rfl
  exact h.hostAccess hs.followUp_stepOk

theorem State.StepOk.plainWrite (h : s.StepOk) (n : Nat) (v : Word) : (plainWrite n v s).StepOk := by
  rw [plainWrite_frame]
  exact h.congr rfl rfl

/-! ## The inputs, the Position Units and the Timebase -/

theorem State.StepOk.inputSettingWrite (h : s.StepOk) (setting : InputSetting) (v : Word) :
    (inputSettingWrite setting v s).StepOk := by
  have hs : State.ClocksOk { s with inputs := s.inputs.write setting v } :=
    h.clocks.withInputs fun hs => (h.clocks.inputs hs).write setting v
  exact h.hostAccess ⟨hs.congr rfl, h.outbox⟩

theorem State.StepOk.posFiltWrite (h : s.StepOk) (u : UnitId) (v : Word) : (posFiltWrite u v s).StepOk := by
  have hs : (s.onUnit u fun w => w.writeFilter v).ClocksOk := h.clocks.onUnit u fun _ hu => hu.writeFilter v
  exact h.hostAccess ⟨hs.congr rfl, h.outbox⟩

theorem State.StepOk.posLoad (h : s.StepOk) (v : Word) : (posLoad v s).StepOk := by
  have hs : (s.onUnit (unitOf v) fun u => { u with counter := s.posArg }).ClocksOk :=
    h.clocks.onUnit _ fun _ hu => hu.withCounts s.posArg _
  exact h.hostAccess ⟨hs.congr rfl, h.outbox⟩

theorem State.StepOk.posClear (h : s.StepOk) (v : Word) : (posClear v s).StepOk := by
  refine h.hostAccess ⟨⟨h.clocks.timebase, h.clocks.inputs, fun hs u => ?_, h.clocks.trips, h.clocks.early⟩, h.outbox⟩
  simp only [State.report, Vector.getElem_ofFn]
  split
  · exact (h.clocks.units hs u).withCounts _ false
  · exact h.clocks.units hs u

theorem State.StepOk.tbDivPreWrite (h : s.StepOk) (setting : TimebaseSetting) (v : Word) :
    (tbDivPreWrite setting v s).StepOk := by
  refine h.hostAccess ⟨?_, ?_⟩ <;> cases setting
  · exact h.clocks.withTimebase ⟨h.clocks.timebase.running_iff, h.clocks.timebase.period_ok⟩
  · exact h.clocks.withTimebase ⟨h.clocks.timebase.running_iff, h.clocks.timebase.period_ok⟩
  · exact h.outbox
  · exact h.outbox

theorem State.StepOk.tbCountWrite (h : s.StepOk) (v : Word) : (tbCountWrite v s).StepOk :=
  h.hostAccess
    ⟨h.clocks.withTimebase ⟨h.clocks.timebase.running_iff, h.clocks.timebase.period_ok⟩, h.outbox⟩

theorem State.StepOk.controlWrite (h : s.StepOk) (drive run irq : Bool) : (controlWrite drive run irq s).StepOk := by
  have hs : State.ClocksOk { s with timebase := s.timebase.setRun run } :=
    h.clocks.withTimebase (h.clocks.timebase.setRun run)
  rw [Machine.controlWrite, State.setDrive_eq]
  exact ⟨hs.congr rfl, h.outbox⟩

/-! ## Table jobs and notices -/

theorem State.StepOk.jobRequest (h : s.StepOk) (valid : State → Bool) (job : State → Job) :
    (jobRequest valid job s).StepOk := by
  refine h.hostAccess ?_
  split
  · exact h.report _
  · split
    · exact h.report _
    · exact h.congr rfl rfl

theorem State.StepOk.raiseJob (h : s.StepOk) (o : JobOutcome) : (raiseJob o s).StepOk := by
  unfold Machine.raiseJob
  split
  · exact h
  · exact h.congr rfl rfl

theorem State.StepOk.jobAbort (h : s.StepOk) (v : Word) : (jobAbort v s).StepOk := by
  refine h.hostAccess ?_
  split
  · split
    · exact h.report _
    · have hs : (({ s with job := { s.job with state := .aborted } } : State).report .taken).StepOk := h.congr rfl rfl
      exact hs.raiseJob .aborted
  · exact h.report _

theorem State.StepOk.access (h : s.StepOk) (kind : JobKind) : (if s.jobRuns kind then serveAccess s else s).StepOk := by
  split
  · rw [serveAccess_frame]
    exact h.congr rfl rfl
  · exact h

theorem State.StepOk.popOldest (h : s.StepOk) : (popOldest s).StepOk := by
  unfold Machine.popOldest
  split <;> exact h.congr rfl rfl

theorem State.StepOk.noticePop (h : s.StepOk) (v : Word) : (noticePop v s).StepOk := by
  have hs : (interlude 0 s).StepOk := ⟨h.clocks.interlude 0, goesOn_outbox h.outbox (interlude_goesOn 0 s)⟩
  exact h.hostAccess hs.popOldest

/-! ## The Trip Unit -/

theorem State.ClocksOk.setLatchNow_stepOk (h : s.ClocksOk) (n : SourceId) : (Machine.setLatchNow n s).StepOk :=
  ⟨h.setLatchNow n, followUp_outbox _⟩

theorem State.StepOk.configured (h : s.StepOk) (n : SourceId) : (s.configured n).StepOk := by
  unfold State.configured
  split
  · exact ⟨h.clocks.onTrip n fun _ hn => hn, h.outbox⟩
  · have hs : (s.onTrip n fun t => t.configurePin s.tripArg0 s.tripArg1).ClocksOk :=
      h.clocks.onTrip n fun _ hn => hn.configurePin _ _
    exact ⟨hs.congr rfl, h.outbox⟩

theorem State.StepOk.configureTrip (h : s.StepOk) (n : SourceId) : (configureTrip n s).StepOk := by
  rw [configureTrip_eq]
  split
  · exact (h.configured n).clocks.setLatchNow_stepOk n
  · exact h.configured n

theorem State.StepOk.tripConfig (h : s.StepOk) (v : Word) : (tripConfig v s).StepOk := by
  refine h.hostAccess ?_
  dsimp only
  split
  · split
    · exact h.report _
    · exact (h.report _).configureTrip _
  · exact h.report _

theorem State.StepOk.tripAssert (h : s.StepOk) (v : Word) : (tripAssert v s).StepOk := by
  refine h.hostAccess ?_
  dsimp only
  split
  · exact h.report _
  · split
    · exact h.report _
    · exact (h.report _).clocks.setLatchNow_stepOk swSource

theorem State.StepOk.tripClear (h : s.StepOk) (v : Word) : (tripClear v s).StepOk := by
  refine h.hostAccess ⟨⟨h.clocks.timebase, h.clocks.inputs, h.clocks.units, fun hs n => ?_, h.clocks.early⟩, h.outbox⟩
  simp only [State.report, Vector.getElem_ofFn]
  split <;> exact h.clocks.trips hs n

/-! ## Resets -/

/-- A soft reset discards every acceptance and leaves the Timebase and the moves of the pins as they are (R155). -/
theorem State.ClocksOk.relatch_resetBlocks (h : s.ClocksOk) : (relatch (resetBlocks s)).ClocksOk := by
  obtain ⟨order, p, -, heq⟩ := Machine.relatch_resetBlocks s
  rw [heq]
  refine ⟨h.timebase, fun _ => s.inputs.resample_ok, fun _ u => ?_, fun _ n => ?_, h.early⟩
  · simp only [resetBlocks, Vector.getElem_ofFn]
    exact s.units[u.val].softReset_ok
  · simp only [State.resetTrips, Vector.getElem_ofFn]
    exact acceptanceOk_none _ _

theorem State.ClocksOk.abandonJob (h : s.ClocksOk) : (abandonJob s).ClocksOk := by
  obtain ⟨u, p, -, heq⟩ := abandonJob_cases s
  rw [heq]
  exact h.congr rfl

theorem State.ClocksOk.discarding (h : s.ClocksOk) : (discarding s).ClocksOk := by
  obtain ⟨u, hgoes, heq⟩ := discarding_discards s
  rw [heq]
  exact (h.goesOn hgoes).congr rfl

theorem State.StepOk.softReset (h : s.StepOk) : (softReset s).StepOk := by
  unfold Machine.softReset
  split
  · exact h
  · exact ⟨(h.clocks.interlude 0).abandonJob.relatch_resetBlocks.discarding, discarding_outbox (relatch_outbox _)⟩

theorem powerOn_clocksOk (he : s.early <+: frontMoves s.pending) : (powerOn s).ClocksOk where
  timebase := ⟨rfl, nofun⟩
  inputs _ n := by
    rw [powerOn_inputs]
    simp only [State.reset, Vector.getElem_replicate]
    exact acceptanceOk_none _ _
  units _ u c := by
    rw [powerOn_unit]
    cases c <;> exact acceptanceOk_none _ _
  trips _ n := by
    rw [powerOn_trip]
    simp only [State.reset, Vector.getElem_replicate]
    exact acceptanceOk_none _ _
  early := he

theorem State.StepOk.resetRelease (h : s.StepOk) : (resetRelease s).StepOk := by
  unfold Machine.resetRelease
  split
  · exact ⟨powerOn_clocksOk h.clocks.early, rfl⟩
  · exact h

theorem State.StepOk.resetAssert (h : s.StepOk) : (resetAssert s).StepOk :=
  ⟨⟨h.clocks.timebase, nofun, nofun, nofun, h.clocks.early⟩, h.outbox⟩

/-! ## Events of the part -/

theorem State.StepOk.entryFetch (h : s.StepOk) (k : LaneId) : (entryFetch k s).StepOk := by
  unfold Machine.entryFetch
  split
  · exact h
  · exact ⟨h.clocks.blocks ((sansWalk_handOut _).trans (sansWalk_serveFetch s k)), handOut_outbox _⟩

theorem State.StepOk.deliver (h : s.StepOk) (k : LaneId) (e : Event) : (deliver k e s).StepOk :=
  ⟨h.clocks.blocks (sansWalk_deliver s k e), handOut_outbox _⟩

theorem State.StepOk.taking (h : s.StepOk) (k : LaneId) (e : Event) :
    (if s.resetLow then s else Machine.deliver k e s).StepOk := by
  split
  · exact h
  · exact h.deliver k e

theorem State.StepOk.takeTickWhen (h : s.StepOk) (named : Lane → Bool) (k : LaneId) : (takeTickWhen named k s).StepOk := by
  simp only [Machine.takeTickWhen]
  split
  · exact h.deliver k .tick
  · exact h

theorem State.StepOk.acceptedChange (h : s.StepOk) (pin : FilteredPin) : (acceptedChange pin s).StepOk :=
  ⟨h.clocks.acceptedChange pin, acceptedChange_outbox h.outbox pin⟩

theorem State.StepOk.tick (h : s.StepOk) (takers : LaneMask) : (tick takers s).StepOk :=
  ⟨h.clocks.tick takers, clockEvent_outbox h.outbox fun _ _ => handOut_outbox _⟩

theorem State.StepOk.takeLevel (h : s.StepOk) (pin : FilteredPin) (level : Bool) : (takeLevel pin level s).StepOk :=
  ⟨h.clocks.takeLevel pin level, takeLevel_outbox h.outbox pin level⟩

/-! ## Every step -/

/-- Every well-formed command but the move of a pin, which is with the queue of such moves. -/
theorem State.StepOk.exec_of_wellFormed (h : s.StepOk) {c : Instr} (hc : c.wellFormed = true)
    (hpin : ∀ pin level, c ≠ .presentedLevelChange pin level) (ht : exec c s = .next t) : t.StepOk := by
  cases c <;> cases ht
  case presentedLevelChange pin level => exact absurd rfl (hpin pin level)
  case plainRegisterWrite a v =>
    have hrow : a.toNat ∉ rowAddresses := by simpa [Instr.wellFormed] using hc
    change (busWrite a.toNat v s).StepOk
    rw [busWrite_of_no_row hrow]
    exact h.hostAccess (h.plainWrite _ v)
  case recordRead v => exact h.recordRequest v (h.congr rfl rfl)
  case recordWrite v => exact h.recordRequest v (h.congr rfl rfl)
  case laneStart v => exact h.laneCommand .start _
  case laneStop v => exact h.laneCommand .stop _
  case laneHold v => exact h.laneCommand .hold _
  case laneRelease v => exact h.laneCommand .release _
  case laneReset v => exact h.laneCommand .reset _
  case laneResume v => exact h.laneCommand .resume _
  case laneStep v => exact h.laneCommand .step _
  case laneJump v => exact h.laneCommand (.jump _) _
  case laneLoad v => exact h.laneCommand .load _
  case laneSwap v => exact h.laneCommand .swap _
  case laneCancelSwap v => exact h.laneCommand .cancelSwap _
  case lineAssign v => exact h.lineAssign v
  case lineFree v => exact h.lineFree v
  case safeLevelWrite half v => exact h.hostAccess (h.congr rfl rfl)
  case inputSettingWrite setting v => exact h.inputSettingWrite setting v
  case posFiltWrite u v => exact h.posFiltWrite u v
  case posLoad v => exact h.posLoad v
  case posClear v => exact h.posClear v
  case triggerEmit v => exact h.triggerEmit v
  case tripConfig v => exact h.tripConfig v
  case tripAssert v => exact h.tripAssert v
  case tripClear v => exact h.tripClear v
  case jobCopy v => exact h.jobRequest _ _
  case jobCheck v => exact h.jobRequest _ _
  case jobAbort v => exact h.jobAbort v
  case noticePop v => exact h.noticePop v
  case driveEn | tbRun | noticeIrqEn => exact h.hostAccess (h.controlWrite _ _ _)
  case softReset => exact h.softReset
  case tbDivPreWrite setting v => exact h.tbDivPreWrite setting v
  case tbCountWrite v => exact h.tbCountWrite v
  case resetAssert => exact h.resetAssert
  case resetRelease => exact h.resetRelease
  case clearWrite => exact h.access .clear
  case copyMove => exact h.access .copy
  case checkRead => exact h.access .check
  case entryFetch k => exact h.entryFetch k
  case tick takers => exact h.tick takers
  case dwellExpiry | limitExpiry | pulseEnd => exact h.takeTickWhen _ _
  case inputAcceptedChange n => exact h.acceptedChange (.input n)
  case quadratureChange u c => exact h.acceptedChange (.quadrature u c)
  case tripAcceptedChange n => exact h.acceptedChange (.trip n)
  case edgeEvent | arrival | emission | tripForcing => exact h.taking _ _

/-- No row that is a register write moves a pin. -/
theorem ne_move_of_row {v : Word} {x : BitVec 8 × Instr} (h : x ∈ rowsOfWrites v) (pin : FilteredPin) (level : Bool) :
    x.2 ≠ .presentedLevelChange pin level := by
  revert x
  simp only [rowsOfWrites, List.forall_mem_append, List.forall_mem_cons, List.forall_mem_map, List.not_mem_nil, false_imp_iff,
    implies_true, and_true]
  refine ⟨?_, fun _ _ => nofun⟩
  and_intros
  all_goals nofun

/-- A register write is its row, or a write of CONTROL (R179). -/
theorem State.StepOk.exec (h : s.StepOk) {c : Instr} (hpin : ∀ pin level, c ≠ .presentedLevelChange pin level)
    (ht : exec c s = .next t) : t.StepOk := by
  cases hc : c.wellFormed with
  | true => exact h.exec_of_wellFormed hc hpin ht
  | false =>
    obtain ⟨a, v, rfl, ha⟩ := Instr.of_not_wellFormed hc
    by_cases h1 : a = 0x01#8
    · subst h1
      cases ht
      change (controlRegisterWrite v s).StepOk
      unfold controlRegisterWrite
      split
      · exact h.softReset
      · exact h.hostAccess (h.controlWrite _ _ _)
    · obtain ⟨x, hx, rfl⟩ := exists_row ha h1 v
      exact h.exec_of_wellFormed (wellFormed_of_row hx) (ne_move_of_row hx) ((exec_of_row hx s).symm.trans ht)

theorem State.StepOk.doDue (h : s.StepOk) (d : Due) : (doDue s d).StepOk := by
  cases d with
  | fetch k => exact h.entryFetch k
  | access kind => cases kind <;> exact h.access _
  | input n => exact h.acceptedChange (.input n)
  | quadrature u c => exact h.acceptedChange (.quadrature u c)
  | trip n => exact h.acceptedChange (.trip n)
  | tick => exact h.tick 0
  | period => exact ⟨h.clocks.elapse 1, h.outbox⟩

theorem State.StepOk.idle (h : s.StepOk) : (idle s).StepOk := by
  unfold Machine.idle
  split
  · exact h
  · split
    · exact ⟨h.clocks.blocks (sansWalk_drain s), settle_outbox _ _ _ h.outbox⟩
    · split
      · exact h
      · rename_i d ds _
        have hs : (choose d ds s).2.StepOk := by
          obtain heq | heq := (choose_spec d ds s).2 <;> rw [heq]
          · exact h
          · exact h.congr rfl rfl
        exact hs.doDue _

/-- The command at the front is taken from the queue where the moves that have fallen are next in what is left. -/
theorem State.StepOk.popped (h : s.StepOk) {rest : List Instr} (he : s.early <+: frontMoves rest) :
    ({ s with pending := rest } : State).StepOk :=
  ⟨⟨h.clocks.timebase, h.clocks.inputs, h.clocks.units, h.clocks.trips, he⟩, h.outbox⟩

theorem frontMoves_of_no_move {c : Instr} (hpin : ∀ pin level, c ≠ .presentedLevelChange pin level) (rest : List Instr) :
    frontMoves (c :: rest) = [] := by
  unfold frontMoves
  split
  · rename_i heq
    cases heq
    exact absurd rfl (hpin _ _)
  · rfl

/-- A move at the front of the queue has fallen already, and is the first of those that have, or none has (log 37). -/
theorem State.StepOk.presentedLevelChange (h : s.StepOk) {pin : FilteredPin} {level : Bool} {rest : List Instr}
    (hp : s.pending = .presentedLevelChange pin level :: rest) :
    (presentedLevelChange pin level { s with pending := rest }).StepOk := by
  have hearly := h.clocks.early
  rw [hp, frontMoves] at hearly
  unfold Machine.presentedLevelChange
  split
  · rename_i hnone
    have he : s.early = [] := hnone
    exact (h.popped (he ▸ List.nil_prefix)).takeLevel pin level
  · rename_i move moves hsome
    have he : s.early = move :: moves := hsome
    obtain ⟨hmove, hmoves⟩ := List.cons_prefix_cons.mp (he ▸ hearly)
    rw [if_pos hmove]
    exact ⟨⟨h.clocks.timebase, h.clocks.inputs, h.clocks.units, h.clocks.trips, hmoves⟩, h.outbox⟩

theorem State.StepOk.step (h : s.StepOk) (ht : step s = .next t) : t.StepOk := by
  unfold Machine.step at ht
  split at ht
  · cases ht
    exact h.idle
  · rename_i c rest hp
    by_cases hmove : ∃ pin level, c = .presentedLevelChange pin level
    · obtain ⟨pin, level, rfl⟩ := hmove
      cases ht
      exact h.presentedLevelChange hp
    · have hpin : ∀ pin level, c ≠ .presentedLevelChange pin level := fun pin level hc => hmove ⟨pin, level, hc⟩
      have hearly := h.clocks.early
      rw [hp, frontMoves_of_no_move hpin, List.prefix_nil] at hearly
      exact (h.popped (hearly ▸ List.nil_prefix)).exec hpin ht

/-- Settles O60: `State.StepOk` is kept by every command and by the block on its own. -/
theorem stepKeepsClocksAndFiltersConsistent : Obligations.StepKeepsClocksAndFiltersConsistent := by
  intro s t htimebase hfilters hout hearly ht
  have hs : s.ClocksOk := ⟨htimebase, hfilters.inputs, hfilters.units, hfilters.trips, hearly⟩
  have h : t.StepOk := State.StepOk.step ⟨hs, hout⟩ ht
  exact ⟨h.clocks.timebase, ⟨h.clocks.inputs, h.clocks.units, h.clocks.trips⟩, h.outbox, h.clocks.early⟩

end
end Sys2Proof.Machine

/-! TRIGGER_EMIT (R133, R135): the emissions that the host asks for are the lines of its mask in ascending order, and reach every
lane that does not ignore them. -/

namespace Sys2Proof.Machine

section
variable {s : State}

/-- Whether a lane ignores an event does not depend on what is on its way to it. -/
@[simp] theorem Lane.withComing_ignores (l : Lane) (es : List Event) : (l.withComing es).ignores = l.ignores := rfl

@[simp] theorem Lane.withComing_withComing (l : Lane) (es fs : List Event) :
    (l.withComing es).withComing fs = l.withComing fs := rfl

/-- Events handed out one after another are on their way, in that order, to every lane that does not ignore them. -/
theorem foldl_handToAll (es : List Event) : ∀ s : State,
    es.foldl (fun s e => handToAll e s) s =
      s.onLanes fun _ l => if l.ignores then l else l.withComing (l.coming ++ es) := by
  induction es with
  | nil => exact fun s => (State.onLanes_of_same fun k => by simp [Lane.withComing]).symm
  | cons e es ih =>
    intro s
    rw [List.foldl_cons, ih, handToAll, State.onLanes_onLanes]
    refine congrArg s.onLanes (funext fun _ => funext fun l => ?_)
    cases h : l.ignores <;> simp [h]

theorem handLines_eq (lines : List LaneId) (s : State) :
    handLines lines s =
      s.onLanes fun _ l => if l.ignores then l else l.withComing (l.coming ++ lines.map .emission) := by
  rw [← foldl_handToAll, List.foldl_map]
  rfl

/-- Bits 8–15 of the value written name no line (R135). -/
theorem lanesOf_maskOf (v : Word) : lanesOf (maskOf v) = allLanes.filter fun n : LaneId => v.getLsbD n := by
  refine List.filter_congr fun n _ => ?_
  rw [maskOf, BitVec.getLsbD_setWidth, decide_eq_true n.isLt, Bool.true_and]

theorem lanesOf_zero : lanesOf 0 = [] := by decide

theorem exec_triggerEmit (hs : s.resetLow = false) (ho : s.outbox = []) (v : Word) :
    exec (.triggerEmit v) s = .next (followUp { s with cmdResult := .taken, outbox := lanesOf (maskOf v) }) := by
  refine congrArg _ ((hostAccess_of_resetHigh hs _).trans ?_)
  rw [ho]
  rfl

/-- A mask that names no line makes no emission, so nothing follows (R135). -/
theorem exec_triggerEmit_of_no_line (hs : s.resetLow = false) (ho : s.outbox = []) {v : Word} (hv : maskOf v = 0) :
    exec (.triggerEmit v) s = .next { s with cmdResult := .taken } := by
  rw [exec_triggerEmit hs ho, hv, lanesOf_zero, followUp_of_outbox_nil rfl, ← ho]

/-- Settles O37: the lines are those of the mask (`lanesOf_maskOf`), and what is handed out to each lane is `handLines_eq`. -/
theorem triggerEmitReachesEveryLane : Obligations.TriggerEmitReachesEveryLane := by
  intro v s hs ho lines u
  refine ⟨?_, ?_, fun hv => exec_triggerEmit_of_no_line hs ho ?_⟩
  · rw [exec_triggerEmit hs ho, lanesOf_maskOf]
  · rw [handOut, handLines_eq]
    show _ = { s with cmdResult := .taken, lanes := _ }
    rw [← ho]
    rfl
  · rw [maskOf, BitVec.setWidth_eq_extractLsb' (by decide), hv]

end
end Sys2Proof.Machine

/-! What the lanes' walk keeps of the trip protection: the forcings that lanes keep, the settings that wait for them, and the lanes
that have taken them (R27, R28, R147, R149). -/

namespace Sys2Proof.Machine

/-! ## Properties that speak of the forcings kept, the states of the lanes and the settings that wait -/

/-- The lane is in the same state, with the same events kept, and in the middle of an entry as before or not so as before. -/
structure Lane.SameHold (l l' : Lane) : Prop where
  state : l'.state = l.state
  settled : l'.settled ↔ l.settled
  kept : l'.kept = l.kept

theorem Lane.SameHold.refl (l : Lane) : l.SameHold l := ⟨rfl, .rfl, rfl⟩

theorem Lane.SameHold.withComing (l : Lane) (es : List Event) : l.SameHold (l.withComing es) := ⟨rfl, .rfl, rfl⟩

theorem Lane.SameHold.withResult (l : Lane) (r : Result) : l.SameHold { l with lastResult := r } := ⟨rfl, .rfl, rfl⟩

theorem Lane.SameHold.mapEntry (l : Lane) (f : Entry → Entry) : l.SameHold { l with entry := l.entry.map f } :=
  ⟨rfl, Option.map_eq_none_iff, rfl⟩

/-- A lane that is free is not in the middle of an entry and has kept nothing. -/
theorem Lane.complete_of_free {l : Lane} (h : l.free = true) : l.Complete := by
  simpa [Lane.free, Lane.Complete] using h

/-- A property of the trip sources, the settings that wait, and what `Lane.SameHold` sees of the lanes, that the lanes' walk
keeps. -/
structure WalkInvariant (P : State → Prop) : Prop where
  /-- The property does not see anything else. -/
  congr : ∀ {s t : State}, P s → t.trips = s.trips → t.settings = s.settings → (∀ k, (s.lane k).SameHold (t.lane k)) → P t
  /-- The completion of an entry keeps it. -/
  serveFetch : ∀ {s : State} (k : LaneId), P s → P (serveFetch k s)
  /-- The taking of an event by a lane that is free keeps it. -/
  takeEvent : ∀ {s : State} {k : LaneId} (e : Event), (s.lane k).Complete → P s → P (takeEvent k e s)
  /-- The taking of the oldest event kept, once the entry is complete, keeps it. -/
  takeKept : ∀ {s : State} {k : LaneId} {e : Event} {es : List Event}, (s.lane k).settled → (s.lane k).kept = e :: es → P s →
    P (Machine.takeEvent k e (s.onLane k Lane.dropKept))
  /-- A lane may keep one event more. -/
  keep : ∀ {s : State} (k : LaneId) (e : Event), P s → P (s.onLane k fun l => { l with kept := l.kept ++ [e] })

/-- A property that the service of any fetch keeps, and the taking of the oldest event kept by a lane not in the middle of an
entry, is kept when a lane completes what it is in the middle of (R28). -/
theorem completeLane_induct_of_kept {P : State → Prop} {s : State} {k : LaneId} (hf : ∀ s j, P s → P (serveFetch j s))
    (ht : ∀ s e es, (s.lane k).settled → (s.lane k).kept = e :: es → P s → P (takeEvent k e (s.onLane k Lane.dropKept)))
    (h : P s) : P (completeLane k s) := by
  have key : ∀ (es : List Event) (s : State), (s.lane k).settled → (s.lane k).kept = es → P s →
      P (es.foldl (fun s e => serveInTurn k (takeEvent k e (s.onLane k Lane.dropKept))) s) := by
    intro es
    induction es with
    | nil => exact fun _ _ _ h => h
    | cons e es ih =>
      intro s hs hk h
      have hset : ((s.onLane k Lane.dropKept).lane k).settled := by simpa [Lane.settled, Lane.dropKept] using hs
      rw [List.foldl_cons]
      refine ih _ (serveInTurn_settled _ _) ?_ (serveInTurn_induct hf (ht s e es hs hk h))
      rw [serveInTurn_kept]
      exact (takeEvent_follows hset e).kept.trans (by simp [Lane.dropKept, hk])
  exact key _ _ (serveInTurn_settled k s) rfl (serveInTurn_induct hf h)

section
variable {P : State → Prop} {s t : State} (h : WalkInvariant P)
include h

/-- A change outside the lanes, the trip sources and the settings. -/
theorem WalkInvariant.outside (hs : P s) (ht : t.trips = s.trips) (hx : t.settings = s.settings) (hl : t.lanes = s.lanes) :
    P t :=
  h.congr hs ht hx fun k => by
    have hk : t.lane k = s.lane k := by simp [State.lane, hl]
    exact hk ▸ .refl _

theorem WalkInvariant.onLane {k : LaneId} {f : Lane → Lane} (hf : (s.lane k).SameHold (f (s.lane k))) (hs : P s) :
    P (s.onLane k f) := by
  refine h.congr hs rfl rfl fun j => ?_
  rw [State.lane_onLane]
  split
  · rename_i hj
    exact hj ▸ hf
  · exact .refl _

theorem WalkInvariant.withComing (k : LaneId) (f : Lane → List Event) (hs : P s) :
    P (s.onLane k fun l => l.withComing (f l)) := h.onLane (.withComing _ _) hs

theorem WalkInvariant.handToAll (e : Event) (hs : P s) : P (handToAll e s) :=
  h.congr hs rfl rfl fun k => by
    rw [lane_handToAll]
    split
    · exact .refl _
    · exact .withComing _ _

theorem WalkInvariant.handOut (hs : P s) : P (handOut s) :=
  List.foldlRecOn _ _ (h.outside hs rfl rfl rfl) fun _ hs _ _ => h.handToAll _ hs

theorem WalkInvariant.reach (k : LaneId) (e : Event) (hs : P s) : P (reach k e s) := by
  unfold Machine.reach
  split
  · rename_i hf
    exact h.takeEvent e (Lane.complete_of_free hf) hs
  · exact h.keep k e hs

theorem WalkInvariant.takeNext (k : LaneId) (e : Event) (hs : P s) : P (takeNext k e s) := by
  simp only [Machine.takeNext]
  split
  · rename_i he hk
    split
    · rename_i heq
      exact h.takeKept he (heq ▸ hk) hs
    · exact hs
  · split
    · exact h.reach k e (h.withComing k (fun l => l.coming.erase e) hs)
    · exact hs

theorem WalkInvariant.deliver (k : LaneId) (e : Event) (hs : P s) : P (deliver k e s) := h.handOut (h.takeNext k e hs)

/-- What an act does with its notices withheld. -/
theorem WalkInvariant.withheld {act : State → State} (ha : ∀ s, P s → P (act s)) (hs : P s) : P (withheld act s).1 :=
  h.outside (ha _ (h.outside (t := s.withNotices [] []) hs rfl rfl rfl)) rfl rfl rfl

theorem WalkInvariant.takeTickApart (k : LaneId) (hs : P s) : P (takeTickApart k s) := by
  have ht := h.withheld (fun _ hs => h.takeNext k .tick hs) hs
  unfold Machine.takeTickApart
  rw [State.raiseApart_frame]
  exact h.outside ht rfl rfl rfl

theorem WalkInvariant.serveFetchApart (k : LaneId) (hs : P s) : P (serveFetchApart k s) :=
  h.outside (h.withheld (fun _ hs => h.serveFetch k hs) hs) rfl rfl rfl

theorem WalkInvariant.doWork (w : Work) (hs : P s) : P (doWork s w) := by
  unfold Machine.doWork
  split
  · exact h.serveFetch _ hs
  · exact h.takeTickApart _ hs
  · exact h.takeNext _ _ hs
  · rw [State.arriveNext_frame]
    exact h.outside hs rfl rfl rfl

theorem WalkInvariant.drain (hs : P s) : P (drain s) :=
  settle_induct (P := P) false (fun _ hs => h.outside hs rfl rfl rfl) (fun _ _ w _ hs => h.handOut (h.doWork w hs)) _ _ s hs

theorem WalkInvariant.completeLane (k : LaneId) (hs : P s) : P (completeLane k s) :=
  completeLane_induct_of_kept (fun _ j hs => h.serveFetch j hs) (fun _ _ _ he hk hs => h.takeKept he hk hs) hs

theorem WalkInvariant.completeLanes (mask : LaneMask) (hs : P s) : P (completeLanes mask s) :=
  List.foldlRecOn allLanes _ hs fun _ hs k _ => by
    split
    · exact h.completeLane k hs
    · exact hs

end

section
variable {s t : State} {k : LaneId}

/-- The handing out of a tick. -/
theorem WalkInvariant.handTick {P : State → Prop} (h : WalkInvariant P) (takers : LaneMask) (k : LaneId) (hs : P s) :
    P (handTick takers s k) := by
  unfold Machine.handTick
  split
  · exact h.reach k .tick hs
  · exact h.withComing k (fun l => l.coming ++ [.tick]) hs

/-! ## Settings wait for forcings that are kept (R147) -/

/-- The setting of source n's latch waits for lane k. -/
def Setting.waitsFor (n : SourceId) (k : LaneId) (x : Setting) : Bool := x.source == n && x.left.getLsbD k

theorem State.settingsWait_iff :
    s.SettingsWait ↔ ∀ n k, s.settings.countP (Setting.waitsFor n k) ≤ (s.lane k).kept.count (.forcing n) := by
  simp only [State.SettingsWait, List.count, List.countP_eq_length_filter]
  rfl

/-- Of the settings of source n that wait for lane k one waits no more, and of the others each waits as before. -/
theorem noteForcing_countP (n m : SourceId) (k j : LaneId) (moved : Bool) (l : List Setting) :
    (noteForcing n k moved l).countP (Setting.waitsFor m j) =
      l.countP (Setting.waitsFor m j) - if m = n ∧ j = k then 1 else 0 := by
  induction l with
  | nil => simp [noteForcing]
  | cons x l ih =>
    unfold noteForcing
    split
    · rename_i hx
      obtain ⟨hsource, hleft⟩ : x.source = n ∧ x.left.getLsbD k = true := by simpa using hx
      simp only [List.countP_cons, Setting.waitsFor, getLsbD_without, hsource]
      by_cases hm : m = n
      · by_cases hj : j = k
        · subst hj
          simp [hm, hleft]
        · simp [hj]
      · simp [Ne.symm hm, hm]
    · rename_i hx
      rw [List.countP_cons, List.countP_cons, ih]
      by_cases hmj : m = n ∧ j = k
      · obtain ⟨rfl, rfl⟩ := hmj
        have hno : Setting.waitsFor m j x = false := by simpa [Setting.waitsFor] using hx
        simp [hno]
      · simp [hmj]

/-- An act changes no setting. -/
theorem State.withAct_settings (s : State) (k : LaneId) (a : Act) : (s.withAct k a).settings = s.settings := by
  rw [State.withAct_frame]
  rfl

theorem serveFetch_settings (k : LaneId) (s : State) : (serveFetch k s).settings = s.settings := by
  cases he : (s.lane k).entry with
  | none => rw [serveFetch_of_settled he]
  | some e => rw [serveFetch_eq he, State.withAct_settings]

theorem takeForcing_settings (k : LaneId) (n : SourceId) (s : State) :
    (takeForcing k n s).settings =
      (noteForcing n k (s.lane k).state.forcible.isSome s.settings).dropWhile Setting.complete := by
  rw [takeForcing_eq, State.raiseTripNotices_frame]
  rfl

/-- By the taking of a forcing one setting fewer of its source waits for the lane, if there was one. -/
theorem takeEvent_countP (hs : (s.lane k).settled) (e : Event) (m : SourceId) (j : LaneId) :
    (takeEvent k e s).settings.countP (Setting.waitsFor m j) ≤
      s.settings.countP (Setting.waitsFor m j) - if e = .forcing m ∧ j = k then 1 else 0 := by
  cases e with
  | tick => simp [takeEvent, takeTick_eq, State.withAct_settings]
  | edge n e => simp [takeEvent, takeEdge_eq hs, State.withAct_settings]
  | arrival u v d => simp [takeEvent, takeArrival_eq, State.withAct_settings]
  | emission line => simp [takeEvent, takeEmission_eq hs, State.withAct_settings]
  | forcing n =>
    rw [takeEvent, takeForcing_settings]
    refine ((List.dropWhile_sublist _).countP_le).trans ?_
    rw [noteForcing_countP]
    simp only [Event.forcing.injEq, eq_comm, le_refl]

/-- The settings and the events kept by one lane change, and those kept by the others stay. -/
theorem State.SettingsWait.onlyLane (ht : OnlyLane k t s) (hk : ∀ n,
      t.settings.countP (Setting.waitsFor n k) ≤ (t.lane k).kept.count (.forcing n))
    (hj : ∀ n j, t.settings.countP (Setting.waitsFor n j) ≤ s.settings.countP (Setting.waitsFor n j)) (h : s.SettingsWait) :
    t.SettingsWait := by
  rw [State.settingsWait_iff] at h ⊢
  intro n j
  by_cases hjk : j = k
  · exact hjk ▸ hk n
  · rw [ht.others j hjk]
    exact (hj n j).trans (h n j)

theorem settingsWait_invariant : WalkInvariant State.SettingsWait where
  congr h _ hx hl n k := by
    rw [hx, (hl k).kept]
    exact h n k
  serveFetch {s} k h := by
    have hk := State.settingsWait_iff.mp h
    refine h.onlyLane OnlyLane.rfl.serveFetch (fun n => ?_) fun n j => ?_
    · rw [serveFetch_settings, serveFetch_kept]
      exact hk n k
    · rw [serveFetch_settings]
  takeEvent {s k} e hc h := by
    have hcount (n : SourceId) (j : LaneId) := (takeEvent_countP hc.1 e n j).trans (Nat.sub_le _ _)
    refine h.onlyLane (OnlyLane.rfl.takeEvent e) (fun n => ?_) hcount
    rw [show ((Machine.takeEvent k e s).lane k).kept = _ from (takeEvent_follows hc.1 e).kept]
    exact (hcount n k).trans (State.settingsWait_iff.mp h n k)
  takeKept {s k e es} hset hkept h := by
    have hdrop : ((s.onLane k Lane.dropKept).lane k).settled := by simpa [Lane.settled, Lane.dropKept] using hset
    have hcount (n : SourceId) (j : LaneId) := takeEvent_countP hdrop e n j
    refine h.onlyLane ((OnlyLane.rfl.onLane _).takeEvent e) (fun n => ?_) fun n j => (hcount n j).trans (Nat.sub_le _ _)
    have hes : ((Machine.takeEvent k e (s.onLane k Lane.dropKept)).lane k).kept = es :=
      (takeEvent_follows hdrop e).kept.trans (by simp [Lane.dropKept, hkept])
    have hs := State.settingsWait_iff.mp h n k
    have hn := hcount n k
    rw [hkept, List.count_cons] at hs
    rw [State.onLane_settings] at hn
    rw [hes]
    by_cases he : e = .forcing n
    · subst he
      simp only [and_self, if_true, beq_self_eq_true] at hn hs
      omega
    · simp only [he, false_and, if_false, beq_iff_eq] at hn hs
      omega
  keep {s} k e h := by
    refine h.onlyLane (OnlyLane.rfl.onLane _) (fun n => ?_) fun _ _ => le_rfl
    rw [State.lane_onLane_self, List.count_append]
    exact (State.settingsWait_iff.mp h n k).trans (Nat.le_add_right _ _)

/-! ## Lanes that a set latch covers (R149) -/

/-- The lane is not in the middle of an entry, and is IDLE or TRIPPED: no event moves it. -/
def Lane.Passive (l : Lane) : Prop := l.settled ∧ (l.state = .idle ∨ l.state = .tripped)

/-- The lane keeps the forcing of source n until its entry is complete, or is where a forcing leaves a lane. -/
def Lane.Yields (l : Lane) (n : SourceId) : Prop := Event.forcing n ∈ l.kept ∨ l.Passive

theorem State.tripsHold_iff :
    s.TripsHold ↔ ∀ (n : SourceId) (k : LaneId), s.trips[n.val].latch = true → s.trips[n.val].scope.getLsbD k = true →
      (s.lane k).Yields n := Iff.rfl

theorem Lane.SameHold.yields {l l' : Lane} {n : SourceId} (h : l.SameHold l') (hl : l.Yields n) : l'.Yields n := by
  unfold Lane.Yields Lane.Passive at hl ⊢
  rwa [h.kept, h.settled, h.state]

/-- A forced lane is IDLE or TRIPPED (R27). -/
theorem Lane.force_state (l : Lane) : l.force.state = .idle ∨ l.force.state = .tripped := by
  by_cases h : l.state ≠ .idle ∧ l.state ≠ .tripped
  · rw [Lane.force_of_moved h]
    exact .inr rfl
  · rw [Lane.force_of_unmoved h]
    tauto

theorem Lane.force_passive {l : Lane} (h : l.settled) : l.force.Passive := by
  refine ⟨?_, l.force_state⟩
  unfold Lane.force
  split <;> exact h

/-- A passive lane takes an event without a change (R26, R27). -/
theorem lane_takeEvent_of_passive (h : (s.lane k).Passive) (e : Event) : (takeEvent k e s).lane k = s.lane k := by
  obtain ⟨-, hst | hst⟩ := h
  · exact lane_takeEvent_of_idle hst e k
  · cases e with
    | forcing n => simp [takeEvent, Lane.force, LaneState.forcible, hst]
    | tick => simp [takeEvent, takeTick, hst]
    | edge n e => simp [takeEvent, takeEdge, Lane.countsEdge, Lane.takesConditions, hst]
    | arrival u v d => simp [takeEvent, takeArrival, Lane.awaitsArrival, Lane.takesConditions, hst]
    | emission line => simp [takeEvent, takeEmission, Lane.awaitsEmission, Lane.takesConditions, hst]

/-- A lane that takes an event yields to a latch as before, and to the one whose forcing it takes. -/
theorem takeEvent_yields (hs : (s.lane k).settled) {e : Event} {n : SourceId} (h : (s.lane k).Yields n ∨ e = .forcing n) :
    ((takeEvent k e s).lane k).Yields n := by
  rcases h with (hkept | hpassive) | rfl
  · exact .inl ((takeEvent_follows hs e).kept.symm ▸ hkept)
  · rw [lane_takeEvent_of_passive hpassive]
    exact .inr hpassive
  · rw [takeEvent, lane_takeForcing]
    exact .inr (Lane.force_passive hs)

/-- One lane changes, and goes on yielding to every latch that covers it. -/
theorem State.TripsHold.onlyLane (h : s.TripsHold) (ht : OnlyLane k t s)
    (hk : ∀ n : SourceId, s.trips[n.val].latch = true → s.trips[n.val].scope.getLsbD k = true → (s.lane k).Yields n →
      (t.lane k).Yields n) : t.TripsHold := by
  rw [State.tripsHold_iff] at h ⊢
  rw [SameBlocks.trips ht.blocks]
  intro n j hlatch hscope
  by_cases hj : j = k
  · subst hj
    exact hk n hlatch hscope (h n j hlatch hscope)
  · rw [ht.others j hj]
    exact h n j hlatch hscope

theorem tripsHold_invariant : WalkInvariant State.TripsHold where
  congr h htrips _ hl := by
    rw [State.tripsHold_iff] at h ⊢
    rw [htrips]
    exact fun n k hlatch hscope => (hl k).yields (h n k hlatch hscope)
  serveFetch {s} k h := h.onlyLane OnlyLane.rfl.serveFetch fun n _ _ hn => by
    rcases hn with hkept | hpassive
    · exact .inl ((serveFetch_kept k s).symm ▸ hkept)
    · rw [serveFetch_of_settled hpassive.1]
      exact .inr hpassive
  takeEvent e hc h := h.onlyLane (OnlyLane.rfl.takeEvent e) fun _ _ _ hn => takeEvent_yields hc.1 (.inl hn)
  takeKept {s k e es} hset hkept h := h.onlyLane ((OnlyLane.rfl.onLane _).takeEvent e) fun n _ _ hn => by
    have hdrop : ((s.onLane k Lane.dropKept).lane k).settled := by simpa [Lane.settled, Lane.dropKept] using hset
    refine takeEvent_yields hdrop ?_
    rw [State.lane_onLane_self]
    rcases hn with hmem | hpassive
    · rw [hkept, List.mem_cons] at hmem
      refine hmem.symm.imp (fun htail => .inl ?_) Eq.symm
      simpa [Lane.dropKept, hkept] using htail
    · exact .inl (.inr hpassive)
  keep k e h := h.onlyLane (OnlyLane.rfl.onLane _) fun n _ _ hn => by
    rw [State.lane_onLane_self]
    exact hn.imp (fun hmem => List.mem_append_left _ hmem) id

end
end Sys2Proof.Machine

/-! The trip protection as a whole (R142, R145, R147, R149): what the lanes' walk, the core clock, the pins and the setting of a
latch keep of it. -/

namespace Sys2Proof.Machine

section
variable {s t : State} {k : LaneId} {n : SourceId}

/-- Every lane that a set latch covers is where a forcing leaves a lane, or keeps the forcing; the settings wait for forcings that
are kept; and the latches are those of enabled sources, of every pin source that is active among them. -/
structure State.TripSafe (s : State) : Prop where
  holds : s.TripsHold
  waits : s.SettingsWait
  latches : s.LatchesOk

/-! ## Updates of the state -/

/-- What the protection has of a trip source. -/
def TripSource.guard (t : TripSource) : Bool × LaneMask × Bool × Bool := (t.enable, t.scope, t.latch, t.active)

theorem State.TripsHold.congr (h : s.TripsHold) (ht : ∀ n : SourceId, t.trips[n.val].guard = s.trips[n.val].guard)
    (hl : ∀ k, (s.lane k).SameHold (t.lane k)) : t.TripsHold := by
  intro n k hlatch hscope
  have hn := ht n
  simp only [TripSource.guard, Prod.mk.injEq] at hn
  obtain ⟨-, hsc, hla, -⟩ := hn
  exact (hl k).yields (h n k (hla ▸ hlatch) (hsc ▸ hscope))

theorem State.LatchesOk.congr (h : s.LatchesOk) (ht : ∀ n : SourceId, t.trips[n.val].guard = s.trips[n.val].guard) :
    t.LatchesOk := by
  simp only [TripSource.guard, Prod.mk.injEq] at ht
  refine ⟨fun n hlatch => ?_, fun n hsw henable hactive => ?_⟩ <;> obtain ⟨hen, -, hla, hac⟩ := ht n
  · exact hen ▸ h.enabled n (hla ▸ hlatch)
  · exact hla ▸ h.active_latched n hsw (hen ▸ henable) (hac ▸ hactive)

theorem State.TripSafe.congr (h : s.TripSafe) (ht : ∀ n : SourceId, t.trips[n.val].guard = s.trips[n.val].guard)
    (hx : t.settings = s.settings) (hl : ∀ k, (s.lane k).SameHold (t.lane k)) : t.TripSafe :=
  ⟨h.holds.congr ht hl, fun n k => by rw [hx, (hl k).kept]; exact h.waits n k, h.latches.congr ht⟩

/-- A change of the lanes that the protection does not see, and outside the lanes, the trip sources and the settings. -/
theorem State.TripSafe.lanes (h : s.TripSafe) (ht : t.trips = s.trips) (hx : t.settings = s.settings)
    (hl : ∀ k, (s.lane k).SameHold (t.lane k)) : t.TripSafe := h.congr (fun _ => by rw [ht]) hx hl

/-- A change outside the lanes, the trip sources and the settings. -/
theorem State.TripSafe.outside (h : s.TripSafe) (ht : t.trips = s.trips) (hx : t.settings = s.settings)
    (hl : t.lanes = s.lanes) : t.TripSafe :=
  h.lanes ht hx fun k => by
    have hk : t.lane k = s.lane k := by simp [State.lane, hl]
    exact hk ▸ .refl _

/-- What the lanes' walk keeps, and what it leaves as it is. -/
theorem State.TripSafe.walk (h : s.TripSafe) (hb : SameBlocks t s) (hw : ∀ {P : State → Prop}, WalkInvariant P → P s → P t) :
    t.TripSafe :=
  ⟨hw tripsHold_invariant h.holds, hw settingsWait_invariant h.waits, h.latches.congr fun _ => by rw [hb.trips]⟩

theorem State.TripSafe.handToAll (h : s.TripSafe) (e : Event) : (handToAll e s).TripSafe :=
  h.walk (sansWalk_handToAll s e) fun hP => hP.handToAll e

theorem State.TripSafe.handOut (h : s.TripSafe) : (handOut s).TripSafe := h.walk (sansWalk_handOut s) fun hP => hP.handOut

theorem State.TripSafe.deliver (h : s.TripSafe) (k : LaneId) (e : Event) : (deliver k e s).TripSafe :=
  h.walk (sansWalk_deliver s k e) fun hP => hP.deliver k e

theorem State.TripSafe.serveFetch (h : s.TripSafe) (k : LaneId) : (serveFetch k s).TripSafe :=
  h.walk (sansWalk_serveFetch s k) fun hP => hP.serveFetch k

theorem State.TripSafe.serveFetchApart (h : s.TripSafe) (k : LaneId) : (serveFetchApart k s).TripSafe :=
  h.walk (sansWalk_withheld s fun t => sansWalk_serveFetch t k) fun hP => hP.serveFetchApart k

theorem State.TripSafe.doWork (h : s.TripSafe) (w : Work) : (doWork s w).TripSafe :=
  h.walk (sansWalk_doWork s w) fun hP => hP.doWork w

theorem State.TripSafe.drain (h : s.TripSafe) : (drain s).TripSafe := h.walk (sansWalk_drain s) fun hP => hP.drain

theorem State.TripSafe.completeLane (h : s.TripSafe) (k : LaneId) : (completeLane k s).TripSafe :=
  h.walk (sansWalk_completeLane s k) fun hP => hP.completeLane k

theorem State.TripSafe.completeLanes (h : s.TripSafe) (mask : LaneMask) : (completeLanes mask s).TripSafe :=
  h.walk (sansWalk_completeLanes s mask) fun hP => hP.completeLanes mask

/-! ## The setting of a latch (R147) -/

theorem State.latched_trips (s : State) (n : SourceId) :
    (s.latched n).trips = s.trips.set n.val { s.trips[n.val] with latch := true } := by
  rw [State.latched, State.raiseTripNotices_frame]

theorem State.latched_lane (s : State) (n : SourceId) (k : LaneId) :
    (s.latched n).lane k =
      if s.trips[n.val].scope.getLsbD k && (s.lane k).free then (s.lane k).force
      else if s.trips[n.val].scope.getLsbD k then { s.lane k with kept := (s.lane k).kept ++ [.forcing n] }
      else s.lane k := by
  rw [State.latched, State.raiseTripNotices_lane]
  exact Vector.getElem_ofFn _

/-- One setting more waits for the lanes in scope that are in the middle of an entry. -/
theorem State.latched_countP (s : State) (n m : SourceId) (k : LaneId) :
    (s.latched n).settings.countP (Setting.waitsFor m k) ≤ s.settings.countP (Setting.waitsFor m k) +
      if n = m ∧ s.trips[n.val].scope.getLsbD k = true ∧ (s.lane k).free = false then 1 else 0 := by
  rw [State.latched, State.raiseTripNotices_frame]
  refine ((List.dropWhile_sublist _).countP_le).trans ?_
  simp only [List.countP_append, List.countP_singleton, Setting.waitsFor, getLsbD_ofLanes, Bool.and_eq_true, beq_iff_eq,
    Bool.not_eq_true', le_refl]

theorem State.SettingsWait.latched (h : s.SettingsWait) (n : SourceId) : (s.latched n).SettingsWait := by
  rw [State.settingsWait_iff] at h ⊢
  intro m k
  refine (s.latched_countP n m k).trans ?_
  have hk := h m k
  rw [State.latched_lane]
  cases hscope : s.trips[n.val].scope.getLsbD k with
  | false => simpa only [Bool.false_and, Bool.false_eq_true, if_false, false_and, and_false, Nat.add_zero] using hk
  | true =>
    cases hfree : (s.lane k).free with
    | true =>
      have hkept : (s.lane k).force.kept = (s.lane k).kept := (Lane.force_follows (Lane.complete_of_free hfree).1).kept
      simpa only [Bool.and_self, if_true, hkept, Bool.true_eq_false, and_false, if_false, Nat.add_zero] using hk
    | false =>
      simp only [Bool.and_false, Bool.false_eq_true, if_true, if_false, and_true, List.count_append, List.count_singleton,
        beq_iff_eq, Event.forcing.injEq]
      omega

/-- A latch that sets is taken or kept by every lane in its scope, and the other latches hold as before (R149). -/
theorem State.TripsHold.latched (h : s.TripsHold) (n : SourceId) : (s.latched n).TripsHold := by
  rw [State.tripsHold_iff] at h ⊢
  intro m k hlatch hscope
  rw [State.latched_trips, Vector.getElem_set] at hlatch hscope
  rw [State.latched_lane]
  have hbefore : n ≠ m → (s.lane k).Yields m := fun hne => by
    have hval : n.val ≠ m.val := fun e => hne (Fin.ext e)
    rw [if_neg hval] at hlatch hscope
    exact h m k hlatch hscope
  split
  · rename_i hforced
    simp only [Bool.and_eq_true] at hforced
    exact .inr (Lane.force_passive (Lane.complete_of_free hforced.2).1)
  · by_cases hnm : n = m
    · subst hnm
      have hin : s.trips[n.val].scope.getLsbD k = true := by simpa using hscope
      rw [if_pos hin]
      exact .inl (by simp)
    · split
      · exact (hbefore hnm).imp (List.mem_append_left _) id
      · exact hbefore hnm

/-- Set latches belong to enabled sources, and every pin source but this one that is enabled and active has its latch set. -/
structure State.LatchesOkBut (s : State) (n : SourceId) : Prop where
  enabled : ∀ m : SourceId, s.trips[m.val].latch = true → s.trips[m.val].enable = true
  active_latched : ∀ m : SourceId, m ≠ n → m ≠ swSource → s.trips[m.val].enable = true → s.trips[m.val].active = true →
    s.trips[m.val].latch = true

theorem State.LatchesOk.but (h : s.LatchesOk) (n : SourceId) : s.LatchesOkBut n := ⟨h.enabled, fun m _ => h.active_latched m⟩

theorem State.LatchesOkBut.whole (h : s.LatchesOkBut n)
    (hn : n ≠ swSource → s.trips[n.val].enable = true → s.trips[n.val].active = true → s.trips[n.val].latch = true) :
    s.LatchesOk := by
  refine ⟨h.enabled, fun m => ?_⟩
  by_cases hm : m = n
  · exact hm ▸ hn
  · exact h.active_latched m hm

/-- A source changes, and has its latch set after the change only where it is then enabled. -/
theorem State.LatchesOk.onTrip (h : s.LatchesOk) {f : TripSource → TripSource}
    (hf : (f s.trips[n.val]).latch = true → (f s.trips[n.val]).enable = true) : (s.onTrip n f).LatchesOkBut n := by
  refine ⟨fun m => ?_, fun m hm => ?_⟩ <;> simp only [State.onTrip, Vector.getElem_set]
  · split
    · exact hf
    · exact h.enabled m
  · rw [if_neg fun e => hm (Fin.ext e.symm)]
    exact h.active_latched m

theorem State.LatchesOkBut.latched (h : s.LatchesOkBut n) (hn : s.trips[n.val].enable = true) : (s.latched n).LatchesOk := by
  refine ⟨fun m => ?_, fun m hsw => ?_⟩ <;> rw [State.latched_trips, Vector.getElem_set]
  · split
    · exact fun _ => hn
    · exact h.enabled m
  · split
    · exact fun _ _ => rfl
    · rename_i hne
      exact h.active_latched m (fun e => hne (congrArg Fin.val e.symm)) hsw

/-- The latch of an enabled source is set. -/
theorem State.LatchesOkBut.setLatch_tripSafe (h : s.LatchesOkBut n) (hh : s.TripsHold) (hw : s.SettingsWait)
    (hn : s.trips[n.val].enable = true) : (setLatch n s).TripSafe := by
  rw [setLatch_eq_latched hw]
  exact ⟨hh.latched n, hw.latched n, h.latched hn⟩

/-- A source changes whose latch is set after the change only where it was set before, over the same lanes. -/
theorem State.TripsHold.onTrip (h : s.TripsHold) {f : TripSource → TripSource}
    (hf : (f s.trips[n.val]).latch = true →
      s.trips[n.val].latch = true ∧ (f s.trips[n.val]).scope = s.trips[n.val].scope) : (s.onTrip n f).TripsHold := by
  intro m k
  simp only [State.onTrip, Vector.getElem_set]
  split
  · rename_i hm
    obtain rfl := Fin.ext hm
    intro hlatch hscope
    obtain ⟨hbefore, hsame⟩ := hf hlatch
    exact h n k hbefore (hsame ▸ hscope)
  · exact h m k

/-- The accepted level of a source reverses, and its acceptance ends (R144). -/
def TripSource.reversed (t : TripSource) : TripSource := { t with active := !t.active, acceptance := none }

/-- The accepted change of a trip pin: the level reverses, and a change to active of an enabled source whose latch is clear sets
the latch (R144, R145). -/
theorem acceptTrip_eq (n : SourceId) (s : State) :
    acceptTrip n s =
      if s.trips[n.val].active = false ∧ s.trips[n.val].enable = true ∧ s.trips[n.val].latch = false then
        setLatch n (s.markCompared.onTrip n TripSource.reversed)
      else s.markCompared.onTrip n TripSource.reversed := by
  unfold acceptTrip
  dsimp only
  refine if_congr ?_ rfl rfl
  simp only [State.onTrip_self, State.markCompared_trips, Bool.and_eq_true, Bool.not_eq_true', and_assoc]

theorem State.TripSafe.acceptTrip (h : s.TripSafe) (n : SourceId) : (acceptTrip n s).TripSafe := by
  have hs : s.markCompared.TripSafe := h.outside rfl rfl rfl
  have hbut : (s.markCompared.onTrip n TripSource.reversed).LatchesOkBut n := hs.latches.onTrip (h.latches.enabled n)
  have hholds : (s.markCompared.onTrip n TripSource.reversed).TripsHold := hs.holds.onTrip fun hlatch => ⟨hlatch, rfl⟩
  have hwaits : (s.markCompared.onTrip n TripSource.reversed).SettingsWait := h.waits
  have htrip := State.onTrip_self s.markCompared n TripSource.reversed
  rw [acceptTrip_eq]
  split
  · rename_i hset
    exact hbut.setLatch_tripSafe hholds hwaits (by rw [htrip]; exact hset.2.1)
  · rename_i hset
    refine ⟨hholds, hwaits, hbut.whole fun _ henable hactive => ?_⟩
    rw [htrip] at henable hactive ⊢
    have hbefore : s.trips[n.val].active = false := by simpa [TripSource.reversed] using hactive
    by_contra hlatch
    exact hset ⟨hbefore, henable, Bool.eq_false_of_not_eq_true hlatch⟩

/-! ## The core clock and the pins -/

theorem elapse_trips (d : Nat) (s : State) (n : SourceId) : (elapse d s).trips[n.val] = s.trips[n.val].pass d := by
  simp only [elapse, Vector.getElem_ofFn]

theorem State.TripSafe.elapse (h : s.TripSafe) (d : Nat) : (elapse d s).TripSafe := by
  refine h.congr (fun n => ?_) (elapse_settings s d) fun k => ?_
  · rw [elapse_trips]
    rfl
  · rw [elapse_lane]
    exact .refl _

theorem State.TripSafe.goOnTo (h : s.TripSafe) (d : Nat) : (goOnTo d s).TripSafe := by
  unfold Machine.goOnTo
  split
  · exact h
  · exact h.drain.elapse d

/-- An event of the core clock keeps the protection when its act does. -/
theorem State.TripSafe.clockEvent (h : s.TripSafe) (lacking : Option Nat) {act : State → State}
    (ha : ∀ s : State, s.TripSafe → (act s).TripSafe) : (clockEvent lacking act s).TripSafe := by
  obtain ⟨he, -⟩ | ⟨d, -, -, -, he⟩ := clockEvent_spec lacking act s <;> rw [he]
  · exact h
  · exact ha _ (h.goOnTo d)

theorem State.TripSafe.acceptInputs (h : s.TripSafe) (ns : List InputId) : (acceptInputs ns s).TripSafe :=
  List.foldlRecOn _ _ (h.outside rfl rfl rfl) fun _ hs _ _ => hs.handToAll _

theorem State.TripSafe.acceptQuadrature (h : s.TripSafe) (u : UnitId) (c : Channel) (both : Bool) :
    (acceptQuadrature u c both s).TripSafe := by
  have hunit (f : PositionUnit → PositionUnit) : (s.markCompared.onUnit u f).TripSafe := h.outside rfl rfl rfl
  simp only [Machine.acceptQuadrature]
  split
  · split
    · exact hunit _
    · exact (hunit PositionUnit.illegal).outside rfl rfl rfl
  · exact (hunit _).handToAll _

theorem State.TripSafe.acceptedChange (h : s.TripSafe) (pin : FilteredPin) : (acceptedChange pin s).TripSafe := by
  cases pin with
  | input n => exact h.clockEvent _ fun _ h => h.acceptInputs _
  | quadrature u c => exact h.clockEvent _ fun _ h => h.acceptQuadrature u c _
  | trip n => exact h.clockEvent _ fun _ h => h.acceptTrip _

theorem State.TripSafe.tick (h : s.TripSafe) (takers : LaneMask) : (tick takers s).TripSafe :=
  h.clockEvent _ fun s h => by
    have hs : State.TripSafe { s with timebase := s.timebase.issue } := h.outside rfl rfl rfl
    exact hs.walk (handTicks_blocks takers _) fun hP hs =>
      hP.handOut (List.foldlRecOn allLanes _ hs fun _ ht k _ => hP.handTick takers k ht)

theorem TripSource.movePin_guard (t : TripSource) (level : Bool) (f : Filtering) : (t.movePin level f).guard = t.guard := by
  simp only [TripSource.movePin]
  (repeat' split) <;> rfl

theorem State.TripSafe.movePin (h : s.TripSafe) (pin : FilteredPin) (level : Bool) : (movePin pin level s).TripSafe := by
  cases pin with
  | input n => exact h.outside rfl rfl rfl
  | quadrature u c => exact h.outside rfl rfl rfl
  | trip n =>
    refine h.congr (fun m => ?_) rfl fun _ => .refl _
    simp only [Machine.movePin, Vector.getElem_set]
    split
    · rename_i hm
      simp only [TripSource.movePin_guard, hm]
    · rfl

theorem State.TripSafe.takeLevel (h : s.TripSafe) (pin : FilteredPin) (level : Bool) : (takeLevel pin level s).TripSafe := by
  unfold Machine.takeLevel
  split
  · exact h
  · refine State.TripSafe.movePin ?_ pin level
    split
    · exact h.acceptedChange pin
    · exact h

theorem State.TripSafe.presentedLevelChange (h : s.TripSafe) (pin : FilteredPin) (level : Bool) :
    (presentedLevelChange pin level s).TripSafe := by
  unfold Machine.presentedLevelChange
  split
  · exact h.takeLevel pin level
  · split
    · exact h.outside rfl rfl rfl
    · exact h.takeLevel pin level

/-! ## What goes on beside a host write -/

theorem State.TripSafe.serveAccess (h : s.TripSafe) : (serveAccess s).TripSafe :=
  h.lanes (by rw [serveAccess_frame]) (by rw [serveAccess_frame]) fun k => by
    rw [serveAccess_lane]
    exact .mapEntry _ _

theorem State.TripSafe.aside (h : s.TripSafe) {act : State → State} (ha : ∀ t : State, t.TripSafe → (act t).TripSafe) :
    (aside act s).TripSafe := (ha (s.withOutbox []) (h.outside rfl rfl rfl)).outside rfl rfl rfl

theorem State.TripSafe.happen (h : s.TripSafe) (x : Happening) : (happen s x).TripSafe := by
  cases x with
  | work w => exact h.aside fun _ ht => (ht.doWork w).handOut
  | access => exact h.serveAccess
  | acceptance pin => exact h.aside fun _ ht => ht.acceptedChange pin
  | tick => exact h.aside fun _ ht => ht.tick 0
  | move pin level =>
    have hs : (s.withEarly (s.early ++ [(pin, level)])).TripSafe := h.outside rfl rfl rfl
    exact hs.aside fun _ ht => ht.takeLevel pin level
  | period => exact h.elapse 1

theorem State.TripSafe.goesOn {but : LaneMask} (h : s.TripSafe) (hg : s.GoesOn but t) : t.TripSafe :=
  hg.induct (fun _ _ h => h.outside rfl rfl rfl) (fun _ x _ h => h.happen x) h

theorem State.TripSafe.interlude (h : s.TripSafe) (but : LaneMask) : (interlude but s).TripSafe :=
  h.goesOn (interlude_goesOn but s)

theorem State.TripSafe.followUp (h : s.TripSafe) : (followUp s).TripSafe :=
  followUp_induct (fun _ _ h => h.outside rfl rfl rfl) (fun _ h => h.handOut) (fun _ x _ h => h.happen x)
    (fun _ w h => h.doWork w) h

/-- The lanes that keep forcings complete their entries, and the notices on their way from the Trip Unit are stored (R148). -/
theorem State.TripSafe.completeSettings (h : s.TripSafe) : (completeSettings s).TripSafe := by
  unfold Machine.completeSettings
  exact State.TripSafe.outside (h.completeLanes _) rfl rfl rfl

/-- A latch set by a host command is set, and what the lanes in the middle of entries keep is completed (R143, R146). -/
theorem State.LatchesOkBut.setLatchNow_tripSafe (h : s.LatchesOkBut n) (hh : s.TripsHold) (hw : s.SettingsWait)
    (hn : s.trips[n.val].enable = true) : (setLatchNow n s).TripSafe := by
  unfold setLatchNow
  exact ((h.setLatch_tripSafe hh hw hn).interlude 0).completeSettings.followUp

end
end Sys2Proof.Machine

/-! Every command, and the block on its own, keep the trip protection (R142, R145, R147, R149). -/

namespace Sys2Proof.Machine

section
variable {s t : State} {k : LaneId} {n : SourceId} {judge : LaneId → State → Judgement}

/-! ## The lane commands -/

/-- A lane that takes a lane command makes an act of its own. -/
theorem LaneJudge.act (hj : LaneJudge judge) (ht : judge k s = .ok t) : ∃ a, t = s.withAct k a := by
  have changes (f : Lane → Lane) : ∃ a, s.onLane k f = s.withAct k a := ⟨_, State.onLane_eq_withAct f⟩
  cases hj with
  | start =>
    simp only [judgeStart] at ht
    split at ht; · cases ht
    split at ht
    · split at ht; · cases ht
      split at ht <;> cases ht
      · exact ⟨_, requestEntry_onLane _ _ _ _ _⟩
      · exact changes _
    · cases ht
  | stop =>
    simp only [judgeStop] at ht
    split at ht; · cases ht
    split at ht <;> cases ht
    · exact ⟨_, installSwap_onLane _ _ _ _ _⟩
    · exact changes _
  | hold =>
    simp only [judgeHold] at ht
    split at ht <;> cases ht
    exact changes _
  | release =>
    simp only [judgeRelease] at ht
    split at ht
    · split at ht <;> cases ht
      · exact ⟨_, advanceIfMet_onLane _ _⟩
      · exact ⟨_, enter_eq _ _ _⟩
    · cases ht
  | reset =>
    cases ht
    exact changes _
  | resume =>
    simp only [judgeResume] at ht
    split at ht
    · split at ht <;> cases ht
      exact ⟨_, resumeEntry_onLane _ _⟩
    · split at ht; · cases ht
      split at ht <;> cases ht
      · exact changes _
      · exact changes _
      · exact changes _
      · exact ⟨_, resumeEntry_onLane _ _⟩
      · exact ⟨_, resumeEntry_onLane _ _⟩
    all_goals cases ht
  | step =>
    simp only [judgeStep] at ht
    split at ht <;> cases ht
    exact ⟨_, advanceIfMet_onLane _ _⟩
  | jump offset =>
    simp only [judgeJump] at ht
    split at ht
    · split at ht <;> cases ht
      exact changes _
    · cases ht
  | load =>
    simp only [judgeLoad] at ht
    split at ht; · cases ht
    split at ht; · cases ht
    split at ht <;> cases ht
    all_goals exact changes _
  | swap =>
    simp only [judgeSwap] at ht
    split at ht; · cases ht
    split at ht; · cases ht
    split at ht <;> cases ht
    exact changes _
  | cancelSwap =>
    simp only [judgeCancelSwap] at ht
    split at ht <;> cases ht
    exact changes _

theorem State.covered_of_latch (hlatch : s.trips[n.val].latch = true) (hscope : s.trips[n.val].scope.getLsbD k = true) :
    s.covered k = true := by
  rw [State.covered, Vector.any_eq_true]
  exact ⟨n.val, n.isLt, by rw [hlatch, hscope]; rfl⟩

theorem Lane.goIdle_passive {l : Lane} (h : l.settled) : l.goIdle.Passive := ⟨h, .inl rfl⟩

/-- A passive lane that a set latch covers is not moved by a command that it takes: it is neither started nor resumed (R31, R38,
R149), and the commands that it takes leave it as it is or return it to IDLE. -/
theorem LaneJudge.passive (hj : LaneJudge judge) (hp : (s.lane k).Passive) (hc : s.covered k = true) (ht : judge k s = .ok t) :
    (t.lane k).Passive := by
  have changes {f : Lane → Lane} (hf : (f (s.lane k)).Passive) : ((s.onLane k f).lane k).Passive := by
    rwa [State.lane_onLane_self]
  obtain ⟨hset, hst⟩ := hp
  have hout {x : LaneState} (hi : x ≠ .idle) (htr : x ≠ .tripped) : (s.lane k).state ≠ x := by
    rintro rfl
    exact hst.elim hi htr
  cases hj with
  | start =>
    simp only [judgeStart, hc, if_true] at ht
    split at ht; · cases ht
    split at ht <;> cases ht
  | stop =>
    have hrefused : (decide ((s.lane k).state = .idle) || decide ((s.lane k).state = .tripped)) = true := by simpa using hst
    simp only [judgeStop, hrefused, if_true] at ht
    cases ht
  | hold =>
    rw [judgeHold, if_neg (hout (x := .running) nofun nofun)] at ht
    cases ht
  | release =>
    simp only [judgeRelease, if_neg (hout (x := .held) nofun nofun)] at ht
    cases ht
  | reset =>
    cases ht
    exact changes (Lane.goIdle_passive hset)
  | resume =>
    simp only [judgeResume, hc, if_true] at ht
    split at ht <;> cases ht
  | step =>
    have hno : (s.lane k).takesConditions = false := by
      simp [Lane.takesConditions, hout (x := .running) nofun nofun, hout (x := .held) nofun nofun]
    simp only [judgeStep, hno, Bool.false_and, Bool.false_eq_true, if_false] at ht
    cases ht
  | jump offset =>
    have hno : (decide ((s.lane k).state = .held) || decide ((s.lane k).state = .faulted)) = false := by
      simp [hout (x := .held) nofun nofun, hout (x := .faulted) nofun nofun]
    simp only [judgeJump, hno, Bool.false_eq_true, if_false] at ht
    cases ht
  | load =>
    simp only [judgeLoad] at ht
    split at ht; · cases ht
    split at ht; · cases ht
    split at ht <;> cases ht
    all_goals exact changes ⟨hset, .inl rfl⟩
  | swap =>
    simp only [judgeSwap] at ht
    split at ht; · cases ht
    split at ht; · cases ht
    split at ht <;> cases ht
    exact changes ⟨hset, hst⟩
  | cancelSwap =>
    simp only [judgeCancelSwap] at ht
    split at ht <;> cases ht
    exact changes ⟨hset, hst⟩

/-- A lane that has completed takes a lane command (R29). -/
theorem State.TripSafe.obeys (h : s.TripSafe) (hj : LaneJudge judge) (hc : (s.lane k).Complete) (ht : judge k s = .ok t) :
    t.TripSafe := by
  have honly := hj.good.only ht
  have hkept : (t.lane k).kept = (s.lane k).kept := (hj.obeys hc.1 ht).kept
  have hsettings : t.settings = s.settings := by
    obtain ⟨a, rfl⟩ := hj.act ht
    exact s.withAct_settings k a
  refine ⟨h.holds.onlyLane honly fun n hlatch hscope hn => ?_, h.waits.onlyLane honly (fun n => ?_) fun n j => ?_,
    h.latches.congr fun n => by rw [SameBlocks.trips honly.blocks]⟩
  · have hpassive : (s.lane k).Passive := hn.resolve_left (by simp [hc.2])
    exact .inr (hj.passive hpassive (State.covered_of_latch hlatch hscope) ht)
  · rw [hsettings, hkept]
    exact State.settingsWait_iff.mp h.waits n k
  · rw [hsettings]

theorem State.TripSafe.judgeLane (h : s.TripSafe) (hj : LaneJudge judge) (k : LaneId) : (judgeLane judge k s).TripSafe := by
  have hv := h.completeLane k
  have hcomplete := completeLane_complete k s
  simp only [Machine.judgeLane]
  generalize Machine.completeLane k s = v at hv hcomplete
  have reported {u : State} (hu : u.TripSafe) (r : Result) : (u.onLane k fun l => { l with lastResult := r }).TripSafe :=
    hu.lanes rfl rfl fun j => by
      rw [State.lane_onLane]
      split
      · rename_i hjk
        exact hjk ▸ .withResult _ r
      · exact .refl _
  split
  · rename_i t ht
    exact reported (hv.obeys hj hcomplete ht) _
  · exact (reported hv _).outside rfl rfl rfl

theorem State.TripSafe.hostAccess (h : s.TripSafe) {act : State → State} (ha : (act s).TripSafe) : (hostAccess act s).TripSafe :=
  hostAccess_keeps (fun _ => ha) h

theorem State.TripSafe.laneCommand (h : s.TripSafe) (hj : LaneJudge judge) (mask : LaneMask) :
    (laneCommand judge mask s).TripSafe := by
  have hs : State.TripSafe { s with cmdRefused := 0 } := h.outside rfl rfl rfl
  exact h.hostAccess (State.TripSafe.followUp (commandLanes_induct (P := State.TripSafe) (fun _ _ h => h.outside rfl rfl rfl)
    (fun _ but h => h.interlude but) (fun _ k h => h.judgeLane hj k) (fun _ k h => h.serveFetchApart k)
    (fun _ _ h => h.outside rfl rfl rfl) mask hs))

/-! ## The other host commands -/

theorem State.TripSafe.report (h : s.TripSafe) (r : Result) : (s.report r).TripSafe := h.outside rfl rfl rfl

theorem State.TripSafe.recordRequest (h : s.TripSafe) (index : Word) {transfer : State → State} (ht : (transfer s).TripSafe) :
    (recordRequest index transfer s).TripSafe := by
  refine h.hostAccess ?_
  split
  · exact h.report _
  · split
    · exact h.report _
    · exact ht.report _

theorem State.TripSafe.lineAssign (h : s.TripSafe) (v : Word) : (lineAssign v s).TripSafe := by
  refine h.hostAccess ?_
  split
  · exact h.report _
  · split <;> exact h.outside rfl rfl rfl

theorem State.TripSafe.lineFree (h : s.TripSafe) (v : Word) : (lineFree v s).TripSafe := by
  refine h.hostAccess ?_
  split <;> exact h.outside rfl rfl rfl

theorem State.TripSafe.triggerEmit (h : s.TripSafe) (v : Word) : (triggerEmit v s).TripSafe := by
  have hs : ((s.withOutbox (s.outbox ++ lanesOf (maskOf v))).report .taken).TripSafe := h.outside rfl rfl rfl
  exact h.hostAccess hs.followUp

theorem State.TripSafe.plainWrite (h : s.TripSafe) (n : Nat) (v : Word) : (plainWrite n v s).TripSafe := by
  rw [plainWrite_frame]
  exact h.outside rfl rfl rfl

theorem State.TripSafe.tbDivPreWrite (h : s.TripSafe) (setting : TimebaseSetting) (v : Word) :
    (tbDivPreWrite setting v s).TripSafe :=
  h.hostAccess (by cases setting <;> exact h.outside rfl rfl rfl)

theorem State.TripSafe.controlWrite (h : s.TripSafe) (drive run irq : Bool) : (controlWrite drive run irq s).TripSafe := by
  unfold Machine.controlWrite State.setDrive
  split
  · have hb : (s.onLanes fun _ => Lane.bridge none).TripSafe := h.lanes rfl rfl fun k => by
      rw [State.lane_onLanes]
      exact .mapEntry _ _
    exact hb.outside rfl rfl rfl
  · exact h.outside rfl rfl rfl

theorem State.TripSafe.jobRequest (h : s.TripSafe) (valid : State → Bool) (job : State → Job) :
    (jobRequest valid job s).TripSafe := by
  refine h.hostAccess ?_
  split
  · exact h.report _
  · split <;> exact h.outside rfl rfl rfl

theorem State.TripSafe.raiseJob (h : s.TripSafe) (o : JobOutcome) : (raiseJob o s).TripSafe := by
  unfold Machine.raiseJob
  split
  · exact h
  · exact h.outside rfl rfl rfl

theorem State.TripSafe.jobAbort (h : s.TripSafe) (v : Word) : (jobAbort v s).TripSafe := by
  refine h.hostAccess ?_
  split
  · split
    · exact h.report _
    · have hs : (({ s with job := { s.job with state := .aborted } } : State).report .taken).TripSafe := h.outside rfl rfl rfl
      exact hs.raiseJob .aborted
  · exact h.report _

theorem State.TripSafe.access (h : s.TripSafe) (kind : JobKind) : (if s.jobRuns kind then Machine.serveAccess s else s).TripSafe := by
  split
  · exact h.serveAccess
  · exact h

theorem State.TripSafe.popOldest (h : s.TripSafe) : (popOldest s).TripSafe := by
  unfold Machine.popOldest
  split <;> exact h.outside rfl rfl rfl

theorem State.TripSafe.noticePop (h : s.TripSafe) (v : Word) : (noticePop v s).TripSafe :=
  h.hostAccess (h.interlude 0).popOldest

/-! ## The Trip Unit -/

theorem State.configured_trip (hn : n ≠ swSource) :
    (s.configured n).trips[n.val] = s.trips[n.val].configurePin s.tripArg0 s.tripArg1 := by
  rw [State.configured, if_neg hn]
  exact State.onTrip_self s n fun t => t.configurePin s.tripArg0 s.tripArg1

/-- The configuration of a source whose latch is clear (R143). -/
theorem State.TripSafe.configured (h : s.TripSafe) (hclear : s.trips[n.val].latch = false) :
    (s.configured n).TripsHold ∧ (s.configured n).LatchesOkBut n := by
  have hsource {f : TripSource → TripSource} (hf : (f s.trips[n.val]).latch = s.trips[n.val].latch) :
      (s.onTrip n f).TripsHold ∧ (s.onTrip n f).LatchesOkBut n := by
    have hno : ¬ (f s.trips[n.val]).latch = true := by simp [hf, hclear]
    exact ⟨h.holds.onTrip fun hl => absurd hl hno, h.latches.onTrip fun hl => absurd hl hno⟩
  unfold State.configured
  split
  · exact hsource rfl
  · obtain ⟨hholds, hbut⟩ := hsource (f := fun t => t.configurePin s.tripArg0 s.tripArg1)
      (by rw [TripSource.configurePin_eq])
    exact ⟨hholds, hbut.enabled, hbut.active_latched⟩

/-- A source whose latch is clear is configured; where it is then enabled and active its latch is still to be set (R143, R145). -/
theorem State.TripSafe.configureTrip (h : s.TripSafe) (hclear : s.trips[n.val].latch = false) : (configureTrip n s).TripSafe := by
  have hwaits := h.waits.configured n
  obtain ⟨hholds, hbut⟩ := h.configured hclear
  rw [configureTrip_eq]
  split
  · rename_i hcond
    obtain ⟨hn, henable, -⟩ := hcond
    exact hbut.setLatchNow_tripSafe hholds hwaits (by rw [State.configured_trip hn]; exact henable)
  · rename_i hcond
    refine ⟨hholds, hwaits, hbut.whole fun hn henable hactive => ?_⟩
    rw [State.configured_trip hn] at henable hactive
    exact absurd ⟨hn, henable, hactive⟩ hcond

theorem State.TripSafe.tripConfig (h : s.TripSafe) (v : Word) : (tripConfig v s).TripSafe := by
  refine h.hostAccess ?_
  dsimp only
  split
  · split
    · exact h.report _
    · rename_i hn hclear
      exact State.TripSafe.configureTrip (n := ⟨_, hn⟩) (h.report _) (by simpa using hclear)
  · exact h.report _

theorem State.TripSafe.tripAssert (h : s.TripSafe) (v : Word) : (tripAssert v s).TripSafe := by
  refine h.hostAccess ?_
  dsimp only
  split
  · exact h.report _
  · rename_i henable
    split
    · exact h.report _
    · have hs := h.report .taken
      exact (hs.latches.but swSource).setLatchNow_tripSafe hs.holds hs.waits (by simpa using henable)

/-- A latch that TRIP_CLEAR leaves set was set, and one that it clears is that of SW or of a source that is not active (R151). -/
theorem State.TripSafe.tripClear (h : s.TripSafe) (v : Word) : (tripClear v s).TripSafe := by
  refine h.hostAccess ⟨fun n k => ?_, h.waits, fun n => ?_, fun n hsw => ?_⟩ <;>
    simp only [State.report, Vector.getElem_ofFn] <;> split
  · exact nofun
  · exact h.holds n k
  · exact nofun
  · exact h.latches.enabled n
  · rename_i hcleared
    intro _ hactive
    simp [State.clearRefused, hsw, show s.trips[n.val].active = true from hactive] at hcleared
  · exact h.latches.active_latched n hsw

/-! ## Resets -/

/-- A fresh lane is where a forcing leaves a lane. -/
theorem Lane.fresh_passive (d : Descriptor) : (Lane.fresh d).Passive := ⟨rfl, .inl rfl⟩

/-- Every latch that sets again at a soft reset is that of an enabled source that is active, and every lane is IDLE (R155). -/
theorem relatch_resetBlocks_tripSafe (s : State) : (relatch (resetBlocks s)).TripSafe := by
  have hfresh := relatch_allFresh (resetBlocks_allFresh s)
  obtain ⟨order, p, -, heq⟩ := relatch_resetBlocks s
  have htrip (n : SourceId) : (relatch (resetBlocks s)).trips[n.val] =
      { s.trips[n.val] with latch := s.relatched n, active := s.trips[n.val].presented, acceptance := none } := by
    rw [heq]
    simp only [State.resetTrips, Vector.getElem_ofFn]
  have hsettings : (relatch (resetBlocks s)).settings = [] := by
    rw [heq]
    rfl
  refine ⟨fun n k _ _ => .inr ⟨hfresh.entry_none k, .inl (hfresh.state_idle k)⟩, fun n k => ?_, fun n => ?_, fun n hsw => ?_⟩
  · rw [hsettings]
    exact Nat.zero_le _
  · rw [htrip]
    simp only [State.relatched, Bool.and_eq_true]
    exact fun h => h.1.2
  · rw [htrip]
    simp only [State.relatched, Bool.and_eq_true]
    exact fun henable hactive => ⟨⟨decide_eq_true hsw, henable⟩, hactive⟩

theorem State.TripSafe.abandonJob (h : s.TripSafe) : (abandonJob s).TripSafe := by
  obtain ⟨u, p, -, heq⟩ := abandonJob_cases s
  rw [heq]
  exact h.outside rfl rfl rfl

theorem State.TripSafe.discarding (h : s.TripSafe) : (discarding s).TripSafe := by
  obtain ⟨u, hgoes, heq⟩ := discarding_discards s
  rw [heq]
  refine (h.goesOn hgoes).lanes rfl rfl fun k => ?_
  have hk : State.lane { u with
      lanes := Vector.ofFn fun k => { u.lane k with coming := [] }, queue := s.queue, late := s.late } k =
      (u.lane k).withComing [] := Vector.getElem_ofFn _
  exact hk ▸ .withComing _ _

theorem State.TripSafe.softReset (h : s.TripSafe) : (softReset s).TripSafe := by
  unfold Machine.softReset
  split
  · exact h
  · exact (relatch_resetBlocks_tripSafe _).discarding

/-- After a power-on reset no latch is set, no source is enabled and no setting waits (R142). -/
theorem powerOn_tripSafe (s : State) : (powerOn s).TripSafe := by
  have hclear (n : SourceId) : (powerOn s).trips[n.val].latch = false ∧ (powerOn s).trips[n.val].enable = false := by
    rw [powerOn_trip]
    simp [State.reset]
  exact ⟨fun n _ hlatch => absurd hlatch (by simp [hclear n]), fun _ _ => Nat.zero_le _,
    fun n hlatch => absurd hlatch (by simp [hclear n]), fun n _ henable => absurd henable (by simp [hclear n])⟩

theorem State.TripSafe.resetRelease (h : s.TripSafe) : (resetRelease s).TripSafe := by
  unfold Machine.resetRelease
  split
  · exact powerOn_tripSafe s
  · exact h

/-! ## Events of the part -/

theorem State.TripSafe.entryFetch (h : s.TripSafe) (k : LaneId) : (entryFetch k s).TripSafe := by
  unfold Machine.entryFetch
  split
  · exact h
  · exact (h.serveFetch k).handOut

theorem State.TripSafe.taking (h : s.TripSafe) (k : LaneId) (e : Event) :
    (if s.resetLow then s else Machine.deliver k e s).TripSafe := by
  split
  · exact h
  · exact h.deliver k e

theorem State.TripSafe.takeTickWhen (h : s.TripSafe) (named : Lane → Bool) (k : LaneId) : (takeTickWhen named k s).TripSafe := by
  simp only [Machine.takeTickWhen]
  split
  · exact h.deliver k .tick
  · exact h

/-! ## Every step -/

/-- Every well-formed command. -/
theorem State.TripSafe.exec_of_wellFormed (h : s.TripSafe) {c : Instr} (hc : c.wellFormed = true) (ht : exec c s = .next t) :
    t.TripSafe := by
  cases c <;> cases ht
  case plainRegisterWrite a v =>
    have hrow : a.toNat ∉ rowAddresses := by simpa [Instr.wellFormed] using hc
    change (busWrite a.toNat v s).TripSafe
    rw [busWrite_of_no_row hrow]
    exact h.hostAccess (h.plainWrite _ v)
  case recordRead | recordWrite => exact h.recordRequest _ (h.outside rfl rfl rfl)
  case laneStart v => exact h.laneCommand .start _
  case laneStop v => exact h.laneCommand .stop _
  case laneHold v => exact h.laneCommand .hold _
  case laneRelease v => exact h.laneCommand .release _
  case laneReset v => exact h.laneCommand .reset _
  case laneResume v => exact h.laneCommand .resume _
  case laneStep v => exact h.laneCommand .step _
  case laneJump v => exact h.laneCommand (.jump _) _
  case laneLoad v => exact h.laneCommand .load _
  case laneSwap v => exact h.laneCommand .swap _
  case laneCancelSwap v => exact h.laneCommand .cancelSwap _
  case lineAssign v => exact h.lineAssign v
  case lineFree v => exact h.lineFree v
  case safeLevelWrite | inputSettingWrite | posFiltWrite | posLoad | posClear | tbCountWrite =>
    exact h.hostAccess (h.outside rfl rfl rfl)
  case triggerEmit v => exact h.triggerEmit v
  case tripConfig v => exact h.tripConfig v
  case tripAssert v => exact h.tripAssert v
  case tripClear v => exact h.tripClear v
  case jobCopy | jobCheck => exact h.jobRequest _ _
  case jobAbort v => exact h.jobAbort v
  case noticePop v => exact h.noticePop v
  case driveEn | tbRun | noticeIrqEn => exact h.hostAccess (h.controlWrite _ _ _)
  case softReset => exact h.softReset
  case tbDivPreWrite setting v => exact h.tbDivPreWrite setting v
  case resetAssert => exact h.outside rfl rfl rfl
  case resetRelease => exact h.resetRelease
  case clearWrite => exact h.access .clear
  case copyMove => exact h.access .copy
  case checkRead => exact h.access .check
  case entryFetch k => exact h.entryFetch k
  case tick takers => exact h.tick takers
  case dwellExpiry | limitExpiry | pulseEnd => exact h.takeTickWhen _ _
  case inputAcceptedChange n => exact h.acceptedChange (.input n)
  case quadratureChange u c => exact h.acceptedChange (.quadrature u c)
  case tripAcceptedChange n => exact h.acceptedChange (.trip n)
  case edgeEvent | arrival | emission | tripForcing => exact h.taking _ _
  case presentedLevelChange pin level => exact h.presentedLevelChange pin level

/-- A register write is its row, or a write of CONTROL (R179). -/
theorem State.TripSafe.exec (h : s.TripSafe) {c : Instr} (ht : exec c s = .next t) : t.TripSafe := by
  cases hc : c.wellFormed with
  | true => exact h.exec_of_wellFormed hc ht
  | false =>
    obtain ⟨a, v, rfl, ha⟩ := Instr.of_not_wellFormed hc
    by_cases h1 : a = 0x01#8
    · subst h1
      cases ht
      change (controlRegisterWrite v s).TripSafe
      unfold controlRegisterWrite
      split
      · exact h.softReset
      · exact h.hostAccess (h.controlWrite _ _ _)
    · obtain ⟨x, hx, rfl⟩ := exists_row ha h1 v
      exact h.exec_of_wellFormed (wellFormed_of_row hx) ((exec_of_row hx s).symm.trans ht)

theorem State.TripSafe.doDue (h : s.TripSafe) (d : Due) : (doDue s d).TripSafe := by
  cases d with
  | fetch k => exact h.entryFetch k
  | access kind => cases kind <;> exact h.access _
  | input n => exact h.acceptedChange (.input n)
  | quadrature u c => exact h.acceptedChange (.quadrature u c)
  | trip n => exact h.acceptedChange (.trip n)
  | tick => exact h.tick 0
  | period => exact h.elapse 1

theorem State.TripSafe.idle (h : s.TripSafe) : (idle s).TripSafe := by
  unfold Machine.idle
  split
  · exact h
  · split
    · exact h.drain
    · split
      · exact h
      · rename_i d ds _
        have hs : (choose d ds s).2.TripSafe := by
          obtain heq | heq := (choose_spec d ds s).2 <;> rw [heq]
          · exact h
          · exact h.outside rfl rfl rfl
        exact hs.doDue _

theorem State.TripSafe.step (h : s.TripSafe) (ht : step s = .next t) : t.TripSafe := by
  unfold Machine.step at ht
  split at ht
  · cases ht
    exact h.idle
  · rename_i c rest _
    have hs : State.TripSafe { s with pending := rest } := h.outside rfl rfl rfl
    exact hs.exec ht

/-- Settles O58: `State.TripSafe` is kept by every command and by the block on its own. -/
theorem stepKeepsTripProtection : Obligations.StepKeepsTripProtection := by
  intro s t hholds hwaits hlatches ht
  have h : t.TripSafe := State.TripSafe.step ⟨hholds, hwaits, hlatches⟩ ht
  exact ⟨h.holds, h.waits, h.latches⟩

end
end Sys2Proof.Machine

/-! TRIP_CLEAR and TRIP_ACCEPTED_CHANGE (R144, R145, R147, R151). -/

namespace Sys2Proof.Machine

section
variable {s : State} {n : SourceId}

/-! ## TRIP_CLEAR (R151) -/

/-- TRIP_CLEAR is refused for the pin sources whose accepted level is active. -/
theorem State.clearRefused_eq (s : State) (n : SourceId) : s.clearRefused n = (decide (n.val < 4) && s.trips[n.val].active) := by
  have hpin : decide (n ≠ swSource) = decide (n.val < 4) := by
    revert n
    decide
  rw [State.clearRefused, hpin]

/-- A mask of sources is empty exactly when it names none. -/
theorem ofFnLE_eq_zero (f : SourceId → Bool) : BitVec.ofFnLE f = 0 ↔ ¬ ∃ n, f n = true := by
  have hbit (n : SourceId) : (BitVec.ofFnLE f).getLsbD n.val = f n := by rw [BitVec.getLsbD_ofFnLE, dif_pos n.isLt]
  rw [not_exists]
  constructor
  · intro h n
    simp [← hbit n, h]
  · intro h
    refine BitVec.eq_of_getLsbD_eq fun i hi => (hbit ⟨i, hi⟩).trans ?_
    exact (Bool.eq_false_of_not_eq_true (h ⟨i, hi⟩)).trans BitVec.getLsbD_zero.symm

/-- Settles O41: what a source makes of the write is its own refusal (`State.clearRefused_eq`). -/
theorem tripClearRefusesActiveSources : Obligations.TripClearRefusesActiveSources := by
  intro v s hs refused
  have hrefused : (fun n : SourceId => v.getLsbD n && s.clearRefused n) = refused := by
    funext n
    rw [State.clearRefused_eq, ← Bool.and_assoc]
  have hlatch (n : SourceId) :
      (if v.getLsbD n && !s.clearRefused n then { s.trips[n.val] with latch := false } else s.trips[n.val]) =
        { s.trips[n.val] with latch := s.trips[n.val].latch && (!v.getLsbD n || refused n) } := by
    rw [← congrFun hrefused n]
    cases v.getLsbD n <;> cases s.clearRefused n <;> simp
  have hexec : exec (.tripClear v) s = .next (tripClear v s) := rfl
  rw [hexec, tripClear, hostAccess_of_resetHigh hs, hrefused, State.report]
  simp only [hlatch, ofFnLE_eq_zero, ite_not]

/-! ## TRIP_ACCEPTED_CHANGE (R144, R145, R147) -/

/-- On its way to an event of the core clock the block changes nothing of a trip source but its acceptance. -/
theorem goOnTo_trip (d : Nat) (s : State) (n : SourceId) :
    ∃ p, (goOnTo d s).trips[n.val] = { s.trips[n.val] with acceptance := p } := by
  obtain ⟨t, hblocks, heq | heq⟩ := goOnTo_same d s
  · exact ⟨_, by rw [heq, hblocks.trips]⟩
  · exact ⟨_, by rw [heq, elapse_trips, hblocks.trips]; rfl⟩

theorem State.SettingsWait.goOnTo (h : s.SettingsWait) (d : Nat) : (goOnTo d s).SettingsWait := by
  unfold Machine.goOnTo
  split
  · exact h
  · intro n k
    rw [elapse_settings, elapse_lane]
    exact settingsWait_invariant.drain h n k

theorem exec_tripAcceptedChange (n : Fin 4) (s : State) :
    exec (.tripAcceptedChange n) s = .next (clockEvent s.trips[n.val].lacking (acceptTrip n.castSucc) s) := rfl

/-- Settles O42: the block goes on to the change (`clockEvent_of_some`) and makes it (`acceptTrip_eq`), and the setting of the
latch is that of the statements, since the walk keeps what the settings wait for (`settingsWait_invariant`). -/
theorem tripAcceptedChangeSetsTheLatch : Obligations.TripAcceptedChangeSetsTheLatch := by
  intro n s hs hw
  dsimp only
  rw [exec_tripAcceptedChange]
  refine ⟨fun h => by rw [h]; rfl, fun lacks h => ?_⟩
  obtain ⟨p, htrip⟩ := goOnTo_trip lacks s n.castSucc
  have hwaits : ((goOnTo lacks s).markCompared.onTrip n.castSucc TripSource.reversed).SettingsWait := hw.goOnTo lacks
  rw [clockEvent_of_some hs h, acceptTrip_eq, setLatch_eq_latched hwaits, State.onTrip, State.markCompared_trips, htrip]
  rfl

end
end Sys2Proof.Machine

/-! NOTICE_POP, and the notices on their way to the queue (R147, R170, R172, R174). -/

namespace Sys2Proof.Machine

section
variable {s : State} {k : LaneId} {x y : Sender}

/-! ## NOTICE_POP (R174) -/

theorem exec_noticePop (hs : s.resetLow = false) (v : Word) :
    exec (.noticePop v) s = .next (popOldest (interlude 0 s)) := by
  have hrow : exec (.noticePop v) s = .next (noticePop v s) := rfl
  rw [hrow, noticePop, hostAccess_of_resetHigh hs]

theorem popOldest_of_nil (h : s.queue = []) : popOldest s = { s with cmdResult := .empty } := by
  unfold popOldest
  split
  · rfl
  · rename_i heq
    cases h.symm.trans heq

theorem popOldest_of_cons {oldest : Notice} {rest : List Notice} (h : s.queue = oldest :: rest) :
    popOldest s = { s with queue := rest, cmdResult := .taken } := by
  unfold popOldest
  split
  · rename_i heq
    cases h.symm.trans heq
  · rename_i heq
    cases h.symm.trans heq
    rfl

/-! ## The taking of a tick (R172; log 4) -/

/-- An event that the lane does not take changes nothing, or is kept, whatever notices are stored or on their way. -/
theorem takeNext_of_not_taken {e : Event} (h : (s.lane k).taking e = none) :
    ∃ l, ∀ (queue : List Notice) (late : List (Sender × NoticeBody)),
      takeNext k e (s.withNotices queue late) = (s.setLane k l).withNotices queue late := by
  by_cases hkeep : (s.lane k).entry.isSome = true ∧ (s.lane k).nextOfSource e = true
  · exact ⟨{ s.lane k with coming := (s.lane k).coming.erase e, kept := (s.lane k).kept ++ [e] }, fun queue late =>
      takeNext_of_entry (s := s.withNotices queue late) hkeep.1 hkeep.2⟩
  · have hn : (s.lane k).entry = none ∨ (s.lane k).nextOfSource e = false := by
      by_cases he : (s.lane k).entry.isSome = true
      · exact .inr (Bool.eq_false_of_not_eq_true fun hnext => hkeep ⟨he, hnext⟩)
      · exact .inl (by simpa using he)
    refine ⟨s.lane k, fun queue late => ?_⟩
    rw [takeNext_of_not_ready (s := s.withNotices queue late) h hn, State.setLane_lane_self]

/-- A lane's act is what it does without its notices, and these notices raised. -/
theorem State.withAct_eq_raiseAll (s : State) (k : LaneId) (a : Act) :
    s.withAct k a = (s.withAct k { a with notices := [] }).raiseAll (.lane k) a.notices := by
  obtain ⟨l, notices, emits⟩ := a
  cases notices with
  | nil => rfl
  | cons b bs =>
    have hne : b :: bs ≠ [] := List.cons_ne_nil b bs
    rw [State.withAct_frame]
    simp only [State.raiseAll_eq hne]
    rfl

/-- A lane that takes a tick in a free order raises at most two notices, the second of them behind the first (R172; log 4). -/
theorem takeTick_notices (k : LaneId) (s : State) :
    ∃ (u : State) (bodies : List NoticeBody), takeNext k .tick s = u.raiseAll (.lane k) bodies ∧
      doWork s (.deliver k .tick) = u.raiseApart (.lane k) bodies ∧ u.queue = s.queue ∧ u.late = s.late ∧
      bodies.length ≤ 2 := by
  cases ht : (s.lane k).taking .tick with
  | some l =>
    refine ⟨s.withAct k { l.ticks k s.inputs.accepted with notices := [] }, (l.ticks k s.inputs.accepted).notices, ?_, takeTickApart_of_taking ht, rfl, rfl,
      Lane.ticks_notices l _⟩
    rw [takeNext_of_taking ht, takeEvent, takeTick_eq, ← State.withAct_eq_raiseAll]
    simp only [State.withAct, State.raiseAll_setLane, State.setLane_setLane, State.lane_setLane_self]
    rfl
  | none =>
    obtain ⟨l, hl⟩ := takeNext_of_not_taken ht
    refine ⟨s.setLane k l, [], hl s.queue s.late, ?_, rfl, rfl, Nat.zero_le _⟩
    rw [doWork, takeTickApart, withheld, hl [] []]
    rfl

/-! ## The notices that wait (R147; log 39) -/

/-- The notices that a lane raises within an entry are the STEP notices and the FAULT notices of entry faults. -/
theorem NoticeBody.ofEntry_iff (body : NoticeBody) :
    body.ofEntry = true ↔ (∃ k index cause, body = .step k index cause) ∨
      ∃ k index cause action, body = .fault k index cause action ∧ (cause = .badStep ∨ cause = .stackOver) := by
  cases body <;> simp [NoticeBody.ofEntry]

/-- A notice waits exactly when it is a TRIP notice that names a lane with a notice of an entry on its way. -/
theorem State.tripWaits_iff (s : State) (body : NoticeBody) :
    s.tripWaits body = true ↔ ∃ (n : SourceId) (moved : LaneMask) (k : LaneId),
      body = .trip n moved ∧ moved.getLsbD k = true ∧ ∃ earlier ∈ s.lateOf (.lane k), earlier.ofEntry = true := by
  constructor
  · intro h
    cases body with
    | trip n moved =>
      obtain ⟨k, hk⟩ := (State.tripWaits_trip n moved).mp h
      exact ⟨n, moved, k, rfl, hk⟩
    | step | rangeEnd | fault | swap | position | job | lost => cases h
  · rintro ⟨n, moved, k, rfl, hk⟩
    exact (State.tripWaits_trip n moved).mpr ⟨k, hk⟩

theorem State.raiseTripNotices_of_waiting {bodies : List NoticeBody}
    (h : ∃ body ∈ s.lateOf .tripUnit ++ bodies, s.tripWaits body = true) :
    s.raiseTripNotices bodies = { s with late := s.late ++ bodies.map fun body => (.tripUnit, body) } := by
  rw [State.raiseTripNotices, if_pos (List.any_eq_true.mpr h)]
  rfl

theorem State.raiseTripNotices_of_not_waiting {bodies : List NoticeBody}
    (h : ¬ ∃ body ∈ s.lateOf .tripUnit ++ bodies, s.tripWaits body = true) :
    s.raiseTripNotices bodies = s.raiseApart .tripUnit bodies := by
  rw [State.raiseTripNotices, if_neg (mt List.any_eq_true.mp h)]

/-- The notices that can arrive next are the oldest of their senders, where they do not wait. -/
theorem State.mem_arrivals (s : State) (x : Sender) : .notice x ∈ s.arrivals ↔ s.canArrive x = true := by
  have hall : x ∈ senders := by cases x <;> simp [senders, allLanes]
  simp [State.arrivals, hall]

theorem State.canArrive_tripUnit (s : State) :
    s.canArrive .tripUnit = true ↔ ∃ oldest rest, s.lateOf .tripUnit = oldest :: rest ∧ ¬ s.tripWaits oldest = true := by
  unfold State.canArrive
  cases s.lateOf .tripUnit <;> simp

theorem State.canArrive_lane (s : State) (k : LaneId) : s.canArrive (.lane k) = true ↔ s.lateOf (.lane k) ≠ [] := by
  simp [State.canArrive]

/-- The oldest notice of a sender arrives (R172). -/
theorem doWork_notice {oldest : NoticeBody} {rest : List NoticeBody} (h : s.lateOf x = oldest :: rest) :
    let t := doWork s (.notice x)
    t = { s with queue := Queue.arrive s.queue oldest s.timebase.counter, late := t.late } ∧
      t.lateOf x = rest ∧ ∀ y, y ≠ x → t.lateOf y = s.lateOf y := by
  obtain ⟨late, harrive, hrest, hothers⟩ := State.arriveNext_of_cons h
  dsimp only [doWork]
  rw [harrive]
  exact ⟨rfl, hrest, hothers⟩

/-- Settles O48, part by part: the pop is `popOldest` after what goes on beside it, and the notices on their way are those of the
rules above. -/
theorem noticePopRemovesTheOldest : Obligations.NoticePopRemovesTheOldest := by
  refine ⟨fun v s hs => ?_, takeTick_notices, fun s => ?_, fun x s => ?_⟩
  · rw [exec_noticePop hs]
    refine ⟨⟨_, interlude_goesOn 0 s, fun h => congrArg _ (popOldest_of_nil h), fun _ _ h => congrArg _ (popOldest_of_cons h)⟩,
      fun hc h => ?_, fun hc _ _ h => ?_⟩ <;> rw [interlude_of_calm hc]
    · exact congrArg _ (popOldest_of_nil h)
    · exact congrArg _ (popOldest_of_cons h)
  · intro ofEntry waits
    have hwaits (body : NoticeBody) : waits body ↔ s.tripWaits body = true := by
      rw [State.tripWaits_iff]
      simp only [NoticeBody.ofEntry_iff]
      rfl
    simp only [hwaits, State.mem_arrivals]
    exact ⟨fun _ => State.raiseTripNotices_of_waiting, fun _ => State.raiseTripNotices_of_not_waiting, s.canArrive_tripUnit,
      s.canArrive_lane⟩
  · exact ⟨fun _ => State.raiseAll_eq, fun _ _ => State.raiseApart_eq _ _, fun _ _ => doWork_notice⟩

end
end Sys2Proof.Machine

/-! The table jobs: JOB_COPY, JOB_CHECK and JOB_ABORT, the accesses COPY_MOVE and CHECK_READ, and the whole COPY (R159 to R165). -/

namespace Sys2Proof.Machine

section
variable {s t : State}

/-! ## The commands of the table job (R159, R160, R164) -/

theorem exec_jobCopy (v : Word) (s : State) : exec (.jobCopy v) s = .next (jobCopy v s) := rfl

theorem exec_jobCheck (v : Word) (s : State) : exec (.jobCheck v) s = .next (jobCheck v s) := rfl

theorem exec_jobAbort (v : Word) (s : State) : exec (.jobAbort v) s = .next (jobAbort v s) := rfl

/-- The conditions on the count and the source that JOB_COPY and JOB_CHECK share, as refusals. -/
theorem source_refused_iff (first count : Word) :
    (!(countInTable count && rangeInTable first count)) = true ↔
      count.toNat = 0 ∨ 512 < count.toNat ∨ 512 ≤ first.toNat ∨ 512 < first.toNat + count.toNat := by
  simp only [countInTable, rangeInTable, Bool.not_eq_true', Bool.and_eq_false_iff, decide_eq_false_iff_not]
  omega

/-- The conditions on the destination, which JOB_COPY alone has (R159). -/
theorem destination_refused_iff (first count : Word) :
    (!rangeInTable first count) = true ↔ 512 ≤ first.toNat ∨ 512 < first.toNat + count.toNat := by
  simp only [rangeInTable, Bool.not_eq_true', Bool.and_eq_false_iff, decide_eq_false_iff_not]
  omega

/-- The RANGE conditions of JOB_COPY (R159). -/
theorem copy_refused_iff (src dst count : Word) :
    (!(countInTable count && rangeInTable src count && rangeInTable dst count)) = true ↔
      (count.toNat = 0 ∨ 512 < count.toNat ∨ 512 ≤ src.toNat ∨ 512 < src.toNat + count.toNat) ∨
        512 ≤ dst.toNat ∨ 512 < dst.toNat + count.toNat := by
  rw [Bool.not_and, Bool.or_eq_true, source_refused_iff, destination_refused_iff]

/-- The refusals of a job command in order, with RANGE said as a proposition. -/
theorem jobRequest_eq (hs : s.resetLow = false) {valid : State → Bool} {job : State → Job} {refused : Prop} [Decidable refused]
    (h : (!valid s) = true ↔ refused) :
    jobRequest valid job s =
      if s.job.state = .running then s.report .busy
      else if refused then s.report .range
      else { s with job := job s }.report .taken := by
  rw [jobRequest, hostAccess_of_resetHigh hs]
  exact if_congr Iff.rfl rfl (if_congr h rfl rfl)

/-- JOB_ABORT by the kind of the job that runs; the power-on clear is never aborted (R164). -/
theorem jobAbort_eq (hs : s.resetLow = false) (v : Word) :
    jobAbort v s =
      if s.job.state ≠ .running then s.report .state
      else
        match s.job.kind.host with
        | none => s.report .busy
        | some kind => ({ s with job := { s.job with state := .aborted } }.report .taken).raise
            (.job kind .aborted s.job.progress) := by
  rw [jobAbort, hostAccess_of_resetHigh hs, ite_not]
  refine if_congr Iff.rfl ?_ rfl
  cases hk : s.job.kind with
  | clear => rfl
  | copy | check =>
    rw [if_neg nofun]
    simp only [raiseJob, State.report_job, hk, JobKind.host]

/-- Settles O43, by the refusals of the two starts in order (`jobRequest_eq`) and the kind of the job aborted. -/
theorem jobCommandsStartAndAbort : Obligations.JobCommandsStartAndAbort := by
  intro v s hs
  refine ⟨?_, ?_, ?_⟩
  · rw [exec_jobCopy, jobCopy, jobRequest_eq hs (copy_refused_iff s.jobArgSrc s.jobArgDst s.jobArgCount)]
    rfl
  · rw [exec_jobCheck, jobCheck, jobRequest_eq hs (source_refused_iff s.jobArgSrc s.jobArgCount)]
    rfl
  · rw [exec_jobAbort, jobAbort_eq hs]
    cases s.job.kind <;> rfl

/-! ## The accesses of a host's job (R161, R165) -/

theorem exec_copyMove (s : State) : exec .copyMove s = .next (copyMove s) := rfl

theorem exec_checkRead (s : State) : exec .checkRead s = .next (checkRead s) := rfl

/-- One more record of a host's job: at the count the job is DONE with its notice (R161, R165). -/
theorem jobServed_of_host {kind : HostJob} (hk : s.job.kind.host = some kind) :
    jobServed s =
      if s.job.progress + 1 = s.job.count then
        { s with job := { s.job with progress := s.job.count, state := .done } }.raise (.job kind .done s.job.count)
      else { s with job := { s.job with progress := s.job.progress + 1 } } := by
  simp only [jobServed]
  refine if_ctx_congr Iff.rfl (fun he => ?_) fun _ => rfl
  simp only [he, raiseJob, hk]

/-- What one more record does to the job and to the queue, at the count and before it. -/
theorem jobServed_job_queue {kind : HostJob} (hk : s.job.kind.host = some kind) :
    if s.job.progress + 1 = s.job.count then
      (jobServed s).job = { s.job with progress := s.job.count, state := .done } ∧
      (jobServed s).queue = Queue.arrive s.queue (.job kind .done s.job.count) s.timebase.counter
    else (jobServed s).job = { s.job with progress := s.job.progress + 1 } ∧ (jobServed s).queue = s.queue := by
  rw [jobServed_of_host hk]
  split <;> exact ⟨rfl, rfl⟩

theorem serveAccess_of_copy (hk : s.job.kind = .copy) : serveAccess s = jobServed (moveRecord s).letPass := by
  simp only [serveAccess, hk]

theorem serveAccess_of_check (hk : s.job.kind = .check) : serveAccess s = jobServed (foldRecord s).letPass := by
  simp only [serveAccess, hk]

theorem serveAccess_lanes (s : State) : (serveAccess s).lanes = s.letPass.lanes := by rw [serveAccess_frame]

/-! ## The moves of a COPY job (R162) -/

/-- The offset that move m of a COPY job concerns. -/
def Job.offsetOfMove (j : Job) (m : Nat) : Nat := ({ j with progress := m } : Job).moveOffset

theorem Job.moveOffset_eq (j : Job) : j.moveOffset = j.offsetOfMove j.progress := rfl

/-- From the high end where the destination is above the source and the ranges overlap, else from the low end. -/
theorem Job.offsetOfMove_eq (j : Job) (m : Nat) :
    j.offsetOfMove m = if j.source < j.destination ∧ j.destination < j.source + j.count then j.count - 1 - m else m := by
  simp only [Job.offsetOfMove, Job.moveOffset, Job.descending, Bool.and_eq_true, decide_eq_true_eq]

theorem Job.offsetOfMove_lt {j : Job} {m : Nat} (h : m < j.count) : j.offsetOfMove m < j.count := by
  rw [j.offsetOfMove_eq]
  split <;> omega

/-- The direction is its own inverse, so that the moves reach every offset. -/
theorem Job.offsetOfMove_offsetOfMove {j : Job} {m : Nat} (h : m < j.count) : j.offsetOfMove (j.offsetOfMove m) = m := by
  simp only [j.offsetOfMove_eq]
  split <;> omega

theorem Job.offsetOfMove_ne {j : Job} {m n : Nat} (hmn : m < n) (hn : n < j.count) :
    j.offsetOfMove m ≠ j.offsetOfMove n := fun h => by
  have := (Job.offsetOfMove_offsetOfMove (hmn.trans hn)).symm.trans ((congrArg _ h).trans (Job.offsetOfMove_offsetOfMove hn))
  omega

/-- The direction makes every source index that also lies in the destination range read before the job writes over it (R162). -/
theorem Job.source_ne_written {j : Job} {m n : Nat} (hmn : m < n) (hn : n < j.count) :
    j.source + j.offsetOfMove n ≠ j.destination + j.offsetOfMove m := by
  simp only [j.offsetOfMove_eq]
  split <;> omega

/-! ## COPY_MOVE -/

/-- The table after a move: the record read stands at its destination, every other record as it was. -/
theorem serveAccess_copy_read (hk : s.job.kind = .copy) (hr : s.job.state = .running) (hj : s.job.Ok) (hwf : Memory.wf s.table)
    (i : Nat) :
    Memory.read (serveAccess s).table i =
      if i = s.job.destination + s.job.moveOffset then Memory.read s.table (s.job.source + s.job.moveOffset)
      else Memory.read s.table i := by
  have hoffset : s.job.moveOffset < s.job.count := Job.offsetOfMove_lt (hj.unfinished (.inl hr))
  have hle := hj.destination_le
  rw [serveAccess_of_copy hk, jobServed_table]
  exact Memory.read_write _ _ _ _ hwf (by simp only [Config.tableSize]; omega)

theorem serveAccess_copy_wf (hk : s.job.kind = .copy) (hwf : Memory.wf s.table) : Memory.wf (serveAccess s).table := by
  rw [serveAccess_of_copy hk, jobServed_table]
  exact Memory.write_wf _ _ _ hwf

theorem serveAccess_copy_job (hk : s.job.kind = .copy) :
    (serveAccess s).job = { s.job with
      progress := s.job.progress + 1
      state := if s.job.progress + 1 = s.job.count then .done else s.job.state } := by
  rw [serveAccess_of_copy hk, jobServed_job]
  rfl

/-- Settles O44, by what one served access of a COPY does to the table, the job, the queue and the waiting fetches. -/
theorem copyMoveMovesOneRecord : Obligations.CopyMoveMovesOneRecord := by
  intro s hs hk hr hj hwf j offset
  have hoffset : offset = j.moveOffset := (j.offsetOfMove_eq j.progress).symm
  rw [exec_copyMove, copyMove, jobRuns_eq hs hk hr]
  refine ⟨fun hf => by rw [hf]; rfl, fun hf => ⟨serveAccess s, by rw [hf]; rfl, ?_, serveAccess_lane s, fun i => ?_, ?_⟩⟩
  · rw [serveAccess_lanes]
    exact serveAccess_frame s
  · rw [hoffset]
    exact serveAccess_copy_read hk hr hj hwf i
  · have hhost : (moveRecord s).letPass.job.kind.host = some .copy := congrArg JobKind.host hk
    rw [serveAccess_of_copy hk]
    exact jobServed_job_queue hhost

/-! ## The whole COPY -/

/-- A COPY that found the table as in `s`, run with no other client, has made its first n moves (R162). -/
structure State.CopiedTo (s : State) (n : Nat) (t : State) : Prop where
  resetHigh : t.resetLow = false
  job : t.job = { s.job with progress := n, state := if n = s.job.count then .done else .running }
  settled : ∀ k, (t.lane k).entry = none
  table_wf : Memory.wf t.table
  copied : ∀ m, m < n → Memory.read t.table (s.job.destination + s.job.offsetOfMove m) =
    Memory.read s.table (s.job.source + s.job.offsetOfMove m)
  kept : ∀ i, (∀ m, m < n → i ≠ s.job.destination + s.job.offsetOfMove m) → Memory.read t.table i = Memory.read s.table i

/-- A job that has not reached its count runs, with its ranges in the table. -/
theorem Job.Ok.running_at {j : Job} (h : j.Ok) {n : Nat} (hn : n < j.count) :
    Job.Ok { j with progress := n, state := .running } :=
  ⟨h.count_pos, h.source_le, h.destination_le, hn.le, fun _ => hn, nofun, h.result_zero⟩

/-- One more move: it reads a record that no move before it has written, and writes one that no move before it concerned. -/
theorem State.CopiedTo.copyMove {n : Nat} (h : s.CopiedTo n t) (hk : s.job.kind = .copy) (hj : s.job.Ok) (hn : n < s.job.count) :
    s.CopiedTo (n + 1) (copyMove t) := by
  have hjob : t.job = { s.job with progress := n, state := .running } := by rw [h.job, if_neg hn.ne]
  have htk : t.job.kind = .copy := by rw [hjob]; exact hk
  have htr : t.job.state = .running := by rw [hjob]
  have htj : t.job.Ok := by rw [hjob]; exact hj.running_at hn
  have hfree : t.accessFree = true := by simp [State.accessFree, h.settled]
  have hread := serveAccess_copy_read htk htr htj h.table_wf
  have hoffset : t.job.moveOffset = s.job.offsetOfMove n := by rw [hjob]; rfl
  rw [hoffset, hjob] at hread
  rw [Machine.copyMove, jobRuns_eq h.resetHigh htk htr, if_pos hfree]
  refine ⟨?_, ?_, fun k => ?_, serveAccess_copy_wf htk h.table_wf, fun m hm => ?_, fun i hi => ?_⟩
  · rw [serveAccess_frame]
    exact h.resetHigh
  · rw [serveAccess_copy_job htk, hjob]
  · rw [serveAccess_lane, h.settled k]
    rfl
  · rw [hread]
    rcases Nat.lt_succ_iff_lt_or_eq.mp hm with hlt | rfl
    · rw [if_neg fun he => Job.offsetOfMove_ne hlt hn (Nat.add_left_cancel he), h.copied m hlt]
    · rw [if_pos rfl]
      exact h.kept _ fun _ hlt => Job.source_ne_written hlt hn
  · rw [hread, if_neg (hi n n.lt_succ_self)]
    exact h.kept i fun m hm => hi m (Nat.lt_succ_of_lt hm)

theorem copyMove_pending (t : State) : (copyMove t).pending = t.pending := by
  unfold copyMove
  split
  · rw [serveAccess_frame]
  · rfl

/-- A run of one command over and over, as an induction over the commands that are left: what each of them takes one further has
reached `count` in the end. -/
theorem core_run_replicate {c : Instr} {act : State → State} {P : Nat → State → Prop} {count : Nat}
    (hc : ∀ t, exec c t = .next (act t)) (hpending : ∀ t, (act t).pending = t.pending)
    (hrest : ∀ n t rest, P n t → P n { t with pending := rest })
    (hact : ∀ n t, n < count → P n t → P (n + 1) (act t)) (m : Nat) :
    ∀ n t, n + m = count → P n t → t.pending = List.replicate m c → ∃ u, core.run m t = .next u ∧ P count u := by
  induction m with
  | zero =>
    rintro n t rfl h -
    exact ⟨t, rfl, h⟩
  | succ m ih =>
    intro n t hn h hp
    have hstep : step t = .next (act { t with pending := List.replicate m c }) := by
      rw [step, hp]
      exact hc _
    rw [core_run_succ m hstep]
    exact ih (n + 1) _ (by omega) (hact n _ (by omega) (hrest n t _ h)) (hpending _)

/-- All the moves of a COPY, one after another. -/
theorem State.CopiedTo.run (hk : s.job.kind = .copy) (hj : s.job.Ok) (h : s.CopiedTo 0 t)
    (hp : t.pending = List.replicate s.job.count .copyMove) :
    ∃ u, core.run s.job.count t = .next u ∧ s.CopiedTo s.job.count u :=
  core_run_replicate exec_copyMove copyMove_pending
    (fun _ _ _ h => ⟨h.resetHigh, h.job, h.settled, h.table_wf, h.copied, h.kept⟩)
    (fun _ _ hn h => h.copyMove hk hj hn) _ 0 t (Nat.zero_add _) h hp

/-- Settles O45, by the run of all its moves, which starts with none made; every offset is that of one move. -/
theorem wholeCopyIsExact : Obligations.WholeCopyIsExact := by
  intro s hs hk hr hp hj hwf hsettled j
  have hstart : s.job = { s.job with progress := 0, state := if 0 = s.job.count then .done else .running } := by
    rw [if_neg (Nat.ne_of_lt hj.count_pos), ← hp, ← hr]
  obtain ⟨t, ht, hdone⟩ := State.CopiedTo.run (t := { s with pending := List.replicate j.count .copyMove }) hk hj
    ⟨hs, hstart, hsettled, hwf, nofun, fun _ _ => rfl⟩ rfl
  refine ⟨t, ht, by rw [hdone.job, if_pos rfl], fun i hi => ?_, fun i hi => hdone.kept i fun m hm => ?_⟩
  · have hmove := hdone.copied (j.offsetOfMove i) (Job.offsetOfMove_lt hi)
    rwa [Job.offsetOfMove_offsetOfMove hi] at hmove
  · have : s.job.offsetOfMove m < s.job.count := Job.offsetOfMove_lt hm
    dsimp only [j] at hi
    omega

/-! ## CHECK_READ (R163) -/

/-- One bit into the check register, with the register's top bit by its number. -/
theorem crcBit_eq (c : Word) (bit : Bool) :
    crcBit c bit = if c.getLsbD 15 != bit then (c <<< 1) ^^^ 0x1021#16 else c <<< 1 := by
  rw [crcBit, BitVec.msb_eq_getLsbD_last]

/-- One word is its bits from bit 15 down to bit 0. -/
theorem crcWord_eq (c w : Word) :
    crcWord c w = ((List.range 16).map fun i => w.getLsbD (15 - i)).foldl crcBit c := by
  rw [crcWord, ← List.map_coe_finRange_eq_range, List.map_map, List.foldl_map]
  rfl

/-- One record is the bits of its ten words in order. -/
theorem crcRecord_eq (c : Word) (r : Record) :
    crcRecord c r = (r.words.flatMap fun w => (List.range 16).map fun i => w.getLsbD (15 - i)).foldl crcBit c := by
  rw [crcRecord, funext₂ crcWord_eq, List.foldl_flatMap]

/-- Settles O46, by the served access of a CHECK (`jobServed_of_host`) and the bits of its record (`crcRecord_eq`). -/
theorem checkReadFoldsOneRecord : Obligations.CheckReadFoldsOneRecord := by
  intro s hs hk hr _ j r bits crc u
  have hcrc : crcRecord j.crc r = crc := by
    rw [crcRecord_eq, funext₂ crcBit_eq]
    rfl
  have hhost : (foldRecord s).letPass.job.kind.host = some .check := congrArg JobKind.host hk
  rw [exec_checkRead, checkRead, jobRuns_eq hs hk hr, serveAccess_of_check hk, jobServed_of_host hhost, ← hcrc]
  cases s.accessFree <;> rfl

end
end Sys2Proof.Machine

/-! The arrival of a notice at the queue, and the interrupt line (R170, R171, R175). -/

namespace Sys2Proof.Machine

section
variable {q older : List Notice} {n : Nat} {st : Word}

/-! ## Arrivals (R170, R171) -/

theorem newestLost_concat (older : List Notice) (n : Nat) (st : Word) : newestLost (older ++ [⟨.lost n, st⟩]) :=
  ⟨n, st, List.getLast?_concat⟩

theorem newestLost_iff : newestLost q ↔ ∃ older n st, q = older ++ [⟨.lost n, st⟩] := by
  constructor
  · rintro ⟨n, st, h⟩
    exact ⟨q.dropLast, n, st, (List.dropLast_append_getLast? _ h).symm⟩
  · rintro ⟨older, n, st, rfl⟩
    exact newestLost_concat older n st

theorem Queue.arrive_of_room (h : q.length < 63) (body : NoticeBody) (stamp : Word) :
    Queue.arrive q body stamp = q ++ [⟨body, stamp⟩] := if_pos h

/-- At 63 records and above, a LOST record at the newest end counts the arrival, up to 255, and keeps its stamp. -/
theorem Queue.arrive_of_lost (h : 63 ≤ (older ++ [(⟨.lost n, st⟩ : Notice)]).length) (body : NoticeBody) (stamp : Word) :
    Queue.arrive (older ++ [⟨.lost n, st⟩]) body stamp = older ++ [⟨.lost (if 255 ≤ n then 255 else n + 1), st⟩] := by
  have hcount : min Config.lostMax (n + 1) = if 255 ≤ n then 255 else n + 1 := by
    simp only [Config.lostMax]
    split <;> omega
  rw [Queue.arrive, if_neg (show ¬ _ < Config.queueRoom from Nat.not_lt.mpr h), List.getLast?_concat,
    List.dropLast_concat, ← hcount]

/-- At 63 records and above, with another record at the newest end, a LOST record of one notice is appended. -/
theorem Queue.arrive_of_not_lost (h : 63 ≤ q.length) (hq : ¬ newestLost q) (body : NoticeBody) (stamp : Word) :
    Queue.arrive q body stamp = q ++ [⟨.lost 1, stamp⟩] := by
  rw [Queue.arrive, if_neg (show ¬ _ < Config.queueRoom from Nat.not_lt.mpr h)]
  split
  · rename_i n st hlast
    exact absurd ⟨n, st, hlast⟩ hq
  · rfl

/-- An arrival keeps the bound of the queue: an append that reaches 64 records is that of a LOST record. -/
theorem Queue.arrive_keeps_bound (hlen : q.length ≤ 64) (hfull : q.length = 64 → newestLost q) (body : NoticeBody)
    (stamp : Word) :
    (Queue.arrive q body stamp).length ≤ 64 ∧
      ((Queue.arrive q body stamp).length = 64 → newestLost (Queue.arrive q body stamp)) := by
  rcases Nat.lt_or_ge q.length 63 with hroom | hroom
  · rw [Queue.arrive_of_room hroom, List.length_append, List.length_singleton]
    exact ⟨by omega, fun h => by omega⟩
  · by_cases hlost : newestLost q
    · obtain ⟨older, n, st, rfl⟩ := newestLost_iff.mp hlost
      rw [Queue.arrive_of_lost hroom]
      exact ⟨by simpa using hlen, fun _ => newestLost_concat ..⟩
    · have hne : q.length ≠ 64 := mt hfull hlost
      rw [Queue.arrive_of_not_lost hroom hlost, List.length_append, List.length_singleton]
      exact ⟨by omega, fun _ => newestLost_concat ..⟩

/-- Settles O47: below 63 records, at 63 and above behind a LOST record, and behind another record. -/
theorem arrivalsAreStoredOrCountedAsLost : Obligations.ArrivalsAreStoredOrCountedAsLost := by
  refine ⟨fun _ _ => rfl, fun q body stamp => ⟨fun h => Queue.arrive_of_room h body stamp, ?_, fun h hq => ?_,
    fun hlen hfull => Queue.arrive_keeps_bound hlen hfull body stamp⟩⟩
  · rintro older n st h rfl
    exact Queue.arrive_of_lost h body stamp
  · refine Queue.arrive_of_not_lost h (fun hlost => ?_) body stamp
    obtain ⟨older, n, st, heq⟩ := newestLost_iff.mp hlost
    exact hq older n st heq

end

section
variable {s : State}

/-! ## The interrupt line (R175, R184) -/

theorem State.irqLine_iff (s : State) : s.irqLine = true ↔ s.resetLow = false ∧ s.queue ≠ [] ∧ s.irqEnable = true := by
  simp [State.irqLine, and_assoc, and_comm (a := s.irqEnable = true)]

/-- A write of NOTICE_IRQ_EN changes that bit alone, by the row of CONTROL's writes. -/
theorem exec_noticeIrqEn (hs : s.resetLow = false) (on : Bool) :
    exec (.noticeIrqEn on) s = .next { s with irqEnable := on } := by
  obtain ⟨-, hrow, -⟩ := controlAndTimebaseWrites on 0 s hs
  exact hrow

/-! ### A soft reset keeps NOTICE_IRQ_EN (R175, R183) -/

theorem interlude_irqEnable (but : LaneMask) (s : State) : (interlude but s).irqEnable = s.irqEnable :=
  SameOutside.irqEnable (sansChain_interlude s but)

theorem abandonJob_irqEnable (s : State) : (abandonJob s).irqEnable = s.irqEnable := by
  obtain ⟨u, p, -, h⟩ := abandonJob_cases s
  rw [h]

theorem relatch_irqEnable (s : State) : (relatch (resetBlocks s)).irqEnable = s.irqEnable := by
  obtain ⟨order, p, -, h⟩ := relatch_resetBlocks s
  rw [h]
  rfl

theorem discarding_irqEnable (s : State) : (discarding s).irqEnable = s.irqEnable := by
  rw [discarding, State.withNotices_irqEnable, takeIdly, State.onLanes_irqEnable, interlude_irqEnable]

theorem softReset_irqEnable (s : State) : (softReset s).irqEnable = s.irqEnable := by
  unfold softReset
  split
  · rfl
  · rw [discarding_irqEnable, relatch_irqEnable, abandonJob_irqEnable, interlude_irqEnable]

/-- Settles O49: the write of the bit is `exec_noticeIrqEn`, and no part of a soft reset touches the bit. -/
theorem interruptLineFollowsQueueAndEnable : Obligations.InterruptLineFollowsQueueAndEnable := by
  refine ⟨State.irqLine_iff, fun on s hs => ⟨_, exec_noticeIrqEn hs on, rfl, ?_⟩,
    fun s _ => ⟨softReset s, rfl, softReset_irqEnable s⟩, fun s hs => ⟨powerOn s, ?_, rfl⟩⟩
  · rw [State.irqLine_iff]
    exact and_iff_right hs
  · rw [exec_resetRelease, resetRelease_of_resetLow hs]

end
end Sys2Proof.Machine

/-! The register window as the register map gives it: the fields of each word, each group of words, and the addresses that name
no register (R178, R179). -/

namespace Sys2Proof.Machine

/-! ## Numbers in the fields of a word -/

theorem flag_eq_bitOf (b : Bool) : flag b = bitOf b := rfl

theorem packed_eq (fields : List (Nat × Nat)) :
    packed fields = BitVec.ofNat 16 (fields.map fun f => 2 ^ f.1 * f.2).sum :=
  congrArg (fun l : List Nat => BitVec.ofNat 16 l.sum)
    (List.map_congr_left fun f _ => (Nat.shiftLeft_eq f.2 f.1).trans (Nat.mul_comm _ _))

theorem sum_bits_eq_ofBits (f : Nat → Bool) (n : Nat) :
    ((List.range n).map fun i => 2 ^ i * bitOf (f i)).sum = Nat.ofBits fun i : Fin n => f i := by
  have hbit : ∀ b, bitOf b = b.toNat := fun b => by cases b <;> rfl
  induction n generalizing f with
  | zero => rfl
  | succ n ih =>
    have hdouble : ((List.range n).map fun i => 2 ^ (i + 1) * bitOf (f (i + 1))).sum =
        2 * ((List.range n).map fun i => 2 ^ i * bitOf (f (i + 1))).sum := by
      rw [← List.sum_map_mul_left]
      exact congrArg List.sum (List.map_congr_left fun i _ => by rw [Nat.pow_succ', Nat.mul_assoc])
    rw [Nat.ofBits_succ, List.range_succ_eq_map, List.map_cons, List.map_map, List.sum_cons, Nat.pow_zero, Nat.one_mul, hbit,
      Nat.add_comm]
    exact congrArg (· + _) (hdouble.trans (congrArg (2 * ·) (ih fun i => f (i + 1))))

/-- A word is the sum of its bits, each at its weight. -/
theorem eq_sum_of_bits {w : Nat} (x : BitVec w) (f : Nat → Bool) (h : ∀ i, i < w → x.getLsbD i = f i) :
    x = BitVec.ofNat w ((List.range w).map fun i => 2 ^ i * bitOf (f i)).sum := by
  refine BitVec.eq_of_getLsbD_eq fun i hi => ?_
  rw [sum_bits_eq_ofBits, BitVec.getLsbD_ofNat, Nat.testBit_ofBits_lt _ i hi, h i hi]
  simp [hi]

theorem setWidth_eq_ofNat {w : Nat} (x : BitVec w) : x.setWidth 16 = BitVec.ofNat 16 x.toNat :=
  (BitVec.ofNat_toNat 16 x).symm

theorem word_eq_ofNat (x : Word) : x = BitVec.ofNat 16 x.toNat := ((BitVec.ofNat_toNat 16 x).trans x.setWidth_eq).symm

/-! ## Codes as places in the code tables (R179, R180) -/

theorem LaneState.code_eq (x : LaneState) :
    x.code = [LaneState.idle, .armed, .running, .held, .done, .faulted, .tripped].idxOf x := by cases x <;> rfl

theorem Result.code_eq (x : Result) :
    x.code = [Result.taken, .state, .range, .tripped, .busy, .pending, .owned, .active, .empty].idxOf x := by cases x <;> rfl

theorem EntryCause.code_eq (x : EntryCause) :
    x.code = [EntryCause.start, .advance, .repeated, .wrap, .skip, .divert, .resume, .release, .swap].idxOf x := by
  cases x <;> rfl

theorem FaultCause.code_eq (x : FaultCause) :
    x.code = [FaultCause.limit, .badStep, .stackOver, .stackUnder, .unbalanced].idxOf x + 1 := by cases x <;> rfl

theorem FaultAction.code_eq (x : FaultAction) : x.code = [FaultAction.halt, .skip, .divert].idxOf x := by cases x <;> rfl

theorem SwapOccasion.code_eq (x : SwapOccasion) : x.code = [SwapOccasion.entry, .endOfRange, .stop].idxOf x := by
  cases x <;> rfl

theorem JobKind.code_eq (x : JobKind) : x.code = [JobKind.clear, .copy, .check].idxOf x := by cases x <;> rfl

theorem JobState.code_eq (x : JobState) : x.code = [JobState.idle, .running, .done, .aborted].idxOf x := by cases x <;> rfl

theorem SwapBoundary.code_eq (x : SwapBoundary) : x.code = bitOf (x == .sequenceEnd) := by cases x <;> rfl

theorem directionCode_eq (d : Option Direction) : directionCode d = [none, some Direction.up, some .down].idxOf d := by
  match d with
  | none | some .up | some .down => rfl

theorem priorCode_eq (p : Option PriorState) :
    priorCode p = [none, some PriorState.armed, some .running, some .held, some .done, some .faulted].idxOf p := by
  match p with
  | none | some .armed | some .running | some .held | some .done | some .faulted => rfl

theorem swapCode_eq (d : Option Descriptor) :
    (d.map fun d => d.swapBoundary.code + 1).getD 0 =
      [none, some SwapBoundary.nextStep, some .sequenceEnd].idxOf (d.map Descriptor.swapBoundary) := by
  match d with
  | none => rfl
  | some d =>
    simp only [Option.map]
    cases d.swapBoundary <;> rfl

theorem faultCode_eq (c : Option FaultCause) :
    (c.map FaultCause.code).getD 0 =
      [none, some FaultCause.limit, some .badStep, some .stackOver, some .stackUnder, some .unbalanced].idxOf c := by
  match c with
  | none | some .limit | some .badStep | some .stackOver | some .stackUnder | some .unbalanced => rfl

/-! ## The words of a lane (R44, R45, R88) -/

theorem Lane.statusA_eq (l : Lane) : l.statusA = BitVec.ofNat 16 (l.statusWords.getD 0 0) := by
  rw [Lane.statusA, packed_eq, LaneState.code_eq, swapCode_eq, Result.code_eq]
  simp [Lane.statusWords, flag_eq_bitOf, Lane.entered, Nat.add_assoc]

theorem Lane.statusB_eq (l : Lane) : l.statusB = BitVec.ofNat 16 (l.statusWords.getD 1 0) := by
  rw [Lane.statusB, packed_eq, faultCode_eq, priorCode_eq]
  simp [Lane.statusWords]

theorem Lane.mode_eq (l : Lane) : l.descriptor.mode = BitVec.ofNat 16 (l.inspection.getD 4 0) := by
  rw [Descriptor.mode, packed_eq, SwapBoundary.code_eq, Lane.inspection]
  match l.descriptor.startSource with
  | .command | .trigger _ | .edge _ .rising | .edge _ .falling =>
    simp [StartSource.bits, flag_eq_bitOf, beq_eq_decide, Nat.add_assoc]

theorem Lane.inspect_eq (l : Lane) (n : Nat) (hn : n < 21) : l.inspect n = BitVec.ofNat 16 (l.inspection.getD n 0) := by
  match n, hn with
  | 4, _ => exact l.mode_eq
  | 5, _ | 6, _ => exact word_eq_ofNat _
  | 9, _ => cases h : l.limit <;> simp [Lane.inspect, Lane.inspection, h] <;> rfl
  | 19, _ | 20, _ => cases h : l.pulse <;> simp [Lane.inspect, Lane.inspection, h]
  | 0, _ | 1, _ | 2, _ | 3, _ | 7, _ | 8, _ | 10, _ | 11, _ | 12, _ | 13, _ | 14, _ | 15, _ | 16, _ | 17, _ | 18, _ => rfl
  | m + 21, hm => exact absurd hm (Nat.not_lt.mpr (Nat.le_add_left 21 m))

theorem Lane.inspection_length (l : Lane) : l.inspection.length = 21 := by
  cases h : l.pulse <;> simp [Lane.inspection, h]

/-! ## The words of the other blocks -/

section
variable (s : State)

theorem State.controlWord_eq :
    s.controlWord = BitVec.ofNat 16 (bitOf s.driveEnable + 2 * bitOf s.timebase.running + 4 * bitOf s.irqEnable) := by
  rw [State.controlWord, packed_eq]
  simp [flag_eq_bitOf, Nat.add_assoc]

theorem State.statusWord_eq :
    s.statusWord = BitVec.ofNat 16 (bitOf (s.job.kind == .clear && s.job.state == .running) +
      2 * bitOf (s.job.state == .running) + 4 * bitOf (s.queue != [])) := by
  have hqueue : (!s.queue.isEmpty) = (s.queue != []) := by cases s.queue <;> rfl
  rw [State.statusWord, packed_eq, hqueue]
  simp [flag_eq_bitOf, beq_eq_decide, Nat.add_assoc, State.clearRunning]

theorem State.outField_half {first : Nat} (h : first ≤ 16) :
    s.outField.extractLsb' first 16 = BitVec.ofNat 16
      ((List.range 16).map fun i => 2 ^ i * bitOf (s.outLevel (Fin.ofNat 32 (first + i)))).sum := by
  refine eq_sum_of_bits _ _ fun i hi => ?_
  have hlt : first + i < 32 := by omega
  rw [BitVec.getLsbD_extractLsb', State.outField, BitVec.getLsbD_ofFnLE, dif_pos hlt]
  simp [hi, Fin.ofNat, Nat.mod_eq_of_lt hlt]

theorem PositionUnit.status_sum (u : PositionUnit) (low : Nat) :
    ((u.status low).map fun f => 2 ^ f.1 * f.2).sum = 2 ^ low * (bitOf u.error +
      2 * [none, some Direction.up, some .down].idxOf u.lastDirection + 8 * bitOf u.a.accepted + 16 * bitOf u.b.accepted) := by
  rw [PositionUnit.status, directionCode_eq]
  simp [flag_eq_bitOf, Nat.pow_add]
  ring

theorem State.tripStatus_eq :
    s.tripStatus = BitVec.ofNat 16 (
      ((List.finRange 5).map fun n => 2 ^ n.val * bitOf s.trips[n.val].latch).sum +
        ((List.finRange 5).map fun n => 2 ^ (5 + n.val) * bitOf s.trips[n.val].enable).sum +
        ((List.finRange 4).map fun n => 2 ^ (10 + n.val) * bitOf s.trips[n.val].active).sum) := by
  rw [State.tripStatus, packed_eq, List.map_append, List.map_append, List.sum_append, List.sum_append, List.map_map,
    List.map_map, List.map_map]
  rfl

theorem State.tripMode_eq (n : SourceId) :
    s.tripMode n = BitVec.ofNat 16 (if n.val = 4 then bitOf s.trips[n.val].enable
      else bitOf s.trips[n.val].enable + 2 * bitOf s.trips[n.val].activeLow + 256 * s.trips[n.val].filter.toNat) := by
  have hsw : n = swSource ↔ n.val = 4 := Fin.ext_iff
  simp only [State.tripMode, hsw]
  split <;> simp [packed_eq, flag_eq_bitOf, Nat.add_assoc]

theorem Queue.headWords_length (q : List Notice) : (Queue.headWords q).length = 5 := by
  match q with
  | [] => rfl
  | ⟨body, stamp⟩ :: _ => cases body <;> rfl

theorem State.headWord_eq {n : Nat} (hn : n < 5) : s.headWord n = BitVec.ofNat 16 ((Queue.headWords s.queue).getD n 0) := by
  unfold State.headWord
  cases s.queue with
  | nil =>
    match n, hn with
    | 0, _ | 1, _ | 2, _ | 3, _ | 4, _ => rfl
  | cons x _ =>
    obtain ⟨body, stamp⟩ := x
    match n, hn with
    | 0, _ => cases body <;> simp [NoticeBody.place, NoticeBody.kindCode, packed_eq, Queue.headWords]
    | 1, _ => cases body <;> rfl
    | 2, _ =>
      cases body <;> simp [NoticeBody.detail, packed_eq, Queue.headWords, flag_eq_bitOf, beq_eq_decide, EntryCause.code_eq,
        FaultCause.code_eq, FaultAction.code_eq, SwapBoundary.code_eq, SwapOccasion.code_eq]
    | 3, _ => cases body <;> simp [NoticeBody.value, Queue.headWords]
    | 4, _ => cases body <;> exact word_eq_ofNat stamp

end

/-! ## Runs of words in the window -/

/-- The words from this address on read as these numbers, one after another. -/
def Window.Shows (s : State) : Nat → List Nat → Prop
  | _, [] => True
  | first, w :: ws => Window.read s (BitVec.ofNat 8 first) = BitVec.ofNat 16 w ∧ Window.Shows s (first + 1) ws

section
variable {s : State}

theorem Window.shows_iff {first : Nat} {ws : List Nat} :
    Window.Shows s first ws ↔
      ∀ n, n < ws.length → Window.read s (BitVec.ofNat 8 (first + n)) = BitVec.ofNat 16 (ws.getD n 0) := by
  induction ws generalizing first with
  | nil => exact iff_of_true trivial nofun
  | cons w ws ih =>
    have hnext (n : Nat) : first + 1 + n = first + (n + 1) := by omega
    simp only [Window.Shows, ih, hnext]
    refine ⟨fun ⟨hw, h⟩ n hn => ?_, fun h => ⟨h 0 (Nat.succ_pos _), fun n hn => h (n + 1) (Nat.succ_lt_succ hn)⟩⟩
    cases n with
    | zero => exact hw
    | succ n => exact h n (Nat.lt_of_succ_lt_succ hn)

/-- One number for each of several things in order. -/
theorem Window.shows_map_finRange {first n : Nat} {f : Fin n → Nat}
    (h : ∀ i : Fin n, Window.read s (BitVec.ofNat 8 (first + i.val)) = BitVec.ofNat 16 (f i)) :
    Window.Shows s first ((List.finRange n).map f) := by
  refine Window.shows_iff.mpr fun i hi => ?_
  rw [List.length_map, List.length_finRange] at hi
  rw [h ⟨i, hi⟩, List.getD_eq_getElem _ _ (by simpa using hi)]
  simp

/-- A run of registers that hold words. -/
theorem Window.shows_map_toNat {first : Nat} {ws : List Word}
    (h : ∀ n (hn : n < ws.length), Window.read s (BitVec.ofNat 8 (first + n)) = ws[n]) :
    Window.Shows s first (ws.map BitVec.toNat) := by
  refine Window.shows_iff.mpr fun n hn => ?_
  rw [List.length_map] at hn
  rw [h n hn, List.getD_eq_getElem _ _ (by simpa using hn), List.getElem_map]
  exact word_eq_ofNat _

theorem Window.Shows.append {first : Nat} {ws vs : List Nat} (hw : Window.Shows s first ws)
    (hv : Window.Shows s (first + ws.length) vs) : Window.Shows s first (ws ++ vs) := by
  induction ws generalizing first with
  | nil => exact hv
  | cons w ws ih =>
    refine ⟨hw.1, ih hw.2 ?_⟩
    rwa [List.length_cons, Nat.add_comm ws.length, ← Nat.add_assoc] at hv

/-! ## The groups of the register map -/

variable (s)

theorem shows_lanes : Window.Shows s 0x40 (allLanes.flatMap fun k => (s.lane k).statusWords) := by
  have hA (k : LaneId) : Window.read s (BitVec.ofNat 8 (0x40 + 2 * k.val)) = (s.lane k).statusA := by
    match k with
    | 0 | 1 | 2 | 3 | 4 | 5 | 6 | 7 => rfl
  have hB (k : LaneId) : Window.read s (BitVec.ofNat 8 (0x41 + 2 * k.val)) = (s.lane k).statusB := by
    match k with
    | 0 | 1 | 2 | 3 | 4 | 5 | 6 | 7 => rfl
  have hlane (k : LaneId) : Window.Shows s (0x40 + 2 * k.val) (s.lane k).statusWords :=
    ⟨(hA k).trans (s.lane k).statusA_eq, by rw [Nat.add_right_comm]; exact (hB k).trans (s.lane k).statusB_eq, trivial⟩
  exact (hlane 0).append <| (hlane 1).append <| (hlane 2).append <| (hlane 3).append <| (hlane 4).append <|
    (hlane 5).append <| (hlane 6).append <| (hlane 7).append trivial

theorem shows_offsets : Window.Shows s 0x50 (allLanes.map fun k => (s.lane k).active) :=
  Window.shows_map_finRange fun k => by
    match k with
    | 0 | 1 | 2 | 3 | 4 | 5 | 6 | 7 => rfl

theorem shows_cycles : Window.Shows s 0x58 (allLanes.map fun k => (s.lane k).cycles) :=
  Window.shows_map_finRange fun k => by
    match k with
    | 0 | 1 | 2 | 3 | 4 | 5 | 6 | 7 => rfl

theorem shows_inspection : Window.Shows s 0x60 (s.laneSel.toNat :: (s.lane s.laneSel.toFin).inspection) := by
  refine ⟨setWidth_eq_ofNat s.laneSel, Window.shows_iff.mpr fun n hn => ?_⟩
  rw [Lane.inspection_length] at hn
  have hread : Window.read s (BitVec.ofNat 8 (0x61 + n)) = s.selected.inspect n := by
    interval_cases n <;> rfl
  exact hread.trans (Lane.inspect_eq _ n hn)

theorem shows_system :
    Window.Shows s 0x00 [0x0840,
      bitOf s.driveEnable + 2 * bitOf s.timebase.running + 4 * bitOf s.irqEnable,
      bitOf (s.job.kind == .clear && s.job.state == .running) + 2 * bitOf (s.job.state == .running) +
        4 * bitOf (s.queue != []),
      [Result.taken, .state, .range, .tripped, .busy, .pending, .owned, .active, .empty].idxOf s.cmdResult,
      s.cmdRefused.toNat, s.timebase.div.toNat, s.timebase.pre.toNat, s.timebase.counter.toNat] :=
  ⟨rfl, s.controlWord_eq, s.statusWord_eq, congrArg (BitVec.ofNat 16) s.cmdResult.code_eq,
    setWidth_eq_ofNat s.cmdRefused, word_eq_ofNat _, setWidth_eq_ofNat s.timebase.pre, word_eq_ofNat _, trivial⟩

theorem shows_buffer : Window.Shows s 0x10 (s.buffer.words.map BitVec.toNat) :=
  Window.shows_map_toNat fun n hn => by
    replace hn : n < 10 := hn
    interval_cases n <;> rfl

theorem shows_staging :
    Window.Shows s 0x20
      ([s.staging.base, s.staging.length, s.staging.preset, s.staging.cycles, s.staging.mode].map BitVec.toNat) :=
  Window.shows_map_toNat fun n hn => by
    replace hn : n < 5 := hn
    interval_cases n <;> rfl

theorem shows_safeLevels :
    Window.Shows s 0x80 [(s.safeLevels.extractLsb' 0 16).toNat, (s.safeLevels.extractLsb' 16 16).toNat] :=
  ⟨word_eq_ofNat _, word_eq_ofNat _, trivial⟩

theorem shows_levels :
    Window.Shows s 0x84
      [((List.range 16).map fun i => 2 ^ i * bitOf (s.outLevel (Fin.ofNat 32 (0 + i)))).sum,
        ((List.range 16).map fun i => 2 ^ i * bitOf (s.outLevel (Fin.ofNat 32 (16 + i)))).sum] :=
  ⟨s.outField_half (by decide), s.outField_half (by decide), trivial⟩

/-- LINE_OWNj, as the sum of the codes of four owners. -/
theorem State.ownWord_eq (j : Fin 8) :
    s.ownWord j = BitVec.ofNat 16
      ((List.finRange 4).map fun m => 16 ^ m.val * ownerCode s.owners[(Fin.ofNat 32 (4 * j.val + m.val)).val]).sum := by
  rw [State.ownWord, packed_eq]
  match j with
  | 0 | 1 | 2 | 3 | 4 | 5 | 6 | 7 => rfl

theorem shows_owners :
    Window.Shows s 0x88 ((List.finRange 8).map fun j =>
      ((List.finRange 4).map fun m => 16 ^ m.val * ownerCode s.owners[(Fin.ofNat 32 (4 * j.val + m.val)).val]).sum) :=
  Window.shows_map_finRange fun j => (show Window.read s _ = s.ownWord j by
    match j with
    | 0 | 1 | 2 | 3 | 4 | 5 | 6 | 7 => rfl).trans (s.ownWord_eq j)

theorem shows_inputs :
    Window.Shows s 0x90 ((s.inputs.polarity :: s.inputs.filters.toList ++ [s.inputs.accepted]).map BitVec.toNat) := by
  have hfilters : Window.Shows s 0x91 (s.inputs.filters.toList.map BitVec.toNat) :=
    Window.shows_map_toNat fun n hn => by
      rw [Vector.length_toList] at hn
      rw [Vector.getElem_toList]
      interval_cases n <;> rfl
  have hlast : Window.Shows s (0x91 + (s.inputs.filters.toList.map BitVec.toNat).length) [s.inputs.accepted.toNat] := by
    rw [List.length_map, Vector.length_toList]
    exact ⟨word_eq_ofNat _, trivial⟩
  rw [List.map_append]
  exact ⟨word_eq_ofNat _, hfilters.append hlast⟩

/-- One Position Unit's part of POS_STATUS, at its lowest bit. -/
def PositionUnit.statusNumber (u : PositionUnit) : Nat :=
  bitOf u.error + 2 * [none, some Direction.up, some .down].idxOf u.lastDirection + 8 * bitOf u.a.accepted +
    16 * bitOf u.b.accepted

theorem shows_units :
    Window.Shows s 0xA0 [s.units[0].filter.toNat, s.units[1].filter.toNat, s.units[0].counter.toNat,
      s.units[1].counter.toNat, s.units[0].statusNumber + 256 * s.units[1].statusNumber, s.posArg.toNat] := by
  refine ⟨word_eq_ofNat _, word_eq_ofNat _, word_eq_ofNat _, word_eq_ofNat _, ?_, word_eq_ofNat _, trivial⟩
  have hsum : packed (s.units[0].status 0 ++ s.units[1].status 8) =
      BitVec.ofNat 16 (s.units[0].statusNumber + 256 * s.units[1].statusNumber) := by
    rw [packed_eq, List.map_append, List.sum_append, PositionUnit.status_sum, PositionUnit.status_sum, Nat.pow_zero,
      Nat.one_mul]
    rfl
  exact hsum

theorem shows_tripArgs : Window.Shows s 0xB0 [s.tripArg0.toNat, s.tripArg1.toNat] :=
  ⟨word_eq_ofNat _, word_eq_ofNat _, trivial⟩

theorem shows_tripStatus :
    Window.Shows s 0xB5 [s.tripRefused.toNat,
      ((List.finRange 5).map fun n => 2 ^ n.val * bitOf s.trips[n.val].latch).sum +
        ((List.finRange 5).map fun n => 2 ^ (5 + n.val) * bitOf s.trips[n.val].enable).sum +
        ((List.finRange 4).map fun n => 2 ^ (10 + n.val) * bitOf s.trips[n.val].active).sum] :=
  ⟨setWidth_eq_ofNat s.tripRefused, s.tripStatus_eq, trivial⟩

theorem shows_tripModes :
    Window.Shows s 0xB8 ((List.finRange 5).map fun n =>
      if n.val = 4 then bitOf s.trips[n.val].enable
      else bitOf s.trips[n.val].enable + 2 * bitOf s.trips[n.val].activeLow + 256 * s.trips[n.val].filter.toNat) :=
  Window.shows_map_finRange fun n => (show Window.read s _ = s.tripMode n by
    match n with
    | 0 | 1 | 2 | 3 | 4 => rfl).trans (s.tripMode_eq n)

theorem shows_tripScopes : Window.Shows s 0xC0 ((List.finRange 5).map fun n => s.trips[n.val].scope.toNat) :=
  Window.shows_map_finRange fun n => (show Window.read s _ = s.trips[n.val].scope.setWidth 16 by
    match n with
    | 0 | 1 | 2 | 3 | 4 => rfl).trans (setWidth_eq_ofNat _)

theorem shows_jobArgs : Window.Shows s 0xD0 [s.jobArgSrc.toNat, s.jobArgDst.toNat, s.jobArgCount.toNat] :=
  ⟨word_eq_ofNat _, word_eq_ofNat _, word_eq_ofNat _, trivial⟩

theorem shows_job :
    Window.Shows s 0xD8 [[JobKind.clear, .copy, .check].idxOf s.job.kind +
        16 * [JobState.idle, .running, .done, .aborted].idxOf s.job.state,
      s.job.source, s.job.destination, s.job.count, s.job.progress, s.job.crc.toNat] := by
  refine ⟨?_, rfl, rfl, rfl, rfl, word_eq_ofNat _, trivial⟩
  rw [← JobKind.code_eq, ← JobState.code_eq]
  have hstate : packed [(0, s.job.kind.code), (4, s.job.state.code)] =
      BitVec.ofNat 16 (s.job.kind.code + 16 * s.job.state.code) := by simp [packed_eq]
  exact hstate

theorem shows_notices : Window.Shows s 0xE0 (Queue.headWords s.queue ++ [s.queue.length]) := by
  refine Window.Shows.append (Window.shows_iff.mpr fun n hn => ?_) ?_
  · rw [Queue.headWords_length] at hn
    have haddress : (BitVec.ofNat 8 (0xE0 + n)).toNat = 0xE0 + n := by
      rw [BitVec.toNat_ofNat]
      omega
    have hread : Window.read s (BitVec.ofNat 8 (0xE0 + n)) = s.headWord n := by
      simp only [Window.read, haddress, Window.readUnits]
      rw [if_neg (by omega), if_neg (by omega), if_neg (by omega), if_neg (by omega), if_neg (by omega), if_pos (by omega),
        Nat.add_sub_cancel_left]
    exact hread.trans (s.headWord_eq hn)
  · rw [Queue.headWords_length]
    exact ⟨rfl, trivial⟩

/-- Every group of the register map reads as its words. -/
theorem registerMap_shows : ∀ g ∈ s.registerMap, Window.Shows s g.1 g.2 := by
  simp only [State.registerMap, List.forall_mem_cons, List.not_mem_nil, false_imp_iff, implies_true, and_true]
  exact ⟨shows_system s, shows_buffer s, shows_staging s, shows_lanes s, shows_offsets s, shows_cycles s, shows_inspection s,
    shows_safeLevels s, shows_levels s, shows_owners s, shows_inputs s, shows_units s, shows_tripArgs s, shows_tripStatus s,
    shows_tripModes s, shows_tripScopes s, shows_jobArgs s, shows_job s, shows_notices s⟩

/-! ## Addresses that name no register with a value -/

/-- The groups of the register map: the address of the first word, and how many words there are (R179). -/
def registerSpans : List (Nat × Nat) :=
  [(0x00, 8), (0x10, 10), (0x20, 5), (0x40, 16), (0x50, 8), (0x58, 8), (0x60, 22), (0x80, 2), (0x84, 2), (0x88, 8), (0x90, 10),
    (0xA0, 6), (0xB0, 2), (0xB5, 2), (0xB8, 5), (0xC0, 5), (0xD0, 3), (0xD8, 6), (0xE0, 6)]

/-- The address stands in no group of the register map: it names a command register or none. -/
abbrev noRegister (a : Nat) : Prop := ∀ x ∈ registerSpans, a < x.1 ∨ x.1 + x.2 ≤ a

theorem registerMap_spans : (s.registerMap.map fun g => (g.1, g.2.length)) = registerSpans := by
  simp [State.registerMap, registerSpans, Lane.inspection_length, Queue.headWords_length, Record.words, Lane.statusWords,
    allLanes]

theorem noRegister_of_find?_eq_none {a : Nat}
    (h : (s.registerMap.find? fun g => g.1 ≤ a && a < g.1 + g.2.length) = none) : noRegister a := by
  rw [noRegister, ← registerMap_spans s, List.forall_mem_map]
  intro g hg
  have hout : ¬ (g.1 ≤ a ∧ a < g.1 + g.2.length) := by simpa using List.find?_eq_none.mp h g hg
  dsimp only
  omega

theorem Window.readCore_of_noRegister {a : Nat} (h : noRegister a) : Window.readCore s a = 0 := by
  have hbuffer := h (0x10, 10) (by decide)
  have hstaging := h (0x20, 5) (by decide)
  unfold Window.readCore
  rw [if_neg (by omega), if_neg (by omega)]
  split
  case h_9 => rfl
  all_goals exact absurd h (by decide)

theorem Window.readLanes_of_noRegister {a : Nat} (h : noRegister a) (ha : 0x40 ≤ a) : Window.readLanes s a = 0 := by
  have hstatus := h (0x40, 16) (by decide)
  have hoffsets := h (0x50, 8) (by decide)
  have hcycles := h (0x58, 8) (by decide)
  have hinspection := h (0x60, 22) (by decide)
  unfold Window.readLanes
  rw [if_neg (by omega), if_neg (by omega), if_neg (by omega), if_neg (by omega)]
  exact Lane.inspect_of_lt _ (by omega)

theorem Window.readPins_of_noRegister {a : Nat} (h : noRegister a) : Window.readPins s a = 0 := by
  have howners := h (0x88, 8) (by decide)
  have hfilters := h (0x90, 10) (by decide)
  unfold Window.readPins
  rw [if_neg (by omega), if_neg (by omega)]
  split
  case h_13 => rfl
  all_goals exact absurd h (by decide)

theorem Window.readUnits_of_noRegister {a : Nat} (h : noRegister a) : Window.readUnits s a = 0 := by
  have hmodes := h (0xB8, 5) (by decide)
  have hscopes := h (0xC0, 5) (by decide)
  have hhead := h (0xE0, 6) (by decide)
  unfold Window.readUnits
  rw [if_neg (by omega), if_neg (by omega), if_neg (by omega)]
  split
  case h_15 => rfl
  all_goals exact absurd h (by decide)

theorem Window.read_of_noRegister {a : BitVec 8} (h : noRegister a.toNat) : Window.read s a = 0 := by
  simp only [Window.read]
  split
  · exact Window.readCore_of_noRegister s h
  · split
    · exact Window.readLanes_of_noRegister s h (by omega)
    · split
      · exact Window.readPins_of_noRegister s h
      · exact Window.readUnits_of_noRegister s h

/-- The word at every address is that of the register map. -/
theorem Window.read_eq_registerAt (a : BitVec 8) : Window.read s a = s.registerAt a.toNat := by
  unfold State.registerAt
  split
  · rename_i g hfind
    have hin : g.1 ≤ a.toNat ∧ a.toNat < g.1 + g.2.length := by simpa using List.find?_some hfind
    have hread := Window.shows_iff.mp (registerMap_shows s g (List.mem_of_find?_eq_some hfind)) (a.toNat - g.1) (by omega)
    rwa [Nat.add_sub_cancel' hin.1, BitVec.ofNat_toNat, BitVec.setWidth_eq] at hread
  · rename_i hfind
    exact Window.read_of_noRegister s (noRegister_of_find?_eq_none s hfind)

end

/-- Settles O51: the cycles are those of `busCycle`, and the word at each address is `Window.read_eq_registerAt`. -/
theorem busCyclesReadOrWriteOneWord : Obligations.BusCyclesReadOrWriteOneWord := by
  intro a v held s
  refine ⟨fun rd wr => ⟨rfl, rfl⟩, fun b => ?_, rfl, fun h => if_pos h, fun h => ?_, fun h w => ?_, rfl, rfl,
    Window.read_eq_registerAt s a⟩
  · cases b <;> exact ⟨rfl, rfl⟩
  · exact if_neg (by simp [h])
  · exact if_neg (by simp [h])

end Sys2Proof.Machine

/-! CMD_RESULT keeps the outcome of the last command that reports in it (R180). -/

namespace Sys2Proof.Machine

section
variable {s t : State}

/-! ## What the events of the part and the lane commands leave unchanged -/

theorem sansChain_entryFetch (k : LaneId) (s : State) : (entryFetch k s).sansChain = s.sansChain := by
  unfold entryFetch
  split
  · rfl
  · exact SameBlocks.outside ((sansWalk_handOut _).trans (sansWalk_serveFetch s k))

theorem sansChain_deliver (k : LaneId) (e : Event) (s : State) : (deliver k e s).sansChain = s.sansChain :=
  SameBlocks.outside (sansWalk_deliver s k e)

theorem sansChain_takeTickWhen (named : Lane → Bool) (k : LaneId) (s : State) :
    (takeTickWhen named k s).sansChain = s.sansChain := by
  simp only [takeTickWhen]
  split
  · exact sansChain_deliver k .tick s
  · rfl

theorem sansChain_presentedLevelChange (pin : FilteredPin) (level : Bool) (s : State) :
    (presentedLevelChange pin level s).sansChain = s.sansChain := by
  have htake := sansChain_takeLevel s pin level
  unfold presentedLevelChange
  split
  · exact htake
  · split
    · rfl
    · exact htake

theorem sansCommand_judgeLane {judge : LaneId → State → Judgement} (hj : LaneJudge judge) (k : LaneId) (s : State) :
    (judgeLane judge k s).sansCommand = s.sansCommand := by
  have hcomplete := sansCommand_completeLane s k
  simp only [judgeLane]
  generalize completeLane k s = v at hcomplete
  split
  · rename_i u hu
    exact (sansCommand_of_sansWalk (hj.good.only hu).blocks).trans hcomplete
  · exact hcomplete

/-- A lane command changes CMD_REFUSED and what can change beside a host write, and nothing else (R29, R180). -/
theorem sansCommand_laneCommand {judge : LaneId → State → Judgement} (hj : LaneJudge judge) (mask : LaneMask) (s : State) :
    (laneCommand judge mask s).sansCommand = s.sansCommand := by
  refine hostAccess_keeps (P := fun t => t.sansCommand = s.sansCommand) (fun _ => ?_) rfl
  rw [sansCommand_of_sansChain (sansChain_followUp _)]
  exact commandLanes_induct (P := fun t => t.sansCommand = s.sansCommand) (fun _ _ h => h)
    (fun t but h => (sansCommand_interlude t but).trans h) (fun t k h => (sansCommand_judgeLane hj k t).trans h)
    (fun t k h => (sansCommand_serveFetchApart t k).trans h) (fun _ _ h => h) mask (sansCommand_cmdRefused s 0)

/-! ## CMD_RESULT -/

theorem cmdResult_of_sansCommand (h : t.sansCommand = s.sansCommand) : t.cmdResult = s.cmdResult :=
  show t.sansCommand.cmdResult = s.sansCommand.cmdResult by rw [h]

theorem laneCommand_cmdResult {judge : LaneId → State → Judgement} (hj : LaneJudge judge) (mask : LaneMask) (s : State) :
    (laneCommand judge mask s).cmdResult = s.cmdResult :=
  by
  have h := congrArg State.cmdResult (sansCommand_laneCommand hj mask s)
  exact h

/-- A host access whose act leaves CMD_RESULT as it is. -/
theorem hostAccess_cmdResult {act : State → State} (h : (act s).cmdResult = s.cmdResult) :
    (hostAccess act s).cmdResult = s.cmdResult :=
  hostAccess_keeps (P := fun t => t.cmdResult = s.cmdResult) (fun _ => h) rfl

theorem controlWrite_cmdResult (drive run irq : Bool) (s : State) : (controlWrite drive run irq s).cmdResult = s.cmdResult := by
  rw [controlWrite, State.setDrive_eq]

theorem tbDivPreWrite_cmdResult (setting : TimebaseSetting) (v : Word) (s : State) :
    (tbDivPreWrite setting v s).cmdResult = s.cmdResult := by
  cases setting <;> exact hostAccess_cmdResult rfl

theorem access_cmdResult (kind : JobKind) (s : State) :
    (if s.jobRuns kind then serveAccess s else s).cmdResult = s.cmdResult := by
  split
  · exact SameOutside.cmdResult (sansChain_serveAccess s)
  · rfl

theorem taking_cmdResult (k : LaneId) (e : Event) (s : State) :
    (if s.resetLow then s else deliver k e s).cmdResult = s.cmdResult := by
  split
  · rfl
  · exact SameOutside.cmdResult (sansChain_deliver k e s)

/-- The blocks of a soft reset leave CMD_RESULT at TAKEN, and what else happens does not change it (R183). -/
theorem softReset_cmdResult (hs : s.resetLow = false) : (softReset s).cmdResult = .taken := by
  have hdiscard (u : State) : (discarding u).cmdResult = u.cmdResult := by
    rw [discarding, State.withNotices_cmdResult, takeIdly, State.onLanes_cmdResult]
    exact SameOutside.cmdResult (sansChain_interlude u 0)
  obtain ⟨order, p, -, hact⟩ := relatch_resetBlocks (abandonJob (interlude 0 s))
  rw [softReset, if_neg (by simp [hs]), hdiscard, hact]
  rfl

/-- The commands that leave their outcome in CMD_RESULT (R180). -/
def ReportsResult (c : Instr) : Prop :=
  ∃ v, c = .recordRead v ∨ c = .recordWrite v ∨ c = .lineAssign v ∨ c = .lineFree v ∨ c = .posLoad v ∨
    c = .posClear v ∨ c = .triggerEmit v ∨ c = .tripConfig v ∨ c = .tripAssert v ∨ c = .tripClear v ∨
    c = .jobCopy v ∨ c = .jobCheck v ∨ c = .jobAbort v ∨ c = .noticePop v

/-- A well-formed command that neither reports in CMD_RESULT nor resets the part leaves it as it is. -/
theorem exec_cmdResult {c : Instr} (hc : c.wellFormed = true) (hreports : ¬ ReportsResult c) (hsoft : c ≠ .softReset)
    (hrelease : c ≠ .resetRelease) (ht : exec c s = .next t) : t.cmdResult = s.cmdResult := by
  cases c <;> cases ht
  case softReset => exact absurd rfl hsoft
  case resetRelease => exact absurd rfl hrelease
  case recordRead v | recordWrite v | lineAssign v | lineFree v | posLoad v | posClear v | triggerEmit v | tripConfig v |
      tripAssert v | tripClear v | jobCopy v | jobCheck v | jobAbort v | noticePop v =>
    exact absurd ⟨v, by simp⟩ hreports
  case plainRegisterWrite a v =>
    have hrow : a.toNat ∉ rowAddresses := by simpa [Instr.wellFormed] using hc
    change (busWrite a.toNat v s).cmdResult = s.cmdResult
    rw [busWrite_of_no_row hrow]
    exact hostAccess_cmdResult (by rw [plainWrite_frame])
  case laneStart v => exact laneCommand_cmdResult .start _ s
  case laneStop v => exact laneCommand_cmdResult .stop _ s
  case laneHold v => exact laneCommand_cmdResult .hold _ s
  case laneRelease v => exact laneCommand_cmdResult .release _ s
  case laneReset v => exact laneCommand_cmdResult .reset _ s
  case laneResume v => exact laneCommand_cmdResult .resume _ s
  case laneStep v => exact laneCommand_cmdResult .step _ s
  case laneJump v => exact laneCommand_cmdResult (.jump _) _ s
  case laneLoad v => exact laneCommand_cmdResult .load _ s
  case laneSwap v => exact laneCommand_cmdResult .swap _ s
  case laneCancelSwap v => exact laneCommand_cmdResult .cancelSwap _ s
  case driveEn | tbRun | noticeIrqEn => exact hostAccess_cmdResult (controlWrite_cmdResult _ _ _ s)
  case safeLevelWrite | inputSettingWrite | posFiltWrite | tbCountWrite => exact hostAccess_cmdResult rfl
  case tbDivPreWrite setting v => exact tbDivPreWrite_cmdResult setting v s
  case resetAssert => rfl
  case clearWrite => exact access_cmdResult .clear s
  case copyMove => exact access_cmdResult .copy s
  case checkRead => exact access_cmdResult .check s
  case entryFetch k => exact SameOutside.cmdResult (sansChain_entryFetch k s)
  case tick takers => exact SameOutside.cmdResult (sansChain_tick s takers)
  case dwellExpiry | limitExpiry | pulseEnd => exact SameOutside.cmdResult (sansChain_takeTickWhen _ _ s)
  case inputAcceptedChange n => exact SameOutside.cmdResult (sansChain_acceptedChange s (.input n))
  case quadratureChange u ch => exact SameOutside.cmdResult (sansChain_acceptedChange s (.quadrature u ch))
  case tripAcceptedChange n => exact SameOutside.cmdResult (sansChain_acceptedChange s (.trip n))
  case edgeEvent | arrival | emission | tripForcing => exact taking_cmdResult _ _ s
  case presentedLevelChange pin level => exact SameOutside.cmdResult (sansChain_presentedLevelChange pin level s)

/-- Where a soft reset changes CMD_RESULT it leaves it at TAKEN. -/
theorem softReset_cmdResult_of_changed (h : (softReset s).cmdResult ≠ s.cmdResult) : (softReset s).cmdResult = .taken := by
  cases hs : s.resetLow with
  | true => exact absurd (congrArg State.cmdResult (softReset_of_resetLow hs)) h
  | false => exact softReset_cmdResult hs

theorem resetRelease_cmdResult_of_changed (h : (resetRelease s).cmdResult ≠ s.cmdResult) :
    (resetRelease s).cmdResult = .taken := by
  unfold resetRelease at h ⊢
  split
  · rfl
  · rename_i hs
    rw [if_neg hs] at h
    exact absurd rfl h

end

/-- Settles O52: of the well-formed commands only those that report and the resets change CMD_RESULT (`exec_cmdResult`), and
the others are register writes. -/
theorem cmdResultKeepsTheLastOutcome : Obligations.CmdResultKeepsTheLastOutcome := by
  intro c s t ht hne
  by_cases hsoft : c = .softReset
  · subst hsoft
    cases ht
    exact .inr (.inl ⟨.inl rfl, softReset_cmdResult_of_changed hne⟩)
  by_cases hrelease : c = .resetRelease
  · subst hrelease
    cases ht
    exact .inr (.inl ⟨.inr rfl, resetRelease_cmdResult_of_changed hne⟩)
  by_cases hwf : c.wellFormed = true
  · exact .inl (of_not_not fun hreports => hne (exec_cmdResult hwf hreports hsoft hrelease ht))
  · rw [Bool.not_eq_true] at hwf
    obtain ⟨a, v, rfl, -⟩ := Instr.of_not_wellFormed hwf
    exact .inr (.inr ⟨a, v, rfl, hwf⟩)

end Sys2Proof.Machine

/-! Every command completes and leaves the queue of waiting commands alone, and with none waiting the block goes on by itself (R177,
R184; log 1, 3, 6, 17, 29). -/

namespace Sys2Proof.Machine

section
variable {s t : State}

/-! ## Steps -/

theorem step_of_no_command (h : s.pending = []) : step s = .next (idle s) := by
  unfold step
  rw [h]

/-- Settles O1: that is how a step treats a queue with a command at its front. -/
theorem stepRunsTheFrontCommand : Obligations.StepRunsTheFrontCommand := fun _ _ _ => rfl

/-! ## What leaves the queue of commands as it is -/

/-- A host access whose act leaves the queue of commands as it is. -/
theorem hostAccess_pending {act : State → State} (h : (act s).pending = s.pending) : (hostAccess act s).pending = s.pending :=
  hostAccess_keeps (P := fun t => t.pending = s.pending) (fun _ => h) rfl

theorem pending_of_sansCommand (h : t.sansCommand = s.sansCommand) : t.pending = s.pending := by
  have := congrArg State.pending h
  exact this

theorem laneCommand_pending {judge : LaneId → State → Judgement} (hj : LaneJudge judge) (mask : LaneMask) (s : State) :
    (laneCommand judge mask s).pending = s.pending := pending_of_sansCommand (sansCommand_laneCommand hj mask s)

theorem recordRequest_pending (index : Word) {transfer : State → State} (h : (transfer s).pending = s.pending) :
    (recordRequest index transfer s).pending = s.pending := by
  refine hostAccess_pending ?_
  simp only [apply_ite State.pending, State.report_pending, h, ite_self]

theorem lineAssign_pending (v : Word) (s : State) : (lineAssign v s).pending = s.pending := by
  refine hostAccess_pending ?_
  simp only [apply_ite State.pending, State.report_pending, ite_self]

theorem lineFree_pending (v : Word) (s : State) : (lineFree v s).pending = s.pending := by
  refine hostAccess_pending ?_
  simp only [apply_ite State.pending, State.report_pending, ite_self]

theorem triggerEmit_pending (v : Word) (s : State) : (triggerEmit v s).pending = s.pending :=
  hostAccess_pending ((SameOutside.pending (sansChain_followUp _)).trans rfl)

theorem jobRequest_pending (valid : State → Bool) (job : State → Job) (s : State) :
    (jobRequest valid job s).pending = s.pending := by
  refine hostAccess_pending ?_
  simp only [apply_ite State.pending, State.report_pending, ite_self]

theorem jobAbort_pending (v : Word) (s : State) : (jobAbort v s).pending = s.pending := by
  have hraise (t : State) : (raiseJob .aborted t).pending = t.pending := SameOutside.pending (sansChain_raiseJob t _)
  refine hostAccess_pending ?_
  simp only [apply_ite State.pending, State.report_pending, hraise, ite_self]

theorem popOldest_pending (s : State) : (popOldest s).pending = s.pending := by
  unfold popOldest
  split <;> rfl

theorem noticePop_pending (v : Word) (s : State) : (noticePop v s).pending = s.pending :=
  hostAccess_pending ((popOldest_pending _).trans (SameOutside.pending (sansChain_interlude s 0)))

/-- The setting of a latch, with what goes on beside it and what follows from it. -/
theorem sansChain_setLatchNow (n : SourceId) (s : State) : (setLatchNow n s).sansChain = s.sansChain := by
  have hcomplete (t : State) : (completeSettings t).sansChain = t.sansChain :=
    SameBlocks.outside ((sansWalk_arriveFrom _ _).trans (sansWalk_completeLanes t _))
  rw [setLatchNow, sansChain_followUp, hcomplete, sansChain_interlude, sansChain_setLatch]

theorem configureTrip_pending (n : SourceId) (s : State) : (configureTrip n s).pending = s.pending := by
  have hconfigured : (s.configured n).pending = s.pending := by
    unfold State.configured
    split <;> rfl
  rw [configureTrip_eq]
  split
  · exact (SameOutside.pending (sansChain_setLatchNow n _)).trans hconfigured
  · exact hconfigured

theorem tripConfig_pending (v : Word) (s : State) : (tripConfig v s).pending = s.pending := by
  refine hostAccess_pending ?_
  simp only [apply_ite State.pending, apply_dite State.pending, State.report_pending, configureTrip_pending, ite_self, dite_eq_ite]

theorem tripAssert_pending (v : Word) (s : State) : (tripAssert v s).pending = s.pending := by
  have hset (t : State) : (setLatchNow swSource t).pending = t.pending := SameOutside.pending (sansChain_setLatchNow _ t)
  refine hostAccess_pending ?_
  simp only [apply_ite State.pending, State.report_pending, hset, ite_self]

theorem controlWrite_pending (drive run irq : Bool) (s : State) : (controlWrite drive run irq s).pending = s.pending := by
  rw [controlWrite, State.setDrive_eq]

theorem tbDivPreWrite_pending (setting : TimebaseSetting) (v : Word) (s : State) :
    (tbDivPreWrite setting v s).pending = s.pending := by
  cases setting <;> exact hostAccess_pending rfl

/-! ## Resets -/

theorem abandonJob_pending (s : State) : (abandonJob s).pending = s.pending := by
  obtain ⟨u, p, -, h⟩ := abandonJob_cases s
  rw [h]

theorem relatch_resetBlocks_pending (s : State) : (relatch (resetBlocks s)).pending = s.pending := by
  obtain ⟨order, p, -, h⟩ := relatch_resetBlocks s
  rw [h]
  rfl

theorem discarding_pending (s : State) : (discarding s).pending = s.pending := by
  rw [discarding, State.withNotices_pending, takeIdly, State.onLanes_pending]
  exact SameOutside.pending (sansChain_interlude s 0)

theorem softReset_pending (s : State) : (softReset s).pending = s.pending := by
  unfold softReset
  split
  · rfl
  · rw [discarding_pending, relatch_resetBlocks_pending, abandonJob_pending, SameOutside.pending (sansChain_interlude s 0)]

theorem resetRelease_pending (s : State) : (resetRelease s).pending = s.pending := by
  unfold resetRelease
  split <;> rfl

theorem controlRegisterWrite_pending (v : Word) (s : State) : (controlRegisterWrite v s).pending = s.pending := by
  unfold controlRegisterWrite
  split
  · exact softReset_pending s
  · exact hostAccess_pending (controlWrite_pending _ _ _ s)

/-! ## Events of the part -/

theorem sansChain_access (kind : JobKind) (s : State) :
    (if s.jobRuns kind then serveAccess s else s).sansChain = s.sansChain := by
  split
  · exact sansChain_serveAccess s
  · rfl

theorem sansChain_taking (k : LaneId) (e : Event) (s : State) :
    (if s.resetLow then s else deliver k e s).sansChain = s.sansChain := by
  split
  · rfl
  · exact sansChain_deliver k e s

/-! ## Every command -/

theorem exec_pending_of_wellFormed {c : Instr} (hc : c.wellFormed = true) (ht : exec c s = .next t) : t.pending = s.pending := by
  cases c <;> cases ht
  case plainRegisterWrite a v =>
    have hrow : a.toNat ∉ rowAddresses := by simpa [Instr.wellFormed] using hc
    change (busWrite a.toNat v s).pending = s.pending
    rw [busWrite_of_no_row hrow]
    exact hostAccess_pending (by rw [plainWrite_frame])
  case recordRead v | recordWrite v => exact recordRequest_pending v rfl
  case laneStart v => exact laneCommand_pending .start _ s
  case laneStop v => exact laneCommand_pending .stop _ s
  case laneHold v => exact laneCommand_pending .hold _ s
  case laneRelease v => exact laneCommand_pending .release _ s
  case laneReset v => exact laneCommand_pending .reset _ s
  case laneResume v => exact laneCommand_pending .resume _ s
  case laneStep v => exact laneCommand_pending .step _ s
  case laneJump v => exact laneCommand_pending (.jump _) _ s
  case laneLoad v => exact laneCommand_pending .load _ s
  case laneSwap v => exact laneCommand_pending .swap _ s
  case laneCancelSwap v => exact laneCommand_pending .cancelSwap _ s
  case lineAssign v => exact lineAssign_pending v s
  case lineFree v => exact lineFree_pending v s
  case triggerEmit v => exact triggerEmit_pending v s
  case tripConfig v => exact tripConfig_pending v s
  case tripAssert v => exact tripAssert_pending v s
  case jobCopy | jobCheck => exact jobRequest_pending _ _ s
  case jobAbort v => exact jobAbort_pending v s
  case noticePop v => exact noticePop_pending v s
  case driveEn | tbRun | noticeIrqEn => exact hostAccess_pending (controlWrite_pending _ _ _ s)
  case tbDivPreWrite setting v => exact tbDivPreWrite_pending setting v s
  case posLoad | posClear | tripClear | safeLevelWrite | inputSettingWrite | posFiltWrite | tbCountWrite =>
    exact hostAccess_pending rfl
  case softReset => exact softReset_pending s
  case resetAssert => rfl
  case resetRelease => exact resetRelease_pending s
  case clearWrite | copyMove | checkRead => exact SameOutside.pending (sansChain_access _ s)
  case entryFetch k => exact SameOutside.pending (sansChain_entryFetch k s)
  case tick takers => exact SameOutside.pending (sansChain_tick s takers)
  case dwellExpiry | limitExpiry | pulseEnd => exact SameOutside.pending (sansChain_takeTickWhen _ _ s)
  case inputAcceptedChange n => exact SameOutside.pending (sansChain_acceptedChange s (.input n))
  case quadratureChange u c => exact SameOutside.pending (sansChain_acceptedChange s (.quadrature u c))
  case tripAcceptedChange n => exact SameOutside.pending (sansChain_acceptedChange s (.trip n))
  case edgeEvent | arrival | emission | tripForcing => exact SameOutside.pending (sansChain_taking _ _ s)
  case presentedLevelChange pin level => exact SameOutside.pending (sansChain_presentedLevelChange pin level s)

/-- A register write is its row, or a write of CONTROL (R179). -/
theorem exec_pending {c : Instr} (ht : exec c s = .next t) : t.pending = s.pending := by
  cases hc : c.wellFormed with
  | true => exact exec_pending_of_wellFormed hc ht
  | false =>
    obtain ⟨a, v, rfl, ha⟩ := Instr.of_not_wellFormed hc
    by_cases h1 : a = 0x01#8
    · subst h1
      cases ht
      exact controlRegisterWrite_pending v s
    · obtain ⟨x, hx, rfl⟩ := exists_row ha h1 v
      exact exec_pending_of_wellFormed (wellFormed_of_row hx) ((exec_of_row hx s).symm.trans ht)

/-- No row refuses or stops the part (log 6). -/
theorem exec_completes (c : Instr) (s : State) : ∃ t, exec c s = .next t := by
  cases c <;> exact ⟨_, rfl⟩

/-- Settles O2: every row has its next state (`exec_completes`), and keeps the queue of commands (`exec_pending`). -/
theorem everyCommandCompletes : Obligations.EveryCommandCompletes := by
  intro c s
  obtain ⟨t, ht⟩ := exec_completes c s
  exact ⟨t, ht, exec_pending ht⟩

/-! ## What is on its way is taken -/

/-- A chain with neither a line nor a lane takes no part in what the lanes do. -/
theorem Chain.after_of_empty (t : State) (w : Work) : (⟨0, 0⟩ : Chain).after t w = ⟨0, 0⟩ := by
  cases w with
  | fetch k => simp [Chain.after]
  | deliver k e => cases e <;> simp [Chain.after, Chain.holds]
  | notice x => rfl

/-- Settling outside a host write ends with nothing left to take, when it may do as many pieces of work as there can be: each of
them leaves less to be done (`doWork_effort`). -/
theorem settle_allTaken (n : Nat) : ∀ s : State, s.effort ≤ n → (settle false n ⟨0, 0⟩ s).AllTaken := by
  induction n with
  | zero =>
    intro s hn
    rw [settle]
    refine .of_work_nil (List.eq_nil_iff_forall_not_mem.mpr fun w hw => ?_)
    have := doWork_effort hw
    omega
  | succ n ih =>
    intro s hn
    rw [settle, if_neg (by simp)]
    split
    · rename_i hwork
      exact .of_work_nil hwork
    · rename_i w ws hw
      obtain ⟨-, -, hworks, heffort⟩ := choose_happenings w ws s 0
      have hmem := (choose_spec w ws s).1
      rw [← hw, ← hworks] at hmem
      generalize choose w ws s = y at hmem heffort
      have hless := doWork_effort hmem
      have hhanded := handOut_effort (doWork y.2 y.1)
      dsimp only
      rw [Chain.after_of_empty]
      exact ih _ (by omega)

theorem drain_allTaken (ho : s.outbox = []) : (drain s).AllTaken := settle_allTaken _ s (effort_le_workBound ho)

/-! ## What can come next -/

/-- A core clock period goes by only where no event of the core clock is due (log 1). -/
theorem State.period_mem_due : Due.period ∈ s.due ↔ s.nothingBefore 1 = true := by
  simp [State.due, State.dueFetches, State.dueAccess, State.dueChanges, State.dueTick, State.duePeriod]

/-- The accepted change of a filtered pin, as a thing that can come next. -/
def Due.change : FilteredPin → Due
  | .input n => .input n
  | .quadrature u c => .quadrature u c
  | .trip n => .trip n

theorem State.change_mem_due {pin : FilteredPin} (h : s.pinLacking pin = some 0) : Due.change pin ∈ s.due := by
  have hchange : Due.change pin ∈ s.dueChanges := by
    cases pin with
    | input n => simpa [Due.change, State.dueChanges, State.pinLacking] using h
    | quadrature u c => cases c <;> simpa [Due.change, State.dueChanges, State.pinLacking] using h
    | trip n => simpa [Due.change, State.dueChanges, State.pinLacking] using h
  simp [State.due, hchange]

theorem State.tick_mem_due (h : s.timebase.lacking = some 0) : Due.tick ∈ s.due := by
  simp [State.due, State.dueTick, h]

/-- An event of the core clock is due, or a core clock period can go by. -/
theorem State.due_ne_nil (s : State) : s.due ≠ [] := by
  cases hb : s.nothingBefore 1 with
  | true => exact List.ne_nil_of_mem (State.period_mem_due.mpr hb)
  | false =>
    obtain ⟨d, hd, hlt⟩ : ∃ d ∈ s.lackings, d < 1 := by simpa [State.nothingBefore] using hb
    obtain rfl : d = 0 := by omega
    rcases State.mem_lackings.mp hd with ⟨pin, hpin⟩ | htick
    · exact List.ne_nil_of_mem (State.change_mem_due hpin)
    · exact List.ne_nil_of_mem (State.tick_mem_due htick)

theorem sansChain_doDue (s : State) (d : Due) : (doDue s d).sansChain = s.sansChain := by
  cases d with
  | fetch k => exact sansChain_entryFetch k s
  | access kind => cases kind <;> exact sansChain_access _ s
  | input n => exact sansChain_acceptedChange s (.input n)
  | quadrature u c => exact sansChain_acceptedChange s (.quadrature u c)
  | trip n => exact sansChain_acceptedChange s (.trip n)
  | tick => exact sansChain_tick s 0
  | period => exact sansChain_elapse s 1

/-! ## The block on its own -/

theorem idle_of_resetLow (h : s.resetLow = true) : idle s = s := if_pos h

theorem idle_of_not_allTaken (h : s.resetLow = false) (ht : ¬ s.AllTaken) : idle s = drain s := by
  rw [idle, if_neg (by simp [h]), if_pos fun hwork => ht (.of_work_nil hwork)]

/-- With nothing left to take, one of the things that can come next is chosen. -/
theorem idle_of_due {d : Due} {ds : List Due} (h : s.resetLow = false) (ht : s.AllTaken) (hd : s.due = d :: ds) :
    idle s = doDue (choose d ds s).2 (choose d ds s).1 := by
  rw [idle, if_neg (by simp [h]), if_neg (not_not.mpr ht.work_nil), hd]

theorem sansChain_idle (s : State) : (idle s).sansChain = s.sansChain := by
  cases hs : s.resetLow with
  | true => rw [idle_of_resetLow hs]
  | false =>
    by_cases ht : s.AllTaken
    · obtain ⟨d, ds, hd⟩ := List.exists_cons_of_ne_nil s.due_ne_nil
      rw [idle_of_due hs ht hd, sansChain_doDue]
      exact SameBlocks.outside (sansWalk_choose s d ds)
    · rw [idle_of_not_allTaken hs ht]
      exact SameBlocks.outside (sansWalk_drain s)

/-- Settles O3: what is on its way is taken in full (`drain_allTaken`), and else one of what can come next is done
(`idle_of_due`), of which there always is one (`State.due_ne_nil`). -/
theorem idleBlockGoesOnByItself : Obligations.IdleBlockGoesOnByItself := by
  intro s hp ho
  have hsingle (hs : s.resetLow = false) (ht : s.AllTaken) (d : Due) (hd : s.due = [d]) : idle s = doDue s d :=
    idle_of_due hs ht hd
  rw [step_of_no_command hp]
  refine ⟨⟨_, rfl, (SameOutside.pending (sansChain_idle s)).trans hp⟩, fun hs => by rw [idle_of_resetLow hs],
    fun hs ht => ⟨by rw [idle_of_not_allTaken hs ht], drain_allTaken ho⟩,
    ⟨s.due_ne_nil, State.period_mem_due, rfl⟩, fun hs ht hd => by rw [hsingle hs ht _ hd]; rfl,
    fun hs ht d hd => by rw [hsingle hs ht d hd], fun hs ht hlen => ?_⟩
  match hd : s.due, hlen with
  | d :: d' :: ds, _ =>
    have hpicked : (choose d (d' :: ds) s).2 = s.pickDone := rfl
    refine ⟨(choose d (d' :: ds) s).1, (choose_spec d (d' :: ds) s).1, ?_⟩
    rw [idle_of_due hs ht hd, hpicked]

end
end Sys2Proof.Machine
